-- ==== Sys2Proof/Word.lean ====
section
/-! DEFINITION. The byte of the ring and the section number. Quantities the manual gives a numeric range
(amperes, counts, milliseconds, truck ids) are `Nat` or `Int`; only what stands on the wire is a bit vector. -/

namespace Sys2Proof

/-- One byte of a frame (R158). -/
abbrev Byte := BitVec 8

/-- A section number, 0 to 7 (00_scope.md, Units and numeric conventions). -/
abbrev Sec := Fin 8

end Sys2Proof
end

