-- ==== Sys2Proof/Syntax.lean ====
section
/-! DEFINITION. The commands of the part: one constructor of `Instr` for each row of spec/opcode_table.json, with
the data each row brings. -/

namespace Sys2Proof

/-- The eight section states (R82). -/
inductive SecState where
  | off | testing | closing | live | draining | tripped | lockout | maint
  deriving DecidableEq, Repr

/-- The reasons of a trip record (R75). -/
inductive TripReason where
  | instantaneous | testOvercurrent | rise | sustained | thermal | sensorLost | lineTest
  deriving DecidableEq, Repr

/-- The causes of sensor loss (R23). -/
inductive LossCause where
  | badRun | watchdog
  deriving DecidableEq, Repr

/-- What a trip request carries beside its section: the reason, the record data, and for SENSOR_LOST the cause
(R72, R73). -/
structure TripRequest where
  reason : TripReason
  cause : Option LossCause
  seq : Option Nat
  iCorr : Option Int
  vAvg : Option Nat
  heat : Nat
  deriving DecidableEq, Repr

/-- The sequencer's answer to a trip request (R73, R96). -/
inductive TripAnswer where
  | acted (entered : SecState)
  | ignored
  deriving DecidableEq, Repr

/-- The faults for which a frame in reception is abandoned (R157, R158). -/
inductive AbandonCause where
  /-- The span of the first seven sync bits, in eighths of a nominal bit time. -/
  | sync (spanEighths : Nat)
  /-- A stop bit was found low. -/
  | framing
  /-- The header gave this length. -/
  | length (len : Nat)
  /-- A break arrived before the last CRC byte was complete. -/
  | breakArrived
  /-- No start bit came within 13 nominal bit times. -/
  | silence
  deriving DecidableEq, Repr

/-- The input levels a power-on reset samples (R156, R83). -/
structure Pins where
  addr : Byte
  supaddr : Byte
  rate : Fin 4
  /-- ESTOP_N high: the loop is closed. -/
  estopHigh : Bool
  deriving DecidableEq, Repr

/-- A management request as the dispatcher hands it over: tag, addressed or broadcast, payload (R170). Its kind
is the command's constructor. -/
structure Req where
  tag : Byte
  broadcast : Bool
  payload : List Byte
  deriving DecidableEq, Repr

/-- The part's commands, in the order of spec/opcode_table.json. -/
inductive Instr where
  | powerOnReset (pins : Pins)
  | frameReceived (bytes : List Byte)
  | frameAbandoned (cause : AbandonCause)
  | transmissionEnd
  | measurementFrame (k : Sec) (payload : List Byte)
  | tripRequest (k : Sec) (r : TripRequest)
  | tripAnswer (k : Sec) (r : TripRequest) (a : TripAnswer)
  | sensorWatchdogExpiry (k : Sec)
  | testTimerExpiry (k : Sec)
  | breakerTimerExpiry (k : Sec)
  | recloseTimerExpiry (k : Sec)
  | stableTimerExpiry (k : Sec)
  | estopInputChange (high : Bool)
  | estopFilterExpiry
  | arrive (k : Sec) (payload : List Byte)
  | depart (k : Sec) (payload : List Byte)
  | raiseReq (k : Sec) (payload : List Byte)
  | state (k : Sec) (payload : List Byte)
  | silenceTimerExpiry (truck : Nat)
  | grantWindowExpiry (truck : Nat)
  | handoverWindowExpiry (truck : Nat)
  | lowerWindowExpiry (truck : Nat)
  | getStatus (r : Req)
  | clearPowerUp (r : Req)
  | restart (r : Req)
  | clearBackup (r : Req)
  | writeRamp (r : Req)
  | readRamp (r : Req)
  | writeSection (r : Req)
  | readSection (r : Req)
  | readSectionState (r : Req)
  | writeFleet (r : Req)
  | removeFleet (r : Req)
  | readFleet (r : Req)
  | writeClass (r : Req)
  | readClass (r : Req)
  | captureClear (r : Req)
  | captureKeep (r : Req)
  | readResults (r : Req)
  | readResultsAll (r : Req)
  | energize (r : Req)
  | deenergize (r : Req)
  | resetLockout (r : Req)
  | calibrate (r : Req)
  | maintEnter (r : Req)
  | maintBreakerClose (r : Req)
  | maintBreakerOpen (r : Req)
  | maintTest (r : Req)
  | maintExit (r : Req)
  | readTrucks (r : Req)
  | evictTruck (r : Req)
  | nextEvent (r : Req)
  deriving DecidableEq, Repr

end Sys2Proof
end

