-- ==== Sys2Proof/Decode.lean ====
section
/-! DEFINITION. The command a word spells by the bits of spec/opcode_table.json. None of the 52 rows of the table
has a `fixed` or `fields` entry (98_reader.md counts 0 rows with either), so no word spells a command. The frames of
the ring do have an encoding; Machine/Ring.lean reads it. -/

namespace Sys2Proof

/-- No row of the table gives bits, so no word spells a command. -/
def decodeTableWord (_nbits _w : Nat) : Option Instr := none

end Sys2Proof
end

