-- ==== Sys2Proof/Machine/Types.lean ====
section
/-! DEFINITION. The records, lists and frames the state is made of, block by block, as the manual's tables give them. -/

namespace Sys2Proof.Machine

open Sys2Proof

/-- A timer: stopped, or running with its remaining milliseconds (00_scope.md: durations are in milliseconds). -/
abbrev Timer := Option Nat

/-! ## Parameter store (chapter 1) -/

/-- The four choices of rise_filter (R3 field 15). -/
inductive RiseFilter where
  | f1of1 | f2of2 | f2of3 | f3of5
  deriving DecidableEq, Repr

/-- The thirty fields of a section parameter record, in field-number order (R3). -/
structure SectionParams where
  enabled : Bool
  frontendAddr : Nat
  readerAddr : Nat
  nextUphill : Option Sec
  bidirectional : Bool
  limitAmps : Nat
  contAmps : Nat
  tauShift : Nat
  derateLevel : Nat
  tripLevel : Nat
  derateShare : Nat
  instAmps : Nat
  riseAmps : Nat
  riseFloor : Nat
  riseFilter : RiseFilter
  sustainAmps : Nat
  sustainSamples : Nat
  vmin : Nat
  vhyst : Nat
  testMs : Nat
  testPass : Nat
  testMaxAmps : Nat
  breakerMs : Nat
  recloseMs : Nat
  stableMs : Nat
  autoReclose : Bool
  maxAttempts : Nat
  measMs : Nat
  badRun : Nat
  offsetLimit : Nat
  deriving DecidableEq, Repr

/-- The ramp record (R1). -/
structure RampRecord where
  silenceMs : Nat
  hopInit : Nat
  broadcastCapture : Bool
  deriving DecidableEq, Repr

/-- The three copies of a section's record (R7). -/
structure Copies where
  pending : Option SectionParams
  active : Option SectionParams
  prior : Option SectionParams
  deriving DecidableEq, Repr

/-! ## Measurement unit (R16) -/

/-- A calibration run in progress (R16, R30). -/
structure CalRun where
  sum : Int
  count : Nat
  deriving DecidableEq, Repr

/-- The state of R16. The windows are listed oldest entry first. -/
structure Meas where
  lastSeq : Option Nat
  offset : Int
  offsetValid : Bool
  currents : List Int
  voltages : List Nat
  iPrev : Option Int
  badRun : Nat
  lossReported : Bool
  watchdog : Timer
  cal : Option CalRun
  deriving DecidableEq, Repr

/-! ## Accounting unit (R35, R52) -/

/-- The live accumulators of R35, which a capture copies whole (R47). -/
structure Books where
  energy : Int
  count : Nat
  peak : Nat
  peakSeq : Option Nat
  minV : Option Nat
  maxH : Nat
  longestRun : Nat
  missed : Nat
  trips : Nat
  overflow : Bool
  deriving DecidableEq, Repr

/-- The kinds of a result record (R52). -/
inductive CaptureKind where
  | none | clear | keep | limited
  deriving DecidableEq, Repr

/-- The result record (R52). -/
structure ResultRecord where
  captureNo : Nat
  kind : CaptureKind
  books : Books
  fellSeen : Bool
  roseSeen : Bool
  deriving DecidableEq, Repr

/-- The state of R35. -/
structure Acc where
  books : Books
  heat : Nat
  derate : Bool
  heatWatch : Bool
  result : ResultRecord
  deriving DecidableEq, Repr

/-! ## Protection unit (R57) -/

/-- The last good sample since the section entered TESTING (R57). -/
structure LastSample where
  seq : Nat
  iCorr : Int
  vAvg : Nat
  deriving DecidableEq, Repr

/-- A present trip record (R75). -/
structure TripRecord where
  reason : TripReason
  iCorr : Option Int
  vAvg : Option Nat
  seq : Option Nat
  heat : Nat
  more : Bool
  deriving DecidableEq, Repr

/-- The state of R57. The history is listed oldest condition first. -/
structure Prot where
  view : SecState
  history : List Bool
  sustained : Nat
  undervolt : Bool
  last : Option LastSample
  outstanding : Bool
  record : Option TripRecord
  deriving DecidableEq, Repr

/-! ## Section sequencer (R82, R83) -/

/-- A breaker position: the expectation OPEN or CLOSED, or a feedback open or closed (R82). -/
inductive Position where
  | opened | closed
  deriving DecidableEq, Repr

/-- The values of last_off_reason (R82). -/
inductive OffReason where
  | estop | deenergize | maintExit | restart
  deriving DecidableEq, Repr

/-- The state of R82, but for the heat watch, which stands once, at the accounting unit (log 23). -/
structure Seq where
  state : SecState
  expectation : Position
  lastFeedback : Position
  attempts : Nat
  testTimer : Timer
  breakerTimer : Timer
  recloseTimer : Timer
  stableTimer : Timer
  reclosePending : Bool
  heatRequired : Bool
  lastOff : Option OffReason
  deriving DecidableEq, Repr

/-- A running E-stop filter: its candidate (loop closed or open) and its remaining time (R83, R107). -/
structure EstopFilter where
  candidate : Bool
  left : Nat
  deriving DecidableEq, Repr

/-- The chip-level part of the sequencer (R83), with the level of the ESTOP_N input. -/
structure Chip where
  estopPin : Bool
  estopClosed : Bool
  filter : Option EstopFilter
  fellSeen : Bool
  roseSeen : Bool
  backupTrip : Bool
  deriving DecidableEq, Repr

/-! ## Admission unit (R129) -/

/-- The two kinds of queue entry (R133). -/
inductive EntryKind where
  | handover | ordinary
  deriving DecidableEq, Repr

/-- An admission-queue entry (R129). -/
structure QueueEntry where
  truck : Nat
  kind : EntryKind
  amount : Nat
  deriving DecidableEq, Repr

/-- The per-section state of R129, with the section state as last notified (R132, log 22). -/
structure Adm where
  queue : List QueueEntry
  holders : List Nat
  bEff : Nat
  stall : Bool
  view : SecState
  deriving DecidableEq, Repr

/-- Everything the part keeps for one section. -/
structure Section where
  copies : Copies
  meas : Meas
  acc : Acc
  prot : Prot
  seq : Seq
  adm : Adm
  deriving DecidableEq, Repr

/-! ## Truck table (R112, R116, R119) -/

/-- A fleet-table entry (R112). -/
structure FleetEntry where
  id : Nat
  cls : Fin 4
  deriving DecidableEq, Repr

/-- A class record (R116). -/
structure ClassRecord where
  defined : Bool
  demandMin : Nat
  demandMax : Nat
  grantMs : Nat
  handoverMs : Nat
  lowerMs : Nat
  overdrawPct : Nat
  deriving DecidableEq, Repr

/-- The pantograph states (R130). -/
inductive Panto where
  | idle | queued | granted | raised | handover | lowering
  deriving DecidableEq, Repr

/-- The departure mark of a truck record (R119). -/
inductive Mark where
  | none | depart | evict
  deriving DecidableEq, Repr

/-- The kinds of window (R119). -/
inductive WindowKind where
  | grant | handover | lower
  deriving DecidableEq, Repr

/-- A running window and its remaining time (R119). -/
structure Window where
  kind : WindowKind
  left : Nat
  deriving DecidableEq, Repr

/-- The reasons of a LOWER frame, in the order of their codes (R187, Table 10-5). -/
inductive LowerReason where
  | trip | drain | estop | limit | overdraw | notGranted | handoverLate | moved | depart | evict | restart
  deriving DecidableEq, Repr

/-- The reasons of a DENY frame, in the order of their codes (R187, Table 10-5). -/
inductive DenyReason where
  | notAuthorized | tableFull | unknownTruck | sectionOff | grantExpired | moved | estop
  deriving DecidableEq, Repr

/-- A truck record (R119), with the reason of a lowering in progress, which R144 reports at the window's expiry
(log 21). -/
structure Truck where
  id : Nat
  cls : Fin 4
  sec : Sec
  silence : Timer
  mark : Mark
  panto : Panto
  hold : Option Sec
  reserved : Nat
  demand : Option Nat
  window : Option Window
  overCount : Nat
  lowerReason : Option LowerReason
  deriving DecidableEq, Repr

/-- The truck table (R112, R116, R119). -/
structure TruckTable where
  fleet : List FleetEntry
  classes : Vector ClassRecord 4
  trucks : List Truck
  generation : Nat
  deriving DecidableEq, Repr

/-! ## Event notices (R180) -/

/-- The causes of a breaker failure (R88). -/
inductive FailCause where
  | timeout | unexpected
  deriving DecidableEq, Repr

/-- The data of a SENSOR_FAULT notice: the cause, with last_seq or the candidate offset (R180; for CAL_ABORT log 11). -/
inductive SensorFault where
  | badRun (lastSeq : Option Nat)
  | watchdog (lastSeq : Option Nat)
  | calLimit (candidate : Int)
  | calAbort (lastSeq : Option Nat)
  deriving DecidableEq, Repr

/-- First-occurrence data; the constructor is the notice's kind, in priority order (R180). -/
inductive NoticeData where
  | estop (takenOff : List Sec)
  | backupTrip (failed : Sec)
  | breakerFail (cause : FailCause) (expBefore : Position) (feedback : Position) (stateBefore : SecState)
  | trip (reason : TripReason) (seq : Option Nat) (cause : Option LossCause)
  | lockout (reason : TripReason) (attempts : Nat)
  | lineTestFail (vAvg : Nat) (testPass : Nat) (attempts : Nat)
  | sensorFault (fault : SensorFault)
  | derate (heat : Nat) (seq : Nat)
  | undervolt (vAvg : Nat) (seq : Nat)
  | pantoUnconfirmed (truck : Nat) (reason : Option LowerReason)
  | accumOverflow (energy : Bool) (count : Bool) (seq : Nat)
  deriving DecidableEq, Repr

/-- The priority of a notice's kind, 1 first (R180). -/
def NoticeData.priority : NoticeData → Nat
  | .estop _ => 1
  | .backupTrip _ => 2
  | .breakerFail .. => 3
  | .trip .. => 4
  | .lockout .. => 5
  | .lineTestFail .. => 6
  | .sensorFault _ => 7
  | .derate .. => 8
  | .undervolt .. => 9
  | .pantoUnconfirmed .. => 10
  | .accumOverflow .. => 11

/-- A notice (R180). The key is a section, or the chip when absent. -/
structure Notice where
  key : Option Sec
  occurrences : Nat
  data : NoticeData
  deriving DecidableEq, Repr

/-! ## Replies (R173, R174) -/

/-- The statuses of a reply, in the order of their codes (R188). -/
inductive Status where
  | ok | badRequest | badSection | badValue | badState | notFound | tableFull | estopOpen | notCalibrated | noParams
  deriving DecidableEq, Repr

/-- The section summary of GET_STATUS (R177). -/
structure SectionSummary where
  activePresent : Bool
  enabled : Bool
  pendingDiffers : Bool
  state : SecState
  lastFeedback : Position
  deriving DecidableEq, Repr

/-- The data of a GET_STATUS reply, in the order of R177. -/
structure StatusData where
  powerUp : Bool
  notices : Nat
  addr : Byte
  supaddr : Byte
  rate : Fin 4
  ringErrors : Nat
  estopClosed : Bool
  fellSeen : Bool
  roseSeen : Bool
  backupTrip : Bool
  sections : List SectionSummary
  trucks : Nat
  generation : Nat
  fleet : Nat
  deriving DecidableEq, Repr

/-- The measurement unit's part of READ_SECTION_STATE (R34). -/
structure MeasPart where
  lastSeq : Option Nat
  offset : Int
  offsetValid : Bool
  calCount : Option Nat
  iAvg : Int
  vAvg : Nat
  badRun : Nat
  watchdogRunning : Bool
  deriving DecidableEq, Repr

/-- The accounting unit's part of READ_SECTION_STATE (R55). -/
structure AccPart where
  heat : Nat
  derate : Bool
  thresholds : Option (Nat × Nat)
  books : Books
  deriving DecidableEq, Repr

/-- The admission unit's part of READ_SECTION_STATE (R155). -/
structure AdmPart where
  bEff : Nat
  reserved : Nat
  allowance : Nat
  stall : Bool
  holders : Nat
  lowering : Nat
  entries : Nat
  handovers : Nat
  head : Option QueueEntry
  deriving DecidableEq, Repr

/-- One record of a READ_TRUCKS reply (R127). -/
structure TruckView where
  id : Nat
  cls : Fin 4
  sec : Sec
  mark : Mark
  silence : Timer
  panto : Panto
  hold : Option Sec
  reserved : Nat
  demand : Option Nat
  window : Option Window
  overCount : Nat
  deriving DecidableEq, Repr

/-- The data of a reply, by the request's owning rule. A set reply carries its position and the set's size. -/
inductive ReplyData where
  | empty
  | status (d : StatusData)
  | ramp (r : RampRecord)
  | copyOf (k : Sec) (copy : Nat) (p : SectionParams)
  | seqPart (pos size : Nat) (k : Sec) (part : Seq)
  | measPart (pos size : Nat) (k : Sec) (part : MeasPart)
  | accPart (pos size : Nat) (k : Sec) (part : AccPart)
  | protPart (pos size : Nat) (k : Sec) (part : Prot)
  | admPart (pos size : Nat) (k : Sec) (part : AdmPart)
  | fleet (size : Nat) (entries : List FleetEntry) (next : Option Nat)
  | cls (r : ClassRecord) (records : Nat)
  | capture (kind : CaptureKind) (ringErrors : Nat) (held : List Sec)
  | results (pos size : Nat) (k : Sec) (r : ResultRecord)
  | noResults
  | trucks (count generation start : Nat) (records : List TruckView)
  | restart (takenOff : List Sec) (removed : Nat)
  | event (n : Option Notice) (remaining : Nat)
  deriving DecidableEq, Repr

/-- The status, field number and data a request is answered with (R173). -/
structure Answer where
  status : Status
  field : Nat
  data : ReplyData
  deriving DecidableEq, Repr

/-- A reply: the answer with the tag and kind of the request it answers (R173). -/
structure Reply where
  tag : Byte
  kind : Byte
  answer : Answer
  deriving DecidableEq, Repr

/-! ## The ring (R163 to R167, R185) -/

/-- A frame of another node, less its CRC, which is computed at transmission (R163, R185). -/
structure Frame where
  dest : Byte
  src : Byte
  hops : Byte
  kind : Byte
  tag : Byte
  payload : List Byte
  deriving DecidableEq, Repr

/-- The three breaker commands (R84). -/
inductive BreakerCmd where
  | openCmd | closeCmd | testCmd
  deriving DecidableEq, Repr

/-- A frame of the priority lane, with the destination set at placement (R164, R166). -/
inductive PriorityFrame where
  | command (k : Sec) (dest : Nat) (c : BreakerCmd)
  | lower (truck : Nat) (dest : Nat) (reason : LowerReason)
  deriving DecidableEq, Repr

/-- A frame of the ordinary lane (R165, R131, R173, R183). -/
inductive OrdinaryFrame where
  | grant (truck : Nat) (dest : Nat) (k : Sec) (amps : Nat) (windowMs : Nat)
  | wait (truck : Nat) (dest : Nat) (position : Nat)
  | deny (truck : Nat) (dest : Nat) (reason : DenyReason)
  | reply (r : Reply)
  | attention
  deriving DecidableEq, Repr

/-- The payload of a frame on the line: bytes, or a reply. -/
inductive LineBody where
  | plain (p : List Byte)
  | reply (r : Reply)
  deriving DecidableEq, Repr

/-- A frame being transmitted (R166, R168). Its length field and CRC are computed from it. -/
structure LineFrame where
  dest : Byte
  src : Byte
  hops : Byte
  kind : Byte
  tag : Byte
  body : LineBody
  deriving DecidableEq, Repr

/-- The receiver's phases (R157). -/
inductive Phase where
  | seeking | sync | bytes
  deriving DecidableEq, Repr

/-- The receiver's phase with what it has measured and read (R157, R158). Spans and times are in eighths of a nominal bit
time (log 8). -/
inductive RxPhase where
  | seeking
  /-- The time since the rising edge that ended the break, and the falling edges since. -/
  | sync (elapsed falls : Nat)
  /-- The span of seven sync bits, the bytes read, the time since the edge the byte is timed from, the half bits of
  the byte that lie behind that edge (2 for the first byte, whose start bit follows the last sync bit without an edge),
  and the bits of the byte sampled so far. -/
  | byte (span : Nat) (read : List Byte) (elapsed ahead : Nat) (bits : List Bool)
  /-- Between bytes: the span, the bytes read, and the time since the end of the last stop bit began to be timed. -/
  | gap (span : Nat) (read : List Byte) (elapsed ahead : Nat)
  deriving DecidableEq, Repr

/-- The receiver: the level it last saw, and the length of the low period that level belongs to (R157: a break is
recognised in every phase by the whole low period). -/
structure Rx where
  level : Bool
  low : Nat
  phase : RxPhase
  deriving DecidableEq, Repr

/-- The ring's state: receiver and error counter, the three collections, claimed places, run count, and the
frame on the line, absent while Port B's line is free (R169). -/
structure Ring where
  rx : Rx
  errors : Nat
  forward : List Frame
  priority : List PriorityFrame
  ordinary : List OrdinaryFrame
  claimed : Nat
  runCount : Nat
  line : Option LineFrame
  deriving DecidableEq, Repr

/-- The straps as sampled (R156). -/
structure Straps where
  addr : Byte
  supaddr : Byte
  rate : Fin 4
  deriving DecidableEq, Repr

/-- The stages of a RESTART, in order: the sequencer, the measurement, protection and accounting units, the truck table
with the admission unit, the ring transmitter, the management unit, and the reply (R178). -/
inductive RestartStage where
  | sequencer | measurement | protection | accounting | table | ring | management | reply
  deriving DecidableEq, Repr

/-- An accepted RESTART that is being carried out: the tag of the request, the stage that comes next, and the two items
of the reply as far as the stages past have given them (R178, R179). -/
structure Restarting where
  tag : Byte
  next : RestartStage
  takenOff : List Sec
  removed : Nat
  deriving DecidableEq, Repr

/-- The management unit's notice list and power-up flag (R184), and the RESTART under way, absent while none is
(R179). -/
structure Mgmt where
  notices : List Notice
  powerUp : Bool
  restart : Option Restarting
  deriving DecidableEq, Repr

end Sys2Proof.Machine
end

