-- ==== Sys2Proof/Config.lean ====
section
/-! DEFINITION. What the manual leaves outside itself: the byte placement of most reply data (R188), the free value
of the model; and the pin levels that `State.reset` presumes to have been sampled (log 5). -/

namespace Sys2Proof.Config

open Sys2Proof.Machine

/-- The bytes of reply data whose placement "lies outside this manual" (R188). A free value: no body, so nothing
can be proved of it (log 10); a reply carries no more of it than a payload holds (R185). -/
opaque unplacedReplyBytes : ReplyData → List Byte

/-- DESIGN CHOICE (log 5): the levels sampled before `State.reset`. The manual bounds the two addresses (1 to 254)
and gives no value; the loop is taken closed. -/
def resetPins : Pins := { addr := 1, supaddr := 2, rate := 0, estopHigh := true }

end Sys2Proof.Config
end

