-- ==== Sys2Proof/Machine/State.lean ====
section
/-! DEFINITION. The state of the part, and the state a power-on leaves (R156, R169 and the power-on columns of
R1, R7, R16, R35, R52, R57, R82, R83, R112, R116, R119, R129, R184). -/

namespace Sys2Proof.Machine

open Sys2Proof

/-- The state: each block's, the commands that wait from outside (`pending`), the levels of the line at Port A still to
come, each for an eighth of a nominal bit time (`portA`, log 8), and the work blocks have handed one another and not yet
taken (`handed`, log 3), all first in, first out. -/
structure State where
  ramp : RampRecord
  sections : Vector Section 8
  chip : Chip
  straps : Straps
  ring : Ring
  table : TruckTable
  mgmt : Mgmt
  handed : List Instr
  pending : List Instr
  portA : List Bool
  deriving DecidableEq, Repr

/-- No rule of the manual stops the part: what it cannot use it drops, counts or answers with a refusal, and each of
those is a next state. The type therefore has no constructor; no meaning raises a fault (log 31, safe). -/
inductive Fault where
  deriving DecidableEq, Repr

/-- Why a command has no meaning. -/
inductive Refusal where
  /-- Raised by an arm of `exec` whose command is not modelled; no arm is such (safe). -/
  | notModelled (mnemonic : String)
  deriving DecidableEq, Repr

/-- The live accumulators at power-on (R35). -/
def Books.zero : Books :=
  { energy := 0, count := 0, peak := 0, peakSeq := none, minV := none, maxH := 0, longestRun := 0, missed := 0,
    trips := 0, overflow := false }

/-- The result record at power-on (R52). -/
def ResultRecord.none : ResultRecord :=
  { captureNo := 0, kind := .none, books := Books.zero, fellSeen := false, roseSeen := false }

/-- One section at power-on (R7, R16, R35, R57, R82, R129). -/
def Section.powerOn : Section :=
  { copies := { pending := none, active := none, prior := none }
    meas := { lastSeq := none, offset := 0, offsetValid := false, currents := List.replicate 8 0,
              voltages := List.replicate 8 0, iPrev := none, badRun := 0, lossReported := false, watchdog := none,
              cal := none }
    acc := { books := Books.zero, heat := 0, derate := false, heatWatch := false, result := ResultRecord.none }
    prot := { view := .off, history := [], sustained := 0, undervolt := false, last := none, outstanding := false,
              record := none }
    seq := { state := .off, expectation := .opened, lastFeedback := .opened, attempts := 0, testTimer := none,
             breakerTimer := none, recloseTimer := none, stableTimer := none, reclosePending := false,
             heatRequired := false, lastOff := none }
    adm := { queue := [], holders := [], bEff := 0, stall := false, view := .off } }

/-- A class record that is not defined (R116). -/
def ClassRecord.undefined : ClassRecord :=
  { defined := false, demandMin := 0, demandMax := 0, grantMs := 0, handoverMs := 0, lowerMs := 0, overdrawPct := 0 }

/-- At power-on the receiver is seeking (R157); that it starts from a line at rest is the model's choice (DESIGN CHOICE, log
8). -/
def Rx.powerOn : Rx := { level := true, low := 0, phase := .seeking }

/-- The ring's state at power-on (R169). -/
def Ring.powerOn : Ring :=
  { rx := Rx.powerOn, errors := 0, forward := [], priority := [], ordinary := [], claimed := 0, runCount := 0,
    line := none }

/-- The state a power-on reset leaves, with the straps and the level of ESTOP_N it samples (R83, R156). -/
def State.powerOn (pins : Pins) : State :=
  { ramp := { silenceMs := 10000, hopInit := 16, broadcastCapture := true }
    sections := Vector.replicate 8 Section.powerOn
    chip := { estopPin := pins.estopHigh, estopClosed := pins.estopHigh, filter := none, fellSeen := false,
              roseSeen := false, backupTrip := false }
    straps := { addr := pins.addr, supaddr := pins.supaddr, rate := pins.rate }
    ring := Ring.powerOn
    table := { fleet := [], classes := Vector.replicate 4 ClassRecord.undefined, trucks := [], generation := 0 }
    mgmt := { notices := [], powerUp := true, restart := none }
    handed := []
    pending := []
    portA := [] }

/-- The machine right after reset: the power-on state, with the pin levels of `Config.resetPins` (DESIGN CHOICE,
log 5) and an empty queue. -/
def State.reset : State := State.powerOn Config.resetPins

end Sys2Proof.Machine
end

