-- ==== Sys2Proof/Machine/Bytes.lean ====
section
/-! DEFINITION. Byte order, the CRC, and the layouts of frames on the wire (R159, R166, R185 to R190). -/

namespace Sys2Proof.Machine

open Sys2Proof

/-- The number a run of bytes stands for, most significant byte first (R185). -/
def beNat (bs : List Byte) : Nat := bs.foldl (fun n b => n * 256 + b.toNat) 0

/-- `n` bytes that stand for `v`, most significant first (R185). -/
def toBe : Nat → Nat → List Byte
  | 0, _ => []
  | n + 1, v => BitVec.ofNat 8 (v / 256 ^ n) :: toBe n (v % 256 ^ n)

/-- A 16-bit two's complement value (R185). -/
def signed16 (n : Nat) : Int := if n < 32768 then n else (n : Int) - 65536

/-- `n` bytes of a signed field in two's complement (R185). -/
def toBeSigned (n : Nat) (v : Int) : List Byte := toBe n (v % (256 ^ n : Nat)).toNat

/-- A yes/no field is 0 for no and 1 for yes; any other byte names neither (R185). -/
def yesNo (n : Nat) : Option Bool := if n = 0 then some false else if n = 1 then some true else none

def yesNoByte (b : Bool) : Byte := if b then 1 else 0

/-- One bit of the CRC, of generator x^16 + x^12 + x^5 + 1, most significant bit first (R159). -/
def crcBit (r : BitVec 16) (bit : Bool) : BitVec 16 :=
  let shifted := r <<< 1
  if r.msb != bit then shifted ^^^ 0x1021#16 else shifted

/-- One byte enters the remainder most significant bit first (R159). -/
def crcByte (r : BitVec 16) (b : Byte) : BitVec 16 :=
  [7, 6, 5, 4, 3, 2, 1, 0].foldl (fun r i => crcBit r (b.getLsbD i)) r

/-- The CRC of header and payload: the remainder starts from all ones and is not reflected or inverted (R159). -/
def crc16 (bs : List Byte) : BitVec 16 := bs.foldl crcByte 0xFFFF#16

/-- The two CRC bytes, high byte first (R185). -/
def crcBytes (bs : List Byte) : List Byte :=
  [(crc16 bs).extractLsb' 8 8, (crc16 bs).extractLsb' 0 8]

/-- Header and payload with the CRC appended (R185). -/
def withCrc (bs : List Byte) : List Byte := bs ++ crcBytes bs

/-- The header and payload of a frame (R185). -/
def Frame.covered (f : Frame) : List Byte :=
  [f.dest, f.src, f.hops, f.kind, f.tag, BitVec.ofNat 8 f.payload.length] ++ f.payload

/-- A frame as the bytes that stand on the wire after the sync field (R185). -/
def Frame.bytes (f : Frame) : List Byte := withCrc f.covered

/-! ## Kinds (R186, Table 10-2) -/

def BreakerCmd.kind : BreakerCmd → Byte
  | .openCmd => 0x18
  | .closeCmd => 0x19
  | .testCmd => 0x1A

/-- The kind of each frame of the priority lane. -/
def PriorityFrame.kind : PriorityFrame → Byte
  | .command _ _ c => c.kind
  | .lower .. => 0x2B

/-- The kind of each frame of the ordinary lane. -/
def OrdinaryFrame.kind : OrdinaryFrame → Byte
  | .grant .. => 0x28
  | .wait .. => 0x29
  | .deny .. => 0x2A
  | .reply _ => 0x70
  | .attention => 0x71

/-! ## Codes (R187, R188) -/

def DenyReason.code : DenyReason → Nat
  | .notAuthorized => 1
  | .tableFull => 2
  | .unknownTruck => 3
  | .sectionOff => 4
  | .grantExpired => 5
  | .moved => 6
  | .estop => 7

def LowerReason.code : LowerReason → Nat
  | .trip => 1
  | .drain => 2
  | .estop => 3
  | .limit => 4
  | .overdraw => 5
  | .notGranted => 6
  | .handoverLate => 7
  | .moved => 8
  | .depart => 9
  | .evict => 10
  | .restart => 11

def Status.code : Status → Nat
  | .ok => 0
  | .badRequest => 1
  | .badSection => 2
  | .badValue => 3
  | .badState => 4
  | .notFound => 5
  | .tableFull => 6
  | .estopOpen => 7
  | .notCalibrated => 8
  | .noParams => 9

/-! ## The section parameter record (R189, Table 10-6) -/

def RiseFilter.code : RiseFilter → Nat
  | .f1of1 => 0
  | .f2of2 => 1
  | .f2of3 => 2
  | .f3of5 => 3

/-- The byte of next_uphill: a section number, or 255 for none (R185, R189). -/
def uphillCode : Option Sec → Nat
  | none => 255
  | some k => k.val

/-- The 48 bytes of a section parameter record, in the order of Table 10-6 (R189). -/
def SectionParams.bytes (p : SectionParams) : List Byte :=
  [yesNoByte p.enabled] ++ toBe 1 p.frontendAddr ++ toBe 1 p.readerAddr ++
  toBe 1 (uphillCode p.nextUphill) ++ [yesNoByte p.bidirectional] ++
  toBe 2 p.limitAmps ++ toBe 2 p.contAmps ++ toBe 1 p.tauShift ++ toBe 1 p.derateLevel ++ toBe 1 p.tripLevel ++
  toBe 1 p.derateShare ++ toBe 2 p.instAmps ++ toBe 2 p.riseAmps ++ toBe 2 p.riseFloor ++
  toBe 1 p.riseFilter.code ++ toBe 2 p.sustainAmps ++ toBe 2 p.sustainSamples ++ toBe 2 p.vmin ++
  toBe 2 p.vhyst ++ toBe 2 p.testMs ++ toBe 2 p.testPass ++ toBe 2 p.testMaxAmps ++ toBe 2 p.breakerMs ++
  toBe 2 p.recloseMs ++ toBe 4 p.stableMs ++ [yesNoByte p.autoReclose] ++ toBe 1 p.maxAttempts ++
  toBe 1 p.measMs ++ toBe 1 p.badRun ++ toBe 2 p.offsetLimit

/-! ## The result record (R190, Table 10-7) -/

def CaptureKind.code : CaptureKind → Nat
  | .none => 0
  | .clear => 1
  | .keep => 2
  | .limited => 3

def bit (b : Bool) (i : Nat) : Nat := if b then 2 ^ i else 0

/-- The marks byte of Table 10-7. -/
def ResultRecord.marks (r : ResultRecord) : Nat :=
  bit r.books.peakSeq.isSome 0 + bit r.books.minV.isSome 1 + bit r.books.overflow 2 + bit r.fellSeen 3 +
  bit r.roseSeen 4

/-- The 30 bytes of a result record (R190, Table 10-7). -/
def ResultRecord.bytes (r : ResultRecord) : List Byte :=
  toBe 2 r.captureNo ++ toBe 1 r.kind.code ++ toBe 1 r.marks ++ toBeSigned 8 r.books.energy ++
  toBe 4 r.books.count ++ toBe 2 r.books.peak ++ toBe 1 (r.books.peakSeq.getD 0) ++
  toBe 2 (r.books.minV.getD 0) ++ toBe 4 r.books.maxH ++ toBe 2 r.books.longestRun ++ toBe 2 r.books.missed ++
  toBe 1 r.books.trips

/-! ## Replies (R188 to R190) -/

/-- The bytes of reply data. READ_SECTION and READ_RESULTS are placed by R189 and R190; every other placement lies
outside the manual and is the free value of `Config` (log 10), of which at most 61 bytes stand beside the three of R188,
since no payload exceeds 64 (R185). -/
def ReplyData.bytes : ReplyData → List Byte
  | .empty => []
  | .copyOf k copy p => toBe 1 k.val ++ toBe 1 copy ++ p.bytes
  | .results pos size k r => toBe 1 pos ++ toBe 1 size ++ toBe 1 k.val ++ r.bytes
  | .noResults => [0, 0, 255]
  | d => (Config.unplacedReplyBytes d).take 61

/-- A REPLY payload: the kind answered, the status, the field or entry number, and the data (R188). -/
def Reply.payload (r : Reply) : List Byte :=
  [r.kind, BitVec.ofNat 8 r.answer.status.code, BitVec.ofNat 8 r.answer.field] ++ r.answer.data.bytes

/-! ## Payloads of the frames the part originates (R186, R187) -/

/-- Commands carry no payload; a LOWER carries its truck and reason (R187). -/
def PriorityFrame.payload : PriorityFrame → List Byte
  | .command .. => []
  | .lower t _ r => toBe 2 t ++ toBe 1 r.code

/-- The payload of an ordinary-lane frame. The pending count of an ATTENTION is the number of notices at the moment
its transmission begins (R183, R187, R188). -/
def OrdinaryFrame.body (notices : Nat) : OrdinaryFrame → LineBody
  | .grant t _ k amps w => .plain (toBe 2 t ++ toBe 1 k.val ++ toBe 2 amps ++ toBe 2 w)
  | .wait t _ pos => .plain (toBe 2 t ++ toBe 1 pos)
  | .deny t _ r => .plain (toBe 2 t ++ toBe 1 r.code)
  | .reply r => .reply r
  | .attention => .plain (toBe 1 notices)

def LineBody.bytes : LineBody → List Byte
  | .plain p => p
  | .reply r => r.payload

/-- The frame on the line as header and payload (R166, R185). -/
def LineFrame.frame (f : LineFrame) : Frame :=
  { dest := f.dest, src := f.src, hops := f.hops, kind := f.kind, tag := f.tag, payload := f.body.bytes }

/-- The bytes on the line after the sync field. The CRC is computed as transmission begins (R163, R166). -/
def LineFrame.bytes (f : LineFrame) : List Byte := f.frame.bytes

end Sys2Proof.Machine
end

