-- ==== Sys2Proof/Machine/Ops.lean ====
section
/-! DEFINITION. The operations every block shares: reading and changing one section's or one truck's state, timers,
the work handed between blocks, the two outgoing lanes, and raising a notice. -/

namespace Sys2Proof.Machine

open Sys2Proof

/-- The sections in ascending order. -/
def allSecs : List Sec := [0, 1, 2, 3, 4, 5, 6, 7]

/-- The section a byte names, 0 to 7; any other byte names none (R185). -/
def secOf (n : Nat) : Option Sec := if h : n < 8 then some ⟨n, h⟩ else none

/-! ## One section's state -/

def State.sec (s : State) (k : Sec) : Section := s.sections[k]

def State.modSec (s : State) (k : Sec) (f : Section → Section) : State :=
  { s with sections := s.sections.set k (f s.sections[k]) }

def State.modMeas (s : State) (k : Sec) (f : Meas → Meas) : State := s.modSec k fun x => { x with meas := f x.meas }
def State.modAcc (s : State) (k : Sec) (f : Acc → Acc) : State := s.modSec k fun x => { x with acc := f x.acc }
def State.modProt (s : State) (k : Sec) (f : Prot → Prot) : State := s.modSec k fun x => { x with prot := f x.prot }
def State.modSeq (s : State) (k : Sec) (f : Seq → Seq) : State := s.modSec k fun x => { x with seq := f x.seq }
def State.modAdm (s : State) (k : Sec) (f : Adm → Adm) : State := s.modSec k fun x => { x with adm := f x.adm }

/-- The active copy, the one every block but the store reads (R7). -/
def State.active (s : State) (k : Sec) : Option SectionParams := (s.sec k).copies.active

/-- The section has an active copy with enabled yes (R7). -/
def State.isEnabled (s : State) (k : Sec) : Bool := (s.active k).any (·.enabled)

/-- The enabled sections in ascending order (R54, R90). -/
def State.enabledSecs (s : State) : List Sec := allSecs.filter fun k => s.isEnabled k

/-- The reader address of a section's active copy (R120, R131). -/
def State.reader (s : State) (k : Sec) : Option Nat := (s.active k).map (·.readerAddr)

/-- A timer started with a length of the active copy. An absent copy leaves it stopped (log 18). -/
def State.startTimer (s : State) (k : Sec) (len : SectionParams → Nat) : Timer := (s.active k).map len

/-! ## One truck's record -/

def State.truck (s : State) (t : Nat) : Option Truck := s.table.trucks.find? fun r => r.id == t

def State.hasTruck (s : State) (t : Nat) : Bool := s.table.trucks.any fun r => r.id == t

def State.modTruck (s : State) (t : Nat) (f : Truck → Truck) : State :=
  { s with table := { s.table with trucks := s.table.trucks.map fun r => if r.id = t then f r else r } }

/-- The class record a truck record reads (R116). -/
def State.classOf (s : State) (r : Truck) : ClassRecord := s.table.classes[r.cls]

/-! ## Work handed from block to block (log 3) -/

/-- The block that takes a command handed to it: one measurement unit, sequencer or protection unit per section,
the truck table, and the management unit. -/
inductive Taker where
  | measurement (k : Sec) | sequencer (k : Sec) | protection (k : Sec) | truckTable | management | outside
  deriving DecidableEq, Repr

/-- The management requests (R186, Table 10-3). -/
def isRequest : Instr → Bool
  | .getStatus _ | .clearPowerUp _ | .restart _ | .clearBackup _ | .writeRamp _ | .readRamp _ | .writeSection _
  | .readSection _ | .readSectionState _ | .writeFleet _ | .removeFleet _ | .readFleet _ | .writeClass _
  | .readClass _ | .captureClear _ | .captureKeep _ | .readResults _ | .readResultsAll _ | .energize _
  | .deenergize _ | .resetLockout _ | .calibrate _ | .maintEnter _ | .maintBreakerClose _ | .maintBreakerOpen _
  | .maintTest _ | .maintExit _ | .readTrucks _ | .evictTruck _ | .nextEvent _ => true
  | _ => false

def takerOf : Instr → Taker
  | .measurementFrame k _ => .measurement k
  | .tripRequest k _ => .sequencer k
  | .tripAnswer k _ _ => .protection k
  | .arrive .. | .depart .. | .raiseReq .. | .state .. => .truckTable
  | c => if isRequest c then .management else .outside

/-- A block hands another a command to take. -/
def hand (c : Instr) (s : State) : State := { s with handed := s.handed ++ [c] }

/-- Taking a command removes it from the work handed over when it is the first its block has been handed: each
block takes its frames in the order they were dispatched (R162). A command that was not handed over (one the
surroundings bring direct, log 3) leaves that work as it stands. -/
def take (c : Instr) (s : State) : State :=
  if s.handed.find? (fun d => takerOf d == takerOf c) = some c then { s with handed := s.handed.erase c } else s

/-! ## Ring errors (R160) -/

/-- One more ring error, up to 65535 (R160). -/
def ringError (s : State) : State := { s with ring := { s.ring with errors := min 65535 (s.ring.errors + 1) } }

/-- A node address: 1 to 254 (00_scope.md). -/
def isNode (a : Byte) : Bool := 1 ≤ a.toNat && a.toNat ≤ 254

/-! ## The ordinary lane (R165) -/

/-- The lane has a place neither filled nor claimed (R165). -/
def hasPlace (s : State) : Bool := s.ring.ordinary.length + s.ring.claimed < 16

/-- Claim `n` places, if the frames in the lane, the claimed places and `n` come to at most 16 (R165). -/
def claim (n : Nat) (s : State) : Option State :=
  if s.ring.ordinary.length + s.ring.claimed + n ≤ 16 then
    some { s with ring := { s.ring with claimed := s.ring.claimed + n } }
  else none

/-- Fill a claimed place: the frame joins at the tail and the claimed count falls by 1 (R165). With no place
claimed there is nothing to fill. -/
def fill (f : OrdinaryFrame) (s : State) : State :=
  if s.ring.claimed = 0 then s
  else { s with ring := { s.ring with ordinary := s.ring.ordinary ++ [f], claimed := s.ring.claimed - 1 } }

/-- Offer a WAIT, DENY or ATTENTION: appended if there is a free place, and otherwise dropped (R165). -/
def offer (f : OrdinaryFrame) (s : State) : State :=
  if hasPlace s then { s with ring := { s.ring with ordinary := s.ring.ordinary ++ [f] } } else s

/-- Claim a place and fill it in one event, as a grant does (R165). -/
def placeGrant (f : OrdinaryFrame) (s : State) : State :=
  match claim 1 s with
  | none => s
  | some s' => fill f s'

/-! ## The priority lane (R164) -/

/-- Two frames of the lane that stand for the same thing: two commands of one section, or two LOWERs of one truck. -/
def PriorityFrame.sameKey : PriorityFrame → PriorityFrame → Bool
  | .command k _ _, .command k' _ _ => k == k'
  | .lower t _ _, .lower t' _ _ => t == t'
  | _, _ => false

def PriorityFrame.isLower : PriorityFrame → Bool
  | .lower .. => true
  | .command .. => false

/-- A LOWER whose truck has no record (R164). -/
def PriorityFrame.isStale (known : Nat → Bool) : PriorityFrame → Bool
  | .lower t _ _ => !known t
  | .command .. => false

/-- Placement in the priority lane (R164): in place of an unsent frame for the same section or truck; else, for a
LOWER that finds 24 LOWERs, at the tail with the oldest LOWER for a truck without a record taken out; else at the
tail. -/
def placeIn (known : Nat → Bool) (lane : List PriorityFrame) (f : PriorityFrame) : List PriorityFrame :=
  if lane.any f.sameKey then lane.map fun g => if f.sameKey g then f else g
  else if f.isLower && 24 ≤ (lane.filter (·.isLower)).length then lane.eraseP (·.isStale known) ++ [f]
  else lane ++ [f]

/-- A frame offered to the priority lane is always placed (R164). -/
def placePriority (f : PriorityFrame) (s : State) : State :=
  { s with ring := { s.ring with priority := placeIn (fun t => s.hasTruck t) s.ring.priority f } }

/-- A LOWER for a truck, to the reader of section `k` (R131). Without an active copy there is no reader to address
(log 18). -/
def placeLower (t : Nat) (reason : LowerReason) (k : Sec) (s : State) : State :=
  match s.reader k with
  | none => s
  | some dest => placePriority (.lower t dest reason) s

/-- A DENY for a truck, to the reader of section `k` (R131). -/
def offerDeny (t : Nat) (reason : DenyReason) (k : Sec) (s : State) : State :=
  match s.reader k with
  | none => s
  | some dest => offer (.deny t dest reason) s

/-- A WAIT for a truck, to the reader of section `k` (R131). -/
def offerWait (t : Nat) (position : Nat) (k : Sec) (s : State) : State :=
  match s.reader k with
  | none => s
  | some dest => offer (.wait t dest position) s

/-! ## Event notices (R180 to R183) -/

/-- The place of a key within one kind: the lower section first (R180). -/
def keyIndex : Option Sec → Nat
  | none => 0
  | some k => k.val

/-- A notice's place in the list: by priority, then by section (R180). -/
def Notice.rank (n : Notice) : Nat := n.data.priority * 8 + keyIndex n.key

/-- The notice of one kind and key (R181). -/
def Notice.matches (key : Option Sec) (d : NoticeData) (n : Notice) : Bool :=
  n.key == key && n.data.priority == d.priority

/-- A new notice takes its place in the list by priority and section (R181). -/
def insertNotice (n : Notice) : List Notice → List Notice
  | [] => [n]
  | m :: ms => if n.rank < m.rank then n :: m :: ms else m :: insertNotice n ms

/-- An occurrence more, up to 255; the data is left as it stands (R181). -/
def Notice.again (n : Notice) : Notice := { n with occurrences := min 255 (n.occurrences + 1) }

/-- The list after a raise (R181). -/
def raiseIn (key : Option Sec) (d : NoticeData) (l : List Notice) : List Notice :=
  if l.any (·.matches key d) then l.map fun n => if n.matches key d then n.again else n
  else insertNotice { key := key, occurrences := 1, data := d } l

/-- Raise a notice (R181). One that makes the empty list hold a notice offers ATTENTION, if the supervisor address
is a node's (R183). -/
def raise (key : Option Sec) (d : NoticeData) (s : State) : State :=
  let s' := { s with mgmt := { s.mgmt with notices := raiseIn key d s.mgmt.notices } }
  if s.mgmt.notices = [] ∧ isNode s.straps.supaddr then offer .attention s' else s'

end Sys2Proof.Machine
end

