-- ==== Sys2Proof/Machine/Flags.lean ====
section
/-! DEFINITION. The figures and conditions the blocks compute from their state and the active copy: corrected
current, averages, heat, thresholds, the protection checks, the effective budget, overdraw. No function here
changes state. -/

namespace Sys2Proof.Machine

open Sys2Proof

/-! ## Measurement (R18, R25 to R28, R31) -/

/-- The gap of the sequence check, (seq - last_seq) mod 256 (R18). -/
def seqGap (last seq : Nat) : Nat := (seq + 256 - last) % 256

/-- A raw current of -32768 is read as -32767 (00_scope.md, R25, R31). -/
def readRaw (raw : Int) : Int := max (-32767) raw

/-- The offset in force: 0 while offset_valid is no (R25). -/
def Meas.offsetInForce (m : Meas) : Int := if m.offsetValid then m.offset else 0

/-- The corrected current: offset, saturation, then the clamp of a one-way section (R25, R26). -/
def correct (bidirectional : Bool) (offset raw : Int) : Int :=
  let i := max (-32767) (min 32767 (readRaw raw - offset))
  if !bidirectional && i < 0 then 0 else i

/-- A new newest entry; the oldest leaves (R27). -/
def push {α : Type} (w : List α) (x : α) : List α := w.drop 1 ++ [x]

/-- i_avg: the sum of the entries divided by 8, truncated toward zero (R27). -/
def iAvgOf (w : List Int) : Int := w.sum.tdiv 8

/-- v_avg: the sum of the entries divided by 8, truncated (R27). -/
def vAvgOf (w : List Nat) : Nat := w.sum / 8

/-- The candidate offset of a completed run: the sum divided by 16, truncated toward zero (R31). -/
def calCandidate (sum : Int) : Int := sum.tdiv 16

/-! ## Accounting (R37, R38, R43, R45) -/

/-- The limit of the energy accumulator, 2^63-1 (R38). -/
def energyMax : Int := 9223372036854775807

/-- The limit of the sample count and of H, 2^32-1 (R38, R43). -/
def max32 : Nat := 4294967295

/-- Energy after a power term: it saturates at either end of its range and stays there (R38). -/
def addEnergy (energy p : Int) : Int :=
  if energy = energyMax ∨ energy = -energyMax then energy else max (-energyMax) (min energyMax (energy + p))

/-- The heat input q of a sample (R43). -/
def heatInput (iAvg : Int) (contAmps : Nat) : Nat :=
  min 65535 (iAvg.natAbs * iAvg.natAbs * 128 / (contAmps * contAmps))

/-- The new heat: H less the cooling term plus q, up to 2^32-1 (R43). -/
def nextHeat (heat : Nat) (iAvg : Int) (p : SectionParams) : Nat :=
  min max32 (heat - heat / 2 ^ p.tauShift + heatInput iAvg p.contAmps)

/-- A heat level in units of H: n × 2^(τ+3) (R3, R45). -/
def heatLevel (n tau : Nat) : Nat := n * 2 ^ (tau + 3)

/-- The derate set threshold (R45). -/
def derateSetAt (p : SectionParams) : Nat := heatLevel p.derateLevel p.tauShift

/-- The derate-clear threshold, one level lower (R45). -/
def derateClearAt (p : SectionParams) : Nat := heatLevel (p.derateLevel - 1) p.tauShift

/-- The thermal trip threshold (R69). -/
def tripAt (p : SectionParams) : Nat := heatLevel p.tripLevel p.tauShift

/-- The derate flag after judging a new H, with one level of hysteresis (R45). -/
def judgeDerate (flag : Bool) (heat : Nat) (p : SectionParams) : Bool :=
  if flag then !decide (heat < derateClearAt p) else decide (derateSetAt p ≤ heat)

/-! ## Protection (R57 to R71) -/

/-- The energised states (R57). -/
def energised : SecState → Bool
  | .testing | .closing | .live | .draining | .maint => true
  | .off | .tripped | .lockout => false

/-- The rise filter as (k, n) (R65). -/
def RiseFilter.pair : RiseFilter → Nat × Nat
  | .f1of1 => (1, 1)
  | .f2of2 => (2, 2)
  | .f2of3 => (2, 3)
  | .f3of5 => (3, 5)

/-- The newest `n` entries of a list that stands oldest first. -/
def newest {α : Type} (n : Nat) (l : List α) : List α := l.drop (l.length - n)

/-- The rise condition of a sample: false when broken, and otherwise a rise at or above rise_amps plus the allowance
by a current at or above rise_floor (R63). A continuous sample has an i_prev. -/
def riseCondition (p : SectionParams) (allowance : Nat) (broken : Bool) (iPrev : Option Int) (iCorr : Int) : Bool :=
  match iPrev with
  | none => false
  | some prev => !broken && decide ((p.riseAmps + allowance : Nat) ≤ iCorr - prev) && decide ((p.riseFloor : Int) ≤ iCorr)

/-- The history with a condition more, at most five (R65). -/
def pushCondition (h : List Bool) (c : Bool) : List Bool := newest 5 (h ++ [c])

/-- The sustained counter after a sample (R67). -/
def nextSustained (c : Nat) (iAvg : Int) (p : SectionParams) : Nat :=
  if (p.sustainAmps : Int) ≤ iAvg then min p.sustainSamples (c + 1) else 0

/-- The instantaneous check (R61). -/
def instFires (p : SectionParams) (iCorr : Int) : Bool := p.instAmps ≤ iCorr.natAbs

/-- The test-overcurrent check (R62). -/
def testFires (p : SectionParams) (iCorr : Int) : Bool := p.testMaxAmps ≤ iCorr.natAbs

/-- The rise check on a history that holds the sample's condition (R65). -/
def riseFires (p : SectionParams) (h : List Bool) : Bool :=
  p.riseFilter.pair.1 ≤ (newest p.riseFilter.pair.2 h).count true

/-- The sustained check, on the updated counter (R68). -/
def sustainFires (p : SectionParams) (c : Nat) : Bool := c = p.sustainSamples

/-- The thermal check (R69). -/
def thermalFires (p : SectionParams) (heat : Nat) : Bool := tripAt p ≤ heat

/-- The states in which each check may raise a request (R59). -/
def instView : SecState → Bool := energised
def testView (v : SecState) : Bool := v == .testing
def runView : SecState → Bool
  | .closing | .live | .draining => true
  | .off | .testing | .tripped | .lockout | .maint => false

/-- The first check that fires, in the order instantaneous, test overcurrent, rise, sustained, thermal (R60). -/
def firstCheck (v : SecState) (p : SectionParams) (iCorr : Int) (h : List Bool) (c heat : Nat) : Option TripReason :=
  if instView v && instFires p iCorr then some .instantaneous
  else if testView v && testFires p iCorr then some .testOvercurrent
  else if runView v && riseFires p h then some .rise
  else if runView v && sustainFires p c then some .sustained
  else if runView v && thermalFires p heat then some .thermal
  else none

/-- The undervolt flag after a LIVE sample (R70, R71). With vhyst 0, which R3 allows, a set flag at v_avg = vmin falls under
both rules, and they differ; it clears here, as R71 says (DESIGN CHOICE, log 37). -/
def judgeUndervolt (flag : Bool) (vAvg : Nat) (p : SectionParams) : Bool :=
  if flag then !decide (p.vmin + p.vhyst ≤ vAvg) else decide (vAvg ≤ p.vmin)

/-! ## Sequencer (R99) -/

/-- The heat condition of a reclose wait: not required, or H below the derate-clear threshold (R99). -/
def State.heatAllows (s : State) (k : Sec) : Bool :=
  !(s.sec k).seq.heatRequired || (s.active k).any fun p => decide ((s.sec k).acc.heat < derateClearAt p)

/-- The states an E-stop edge or a RESTART takes to OFF: every one but OFF and LOCKOUT (R108, R110). -/
def inService : SecState → Bool
  | .off | .lockout => false
  | .testing | .closing | .live | .draining | .tripped | .maint => true

/-! ## Admission (R64, R129, R132, R141) -/

/-- A truck's reserved_amps, 0 for a truck without a record. -/
def State.reservedOf (s : State) (t : Nat) : Nat :=
  match s.truck t with
  | none => 0
  | some r => r.reserved

/-- R: the sum of reserved_amps over a section's holder list (R129). -/
def State.reserved (s : State) (k : Sec) : Nat := ((s.sec k).adm.holders.map fun t => s.reservedOf t).sum

/-- The pantograph state of a truck that has a record. -/
def State.pantoOf (s : State) (t : Nat) : Option Panto := (s.truck t).map (·.panto)

/-- The holders of a section in one pantograph state. -/
def State.holdersIn (s : State) (k : Sec) (p : Panto) : List Nat :=
  (s.sec k).adm.holders.filter fun t => s.pantoOf t == some p

/-- The section whose queue holds a truck's entry (R130: a truck has at most one). -/
def State.entrySec (s : State) (t : Nat) : Option Sec :=
  allSecs.find? fun k => (s.sec k).adm.queue.any fun e => e.truck == t

/-- The allowance: the reservations of the section's GRANTED holders, with 32767 as its ceiling (R64). -/
def State.allowance (s : State) (k : Sec) : Nat := min 32767 ((s.holdersIn k .granted).map fun t => s.reservedOf t).sum

/-- The effective budget (R132). -/
def budget (view : SecState) (undervolt derate : Bool) (active : Option SectionParams) : Nat :=
  if view ≠ .live ∨ undervolt then 0
  else match active with
    | none => 0
    | some p => if derate then p.limitAmps * p.derateShare / 8 else p.limitAmps

/-- The effective budget a section's four sources give at this moment (R132). -/
def State.budgetOf (s : State) (k : Sec) : Nat :=
  budget (s.sec k).adm.view (s.sec k).prot.undervolt (s.sec k).acc.derate (s.active k)

/-- A draw above the reservation and its tolerance, computed exactly (R141). -/
def overdrawn (truckAmps reserved pct : Nat) : Bool := reserved * (100 + pct) < truckAmps * 100

/-- A demand clamped to its class (R139). -/
def clampDemand (c : ClassRecord) (d : Nat) : Nat :=
  if d < c.demandMin then c.demandMin else if c.demandMax < d then c.demandMax else d

end Sys2Proof.Machine
end

