-- ==== Sys2Proof/Machine/Notify.lean ====
section
/-! DEFINITION. What the blocks of a section do on the sequencer's state notice (R85), but for the admission pass of
an entry to LIVE, which Machine/Admission.lean adds; and the truck table's part when a truck becomes IDLE. -/

namespace Sys2Proof.Machine

open Sys2Proof

/-! ## Measurement unit -/

/-- The sensor watchdog (re)started with the meas_ms active now, for a section that is enabled (R21). -/
def restartWatchdog (k : Sec) (s : State) : State :=
  if s.isEnabled k then s.modMeas k fun m => { m with watchdog := s.startTimer k (·.measMs) } else s

/-- Both windows are eight zeros (R27). -/
def Meas.clearWindows (m : Meas) : Meas := { m with currents := List.replicate 8 0, voltages := List.replicate 8 0 }

/-- The measurement unit acts on entry to TESTING and to MAINT (R29). -/
def measNotice (k : Sec) (new : SecState) (s : State) : State :=
  match new with
  | .testing => restartWatchdog k (s.modMeas k fun m => { m.clearWindows with iPrev := none })
  | .maint => restartWatchdog k s
  | .off | .closing | .live | .draining | .tripped | .lockout => s

/-! ## The truck table's and admission unit's parts of a truck -/

/-- A record is taken out of the order of records and the generation advances (R119, R126). -/
def removeRecord (t : Nat) (s : State) : State :=
  if s.hasTruck t then
    { s with table := { s.table with
        trucks := s.table.trucks.filter fun r => r.id ≠ t
        generation := (s.table.generation + 1) % 256 } }
  else s

/-- The admission part of an IDLE truck (R130). -/
def Truck.toIdle (r : Truck) : Truck :=
  { r with panto := .idle, hold := none, reserved := 0, demand := none, window := none, overCount := 0,
           lowerReason := none }

/-- A truck whose entries are gone becomes IDLE (R130), and on the notice a marked record is removed (R126). -/
def becomeIdle (t : Nat) (s : State) : State :=
  let s' := s.modTruck t Truck.toIdle
  if (s.truck t).any fun r => r.mark ≠ .none then removeRecord t s' else s'

/-- Take a truck's entry out of a section's queue. An emptied queue clears the stall mark (R133). -/
def dropEntry (k : Sec) (t : Nat) (s : State) : State :=
  s.modAdm k fun a =>
    let q := a.queue.filter fun e => e.truck ≠ t
    { a with queue := q, stall := a.stall && !q.isEmpty }

/-- The states in which a truck can be lowered (R144). -/
def Panto.canLower : Panto → Bool
  | .granted | .raised | .handover => true
  | .idle | .queued | .lowering => false

/-- Lower a truck (R144), but for the pass that removing its handover entry starts: that section is returned. -/
def lowerCore (t : Nat) (reason : LowerReason) (s : State) : State × List Sec :=
  match s.truck t with
  | none => (s, [])
  | some r =>
    if r.panto.canLower then
      let target := if r.panto = .handover then s.entrySec t else none
      let s1 := match target with
        | none => s
        | some k => dropEntry k t s
      let s2 := s1.modTruck t fun r => { r with
        panto := .lowering
        window := some { kind := .lower, left := (s.classOf r).lowerMs }
        lowerReason := some reason }
      (placeLower t reason r.sec s2, target.toList)
    else (s, [])

/-- Lower several trucks in order, as one event, with the sections whose passes that starts (log 13). -/
def lowerEach (reason : LowerReason) : List Nat → State → State × List Sec
  | [], s => (s, [])
  | t :: ts, s =>
    let (s1, p1) := lowerCore t reason s
    let (s2, p2) := lowerEach reason ts s1
    (s2, p1 ++ p2)

/-! ## Admission unit -/

/-- Compute the effective budget anew (R132). -/
def recompute (k : Sec) (s : State) : State := s.modAdm k fun a => { a with bEff := s.budgetOf k }

/-- On leaving LIVE each truck whose handover entry stands in the queue loses it and is lowered with reason MOVED
(R148). The passes this starts find a budget of 0 and clear the stall mark (log 25). -/
def dropHandovers (k : Sec) (s : State) : State :=
  let ts := ((s.sec k).adm.queue.filter fun e => e.kind = .handover).map (·.truck)
  let s1 := s.modAdm k fun a => { a with
    queue := a.queue.filter fun e => e.kind ≠ .handover
    stall := a.stall && ts.isEmpty }
  (lowerEach .moved ts s1).1

/-- One queued truck made IDLE and sent a DENY, to the reader of its section field (R131, R148, R150, R151). -/
def denyQueued (reason : DenyReason) (t : Nat) (s : State) : State :=
  match s.truck t with
  | none => s
  | some r => if r.panto = .queued then offerDeny t reason r.sec (becomeIdle t s) else s

/-- Every truck of a section's queue is dequeued, made IDLE and denied, in queue order (R148, R150, R151). The
passes this starts find an empty budget (log 25). -/
def denyQueue (k : Sec) (reason : DenyReason) (s : State) : State :=
  let ts := (s.sec k).adm.queue.map (·.truck)
  ts.foldl (fun s t => denyQueued reason t s) (s.modAdm k fun a => { a with queue := [], stall := false })

/-- What a state notice is part of (R148). -/
inductive NoticeCause where
  | plain | estop | restart
  deriving DecidableEq, Repr

/-- The admission unit's part of a state notice, but for the pass of an entry to LIVE (R148). -/
def admNotice (k : Sec) (new : SecState) (cause : NoticeCause) (s : State) : State :=
  let old := (s.sec k).adm.view
  let s1 := recompute k (s.modAdm k fun a => { a with view := new })
  if cause = .plain then
    let s2 := if old = .live ∧ new ≠ .live then dropHandovers k s1 else s1
    if new = .off then denyQueue k .sectionOff s2 else s2
  else s1

/-! ## Protection unit -/

/-- The protection unit takes the state a notice names (R58). Leaving LIVE clears the undervolt flag; the admission
unit, told if it was set, computes its budget anew. -/
def protNotice (k : Sec) (new : SecState) (s : State) : State :=
  let old := (s.sec k).prot
  let s1 := s.modProt k fun p => { p with view := new }
  let s2 := if new = .testing then
      s1.modProt k fun p => { p with history := [], sustained := 0, last := none }
    else s1
  if old.view = .live ∧ new ≠ .live ∧ old.undervolt then
    recompute k (s2.modProt k fun p => { p with undervolt := false })
  else s2

/-! ## The notices of one change of state -/

/-- Whether the change answers a trip request: then the answer serves as the protection unit's notice (R85). -/
inductive ProtTold where
  | byNotice | byAnswer
  deriving DecidableEq, Repr

/-- The notices of a change of state (R85): measurement, admission, protection, in this order (log 12). The section
state is set before. -/
def notifyState (k : Sec) (new : SecState) (cause : NoticeCause) (told : ProtTold) (s : State) : State :=
  let s1 := admNotice k new cause (measNotice k new s)
  match told with
  | .byNotice => protNotice k new s1
  | .byAnswer => s1

end Sys2Proof.Machine
end

