-- ==== Sys2Proof/Machine/Sequencing.lean ====
section
/-! DEFINITION. The sequencer's commands (R84) and the actions it takes on the admission unit's and accounting unit's
notices: the end of a drain (R103) and the end of a reclose wait (R99, R100). -/

namespace Sys2Proof.Machine

open Sys2Proof

/-- Place a command in the priority lane, addressed to the frontend_addr of the active copy (R84). Without an active
copy there is no front-end to address (log 18). -/
def placeCommand (k : Sec) (c : BreakerCmd) (s : State) : State :=
  match s.active k with
  | none => s
  | some p => placePriority (.command k p.frontendAddr c) s

/-- OPEN: the expectation becomes OPEN and the breaker timer is started (R84). -/
def commandOpen (k : Sec) (s : State) : State :=
  placeCommand k .openCmd (s.modSeq k fun q => { q with
    expectation := .opened, breakerTimer := s.startTimer k (·.breakerMs) })

/-- CLOSE: the expectation becomes CLOSED and the breaker timer is started (R84). -/
def commandClose (k : Sec) (s : State) : State :=
  placeCommand k .closeCmd (s.modSeq k fun q => { q with
    expectation := .closed, breakerTimer := s.startTimer k (·.breakerMs) })

/-- TEST: expectation and breaker timer are left as they stand (R84). -/
def commandTest (k : Sec) (s : State) : State := placeCommand k .testCmd s

/-- The accounting unit's heat watch, placed or withdrawn at the sequencer's request (R99). -/
def setWatch (k : Sec) (b : Bool) (s : State) : State := s.modAcc k fun a => { a with heatWatch := b }

/-- The timers of a sequence and its reclose wait are stopped, and a heat watch is withdrawn (R88, R108, R110). -/
def stopSequence (k : Sec) (s : State) : State :=
  setWatch k false (s.modSeq k fun q => { q with
    testTimer := none, recloseTimer := none, stableTimer := none, reclosePending := false, heatRequired := false })

/-- A drain ends: OPEN, OFF with last_off_reason DEENERGIZE, the state notices (R103). -/
def drainEnd (k : Sec) (s : State) : State :=
  notifyState k .off .plain .byNotice
    (commandOpen k (s.modSeq k fun q => { q with state := .off, lastOff := some .deenergize }))

/-- Entry to TESTING: the notices, then TEST and the test timer (R92, R100). -/
def enterTesting (k : Sec) (s : State) : State :=
  let s1 := notifyState k .testing .plain .byNotice (s.modSeq k fun q => { q with state := .testing })
  let s2 := commandTest k s1
  s2.modSeq k fun q => { q with testTimer := s2.startTimer k (·.testMs) }

/-- A section leaves TRIPPED for a new line test (R100). -/
def leaveTripped (k : Sec) (s : State) : State :=
  enterTesting k (setWatch k false (s.modSeq k fun q => { q with
    recloseTimer := none, reclosePending := false, heatRequired := false }))

/-- The two conditions of the reclose wait, judged at the expiry or again (R99): both hold and the wait ends, or the
section waits on, with a heat watch where the heat condition fails. -/
def judgeReclose (k : Sec) (s : State) : State :=
  if (s.sec k).adm.holders = [] ∧ s.heatAllows k then leaveTripped k s
  else
    let s1 := s.modSeq k fun q => { q with reclosePending := true }
    if s.heatAllows k then s1 else setWatch k true s1

/-- A notice that may end a reclose wait; it changes nothing where no wait is (R99). -/
def rejudge (k : Sec) (s : State) : State :=
  if (s.sec k).seq.state = .tripped ∧ (s.sec k).seq.reclosePending then judgeReclose k s else s

/-- The sequencer takes the notice that the section's holder list has become empty (R99, R103, R134). -/
def holdersEmptied (k : Sec) (s : State) : State :=
  if (s.sec k).seq.state = .draining then drainEnd k s else rejudge k s

end Sys2Proof.Machine
end

