-- ==== Sys2Proof/Machine/Admission.lean ====
section
/-! DEFINITION. The admission pass, grants, releases and lowering (R134 to R138, R142 to R144), the let-go (R153), the
truck reports (R139 to R142), moves (R145, R146) and window expiries (R143, R144, R147), and the notices of a changed
budget (R132). -/

namespace Sys2Proof.Machine

open Sys2Proof

/-! ## Grants -/

/-- An ordinary grant of the head entry of `k`'s queue (R137). -/
def grantOrdinary (k : Sec) (e : QueueEntry) (r : Truck) (s : State) : State :=
  let amps := r.demand.getD e.amount
  let ms := (s.classOf r).grantMs
  let s1 := (dropEntry k e.truck s).modTruck e.truck fun r => { r with
    reserved := amps, demand := none, hold := some k, panto := .granted, window := some { kind := .grant, left := ms } }
  let s2 := s1.modAdm k fun a => { a with holders := a.holders ++ [e.truck] }
  match s.reader r.sec with
  | none => s2
  | some dest => placeGrant (.grant e.truck dest k amps ms) s2

/-- Take a truck out of a section's holder list: the first step of a release (R134). -/
def dropHolder (k : Sec) (t : Nat) (s : State) : State :=
  s.modAdm k fun a => { a with holders := a.holders.filter (· ≠ t) }

/-- A handover grant of the head entry of `k`'s queue, with the section whose reservation it releases (R138). The
rest of that release runs after the present pass. -/
def grantHandover (k : Sec) (e : QueueEntry) (r : Truck) (s : State) : State × List Sec :=
  let ms := (s.classOf r).grantMs
  let s1 := dropEntry k e.truck s
  let s2 := match r.hold with
    | none => s1
    | some h => dropHolder h e.truck s1
  let s3 := (s2.modAdm k fun a => { a with holders := a.holders ++ [e.truck] }).modTruck e.truck fun r => { r with
    hold := some k, panto := .granted, window := some { kind := .grant, left := ms } }
  let s4 := match s.reader r.sec with
    | none => s3
    | some dest => placeGrant (.grant e.truck dest k r.reserved ms) s3
  (s4, r.hold.toList)

/-- The head entry is granted by its kind (R135), with the sections a handover grant released. -/
def grantHead (k : Sec) (e : QueueEntry) (s : State) : State × List Sec :=
  match s.truck e.truck with
  | none => (dropEntry k e.truck s, [])
  | some r =>
    match e.kind with
    | .ordinary => (grantOrdinary k e r s, [])
    | .handover => grantHandover k e r s

/-! ## The pass -/

/-- The run of an admission pass over a queue, at most `n` entries long (R135). -/
def passLoop : Nat → Sec → State → State × List Sec
  | 0, _, s => (s, [])
  | n + 1, k, s =>
    match (s.sec k).adm.queue with
    | [] => (s, [])
    | e :: _ =>
      if s.reserved k + e.amount ≤ (s.sec k).adm.bEff then
        if hasPlace s then
          let (s1, p1) := grantHead k e s
          let (s2, p2) := passLoop n k s1
          (s2, p1 ++ p2)
        else (s.modAdm k fun a => { a with stall := true }, [])
      else (s, [])

/-- One admission pass on a section, with the sections its handover grants released (R135). -/
def pass (k : Sec) (s : State) : State × List Sec :=
  passLoop ((s.sec k).adm.queue.length) k (s.modAdm k fun a => { a with stall := false })

/-- Work that follows a change of the queues: a pass, or the pass and emptiness notice of a release (R134). -/
inductive Job where
  | pass (k : Sec)
  | release (k : Sec)
  deriving DecidableEq, Repr

/-- The last step of a release: an emptied list is notified to the sequencer (R134). -/
def notifyIfEmpty (k : Sec) (s : State) : State :=
  if (s.sec k).adm.holders = [] then holdersEmptied k s else s

/-- One job, with the releases its handover grants leave to be finished. -/
def runJob (j : Job) (s : State) : State × List Job :=
  match j with
  | .pass k =>
    let (s1, rel) := pass k s
    (s1, rel.map .release)
  | .release k =>
    let (s1, rel) := pass k s
    (notifyIfEmpty k s1, rel.map .release)

/-- Jobs run in order; those a job leaves run after the ones that wait (R138, log 14). -/
def runJobs : Nat → List Job → State → State
  | 0, _, s => s
  | _ + 1, [], s => s
  | n + 1, j :: js, s =>
    let (s1, more) := runJob j s
    runJobs n (js ++ more) s1

/-- The number of entries in all queues: each job beyond the first ones was left by a handover grant, which removed
an entry, so this bounds them. -/
def State.queued (s : State) : Nat := (allSecs.map fun k => (s.sec k).adm.queue.length).sum

/-- Run jobs and all they leave. -/
def settle (jobs : List Job) (s : State) : State := runJobs (jobs.length + s.queued) jobs s

/-- An admission pass on a section and what its grants release (R135). -/
def runPass (k : Sec) (s : State) : State := settle [.pass k] s

/-- Passes on several sections, in order. -/
def runPasses (ks : List Sec) (s : State) : State := settle (ks.map .pass) s

/-! ## Budget notices (R132) -/

/-- A notice on which the budget is computed anew; a rise runs a pass (R132). -/
def budgetNotice (k : Sec) (s : State) : State :=
  let s1 := recompute k s
  if (s.sec k).adm.bEff < (s1.sec k).adm.bEff then runPass k s1 else s1

/-- A section becomes LIVE: the state notices, with the pass of an entry to LIVE (R148). -/
def notifyLive (k : Sec) (s : State) : State := runPass k (notifyState k .live .plain .byNotice s)

/-! ## Releases and lowering -/

/-- Release a truck's reservation on a section: the entry, the pass, the emptiness notice (R134). -/
def release (k : Sec) (t : Nat) (s : State) : State := settle [.release k] (dropHolder k t s)

/-- Release a truck's reservation where it holds one, and make it IDLE (R142, R143, R145). -/
def releaseToIdle (t : Nat) (hold : Option Sec) (s : State) : State :=
  becomeIdle t (match hold with
    | none => s
    | some k => release k t s)

/-- Take a queue entry out other than by a grant: a pass follows (R133). -/
def leaveQueue (k : Sec) (t : Nat) (s : State) : State := runPass k (dropEntry k t s)

/-- Lower one truck (R144). -/
def lower (t : Nat) (reason : LowerReason) (s : State) : State :=
  let (s1, ps) := lowerCore t reason s
  runPasses ps s1

/-- Lower several trucks as one event; the passes their handover entries start run when all are lowered (log 13). -/
def lowerAll (ts : List Nat) (reason : LowerReason) (s : State) : State :=
  let (s1, ps) := lowerEach reason ts s
  runPasses ps s1

/-- The revocation of every holder of a section, oldest first (R149). -/
def revoke (k : Sec) (reason : LowerReason) (s : State) : State := lowerAll (s.sec k).adm.holders reason s

/-- A drain (R150). -/
def drain (k : Sec) (s : State) : State := denyQueue k .sectionOff (revoke k .drain s)

/-! ## Limit revocation (R152) -/

/-- The holders of a section not in LOWERING. -/
def State.standing (s : State) (k : Sec) : List Nat :=
  (s.sec k).adm.holders.filter fun t => s.pantoOf t != some .lowering

/-- From the newest holder toward the oldest, those lowered until the rest come to at most `limit` (R152). -/
def excess (amps : Nat → Nat) (limit : Nat) : List Nat → List Nat
  | [] => []
  | t :: older =>
    if limit < ((t :: older).map amps).sum then t :: excess amps limit older else []

/-- The holders a changed limit lowers, newest first (R152). -/
def State.overLimit (s : State) (k : Sec) (limit : Nat) : List Nat :=
  excess (fun t => s.reservedOf t) limit (s.standing k).reverse

/-- The store's notice of a changed limit (R11, R152): the budget, the revocation, and then a pass if it rose. -/
def limitNotice (k : Sec) (s : State) : State :=
  let s1 := recompute k s
  let s2 := match s.active k with
    | none => s1
    | some p => lowerAll (s1.overLimit k p.limitAmps) .limit s1
  if (s.sec k).adm.bEff < (s1.sec k).adm.bEff then runPass k s2 else s2

/-! ## Let-go (R153) -/

/-- The admission unit lets a departing or evicted truck go (R153). -/
def letGo (t : Nat) (reason : LowerReason) (s : State) : State :=
  match s.truck t with
  | none => s
  | some r =>
    match r.panto with
    | .idle | .lowering => s
    | .queued => becomeIdle t (leaveQueue r.sec t s)
    | .granted | .raised | .handover => lower t reason s

/-! ## Raise requests (R139) -/

/-- A truck's position in a queue, counted from 1 (R133). -/
def positionIn (t : Nat) (q : List QueueEntry) : Nat := q.findIdx (fun e => e.truck = t) + 1

/-- WAIT for a truck that is still QUEUED (R139). -/
def waitIfQueued (t : Nat) (k : Sec) (s : State) : State :=
  if s.pantoOf t = some .queued then offerWait t (positionIn t (s.sec k).adm.queue) k s else s

/-- The states in which a section takes trucks into its queue (R139). -/
def takesQueue : SecState → Bool
  | .testing | .closing | .live | .tripped => true
  | .off | .lockout | .maint | .draining => false

/-- A RAISE_REQ of a truck with a record, taken at section `x` (R139). -/
def raiseRequest (t : Nat) (x : Sec) (demand : Nat) (s : State) : State :=
  match s.truck t with
  | none => s
  | some r =>
    match r.panto with
    | .granted | .raised | .handover | .lowering => s
    | .idle =>
      if x ≠ r.sec then offerDeny t .moved x s
      else if takesQueue (s.sec x).adm.view then
        let d := clampDemand (s.classOf r) demand
        let s1 := s.modTruck t fun r => { r with demand := some d, panto := .queued }
        let s2 := s1.modAdm x fun a => { a with queue := a.queue ++ [{ truck := t, kind := .ordinary, amount := d }] }
        waitIfQueued t x (runPass x s2)
      else offerDeny t .sectionOff x s
    | .queued =>
      if x ≠ r.sec then offerDeny t .moved x s
      else
        let d := clampDemand (s.classOf r) demand
        let s1 := s.modTruck t fun r => { r with demand := some d }
        let s2 := s1.modAdm x fun a => { a with
          queue := a.queue.map fun e => if e.truck = t then { e with amount := d } else e }
        waitIfQueued t x s2

/-! ## Reports (R140 to R142) -/

/-- A report "up", taken at section `x` (R140, R141). -/
def reportUp (t : Nat) (x : Sec) (truckAmps : Nat) (s : State) : State :=
  match s.truck t with
  | none => s
  | some r =>
    match r.panto with
    | .idle | .queued => placeLower t .notGranted x s
    | .granted => s.modTruck t fun r => { r with panto := .raised, window := none, overCount := 0 }
    | .raised =>
      if overdrawn truckAmps r.reserved (s.classOf r).overdrawPct then
        let s1 := s.modTruck t fun r => { r with overCount := r.overCount + 1 }
        if 3 ≤ r.overCount + 1 then lower t .overdraw s1 else s1
      else s.modTruck t fun r => { r with overCount := 0 }
    | .handover | .lowering => s

/-- A report "down" (R142). -/
def reportDown (t : Nat) (s : State) : State :=
  match s.truck t with
  | none => s
  | some r =>
    match r.panto with
    | .granted | .raised | .lowering => releaseToIdle t r.hold s
    | .handover =>
      releaseToIdle t r.hold (match s.entrySec t with
        | none => s
        | some k => leaveQueue k t s)
    | .idle | .queued => s

/-! ## Moves (R145 to R147) -/

/-- The place of a handover entry: the tail of the handover group, ahead of every ordinary entry (R133). -/
def joinHandover (e : QueueEntry) (q : List QueueEntry) : List QueueEntry :=
  (q.filter fun x => x.kind = .handover) ++ [e] ++ (q.filter fun x => x.kind ≠ .handover)

/-- A RAISED truck's move to the LIVE next section uphill: HANDOVER, its entry, its window and a pass (R146). -/
def beginHandover (t : Nat) (new : Sec) (r : Truck) (s : State) : State :=
  let s1 := s.modTruck t fun r => { r with
    panto := .handover, window := some { kind := .handover, left := (s.classOf r).handoverMs } }
  let s2 := s1.modAdm new fun a => { a with
    queue := joinHandover { truck := t, kind := .handover, amount := r.reserved } a.queue }
  runPass new s2

/-- A move the truck table hands over, from section `old` to section `new`, with the section field already `new`
(R145 to R147). -/
def moveTruck (t : Nat) (old new : Sec) (s : State) : State :=
  match s.truck t with
  | none => s
  | some r =>
    match r.panto with
    | .idle | .lowering => s
    | .queued => becomeIdle t (leaveQueue old t s)
    | .granted => offerDeny t .moved new (releaseToIdle t r.hold s)
    | .raised =>
      if (s.active old).any (fun p => p.nextUphill == some new) && (s.sec new).adm.view == .live then
        beginHandover t new r s
      else lower t .moved s
    | .handover => lower t .moved s

/-! ## Window expiries (R143, R144, R147) -/

/-- The window of a truck that runs, if it is of the kind named. -/
def Truck.runs (r : Truck) (k : WindowKind) : Bool := r.window.any fun w => w.kind == k

/-- A grant window expires (R143). -/
def grantExpires (t : Nat) (s : State) : State :=
  match s.truck t with
  | none => s
  | some r =>
    if r.runs .grant then offerDeny t .grantExpired r.sec (releaseToIdle t r.hold s) else s

/-- A handover window expires (R147). -/
def handoverExpires (t : Nat) (s : State) : State :=
  match s.truck t with
  | none => s
  | some r => if r.runs .handover then lower t .handoverLate s else s

/-- A lower window expires (R144). -/
def lowerExpires (t : Nat) (s : State) : State :=
  match s.truck t with
  | none => s
  | some r =>
    if r.runs .lower then
      let s1 := releaseToIdle t r.hold s
      match r.hold with
      | none => s1
      | some k => raise (some k) (.pantoUnconfirmed t r.lowerReason) s1
    else s

end Sys2Proof.Machine
end

