-- ==== Sys2Proof/Machine/Capture.lean ====
section
/-! DEFINITION. The accounting unit's capture and counts (R42, R47, R48, R51, R52) and the protection unit's trip
record (R74 to R77), which the sequencer and the management unit hand work to. -/

namespace Sys2Proof.Machine

open Sys2Proof

/-- The live accumulators after a CAPTURE_CLEAR: max_h starts at H as it stands (R46, R48). -/
def clearedBooks (heat : Nat) : Books := { Books.zero with maxH := heat }

/-- A capture at one accounting unit (R47, R48). -/
def captureAt (kind : CaptureKind) (fell rose : Bool) (a : Acc) : Acc :=
  { a with
    result := { captureNo := (a.result.captureNo + 1) % 65536, kind := kind, books := a.books, fellSeen := fell,
                roseSeen := rose }
    books := if kind = .clear then clearedBooks a.heat else a.books }

/-- A capture carried to the eight accounting units together (chapter 3.4). -/
def captureAll (kind : CaptureKind) (fell rose : Bool) (s : State) : State :=
  allSecs.foldl (fun s k => s.modAcc k (captureAt kind fell rose)) s

/-- The limited capture of an emergency stop, with the edge flags as they stand (R51). -/
def limitedCapture (s : State) : State := captureAll .limited s.chip.fellSeen s.chip.roseSeen s

/-- The sequencer hands the accounting unit one trip to count (R42). -/
def countTrip (k : Sec) (s : State) : State :=
  s.modAcc k fun a => { a with books := { a.books with trips := min 255 (a.books.trips + 1) } }

/-- The sequence check hands the accounting unit missed samples to count (R18, R42). -/
def countMissed (k : Sec) (n : Nat) (s : State) : State :=
  s.modAcc k fun a => { a with books := { a.books with missed := min 65535 (a.books.missed + n) } }

/-- The protection unit hands the accounting unit its sustained counter (R42). -/
def reportRun (k : Sec) (c : Nat) (s : State) : State :=
  s.modAcc k fun a => { a with books := { a.books with longestRun := max a.books.longestRun c } }

/-- An absent trip record is filled, and a present one gets its more flag set (R74, R77). -/
def recordTrip (new : TripRecord) : Option TripRecord → Option TripRecord
  | none => some new
  | some r => some { r with more := true }

/-- The sequencer's line-test failure report (R77). -/
def lineTestReport (k : Sec) (s : State) : State :=
  let heat := (s.sec k).acc.heat
  s.modProt k fun p => { p with
    record := recordTrip { reason := .lineTest, iCorr := p.last.map (·.iCorr), vAvg := p.last.map (·.vAvg),
                           seq := p.last.map (·.seq), heat := heat, more := false } p.record }

/-- An acted answer fills the record from the request, or sets its more flag; an ignored one only sets the more flag
of a present record (R74). -/
def recordAnswer (r : TripRequest) (a : TripAnswer) (old : Option TripRecord) : Option TripRecord :=
  match a with
  | .acted _ => recordTrip { reason := r.reason, iCorr := r.iCorr, vAvg := r.vAvg, seq := r.seq, heat := r.heat,
                             more := false } old
  | .ignored => old.map fun x => { x with more := true }

/-- The protection unit takes the answer to its trip request (R74, R76). -/
def takeAnswer (k : Sec) (r : TripRequest) (a : TripAnswer) (s : State) : State :=
  let s1 := s.modProt k fun p => { p with outstanding := false, record := recordAnswer r a p.record }
  match a with
  | .ignored => s1
  | .acted st =>
    let s2 := protNotice k st s1
    let s3 := if (s1.sec k).adm.bEff < (s2.sec k).adm.bEff then runPass k s2 else s2
    raise (some k) (.trip r.reason r.seq r.cause) s3

end Sys2Proof.Machine
end

