-- ==== Sys2Proof/Machine/Sequencer.lean ====
section
/-! DEFINITION. The section sequencer and its chip-level part: breaker feedback and failure (R86 to R89), the line
test (R93, R94), trips (R96 to R98), the timers (R87, R93, R95, R99), taking a section off (R102), and the
emergency-stop loop (R107 to R109, R151). -/

namespace Sys2Proof.Machine

open Sys2Proof

/-! ## Breaker feedback and failure -/

/-- A section in CLOSING becomes LIVE (R94). -/
def becomeLive (k : Sec) (s : State) : State :=
  notifyLive k (s.modSeq k fun q => { q with
    breakerTimer := none, state := .live, stableTimer := s.startTimer k (·.stableMs) })

/-- The backup trip is asserted and its notice raised (R89). -/
def assertBackup (k : Sec) (s : State) : State :=
  raise none (.backupTrip k) { s with chip := { s.chip with backupTrip := true } }

/-- The breaker has had its time to open and failed (R88). -/
def failedToOpen (cause : FailCause) (expBefore : Position) : Bool := cause = .timeout && expBefore = .opened

/-- A breaker failure (R88). -/
def breakerFailure (k : Sec) (cause : FailCause) (s : State) : State :=
  let q := (s.sec k).seq
  let s1 := commandOpen k ((stopSequence k s).modSeq k fun q => { q with state := .lockout })
  let s2 := if failedToOpen cause q.expectation || q.lastFeedback = .opened then
      s1.modSeq k fun q => { q with breakerTimer := none }
    else s1
  let s3 := if failedToOpen cause q.expectation && q.lastFeedback = .closed then assertBackup k s2 else s2
  let s4 := notifyState k .lockout .plain .byNotice (revoke k .trip s3)
  raise (some k) (.breakerFail cause q.expectation q.lastFeedback q.state) s4

/-- The sequencer judges and records a delivered breaker position (R86). -/
def feedback (k : Sec) (pos : Position) (s : State) : State :=
  let q := (s.sec k).seq
  let s1 := s.modSeq k fun q => { q with lastFeedback := pos }
  if pos = q.expectation then
    if q.breakerTimer.isSome then
      if q.state = .closing then becomeLive k s1 else s1.modSeq k fun q => { q with breakerTimer := none }
    else s1
  else if q.breakerTimer.isNone ∧ pos ≠ q.lastFeedback then breakerFailure k .unexpected s1
  else s1

/-- A breaker timer expires (R87). -/
def breakerExpires (k : Sec) (s : State) : State :=
  let q := (s.sec k).seq
  if q.breakerTimer.isNone then s
  else
    let s1 := s.modSeq k fun q => { q with breakerTimer := none }
    if q.lastFeedback = q.expectation then
      if q.state = .closing ∧ q.lastFeedback = .closed then becomeLive k s1 else s1
    else breakerFailure k .timeout s1

/-! ## Trips -/

/-- Where the trip path takes a section: LOCKOUT without auto_reclose or above max_attempts, else TRIPPED (R97). -/
def tripTarget (p : Option SectionParams) (attempts : Nat) : SecState :=
  match p with
  | none => .lockout
  | some p => if p.autoReclose = false ∨ p.maxAttempts < attempts then .lockout else .tripped

/-- The fourth step of the trip path: the state, and the LOCKOUT notice or the reclose wait (R97). -/
def enterTripped (k : Sec) (reason : TripReason) (s : State) : State :=
  let n := (s.sec k).seq.attempts
  match tripTarget (s.active k) n with
  | .tripped => s.modSeq k fun q => { q with
      state := .tripped, recloseTimer := s.startTimer k (·.recloseMs), heatRequired := decide (reason = .thermal) }
  | _ => raise (some k) (.lockout reason n) (s.modSeq k fun q => { q with state := .lockout })

/-- The trip path (R97). -/
def tripPath (k : Sec) (reason : TripReason) (told : ProtTold) (s : State) : State :=
  let s1 := commandOpen k (s.modSeq k fun q => { q with testTimer := none, stableTimer := none })
  let s2 := enterTripped k reason (s1.modSeq k fun q => { q with attempts := q.attempts + 1 })
  let s3 := revoke k .trip s2
  notifyState k (s3.sec k).seq.state .plain told s3

/-- A trip acted in DRAINING (R98). -/
def tripDraining (k : Sec) (s : State) : State :=
  let s1 := commandOpen k (s.modSeq k fun q => { q with state := .off, lastOff := some .deenergize })
  notifyState k .off .plain .byAnswer (revoke k .trip s1)

/-- A trip acted in MAINT (R98). -/
def tripMaint (k : Sec) (reason : TripReason) (s : State) : State :=
  let s1 := commandOpen k (s.modSeq k fun q => { q with state := .lockout })
  let s2 := raise (some k) (.lockout reason (s.sec k).seq.attempts) s1
  notifyState k .lockout .plain .byAnswer (revoke k .trip s2)

/-- What the sequencer does with a trip request by the state it finds (R96). -/
def tripByState (k : Sec) (reason : TripReason) (s : State) : State :=
  match (s.sec k).seq.state with
  | .testing | .closing | .live => tripPath k reason .byAnswer s
  | .draining => tripDraining k s
  | .maint => tripMaint k reason s
  | .off | .tripped | .lockout => s

/-- The sequencer takes a trip request and hands the protection unit its answer (R96). -/
def takeTripRequest (k : Sec) (r : TripRequest) (s : State) : State :=
  if energised (s.sec k).seq.state then
    let s1 := countTrip k (tripByState k r.reason s)
    hand (.tripAnswer k r (.acted (s1.sec k).seq.state)) s1
  else hand (.tripAnswer k r .ignored) s

/-! ## The line test and the other timers -/

/-- A line test fails at the expiry of its timer (R93). -/
def lineTestFails (k : Sec) (vAvg : Nat) (p : SectionParams) (s : State) : State :=
  let s1 := countTrip k (tripPath k .lineTest .byNotice (lineTestReport k s))
  raise (some k) (.lineTestFail vAvg p.testPass (s1.sec k).seq.attempts) s1

/-- A line test passes: CLOSING, the notices, CLOSE (R93). The expectation and the breaker timer are set with the
state; no notice reads them. -/
def lineTestPasses (k : Sec) (s : State) : State :=
  placeCommand k .closeCmd (notifyState k .closing .plain .byNotice (s.modSeq k fun q => { q with
    state := .closing, expectation := .closed, breakerTimer := s.startTimer k (·.breakerMs) }))

/-- A test timer expires (R93). -/
def testExpires (k : Sec) (s : State) : State :=
  let q := (s.sec k).seq
  if q.testTimer.isNone then s
  else
    let s1 := s.modSeq k fun q => { q with testTimer := none }
    let v := vAvgOf (s.sec k).meas.voltages
    match s.active k with
    | none => s1
    | some p =>
      if q.state ≠ .testing then s1
      else if p.testPass ≤ v then lineTestPasses k s1 else lineTestFails k v p s1

/-- A reclose timer expires (R99). -/
def recloseExpires (k : Sec) (s : State) : State :=
  let q := (s.sec k).seq
  if q.recloseTimer.isNone then s
  else
    let s1 := s.modSeq k fun q => { q with recloseTimer := none }
    if q.state = .tripped then judgeReclose k s1 else s1

/-- A stable timer expires (R95). -/
def stableExpires (k : Sec) (s : State) : State :=
  let q := (s.sec k).seq
  if q.stableTimer.isNone then s
  else if q.state = .live then s.modSeq k fun q => { q with stableTimer := none, attempts := 0 }
  else s.modSeq k fun q => { q with stableTimer := none }

/-! ## Taking a section off by request -/

/-- DEENERGIZE by the section state; MAINT is refused before (R102). -/
def takeOff (k : Sec) (s : State) : State :=
  let toOff (s : State) : State := notifyState k .off .plain .byNotice s
  match (s.sec k).seq.state with
  | .off | .draining | .maint => s
  | .testing => toOff (commandOpen k (s.modSeq k fun q => { q with
      testTimer := none, state := .off, lastOff := some .deenergize }))
  | .closing => toOff (commandOpen k (s.modSeq k fun q => { q with state := .off, lastOff := some .deenergize }))
  | .live =>
    let s1 := notifyState k .draining .plain .byNotice (s.modSeq k fun q => { q with
      stableTimer := none, state := .draining })
    let s2 := drain k s1
    if (s2.sec k).adm.holders = [] ∧ (s2.sec k).seq.state = .draining then drainEnd k s2 else s2
  | .tripped => toOff (setWatch k false (s.modSeq k fun q => { q with
      recloseTimer := none, reclosePending := false, heatRequired := false, attempts := 0, state := .off,
      lastOff := some .deenergize }))
  | .lockout => toOff (s.modSeq k fun q => { q with attempts := 0, state := .off, lastOff := some .deenergize })

/-! ## The emergency-stop loop -/

/-- A level of ESTOP_N other than the one it held (R107). -/
def estopChange (high : Bool) (s : State) : State :=
  let c := s.chip
  if high = c.estopPin then s
  else
    let f := match c.filter with
      | none => some { candidate := high, left := 2 }
      | some f => if high = c.estopClosed then none else some f
    { s with chip := { c with estopPin := high, filter := f } }

/-- One section goes to OFF at a falling edge (R108). -/
def estopSection (k : Sec) (s : State) : State :=
  let s1 := (stopSequence k s).modSeq k fun q => { q with attempts := 0, lastOff := some .estop, state := .off }
  notifyState k .off .estop .byNotice (commandOpen k s1)

/-- Those sections of a list that are in service are taken off by `act`, in its order, with their list (R108, R110). -/
def takeEach (act : Sec → State → State) : List Sec → State → State × List Sec
  | [], s => (s, [])
  | k :: ks, s =>
    if inService (s.sec k).seq.state then
      let (t, off) := takeEach act ks (act k s)
      (t, k :: off)
    else takeEach act ks s

/-- The sections in service go to OFF, with their list (R108); in ascending order, and so their OPENs join the lane
(DESIGN CHOICE, log 33). -/
def estopSections (s : State) : State × List Sec := takeEach estopSection allSecs s

/-- The admission unit's emergency stop over all eight sections (R151). -/
def emergencyStop (s : State) : State :=
  let s1 := lowerAll (allSecs.flatMap fun k => (s.sec k).adm.holders) .estop s
  allSecs.foldl (fun s k => denyQueue k .estop s) s1

/-- A falling edge of the E-stop loop (R108). -/
def fallingEdge (s : State) : State :=
  let (s1, off) := estopSections { s with chip := { s.chip with fellSeen := true } }
  raise none (.estop off) (limitedCapture (emergencyStop s1))

/-- The E-stop filter expires (R107 to R109). -/
def estopExpires (s : State) : State :=
  match s.chip.filter with
  | none => s
  | some f =>
    let s1 := { s with chip := { s.chip with filter := none, estopClosed := f.candidate } }
    if f.candidate = s.chip.estopClosed then s1
    else if f.candidate then { s1 with chip := { s1.chip with roseSeen := true } }
    else fallingEdge s1

end Sys2Proof.Machine
end

