-- ==== Sys2Proof/Machine/Accounting.lean ====
section
/-! DEFINITION. The accounting unit's work on a good sample (R36 to R46) and the heat watch's answer (R99). -/

namespace Sys2Proof.Machine

open Sys2Proof

/-- A good sample as the measurement unit hands it on, less what continuity needs (R28). -/
structure Sample where
  seq : Nat
  iCorr : Int
  voltage : Nat
  iAvg : Int
  vAvg : Nat
  deriving DecidableEq, Repr

/-- Energy and count after a sample (R37, R38). -/
def addPower (x : Sample) (b : Books) : Books :=
  { b with energy := addEnergy b.energy (x.iCorr * x.voltage), count := min max32 (b.count + 1) }

/-- Energy, and count, stand at their saturation value (R39). -/
def Books.energyFull (b : Books) : Bool := b.energy = energyMax || b.energy = -energyMax
def Books.countFull (b : Books) : Bool := b.count = max32

/-- The first saturation since the last clearing sets the overflow flag and raises ACCUM_OVERFLOW (R39). -/
def judgeOverflow (k : Sec) (seq : Nat) (s : State) : State :=
  let b := (s.sec k).acc.books
  if (b.energyFull || b.countFull) && !b.overflow then
    raise (some k) (.accumOverflow b.energyFull b.countFull seq)
      (s.modAcc k fun a => { a with books := { a.books with overflow := true } })
  else s

/-- Peak and peak_seq after a sample (R40). -/
def addPeak (x : Sample) (b : Books) : Books :=
  if b.peakSeq = none ∨ b.peak < x.iCorr.natAbs then { b with peak := x.iCorr.natAbs, peakSeq := some x.seq } else b

/-- min_v after a sample, which counts only in LIVE (R41). -/
def addMinV (live : Bool) (x : Sample) (b : Books) : Books :=
  if live && b.minV.all (fun v => decide (x.vAvg < v)) then { b with minV := some x.vAvg } else b

/-- The derate flag is judged against the new H. A change is notified to the admission unit, a setting raises DERATE,
and a clearing goes to the sequencer, as does the answer to a heat watch that the new H satisfies (R45, R99). -/
def judgeHeat (k : Sec) (p : SectionParams) (seq : Nat) (s : State) : State :=
  let a := (s.sec k).acc
  let flag := judgeDerate a.derate a.heat p
  let answers := a.heatWatch && decide (a.heat < derateClearAt p)
  let s1 := s.modAcc k fun a => { a with derate := flag }
  let s2 :=
    if flag = a.derate then s1
    else if flag then raise (some k) (.derate a.heat seq) (budgetNotice k s1)
    else rejudge k (budgetNotice k s1)
  if answers then rejudge k (setWatch k false s2) else s2

/-- max_h after a sample (R46). -/
def addMaxH (k : Sec) (heat : Nat) (s : State) : State :=
  s.modAcc k fun a => { a with books := { a.books with maxH := max a.books.maxH heat } }

/-- The accounting unit takes a good sample, in the four stages of R36. -/
def accountSample (k : Sec) (p : SectionParams) (x : Sample) (s : State) : State :=
  let s1 := judgeOverflow k x.seq (s.modAcc k fun a => { a with books := addPower x a.books })
  let live := (s1.sec k).seq.state == .live
  let s2 := s1.modAcc k fun a => { a with books := addMinV live x (addPeak x a.books) }
  let heat := nextHeat (s2.sec k).acc.heat x.iAvg p
  let s3 := judgeHeat k p x.seq (s2.modAcc k fun a => { a with heat := heat })
  addMaxH k heat s3

end Sys2Proof.Machine
end

