-- ==== Sys2Proof/Machine/Protection.lean ====
section
/-! DEFINITION. The protection unit's work on a good sample and on a sensor-loss report (R58 to R73). -/

namespace Sys2Proof.Machine

open Sys2Proof

/-- Raise a trip request, unless one is outstanding (R73). -/
def raiseTrip (k : Sec) (r : TripRequest) (s : State) : State :=
  if (s.sec k).prot.outstanding then s
  else hand (.tripRequest k r) (s.modProt k fun p => { p with outstanding := true })

/-- Record the sample's rise condition, update the sustained counter, and hand the counter to accounting (R60 stage
3, R63, R65, R67). -/
def keepHistory (k : Sec) (p : SectionParams) (x : Sample) (broken : Bool) (iPrev : Option Int) (allowance : Nat)
    (s : State) : State :=
  let c := riseCondition p allowance broken iPrev x.iCorr
  let s1 := s.modProt k fun q => { q with
    history := pushCondition q.history c, sustained := nextSustained q.sustained x.iAvg p }
  reportRun k (s1.sec k).prot.sustained s1

/-- The undervoltage condition of a LIVE sample: a change is notified to the admission unit, and a setting raises
UNDERVOLT (R70, R71, and log 37 where they differ). -/
def judgeVoltage (k : Sec) (p : SectionParams) (x : Sample) (s : State) : State :=
  let old := (s.sec k).prot.undervolt
  let flag := judgeUndervolt old x.vAvg p
  let s1 := s.modProt k fun q => { q with undervolt := flag }
  if flag = old then s1
  else if flag then raise (some k) (.undervolt x.vAvg x.seq) (budgetNotice k s1)
  else budgetNotice k s1

/-- The protection unit takes a good sample, in the five stages of R60. -/
def protectSample (k : Sec) (p : SectionParams) (x : Sample) (broken : Bool) (iPrev : Option Int) (s : State) :
    State :=
  let view := (s.sec k).prot.view
  let heat := (s.sec k).acc.heat
  let allowance := s.allowance k
  let s1 := s.modProt k fun q => { q with last := some { seq := x.seq, iCorr := x.iCorr, vAvg := x.vAvg } }
  let s2 := if energised view then keepHistory k p x broken iPrev allowance s1 else s1
  let q := (s2.sec k).prot
  let s3 := match firstCheck view p x.iCorr q.history q.sustained heat with
    | none => s2
    | some reason => raiseTrip k { reason := reason, cause := none, seq := some x.seq, iCorr := some x.iCorr,
                                   vAvg := some x.vAvg, heat := heat } s2
  if view = .live then judgeVoltage k p x s3 else s3

/-- The protection unit takes a sensor-loss report (R72). -/
def lossReport (k : Sec) (cause : LossCause) (lastSeq : Option Nat) (s : State) : State :=
  let l := (s.sec k).prot.last
  raiseTrip k { reason := .sensorLost, cause := some cause, seq := lastSeq, iCorr := l.map (·.iCorr),
                vAvg := l.map (·.vAvg), heat := (s.sec k).acc.heat } s

end Sys2Proof.Machine
end

