-- ==== Sys2Proof/Machine/Operands.lean ====
section
/-! DEFINITION. How each command's payload is read: the frames from front-ends and readers (R187) and the requests
(R186, Table 10-3), with the field checks of R2, R4, R113 and R117. -/

namespace Sys2Proof.Machine

open Sys2Proof

/-! ## Frames from front-ends and readers -/

/-- A measurement frame's payload (R187, Table 10-4). -/
structure Measurement where
  seq : Nat
  current : Int
  voltage : Nat
  breaker : Position
  good : Bool
  deriving DecidableEq, Repr

def positionOf (b : Byte) : Option Position := if b = 0 then some .opened else if b = 1 then some .closed else none
def qualityOf (b : Byte) : Option Bool := if b = 0 then some true else if b = 1 then some false else none

/-- The payload of a measurement frame, absent when its length, breaker or quality field makes it unusable (R17). -/
def readMeasurement (p : List Byte) : Option Measurement :=
  match p with
  | [q, i1, i0, v1, v0, b, g] =>
    match positionOf b, qualityOf g with
    | some pos, some good =>
      some { seq := q.toNat, current := signed16 (beNat [i1, i0]), voltage := beNat [v1, v0], breaker := pos,
             good := good }
    | _, _ => none
  | _ => none

/-- ARRIVE, DEPART and the requests that carry one id: two bytes (R186). -/
def readId (p : List Byte) : Option Nat :=
  match p with
  | [a, b] => some (beNat [a, b])
  | _ => none

/-- RAISE_REQ: truck_id and demand (R187). -/
def readRaise (p : List Byte) : Option (Nat × Nat) :=
  match p with
  | [a, b, c, d] => some (beNat [a, b], beNat [c, d])
  | _ => none

/-- STATE: truck_id, pantograph up or down, truck_amps (R187). A byte that names neither position makes it unusable
(R120). -/
def readReport (p : List Byte) : Option (Nat × Bool × Nat) :=
  match p with
  | [a, b, u, c, d] => (yesNo u.toNat).map fun up => (beNat [a, b], up, beNat [c, d])
  | _ => none

/-! ## Requests -/

/-- The bytes of `p` from `off`, `n` of them, as a number (R185). -/
def fieldAt (p : List Byte) (off n : Nat) : Nat := beNat ((p.drop off).take n)

def inRange (lo hi v : Nat) : Bool := lo ≤ v && v ≤ hi

/-- The number of the first check that fails (R2, R4, R117). -/
def firstBad : List (Nat × Bool) → Option Nat
  | [] => none
  | (_, true) :: cs => firstBad cs
  | (n, false) :: _ => some n

/-- WRITE_RAMP: the record, or the number of the first field out of range (R1, R2). Absent on a wrong length. -/
def readRampFields (p : List Byte) : Option (Except Nat RampRecord) :=
  if p.length = 4 then
    let silence := fieldAt p 0 2
    let hop := fieldAt p 2 1
    let bc := yesNo (fieldAt p 3 1)
    some (match firstBad [(1, inRange 1000 60000 silence), (2, inRange 1 63 hop), (3, bc.isSome)] with
      | some n => .error n
      | none => .ok { silenceMs := silence, hopInit := hop, broadcastCapture := bc.getD false })
  else none

/-- rise_filter names one of its four choices (R3, R189). -/
def riseFilterOf (n : Nat) : Option RiseFilter :=
  if n = 0 then some .f1of1 else if n = 1 then some .f2of2 else if n = 2 then some .f2of3
  else if n = 3 then some .f3of5 else none

/-- next_uphill: a section other than the section's own, or 255 for none (R3, R185, R189). -/
def nextUphillOf (own : Sec) (n : Nat) : Option (Option Sec) :=
  if n = 255 then some none
  else match secOf n with
    | none => none
    | some k => if k = own then none else some (some k)

/-- The 48 bytes of a section parameter record read field by field, with the number of the first field that fails
(R3, R4, R189). -/
def readParams (own : Sec) (b : List Byte) : Except Nat SectionParams :=
  let enabled := yesNo (fieldAt b 0 1)
  let next := nextUphillOf own (fieldAt b 3 1)
  let bidi := yesNo (fieldAt b 4 1)
  let filter := riseFilterOf (fieldAt b 19 1)
  let auto := yesNo (fieldAt b 42 1)
  let p : SectionParams := {
    enabled := enabled.getD false
    frontendAddr := fieldAt b 1 1
    readerAddr := fieldAt b 2 1
    nextUphill := next.getD none
    bidirectional := bidi.getD false
    limitAmps := fieldAt b 5 2
    contAmps := fieldAt b 7 2
    tauShift := fieldAt b 9 1
    derateLevel := fieldAt b 10 1
    tripLevel := fieldAt b 11 1
    derateShare := fieldAt b 12 1
    instAmps := fieldAt b 13 2
    riseAmps := fieldAt b 15 2
    riseFloor := fieldAt b 17 2
    riseFilter := filter.getD .f1of1
    sustainAmps := fieldAt b 20 2
    sustainSamples := fieldAt b 22 2
    vmin := fieldAt b 24 2
    vhyst := fieldAt b 26 2
    testMs := fieldAt b 28 2
    testPass := fieldAt b 30 2
    testMaxAmps := fieldAt b 32 2
    breakerMs := fieldAt b 34 2
    recloseMs := fieldAt b 36 2
    stableMs := fieldAt b 38 4
    autoReclose := auto.getD false
    maxAttempts := fieldAt b 43 1
    measMs := fieldAt b 44 1
    badRun := fieldAt b 45 1
    offsetLimit := fieldAt b 46 2 }
  match firstBad [
    (1, enabled.isSome), (2, inRange 1 254 p.frontendAddr), (3, inRange 1 254 p.readerAddr), (4, next.isSome),
    (5, bidi.isSome), (6, inRange 100 20000 p.limitAmps), (7, inRange 100 20000 p.contAmps),
    (8, inRange 8 20 p.tauShift), (9, inRange 17 62 p.derateLevel), (10, inRange (p.derateLevel + 1) 63 p.tripLevel),
    (11, inRange 1 8 p.derateShare), (12, inRange 1000 32767 p.instAmps), (13, inRange 50 32767 p.riseAmps),
    (14, inRange 0 32767 p.riseFloor), (15, filter.isSome), (16, inRange 100 32767 p.sustainAmps),
    (17, inRange 1 4096 p.sustainSamples), (18, inRange 0 65535 p.vmin), (19, inRange 0 5000 p.vhyst),
    (20, inRange 10 2000 p.testMs), (21, inRange 0 65535 p.testPass), (22, inRange 10 32767 p.testMaxAmps),
    (23, inRange 20 1000 p.breakerMs), (24, inRange 100 60000 p.recloseMs), (25, inRange 1000 600000 p.stableMs),
    (26, auto.isSome), (27, inRange 0 7 p.maxAttempts), (28, inRange 2 100 p.measMs), (29, inRange 1 16 p.badRun),
    (30, inRange 0 2000 p.offsetLimit)] with
  | some n => .error n
  | none => .ok p

/-- The three copy selectors of READ_SECTION (R186). -/
def copyAt (c : Copies) (sel : Nat) : Option (Option SectionParams) :=
  if sel = 0 then some c.pending else if sel = 1 then some c.active else if sel = 2 then some c.prior else none

/-- The entries of a WRITE_FLEET payload after its count: id and class as carried (R186). -/
def readEntries : List Byte → List (Nat × Nat)
  | a :: b :: c :: rest => (beNat [a, b], c.toNat) :: readEntries rest
  | _ => []

/-- WRITE_FLEET: the entries as carried, absent when the count or the length is wrong (R113 stage 1). -/
def readFleetWrite (p : List Byte) : Option (List (Nat × Nat)) :=
  match p with
  | [] => none
  | c :: rest =>
    if inRange 1 8 c.toNat && rest.length == 3 * c.toNat then some (readEntries rest) else none

/-- A class number, 0 to 3. -/
def clsOf (n : Nat) : Option (Fin 4) := if h : n < 4 then some ⟨n, h⟩ else none

/-- The entries examined in order: id and class in range, and no id repeated; else the number of the entry (R113
stage 2). -/
def checkEntries (n : Nat) (seen : List Nat) : List (Nat × Nat) → Except Nat (List FleetEntry)
  | [] => .ok []
  | (id, c) :: rest =>
    match clsOf c with
    | none => .error n
    | some cls =>
      if inRange 1 65534 id && !seen.contains id then
        match checkEntries (n + 1) (id :: seen) rest with
        | .error m => .error m
        | .ok es => .ok ({ id := id, cls := cls } :: es)
      else .error n

/-- WRITE_CLASS: class number and the defined byte, absent on a wrong length or class number (R117 stage 1). -/
def readClassHead (p : List Byte) : Option (Fin 4 × Nat) :=
  if p.length = 13 then (clsOf (fieldAt p 0 1)).map fun c => (c, fieldAt p 1 1) else none

/-- WRITE_CLASS with defined yes: the record, or the number of the first field out of range (R116, R117 stage 3). -/
def readClassFields (p : List Byte) : Except Nat ClassRecord :=
  let r : ClassRecord := {
    defined := true
    demandMin := fieldAt p 2 2
    demandMax := fieldAt p 4 2
    grantMs := fieldAt p 6 2
    handoverMs := fieldAt p 8 2
    lowerMs := fieldAt p 10 2
    overdrawPct := fieldAt p 12 1 }
  match firstBad [
    (2, inRange 100 5000 r.demandMin), (3, inRange r.demandMin 8000 r.demandMax), (4, inRange 200 10000 r.grantMs),
    (5, inRange 100 5000 r.handoverMs), (6, inRange 200 10000 r.lowerMs), (7, inRange 0 100 r.overdrawPct)] with
  | some n => .error n
  | none => .ok r

end Sys2Proof.Machine
end

