-- ==== Sys2Proof/Machine/Measurement.lean ====
section
/-! DEFINITION. The measurement unit: a measurement frame through its stages (R17 to R20, R24 to R28), sensor loss
(R22, R23), calibration (R30 to R32); and the commands MEASUREMENT_FRAME, TRIP_REQUEST, TRIP_ANSWER and the timer
expiries of a section. -/

namespace Sys2Proof.Machine

open Sys2Proof Host

/-! ## Sensor loss -/

/-- The SENSOR_FAULT data of a loss (R23, R180). -/
def lossFault (cause : LossCause) (lastSeq : Option Nat) : SensorFault :=
  match cause with
  | .badRun => .badRun lastSeq
  | .watchdog => .watchdog lastSeq

/-- Sensor loss is signalled: a report to protection in an energised state, else a SENSOR_FAULT notice; a calibration
run is aborted with no notice of its own (R23, R32). -/
def sensorLoss (k : Sec) (cause : LossCause) (s : State) : State :=
  let lastSeq := (s.sec k).meas.lastSeq
  let s1 := s.modMeas k fun m => { m with cal := none }
  if energised (s.sec k).seq.state then lossReport k cause lastSeq s1
  else raise (some k) (.sensorFault (lossFault cause lastSeq)) s1

/-- The sensor watchdog expires (R22). -/
def watchdogExpires (k : Sec) (s : State) : State :=
  if (s.sec k).meas.watchdog.isNone then s
  else sensorLoss k .watchdog (s.modMeas k fun m => { m with watchdog := none })

/-! ## Calibration -/

/-- A closed feedback aborts an active run, with a CAL_ABORT notice (R32; its data, log 11). -/
def calFeedback (k : Sec) (pos : Position) (s : State) : State :=
  if pos = .closed ∧ (s.sec k).meas.cal.isSome then
    raise (some k) (.sensorFault (.calAbort (s.sec k).meas.lastSeq)) (s.modMeas k fun m => { m with cal := none })
  else s

/-- A good sample's raw current joins an active run; the sixteenth completes it (R31). -/
def calSample (k : Sec) (p : SectionParams) (raw : Int) (s : State) : State :=
  match (s.sec k).meas.cal with
  | none => s
  | some c =>
    let sum := c.sum + readRaw raw
    if c.count + 1 < 16 then s.modMeas k fun m => { m with cal := some { sum := sum, count := c.count + 1 } }
    else
      let s1 := s.modMeas k fun m => { m with cal := none }
      if (calCandidate sum).natAbs ≤ p.offsetLimit then
        s1.modMeas k fun m => { m with offset := calCandidate sum, offsetValid := true }
      else raise (some k) (.sensorFault (.calLimit (calCandidate sum))) s1

/-! ## A frame's stages (R17) -/

/-- What the sequence check finds (R18). -/
inductive SeqResult where
  | duplicate
  | consecutive
  | gap (missed : Nat)
  deriving DecidableEq, Repr

/-- The sequence check (R18). A first frame is taken as following a gap with no missed samples. -/
def seqCheck (last : Option Nat) (seq : Nat) : SeqResult :=
  match last with
  | none => .gap 0
  | some l => if seqGap l seq = 0 then .duplicate else if seqGap l seq = 1 then .consecutive else .gap (seqGap l seq - 1)

/-- Stage 1 for a frame that is no duplicate: last_seq, and the missed samples to accounting (R18). -/
def takeSeq (k : Sec) (seq : Nat) (r : SeqResult) (s : State) : State :=
  let s1 := s.modMeas k fun m => { m with lastSeq := some seq }
  match r with
  | .gap (n + 1) => countMissed k (n + 1) s1
  | _ => s1

/-- Stage 4: a frame of bad quality (R19, R20). -/
def badFrame (k : Sec) (p : SectionParams) (s : State) : State :=
  let s1 := s.modMeas k fun m => { m with badRun := min 16 (m.badRun + 1), iPrev := none }
  let m := (s1.sec k).meas
  if p.badRun ≤ m.badRun ∧ m.lossReported = false then
    sensorLoss k .badRun (s1.modMeas k fun m => { m with lossReported := true })
  else s1

/-- The sample of a good frame, after the windows took it (R25 to R27). -/
def sampleOf (x : Measurement) (iCorr : Int) (m : Meas) : Sample :=
  { seq := x.seq, iCorr := iCorr, voltage := x.voltage, iAvg := iAvgOf m.currents, vAvg := vAvgOf m.voltages }

/-- Stage 5: a good sample (R17, R25 to R28). Continuity and i_prev are those at the hand-over to protection, after
accounting has done its work. Where that work enters TESTING, this sample is the first after it: it is broken, and its end
sets i_prev for the next (DEDUCED, log 17). -/
def goodFrame (k : Sec) (p : SectionParams) (x : Measurement) (afterGap : Bool) (s : State) : State :=
  let iCorr := correct p.bidirectional (s.sec k).meas.offsetInForce x.current
  let s1 := s.modMeas k fun m => { m with
    badRun := 0, lossReported := false, currents := push m.currents iCorr, voltages := push m.voltages x.voltage }
  let sample := sampleOf x iCorr (s1.sec k).meas
  let s2 := accountSample k p sample (calSample k p x.current s1)
  let iPrev := (s2.sec k).meas.iPrev
  let s3 := protectSample k p sample (afterGap || iPrev.isNone) iPrev s2
  s3.modMeas k fun m => { m with iPrev := some iCorr }

/-- A usable measurement frame at its section's unit (R17). Its stages are taken as events of their own: a bad frame
that reports closed and reaches bad_run raises CAL_ABORT at stage 3 and the loss at stage 4 (DESIGN CHOICE, log 32). -/
def takeMeasurement (k : Sec) (p : SectionParams) (x : Measurement) (s : State) : State :=
  match seqCheck (s.sec k).meas.lastSeq x.seq with
  | .duplicate => s
  | r =>
    let s1 := restartWatchdog k (takeSeq k x.seq r s)
    let s2 := feedback k x.breaker (calFeedback k x.breaker s1)
    if x.good then goodFrame k p x (r ≠ .consecutive) s2 else badFrame k p s2

/-- A measurement frame's payload at a section: dropped when unusable (R17), or when the section has no active copy,
since its frames are matched to no section (R7). -/
def measurementAt (k : Sec) (payload : List Byte) (s : State) : State :=
  match readMeasurement payload, s.active k with
  | some x, some p => takeMeasurement k p x s
  | _, _ => s

/-! ## Commands -/

/-- MEASUREMENT_FRAME (R17). -/
def execMeasurementFrame (k : Sec) (payload : List Byte) (s : State) : Outcome State Fault Refusal :=
  .next (measurementAt k payload (take (.measurementFrame k payload) s))

/-- TRIP_REQUEST (R96). -/
def execTripRequest (k : Sec) (r : TripRequest) (s : State) : Outcome State Fault Refusal :=
  .next (takeTripRequest k r (take (.tripRequest k r) s))

/-- TRIP_ANSWER (R74). -/
def execTripAnswer (k : Sec) (r : TripRequest) (a : TripAnswer) (s : State) : Outcome State Fault Refusal :=
  .next (takeAnswer k r a (take (.tripAnswer k r a) s))

/-- SENSOR_WATCHDOG_EXPIRY (R22). -/
def execSensorWatchdogExpiry (k : Sec) (s : State) : Outcome State Fault Refusal := .next (watchdogExpires k s)

/-- TEST_TIMER_EXPIRY (R93). -/
def execTestTimerExpiry (k : Sec) (s : State) : Outcome State Fault Refusal := .next (testExpires k s)

/-- BREAKER_TIMER_EXPIRY (R87). -/
def execBreakerTimerExpiry (k : Sec) (s : State) : Outcome State Fault Refusal := .next (breakerExpires k s)

/-- RECLOSE_TIMER_EXPIRY (R99). -/
def execRecloseTimerExpiry (k : Sec) (s : State) : Outcome State Fault Refusal := .next (recloseExpires k s)

/-- STABLE_TIMER_EXPIRY (R95). -/
def execStableTimerExpiry (k : Sec) (s : State) : Outcome State Fault Refusal := .next (stableExpires k s)

/-- ESTOP_INPUT_CHANGE (R107). -/
def execEstopInputChange (high : Bool) (s : State) : Outcome State Fault Refusal := .next (estopChange high s)

/-- ESTOP_FILTER_EXPIRY (R107 to R109). -/
def execEstopFilterExpiry (s : State) : Outcome State Fault Refusal := .next (estopExpires s)

end Sys2Proof.Machine
end

