-- ==== Sys2Proof/Machine/Restart.lean ====
section
/-! DEFINITION. RESTART: its eight stages, each one event of its blocks, and the RESTART under way (R33, R56, R81, R110,
R128, R154, R169, R178, R179). -/

namespace Sys2Proof.Machine

open Sys2Proof

/-! ## What the blocks do -/

/-- A section instance of the sequencer in service goes to OFF at a RESTART (R110). -/
def restartSection (k : Sec) (s : State) : State :=
  let s1 := commandOpen k (stopSequence k s)
  notifyState k .off .restart .byNotice (s1.modSeq k fun q => { q with
    attempts := 0, state := .off, lastOff := some .restart })

/-- Stage 1, with the list of the sections taken to OFF (R110, R178); they act in ascending order, and so their OPENs
join the lane (DESIGN CHOICE, log 33). -/
def restartSequencers (s : State) : State × List Sec := takeEach restartSection allSecs s

/-- Stage 2 at one measurement unit (R33). -/
def restartMeas (k : Sec) (s : State) : State :=
  restartWatchdog k (s.modMeas k fun m =>
    { m.clearWindows with iPrev := none, lastSeq := none, badRun := 0, lossReported := false, cal := none,
                          watchdog := none })

/-- Stage 3 at one protection unit (R81). -/
def restartProt (k : Sec) (s : State) : State :=
  s.modProt k fun p => { p with history := [], sustained := 0, undervolt := false, last := none }

/-- The live accumulators after a RESTART: a saturated energy or count survives with its flag (R56). -/
def restartBooks (heat : Nat) (b : Books) : Books :=
  if b.overflow then { clearedBooks heat with energy := b.energy, count := b.count, overflow := true }
  else clearedBooks heat

/-- Stage 4 at one accounting unit (R56). -/
def restartAcc (k : Sec) (s : State) : State :=
  s.modAcc k fun a => { a with books := restartBooks a.heat a.books }

/-- A truck that holds a reservation (R154). -/
def Panto.holds : Panto → Bool
  | .granted | .raised | .handover | .lowering => true
  | .idle | .queued => false

/-- The admission unit's part of stage 5 (R154): LOWER RESTART in the order of records, windows stopped, queues, holder
lists and stall marks emptied, budgets computed anew. -/
def restartAdmission (s : State) : State :=
  let s1 := (s.table.trucks.filter fun r => r.panto.holds).foldl (fun s r => placeLower r.id .restart r.sec s) s
  let s2 := { s1 with table := { s1.table with trucks := s1.table.trucks.map fun r => { r with window := none } } }
  allSecs.foldl (fun s k => recompute k (s.modAdm k fun a => { a with queue := [], holders := [], stall := false })) s2

/-- The truck table's part of stage 5 (R128). -/
def restartTable (s : State) : State :=
  { s with table := { s.table with
    trucks := []
    generation := if s.table.trucks = [] then s.table.generation else (s.table.generation + 1) % 256 } }

/-- Stage 6: the ordinary lane is emptied, its claimed places are kept, and the run count is 0 (R169). -/
def restartRing (s : State) : State := { s with ring := { s.ring with ordinary := [], runCount := 0 } }

/-- Stage 7: every notice is dropped (R178). -/
def restartNotices (s : State) : State := { s with mgmt := { s.mgmt with notices := [] } }

/-! ## The stages -/

/-- The RESTART under way is this one, or none is. -/
def State.withRestart (s : State) (r : Option Restarting) : State := { s with mgmt := { s.mgmt with restart := r } }

/-- One after another the eight units of a kind act, in one event of the model (log 33). -/
def eachSection (act : Sec → State → State) (s : State) : State := allSecs.foldl (fun s k => act k s) s

/-- The reply to a RESTART (R178). -/
def Restarting.reply (r : Restarting) : OrdinaryFrame :=
  .reply { tag := r.tag, kind := 0x42, answer := { status := .ok, field := 0, data := .restart r.takenOff r.removed } }

/-- A RESTART's next stage is carried out, and the one after it comes next; the reply ends it (R178). -/
def restartStage (r : Restarting) (s : State) : State :=
  match r.next with
  | .sequencer =>
    let (t, off) := restartSequencers s
    t.withRestart (some { r with next := .measurement, takenOff := off })
  | .measurement => (eachSection restartMeas s).withRestart (some { r with next := .protection })
  | .protection => (eachSection restartProt s).withRestart (some { r with next := .accounting })
  | .accounting => (eachSection restartAcc s).withRestart (some { r with next := .table })
  | .table =>
    (restartTable (restartAdmission s)).withRestart (some { r with next := .ring, removed := s.table.trucks.length })
  | .ring => (restartRing s).withRestart (some { r with next := .management })
  | .management => (restartNotices s).withRestart (some { r with next := .reply })
  | .reply => fill r.reply (s.withRestart none)

/-- The next stage of the RESTART under way; without one nothing happens (R179). -/
def advanceRestart (s : State) : State :=
  match s.mgmt.restart with
  | none => s
  | some r => restartStage r s

/-- `n` stages of the RESTART under way. -/
def advanceBy : Nat → State → State
  | 0, s => s
  | n + 1, s => advanceBy n (advanceRestart s)

/-- The RESTART under way is carried to its end: at most eight stages. -/
def endRestart (s : State) : State := advanceBy 8 s

end Sys2Proof.Machine
end

