-- ==== Sys2Proof/Machine/Requests.lean ====
section
/-! DEFINITION. How the management unit takes a request: the claim of its reply places, the judgement, and the replies
(R170 to R174); and what the requests share. -/

namespace Sys2Proof.Machine

open Sys2Proof

/-- A reply with status OK and the data its rule gives (R173). -/
def ok (d : ReplyData) : Answer := { status := .ok, field := 0, data := d }

/-- A refusal: no data, and no field number (R173). -/
def refuse (st : Status) : Answer := { status := st, field := 0, data := .empty }

/-- BAD_VALUE with the number of the offending field or entry (R173). -/
def badValue (n : Nat) : Answer := { status := .badValue, field := n, data := .empty }

/-- The reply frame of an answer (R173). -/
def replyFrame (kind : Byte) (r : Req) (a : Answer) : OrdinaryFrame := .reply { tag := r.tag, kind := kind, answer := a }

/-- Place a request's replies one after another in the claimed places (R173). -/
def placeReplies (kind : Byte) (r : Req) (as : List Answer) (s : State) : State :=
  as.foldl (fun s a => fill (replyFrame kind r a) s) s

/-- An addressed request that produces `n` replies: claimed, carried out, answered; dropped when the claim fails
(R170, R172). -/
def answerAll (kind : Byte) (r : Req) (n : Nat) (body : State → State × List Answer) (s : State) : State :=
  match claim n s with
  | none => s
  | some s1 =>
    let (s2, as) := body s1
    placeReplies kind r as s2

/-- The management unit takes a request once the one before it has come to its end: only a RESTART can still be under
way (R170, R179). -/
def takeRequest (c : Instr) (s : State) : State := take c (endRestart s)

/-- A request answered by one reply. A broadcast is ignored (R171). -/
def serve (c : Instr) (kind : Byte) (r : Req) (body : State → State × Answer) (s : State) : State :=
  let s0 := takeRequest c s
  if r.broadcast then s0
  else answerAll kind r 1 (fun s => ((body s).1, [(body s).2])) s0

/-- A request that reads: its answer, and no change. -/
def reads (f : State → Answer) (s : State) : State × Answer := (s, f s)

/-- A request that names a section: a wrong length is BAD_REQUEST and a number outside 0 to 7 BAD_SECTION (R15, R30,
R91). -/
def onSection (payload : List Byte) (body : Sec → State → State × Answer) (s : State) : State × Answer :=
  match payload with
  | [b] =>
    match secOf b.toNat with
    | none => (s, refuse .badSection)
    | some k => body k s
  | _ => (s, refuse .badRequest)

/-- A request with no payload (R186). -/
def onEmpty (payload : List Byte) (body : State → State × Answer) (s : State) : State × Answer :=
  if payload = [] then body s else (s, refuse .badRequest)

end Sys2Proof.Machine
end

