-- ==== Sys2Proof/Machine/Store.lean ====
section
/-! DEFINITION. The parameter store: WRITE_RAMP and READ_RAMP (R2), WRITE_SECTION and READ_SECTION (R4 to R6, R15),
and activation (R8 to R12, R79). -/

namespace Sys2Proof.Machine

open Sys2Proof Host

/-! ## The ramp record -/

/-- WRITE_RAMP judged and carried out (R2). -/
def writeRampBody (p : List Byte) (s : State) : State × Answer :=
  match readRampFields p with
  | none => (s, refuse .badRequest)
  | some (.error n) => (s, badValue n)
  | some (.ok r) => ({ s with ramp := r }, ok .empty)

/-- WRITE_RAMP (R2). -/
def execWriteRamp (r : Req) (s : State) : Outcome State Fault Refusal :=
  .next (serve (.writeRamp r) 0x44 r (writeRampBody r.payload) s)

/-- READ_RAMP (R2). -/
def execReadRamp (r : Req) (s : State) : Outcome State Fault Refusal :=
  .next (serve (.readRamp r) 0x45 r (onEmpty r.payload (reads fun s => ok (.ramp s.ramp))) s)

/-! ## The section records -/

/-- WRITE_SECTION judged and carried out (R4, R5, R15). -/
def writeSectionBody (p : List Byte) (s : State) : State × Answer :=
  if p.length = 49 then
    match secOf (fieldAt p 0 1) with
    | none => (s, refuse .badSection)
    | some k =>
      match readParams k (p.drop 1) with
      | .error n => (s, badValue n)
      | .ok rec => (s.modSec k fun x => { x with copies := { x.copies with pending := some rec } }, ok .empty)
  else (s, refuse .badRequest)

/-- WRITE_SECTION (R4, R5). -/
def execWriteSection (r : Req) (s : State) : Outcome State Fault Refusal :=
  .next (serve (.writeSection r) 0x46 r (writeSectionBody r.payload) s)

/-- The answer to READ_SECTION (R6, R15). -/
def readSectionAnswer (p : List Byte) (s : State) : Answer :=
  match p with
  | [b, c] =>
    match secOf b.toNat with
    | none => refuse .badSection
    | some k =>
      match copyAt (s.sec k).copies c.toNat with
      | none => refuse .badRequest
      | some none => refuse .notFound
      | some (some rec) => ok (.copyOf k c.toNat rec)
  | _ => refuse .badRequest

/-- READ_SECTION (R6). -/
def execReadSection (r : Req) (s : State) : Outcome State Fault Refusal :=
  .next (serve (.readSection r) 0x47 r (reads (readSectionAnswer r.payload)) s)

/-! ## Activation -/

/-- The pending record changes a field, as against the active copy, of which an absent one differs in every field
(R8). -/
def changes {α : Type} [DecidableEq α] (old : Option SectionParams) (new : SectionParams)
    (f : SectionParams → α) : Bool :=
  old.all fun o => f o ≠ f new

/-- A structural field changes (R8). -/
def changesStructure (old : Option SectionParams) (new : SectionParams) : Bool :=
  changes old new (·.enabled) || changes old new (·.frontendAddr) || changes old new (·.readerAddr) ||
  changes old new (·.nextUphill) || changes old new (·.bidirectional)

/-- The measurement unit's part of an activation: the watchdog and a calibration run follow `enabled`, and a changed
frontend_addr makes the offset 0 and invalid and last_seq none (R10). -/
def measActivated (old : Option SectionParams) (new : SectionParams) (m : Meas) : Meas :=
  let wasOn := old.any (·.enabled)
  let m1 := if !wasOn && new.enabled then { m with watchdog := some new.measMs } else m
  let m2 := if wasOn && !new.enabled then { m1 with watchdog := none, cal := none } else m1
  if changes old new (·.frontendAddr) then
    { m2 with offset := 0, offsetValid := false, lastSeq := none, cal := none }
  else m2

/-- The protection unit's part: a counter at or above a changed sustain_samples becomes one less than it (R12, R79). -/
def protActivated (old : Option SectionParams) (new : SectionParams) (q : Prot) : Prot :=
  if changes old new (·.sustainSamples) && decide (new.sustainSamples ≤ q.sustained) then
    { q with sustained := new.sustainSamples - 1 }
  else q

/-- One section is activated: the copies move, then measurement, protection and admission take their notices (R9 to
R12, log 24). -/
def activate (k : Sec) (new : SectionParams) (s : State) : State :=
  let old := s.active k
  let s1 := s.modSec k fun x => { x with
    copies := { x.copies with active := some new, prior := old }
    meas := measActivated old new x.meas
    prot := protActivated old new x.prot }
  if changes old new (·.limitAmps) || changes old new (·.derateShare) then limitNotice k s1 else s1

/-- The store decides one section: nothing, held, or activated (R8). -/
def activateAt (k : Sec) (s : State) : State × List Sec :=
  match (s.sec k).copies.pending with
  | none => (s, [])
  | some new =>
    if s.active k = some new then (s, [])
    else if changesStructure (s.active k) new && inService (s.sec k).seq.state then (s, [k])
    else (activate k new s, [])

/-- The sections from 0 up to 7, with the held list (R8). -/
def activateAll (s : State) : State × List Sec :=
  allSecs.foldl (fun (s, held) k => ((activateAt k s).1, held ++ (activateAt k s).2)) (s, [])

end Sys2Proof.Machine
end

