-- ==== Sys2Proof/Machine/Trucks.lean ====
section
/-! DEFINITION. The truck table: truck frames (R120 to R124), the fleet table and class records (R112 to R118), and
eviction and reading of records (R125, R127); with the admission unit's window expiries as commands. -/

namespace Sys2Proof.Machine

open Sys2Proof Host

/-! ## Truck frames -/

/-- The class a fleet entry gives a truck, if that class is defined (R121). -/
def State.authorised (s : State) (t : Nat) : Option (Fin 4) :=
  match s.table.fleet.find? fun e => e.id == t with
  | none => none
  | some e => if s.table.classes[e.cls].defined then some e.cls else none

/-- A new record, with the values of R119. -/
def newTruck (t : Nat) (cls : Fin 4) (k : Sec) (silenceMs : Nat) : Truck :=
  { id := t, cls := cls, sec := k, silence := some silenceMs, mark := .none, panto := .idle, hold := none,
    reserved := 0, demand := none, window := none, overCount := 0, lowerReason := none }

/-- A silence timer takes the silence_ms in force (R1, R124). -/
def restartSilence (t : Nat) (s : State) : State :=
  s.modTruck t fun r => { r with silence := some s.ramp.silenceMs }

/-- An ARRIVE of a truck without a record (R121). -/
def arriveNew (t : Nat) (k : Sec) (s : State) : State :=
  match s.authorised t with
  | none => offerDeny t .notAuthorized k s
  | some cls =>
    if 24 ≤ s.table.trucks.length then offerDeny t .tableFull k s
    else { s with table := { s.table with
      trucks := s.table.trucks ++ [newTruck t cls k s.ramp.silenceMs]
      generation := (s.table.generation + 1) % 256 } }

/-- An ARRIVE of a truck with a record (R122). -/
def arriveKnown (t : Nat) (k : Sec) (r : Truck) (s : State) : State :=
  let s1 := (restartSilence t s).modTruck t fun r => { r with mark := if r.mark = .depart then .none else r.mark }
  if r.sec = k then s1
  else moveTruck t r.sec k (s1.modTruck t fun r => { r with sec := k })

/-- A truck that cannot go at once is marked; DEPART does not replace EVICT (R123, R125). -/
def markTruck (m : Mark) (t : Nat) (s : State) : State :=
  s.modTruck t fun r => { r with mark := if m = .depart ∧ r.mark = .evict then .evict else m }

/-- A truck is let go, with its record removed at once or marked (R123, R125). -/
def depart (t : Nat) (m : Mark) (reason : LowerReason) (s : State) : State :=
  match s.pantoOf t with
  | none => s
  | some .idle | some .queued => removeRecord t (letGo t reason s)
  | some .granted | some .raised | some .handover | some .lowering => letGo t reason (markTruck m t s)

/-- A frame of a truck without a record, other than ARRIVE, is answered DENY UNKNOWN_TRUCK; with a record the silence
timer is restarted first (R120). -/
def withRecord (t : Nat) (k : Sec) (act : State → State) (s : State) : State :=
  if s.hasTruck t then act (restartSilence t s) else offerDeny t .unknownTruck k s

/-- An ARRIVE at section `k` (R120 to R122). -/
def arriveAt (k : Sec) (p : List Byte) (s : State) : State :=
  match readId p with
  | none => s
  | some t =>
    match s.truck t with
    | none => arriveNew t k s
    | some r => arriveKnown t k r s

/-- A DEPART at section `k` (R120, R123). -/
def departAt (k : Sec) (p : List Byte) (s : State) : State :=
  match readId p with
  | none => s
  | some t => withRecord t k (depart t .depart .depart) s

/-- A RAISE_REQ at section `k` (R120, R139). -/
def raiseAt (k : Sec) (p : List Byte) (s : State) : State :=
  match readRaise p with
  | none => s
  | some (t, demand) => withRecord t k (raiseRequest t k demand) s

/-- A STATE at section `k` (R120, R140, R142). -/
def reportAt (k : Sec) (p : List Byte) (s : State) : State :=
  match readReport p with
  | none => s
  | some (t, up, amps) => withRecord t k (if up then reportUp t k amps else reportDown t) s

/-- A silence timer expires (R124). -/
def silenceExpires (t : Nat) (s : State) : State :=
  match s.truck t with
  | none => s
  | some r =>
    if r.silence.isNone then s else depart t .depart .depart (s.modTruck t fun r => { r with silence := none })

/-- ARRIVE (R121). -/
def execArrive (k : Sec) (p : List Byte) (s : State) : Outcome State Fault Refusal :=
  .next (arriveAt k p (take (.arrive k p) s))

/-- DEPART (R123). -/
def execDepart (k : Sec) (p : List Byte) (s : State) : Outcome State Fault Refusal :=
  .next (departAt k p (take (.depart k p) s))

/-- RAISE_REQ (R139). -/
def execRaiseReq (k : Sec) (p : List Byte) (s : State) : Outcome State Fault Refusal :=
  .next (raiseAt k p (take (.raiseReq k p) s))

/-- STATE (R140). -/
def execState (k : Sec) (p : List Byte) (s : State) : Outcome State Fault Refusal :=
  .next (reportAt k p (take (.state k p) s))

/-- SILENCE_TIMER_EXPIRY (R124). -/
def execSilenceTimerExpiry (t : Nat) (s : State) : Outcome State Fault Refusal := .next (silenceExpires t s)

/-- GRANT_WINDOW_EXPIRY (R143). -/
def execGrantWindowExpiry (t : Nat) (s : State) : Outcome State Fault Refusal := .next (grantExpires t s)

/-- HANDOVER_WINDOW_EXPIRY (R147). -/
def execHandoverWindowExpiry (t : Nat) (s : State) : Outcome State Fault Refusal := .next (handoverExpires t s)

/-- LOWER_WINDOW_EXPIRY (R144). -/
def execLowerWindowExpiry (t : Nat) (s : State) : Outcome State Fault Refusal := .next (lowerExpires t s)

/-! ## The fleet table -/

/-- An entry takes effect: its class replaced, or inserted in ascending order (R113). -/
def setEntry (e : FleetEntry) : List FleetEntry → List FleetEntry
  | [] => [e]
  | x :: xs => if e.id < x.id then e :: x :: xs else if e.id = x.id then e :: xs else x :: setEntry e xs

/-- WRITE_FLEET judged and carried out (R113). -/
def writeFleetBody (p : List Byte) (s : State) : State × Answer :=
  match readFleetWrite p with
  | none => (s, refuse .badRequest)
  | some carried =>
    match checkEntries 1 [] carried with
    | .error n => (s, badValue n)
    | .ok es =>
      let fresh := (es.filter fun e => !s.table.fleet.any fun x => x.id == e.id).length
      if 64 < fresh + s.table.fleet.length then (s, refuse .tableFull)
      else ({ s with table := { s.table with fleet := es.foldl (fun l e => setEntry e l) s.table.fleet } }, ok .empty)

/-- WRITE_FLEET (R113). -/
def execWriteFleet (r : Req) (s : State) : Outcome State Fault Refusal :=
  .next (serve (.writeFleet r) 0x49 r (writeFleetBody r.payload) s)

/-- REMOVE_FLEET judged and carried out (R114). -/
def removeFleetBody (p : List Byte) (s : State) : State × Answer :=
  match readId p with
  | none => (s, refuse .badRequest)
  | some t =>
    if !inRange 1 65534 t then (s, badValue 1)
    else if s.table.fleet.any (fun e => e.id == t) then
      let s1 := { s with table := { s.table with fleet := s.table.fleet.filter fun e => e.id ≠ t } }
      (depart t .evict .evict s1, ok .empty)
    else (s, refuse .notFound)

/-- REMOVE_FLEET (R114). -/
def execRemoveFleet (r : Req) (s : State) : Outcome State Fault Refusal :=
  .next (serve (.removeFleet r) 0x4A r (removeFleetBody r.payload) s)

/-- The answer to READ_FLEET (R115). -/
def readFleetAnswer (p : List Byte) (s : State) : Answer :=
  match readId p with
  | none => refuse .badRequest
  | some start =>
    let l := s.table.fleet.filter fun e => start ≤ e.id
    ok (.fleet s.table.fleet.length (l.take 8) ((l.drop 8).head?.map (·.id)))

/-- READ_FLEET (R115). -/
def execReadFleet (r : Req) (s : State) : Outcome State Fault Refusal :=
  .next (serve (.readFleet r) 0x4B r (reads (readFleetAnswer r.payload)) s)

/-! ## The class records -/

def State.setClass (s : State) (c : Fin 4) (r : ClassRecord) : State :=
  { s with table := { s.table with classes := s.table.classes.set c r } }

/-- The truck records that carry a class (R117, R118). -/
def State.ofClass (s : State) (c : Fin 4) : Nat := (s.table.trucks.filter fun r => r.cls = c).length

/-- WRITE_CLASS judged and carried out (R117). -/
def writeClassBody (p : List Byte) (s : State) : State × Answer :=
  match readClassHead p with
  | none => (s, refuse .badRequest)
  | some (c, d) =>
    match yesNo d with
    | none => (s, badValue 1)
    | some true =>
      match readClassFields p with
      | .error n => (s, badValue n)
      | .ok rec => (s.setClass c rec, ok .empty)
    | some false =>
      if s.ofClass c = 0 then (s.setClass c ClassRecord.undefined, ok .empty) else (s, refuse .badState)

/-- WRITE_CLASS (R117). -/
def execWriteClass (r : Req) (s : State) : Outcome State Fault Refusal :=
  .next (serve (.writeClass r) 0x4C r (writeClassBody r.payload) s)

/-- The answer to READ_CLASS (R118). -/
def readClassAnswer (p : List Byte) (s : State) : Answer :=
  match p with
  | [b] =>
    match clsOf b.toNat with
    | none => refuse .badRequest
    | some c => ok (.cls s.table.classes[c] (s.ofClass c))
  | _ => refuse .badRequest

/-- READ_CLASS (R118). -/
def execReadClass (r : Req) (s : State) : Outcome State Fault Refusal :=
  .next (serve (.readClass r) 0x4D r (reads (readClassAnswer r.payload)) s)

/-! ## Eviction and reading of records -/

/-- EVICT_TRUCK judged and carried out (R125). -/
def evictBody (p : List Byte) (s : State) : State × Answer :=
  match readId p with
  | none => (s, refuse .badRequest)
  | some t => if s.hasTruck t then (depart t .evict .evict s, ok .empty) else (s, refuse .notFound)

/-- EVICT_TRUCK (R125). -/
def execEvictTruck (r : Req) (s : State) : Outcome State Fault Refusal :=
  .next (serve (.evictTruck r) 0x5A r (evictBody r.payload) s)

/-- What READ_TRUCKS reports of a record (R127). -/
def Truck.report (r : Truck) : TruckView :=
  { id := r.id, cls := r.cls, sec := r.sec, mark := r.mark, silence := r.silence, panto := r.panto, hold := r.hold,
    reserved := r.reserved, demand := r.demand, window := r.window, overCount := r.overCount }

/-- The answer to READ_TRUCKS (R127). -/
def readTrucksAnswer (p : List Byte) (s : State) : Answer :=
  match p with
  | [b] =>
    if 23 < b.toNat then refuse .badRequest
    else ok (.trucks s.table.trucks.length s.table.generation b.toNat
      (((s.table.trucks.drop b.toNat).take 3).map Truck.report))
  | _ => refuse .badRequest

/-- READ_TRUCKS (R127). -/
def execReadTrucks (r : Req) (s : State) : Outcome State Fault Refusal :=
  .next (serve (.readTrucks r) 0x59 r (reads (readTrucksAnswer r.payload)) s)

end Sys2Proof.Machine
end

