-- ==== Sys2Proof/Machine/Management.lean ====
section
/-! DEFINITION. The requests that the sequencer, measurement and accounting units and the management unit itself carry
out: section control (R30, R91 to R106), captures and results (R47 to R54), CLEAR_BACKUP (R90), READ_SECTION_STATE
(R175), GET_STATUS (R177), CLEAR_POWER_UP (R176), NEXT_EVENT (R182) and RESTART (R178). -/

namespace Sys2Proof.Machine

open Sys2Proof Host

/-- A request's conditions in order, each with the refusal of its failing (R30, R92, R104): the first that fails. -/
def firstRefusal : List (Bool × Status) → Option Status
  | [] => none
  | (true, _) :: cs => firstRefusal cs
  | (false, st) :: _ => some st

/-- A request judged by conditions and then carried out. -/
def guarded (cs : List (Bool × Status)) (act : State → State) (s : State) : State × Answer :=
  match firstRefusal cs with
  | some st => (s, refuse st)
  | none => (act s, ok .empty)

def State.seqIn (s : State) (k : Sec) (st : SecState) : Bool := (s.sec k).seq.state == st

/-! ## Section control -/

/-- The conditions of ENERGIZE (R92). -/
def energizeConditions (k : Sec) (s : State) : List (Bool × Status) :=
  [((s.active k).isSome, .noParams), (s.isEnabled k, .badState), (s.seqIn k .off, .badState),
   ((s.sec k).meas.cal.isNone, .badState), ((s.sec k).meas.offsetValid, .notCalibrated),
   (s.chip.estopClosed, .estopOpen), ((s.sec k).seq.lastFeedback == .opened, .badState)]

/-- ENERGIZE's effect: attempts 0, and TESTING (R92). -/
def beginLineTest (k : Sec) (s : State) : State :=
  enterTesting k (s.modSeq k fun q => { q with attempts := 0, reclosePending := false, heatRequired := false })

/-- ENERGIZE (R92). -/
def execEnergize (r : Req) (s : State) : Outcome State Fault Refusal :=
  .next (serve (.energize r) 0x51 r
    (onSection r.payload fun k s => guarded (energizeConditions k s) (beginLineTest k) s) s)

/-- DEENERGIZE (R102). -/
def execDeenergize (r : Req) (s : State) : Outcome State Fault Refusal :=
  .next (serve (.deenergize r) 0x52 r
    (onSection r.payload fun k s => guarded [(!s.seqIn k .maint, .badState)] (takeOff k) s) s)

/-- RESET_LOCKOUT's effect (R101). -/
def leaveLockout (k : Sec) (s : State) : State :=
  notifyState k .off .plain .byNotice (s.modSeq k fun q => { q with state := .off, attempts := 0 })

/-- RESET_LOCKOUT (R101). -/
def execResetLockout (r : Req) (s : State) : Outcome State Fault Refusal :=
  .next (serve (.resetLockout r) 0x53 r
    (onSection r.payload fun k s => guarded [(s.seqIn k .lockout, .badState)] (leaveLockout k) s) s)

/-- The conditions of CALIBRATE (R30). -/
def calibrateConditions (k : Sec) (s : State) : List (Bool × Status) :=
  [((s.active k).isSome, .noParams), (s.isEnabled k, .badState), (s.seqIn k .off, .badState),
   ((s.sec k).meas.cal.isNone, .badState),
   ((s.sec k).seq.expectation == .opened && (s.sec k).seq.lastFeedback == .opened, .badState)]

/-- CALIBRATE (R30). -/
def execCalibrate (r : Req) (s : State) : Outcome State Fault Refusal :=
  .next (serve (.calibrate r) 0x54 r
    (onSection r.payload fun k s => guarded (calibrateConditions k s)
      (fun s => s.modMeas k fun m => { m with cal := some { sum := 0, count := 0 } }) s) s)

/-- The conditions of MAINT_ENTER (R104). -/
def maintEnterConditions (k : Sec) (s : State) : List (Bool × Status) :=
  [((s.active k).isSome, .noParams), (s.isEnabled k, .badState), (s.seqIn k .off, .badState),
   ((s.sec k).meas.cal.isNone, .badState), ((s.sec k).seq.lastFeedback == .opened, .badState)]

/-- MAINT_ENTER's effect (R104). -/
def enterMaint (k : Sec) (s : State) : State :=
  notifyState k .maint .plain .byNotice (s.modSeq k fun q => { q with state := .maint })

/-- MAINT_ENTER (R104). -/
def execMaintEnter (r : Req) (s : State) : Outcome State Fault Refusal :=
  .next (serve (.maintEnter r) 0x55 r
    (onSection r.payload fun k s => guarded (maintEnterConditions k s) (enterMaint k) s) s)

/-- MAINT_BREAKER's payload with the position byte of one of its two rows; any other position byte is BAD_REQUEST
(R91, R186, log 26). -/
def onPosition (payload : List Byte) (pos : Byte) (body : Sec → State → State × Answer) (s : State) :
    State × Answer :=
  match payload with
  | [b, p] => if p = pos then onSection [b] body s else (s, refuse .badRequest)
  | _ => (s, refuse .badRequest)

/-- MAINT_BREAKER with position close (R105). -/
def execMaintBreakerClose (r : Req) (s : State) : Outcome State Fault Refusal :=
  .next (serve (.maintBreakerClose r) 0x56 r
    (onPosition r.payload 1 fun k s =>
      guarded [(s.seqIn k .maint, .badState), (s.chip.estopClosed, .estopOpen)] (commandClose k) s) s)

/-- MAINT_BREAKER with position open (R105). -/
def execMaintBreakerOpen (r : Req) (s : State) : Outcome State Fault Refusal :=
  .next (serve (.maintBreakerOpen r) 0x56 r
    (onPosition r.payload 0 fun k s => guarded [(s.seqIn k .maint, .badState)] (commandOpen k) s) s)

/-- MAINT_TEST (R106). -/
def execMaintTest (r : Req) (s : State) : Outcome State Fault Refusal :=
  .next (serve (.maintTest r) 0x57 r
    (onSection r.payload fun k s => guarded
      [(s.seqIn k .maint, .badState), (s.chip.estopClosed, .estopOpen),
       ((s.sec k).seq.expectation == .opened, .badState)] (commandTest k) s) s)

/-- MAINT_EXIT's effect (R106). -/
def leaveMaint (k : Sec) (s : State) : State :=
  notifyState k .off .plain .byNotice
    (commandOpen k (s.modSeq k fun q => { q with state := .off, lastOff := some .maintExit }))

/-- MAINT_EXIT (R106). -/
def execMaintExit (r : Req) (s : State) : Outcome State Fault Refusal :=
  .next (serve (.maintExit r) 0x58 r
    (onSection r.payload fun k s => guarded [(s.seqIn k .maint, .badState)] (leaveMaint k) s) s)

/-! ## CLEAR_BACKUP -/

/-- An enabled section's last feedback is closed (R90). -/
def State.closedSomewhere (s : State) : Bool := s.enabledSecs.any fun k => (s.sec k).seq.lastFeedback == .closed

/-- CLEAR_BACKUP (R90). -/
def execClearBackup (r : Req) (s : State) : Outcome State Fault Refusal :=
  .next (serve (.clearBackup r) 0x43 r
    (onEmpty r.payload fun s => guarded [(!s.closedSomewhere, .badState)]
      (fun s => { s with chip := { s.chip with backupTrip := false } }) s) s)

/-! ## Captures -/

/-- The stages of an accepted capture before its reply (R48, R49): edge flags read and cleared, the copies, the ring
error counter (cleared by CAPTURE_CLEAR only), activation. They are one event of the model (DESIGN CHOICE, log 36). -/
def capture (kind : CaptureKind) (s : State) : State × Answer :=
  let s1 := { s with chip := { s.chip with fellSeen := false, roseSeen := false } }
  let s2 := captureAll kind s.chip.fellSeen s.chip.roseSeen s1
  let s3 := if kind = .clear then { s2 with ring := { s2.ring with errors := 0 } } else s2
  ((activateAll s3).1, ok (.capture kind s2.ring.errors (activateAll s3).2))

/-- A capture request: an addressed one is served, and a broadcast one is carried out with no reply when
broadcast_capture is yes and the payload has the request's length (R50, R171). -/
def serveCapture (c : Instr) (kindByte : Byte) (kind : CaptureKind) (r : Req) (s : State) : State :=
  if r.broadcast then
    let s0 := takeRequest c s
    if s0.ramp.broadcastCapture && r.payload.isEmpty then (capture kind s0).1 else s0
  else serve c kindByte r (onEmpty r.payload (capture kind)) s

/-- CAPTURE_CLEAR (R48). -/
def execCaptureClear (r : Req) (s : State) : Outcome State Fault Refusal :=
  .next (serveCapture (.captureClear r) 0x4E .clear r s)

/-- CAPTURE_KEEP (R49). -/
def execCaptureKeep (r : Req) (s : State) : Outcome State Fault Refusal :=
  .next (serveCapture (.captureKeep r) 0x4F .keep r s)

/-! ## Results -/

/-- The replies of READ_RESULTS ALL from position `pos` on (R54, R190). -/
def resultSet (s : State) (size : Nat) : Nat → List Sec → List Answer
  | _, [] => []
  | pos, k :: ks => ok (.results pos size k (s.sec k).acc.result) :: resultSet s size (pos + 1) ks

/-- The answers to READ_RESULTS with the selector ALL: one for each enabled section, or one with no record (R54). -/
def allResults (s : State) : List Answer :=
  if s.enabledSecs = [] then [ok .noResults] else resultSet s s.enabledSecs.length 1 s.enabledSecs

/-- The answers to READ_RESULTS by its selector (R53, R54). -/
def resultAnswers (p : List Byte) (s : State) : List Answer :=
  match p with
  | [b] =>
    if b = 255 then allResults s
    else match secOf b.toNat with
      | none => [refuse .badSection]
      | some k => [ok (.results 1 1 k (s.sec k).acc.result)]
  | _ => [refuse .badRequest]

/-- READ_RESULTS takes as many places as it has replies (R54, R172). -/
def serveResults (c : Instr) (r : Req) (s : State) : State :=
  let s0 := takeRequest c s
  if r.broadcast then s0
  else answerAll 0x50 r (resultAnswers r.payload s0).length (fun s => (s, resultAnswers r.payload s)) s0

/-- READ_RESULTS with a section selector (R53). -/
def execReadResults (r : Req) (s : State) : Outcome State Fault Refusal := .next (serveResults (.readResults r) r s)

/-- READ_RESULTS with the selector ALL (R54). -/
def execReadResultsAll (r : Req) (s : State) : Outcome State Fault Refusal :=
  .next (serveResults (.readResultsAll r) r s)

/-! ## READ_SECTION_STATE -/

/-- The measurement unit's part (R34). -/
def measPart (s : State) (k : Sec) : MeasPart :=
  let m := (s.sec k).meas
  { lastSeq := m.lastSeq, offset := m.offset, offsetValid := m.offsetValid, calCount := m.cal.map (·.count),
    iAvg := iAvgOf m.currents, vAvg := vAvgOf m.voltages, badRun := m.badRun, watchdogRunning := m.watchdog.isSome }

/-- The accounting unit's part (R55). -/
def accPart (s : State) (k : Sec) : AccPart :=
  let a := (s.sec k).acc
  { heat := a.heat, derate := a.derate, thresholds := (s.active k).map fun p => (derateSetAt p, derateClearAt p),
    books := a.books }

/-- The admission unit's part (R155). -/
def admPart (s : State) (k : Sec) : AdmPart :=
  let a := (s.sec k).adm
  { bEff := a.bEff, reserved := s.reserved k, allowance := s.allowance k, stall := a.stall,
    holders := a.holders.length, lowering := (s.holdersIn k .lowering).length, entries := a.queue.length,
    handovers := (a.queue.filter fun e => e.kind = .handover).length, head := a.queue.head? }

/-- The five replies, in the order of R175. The protection unit's part is its whole state, the last sample included
(R57, R80; DESIGN CHOICE, log 34), and the five are read in one event (DESIGN CHOICE, log 36). -/
def sectionStateAnswers (s : State) (k : Sec) : List Answer :=
  [ok (.seqPart 1 5 k (s.sec k).seq), ok (.measPart 2 5 k (measPart s k)), ok (.accPart 3 5 k (accPart s k)),
   ok (.protPart 4 5 k (s.sec k).prot), ok (.admPart 5 5 k (admPart s k))]

/-- READ_SECTION_STATE: five replies and an emptied trip record (R80, R175); one reply for a refusal (R172). -/
def serveSectionState (r : Req) (s : State) : State :=
  let s0 := takeRequest (.readSectionState r) s
  if r.broadcast then s0
  else match r.payload with
    | [b] =>
      match secOf b.toNat with
      | none => answerAll 0x48 r 1 (fun s => (s, [refuse .badSection])) s0
      | some k => answerAll 0x48 r 5
          (fun s => (s.modProt k fun p => { p with record := none }, sectionStateAnswers s k)) s0
    | _ => answerAll 0x48 r 1 (fun s => (s, [refuse .badRequest])) s0

/-- READ_SECTION_STATE (R175). -/
def execReadSectionState (r : Req) (s : State) : Outcome State Fault Refusal := .next (serveSectionState r s)

/-! ## The management unit's own requests -/

/-- One section's summary (R177). -/
def sectionSummary (s : State) (k : Sec) : SectionSummary :=
  { activePresent := (s.active k).isSome, enabled := s.isEnabled k,
    pendingDiffers := decide ((s.sec k).copies.pending ≠ s.active k), state := (s.sec k).seq.state,
    lastFeedback := (s.sec k).seq.lastFeedback }

/-- The data of a GET_STATUS reply (R177), read in one event (DESIGN CHOICE, log 36). -/
def statusData (s : State) : StatusData :=
  { powerUp := s.mgmt.powerUp, notices := s.mgmt.notices.length, addr := s.straps.addr, supaddr := s.straps.supaddr,
    rate := s.straps.rate, ringErrors := s.ring.errors, estopClosed := s.chip.estopClosed, fellSeen := s.chip.fellSeen,
    roseSeen := s.chip.roseSeen, backupTrip := s.chip.backupTrip, sections := allSecs.map (sectionSummary s),
    trucks := s.table.trucks.length, generation := s.table.generation, fleet := s.table.fleet.length }

/-- GET_STATUS (R177). -/
def execGetStatus (r : Req) (s : State) : Outcome State Fault Refusal :=
  .next (serve (.getStatus r) 0x40 r (onEmpty r.payload (reads fun s => ok (.status (statusData s)))) s)

/-- CLEAR_POWER_UP (R176). -/
def execClearPowerUp (r : Req) (s : State) : Outcome State Fault Refusal :=
  .next (serve (.clearPowerUp r) 0x41 r
    (onEmpty r.payload fun s => ({ s with mgmt := { s.mgmt with powerUp := false } }, ok .empty)) s)

/-- NEXT_EVENT's effect: the first notice, if any, is removed and returned with the number that remain (R182). -/
def nextEventBody (s : State) : State × Answer :=
  ({ s with mgmt := { s.mgmt with notices := s.mgmt.notices.tail } },
   ok (.event s.mgmt.notices.head? s.mgmt.notices.tail.length))

/-- NEXT_EVENT (R182). -/
def execNextEvent (r : Req) (s : State) : Outcome State Fault Refusal :=
  .next (serve (.nextEvent r) 0x5B r (onEmpty r.payload nextEventBody) s)

/-! ## RESTART -/

/-- RESTART accepted: with its reply place claimed, its stages follow (R178, R179); with a payload it is refused. -/
def startRestart (r : Req) (s : State) : State :=
  let s0 := takeRequest (.restart r) s
  if r.broadcast then s0
  else match claim 1 s0 with
    | none => s0
    | some s1 =>
      if r.payload = [] then s1.withRestart (some { tag := r.tag, next := .sequencer, takenOff := [], removed := 0 })
      else placeReplies 0x42 r [refuse .badRequest] s1

/-- RESTART (R178). -/
def execRestart (r : Req) (s : State) : Outcome State Fault Refusal := .next (startRestart r s)

end Sys2Proof.Machine
end

