-- ==== Sys2Proof/WellFormed.lean ====
section
/-! DEFINITION. Which commands the surroundings can bring: the checks on the data of each command. A command that
fails one is still given a meaning by `exec`; the checks say only that no ring, timer or pin brings it. -/

namespace Sys2Proof

/-- A payload has at most 64 bytes (R185). -/
def payloadFits (p : List Byte) : Bool := p.length ≤ 64

/-- The length a frame's header gives, in the sixth byte (R185); absent when the header is not whole. -/
def headerLength (bytes : List Byte) : Option Nat := bytes[5]?.map BitVec.toNat

/-- A whole frame: six header bytes, the payload the header announces, at most 64 bytes, and two CRC bytes
(R158, R185). -/
def wholeFrame (bytes : List Byte) : Bool :=
  match headerLength bytes with
  | none => false
  | some n => n ≤ 64 && bytes.length == 6 + n + 2

/-- A measured span of seven sync bits, in eighths of a nominal bit time, that R157 accepts: from seven eighths to
nine eighths of the nominal bit time, inclusive, for each of the seven bits. -/
def syncWithinTolerance (spanEighths : Nat) : Bool := 49 ≤ spanEighths && spanEighths ≤ 63

/-- The fault is one that abandons a frame (R157, R158). -/
def AbandonCause.real : AbandonCause → Bool
  | .sync span => !syncWithinTolerance span
  | .length n => 64 < n && n ≤ 255
  | .framing | .breakArrived | .silence => true

/-- A truck id that a record can carry (00_scope.md). -/
def truckIdFits (t : Nat) : Bool := 1 ≤ t && t ≤ 65534

/-- The figures of a trip request lie in the ranges of R75. -/
def TripRequest.fits (r : TripRequest) : Bool :=
  (match r.seq with | none => true | some q => q ≤ 255) &&
  (match r.iCorr with | none => true | some i => -32767 ≤ i && i ≤ 32767) &&
  (match r.vAvg with | none => true | some v => v ≤ 65535) &&
  r.heat < 4294967296

/-- A trip request names a reason that protection raises (R73), with a cause exactly for SENSOR_LOST (R72). -/
def TripRequest.raised (r : TripRequest) : Bool :=
  r.reason ≠ .lineTest && (r.cause.isSome == (r.reason == .sensorLost : Bool))

/-- The state a trip can enter (R96 to R98). -/
def TripAnswer.possible : TripAnswer → Bool
  | .ignored => true
  | .acted st => st = .tripped || st = .lockout || st = .off

/-- The command's data is such as the surroundings or another block can bring. -/
def Instr.wellFormed : Instr → Bool
  | .powerOnReset _ => true
  | .frameReceived bytes => wholeFrame bytes
  | .frameAbandoned c => c.real
  | .transmissionEnd => true
  | .measurementFrame _ p => payloadFits p
  | .tripRequest _ r => r.raised && r.fits
  | .tripAnswer _ r a => r.raised && r.fits && a.possible
  | .sensorWatchdogExpiry _ => true
  | .testTimerExpiry _ => true
  | .breakerTimerExpiry _ => true
  | .recloseTimerExpiry _ => true
  | .stableTimerExpiry _ => true
  | .estopInputChange _ => true
  | .estopFilterExpiry => true
  | .arrive _ p => payloadFits p
  | .depart _ p => payloadFits p
  | .raiseReq _ p => payloadFits p
  | .state _ p => payloadFits p
  | .silenceTimerExpiry t => truckIdFits t
  | .grantWindowExpiry t => truckIdFits t
  | .handoverWindowExpiry t => truckIdFits t
  | .lowerWindowExpiry t => truckIdFits t
  | .getStatus r => payloadFits r.payload
  | .clearPowerUp r => payloadFits r.payload
  | .restart r => payloadFits r.payload
  | .clearBackup r => payloadFits r.payload
  | .writeRamp r => payloadFits r.payload
  | .readRamp r => payloadFits r.payload
  | .writeSection r => payloadFits r.payload
  | .readSection r => payloadFits r.payload
  | .readSectionState r => payloadFits r.payload
  | .writeFleet r => payloadFits r.payload
  | .removeFleet r => payloadFits r.payload
  | .readFleet r => payloadFits r.payload
  | .writeClass r => payloadFits r.payload
  | .readClass r => payloadFits r.payload
  | .captureClear r => payloadFits r.payload
  | .captureKeep r => payloadFits r.payload
  | .readResults r => payloadFits r.payload && r.payload != [255]
  | .readResultsAll r => r.payload == [255]
  | .energize r => payloadFits r.payload
  | .deenergize r => payloadFits r.payload
  | .resetLockout r => payloadFits r.payload
  | .calibrate r => payloadFits r.payload
  | .maintEnter r => payloadFits r.payload
  | .maintBreakerClose r => r.payload.length == 2 && r.payload[1]? == some 1
  | .maintBreakerOpen r => payloadFits r.payload && !(r.payload.length == 2 && r.payload[1]? == some 1)
  | .maintTest r => payloadFits r.payload
  | .maintExit r => payloadFits r.payload
  | .readTrucks r => payloadFits r.payload
  | .evictTruck r => payloadFits r.payload
  | .nextEvent r => payloadFits r.payload

end Sys2Proof
end

