-- ==== Sys2Proof/Machine/Ring.lean ====
section
/-! DEFINITION. The ring: a frame read whole or abandoned at Port A (R157 to R161, R163), the dispatcher (R13, R14,
R162, R170), the transmit arbiter at Port B (R136, R166, R167), and the power-on reset (R156, R169). -/

namespace Sys2Proof.Machine

open Sys2Proof Host

/-! ## Judging the bytes of a frame -/

/-- What the receiver makes of the bytes that stand after a sync field (R158, R159). -/
inductive Reading where
  | good (f : Frame)
  | truncated
  | tooLong
  | crcMismatch
  deriving DecidableEq, Repr

/-- Header, payload and CRC in order: the length is judged when the header completes, then the whole frame must be
there, and its CRC must match. The line is disregarded after the last CRC byte, so bytes that follow are not read
(R158, R159, log 6). -/
def readFrame (bytes : List Byte) : Reading :=
  match bytes with
  | dest :: src :: hops :: kind :: tag :: len :: rest =>
    if 64 < len.toNat then .tooLong
    else if rest.length < len.toNat + 2 then .truncated
    else
      let f : Frame := { dest := dest, src := src, hops := hops, kind := kind, tag := tag,
                         payload := rest.take len.toNat }
      if (rest.drop len.toNat).take 2 = crcBytes (bytes.take (6 + len.toNat)) then .good f else .crcMismatch
  | _ => .truncated

/-! ## Deciding a good frame (R161) -/

/-- The two actions a decision can hold. Both are no for a frame that is removed or dropped. -/
structure Decision where
  consume : Bool
  forward : Bool
  deriving DecidableEq, Repr

/-- The part's own address; absent when ADDR is strapped to 0 or 255 and matches no frame (R156, log 20). -/
def State.ownAddr (s : State) : Option Byte := if isNode s.straps.addr then some s.straps.addr else none

/-- The decision by src, dest and hops, in the order of R161. A part without a node address consumes and removes
nothing (R156). -/
def decideFrame (own : Option Byte) (f : Frame) : Decision :=
  if some f.src = own then { consume := false, forward := false }
  else if some f.dest = own then { consume := true, forward := false }
  else if f.dest = 255 then { consume := own.isSome, forward := f.hops ≠ 0 }
  else { consume := false, forward := f.hops ≠ 0 }

/-- A frame of another node joins the forward queue with its hop count one lower, or counts a ring error when 8 are
held (R163). -/
def forwardFrame (f : Frame) (s : State) : State :=
  if 8 ≤ s.ring.forward.length then ringError s
  else { s with ring := { s.ring with forward := s.ring.forward ++ [{ f with hops := f.hops - 1 }] } }

/-! ## The dispatcher (R162) -/

/-- The candidates of R13 and R14: the lowest-numbered section that is active, enabled, and has the address. -/
def State.matching (s : State) (address : SectionParams → Nat) (src : Byte) : Option Sec :=
  allSecs.find? fun k => (s.active k).any fun p => p.enabled && address p == src.toNat

/-- The truck frame of each kind (R186, Table 10-2). -/
def truckCommand (kind : Byte) (k : Sec) (payload : List Byte) : Option Instr :=
  if kind = 0x20 then some (.arrive k payload)
  else if kind = 0x21 then some (.depart k payload)
  else if kind = 0x22 then some (.raiseReq k payload)
  else if kind = 0x23 then some (.state k payload)
  else none

/-- MAINT_BREAKER by its position byte: two rows of the table (log 26). -/
def maintBreakerCommand (r : Req) : Instr :=
  match r.payload with
  | [_, p] => if p = 1 then .maintBreakerClose r else .maintBreakerOpen r
  | _ => .maintBreakerOpen r

/-- READ_RESULTS by its selector: two rows of the table (log 26). -/
def readResultsCommand (r : Req) : Instr := if r.payload = [255] then .readResultsAll r else .readResults r

/-- The management requests from kind 0x40 upward, in the order of Table 10-3 (R186). -/
def requestTable : List (Req → Instr) :=
  [.getStatus, .clearPowerUp, .restart, .clearBackup, .writeRamp, .readRamp, .writeSection, .readSection,
   .readSectionState, .writeFleet, .removeFleet, .readFleet, .writeClass, .readClass, .captureClear, .captureKeep,
   readResultsCommand, .energize, .deenergize, .resetLockout, .calibrate, .maintEnter, maintBreakerCommand, .maintTest,
   .maintExit, .readTrucks, .evictTruck, .nextEvent]

/-- The management request of a kind, 0x40 to 0x5B (R186). -/
def requestCommand (kind : Byte) (r : Req) : Option Instr :=
  if 0x40 ≤ kind.toNat then (requestTable[kind.toNat - 0x40]?).map fun c => c r else none

/-- The command a consumed frame is routed as, by kind, match and source; none where it is dropped (R13, R14,
R162). -/
def route (s : State) (f : Frame) : Option Instr :=
  let broadcast := decide (f.dest = 255)
  match requestCommand f.kind { tag := f.tag, broadcast := broadcast, payload := f.payload } with
  | some c => if isNode s.straps.supaddr && f.src == s.straps.supaddr then some c else none
  | none =>
    if broadcast then none
    else if f.kind = 0x10 then (s.matching (·.frontendAddr) f.src).map fun k => .measurementFrame k f.payload
    else match s.matching (·.readerAddr) f.src with
      | none => none
      | some k => truckCommand f.kind k f.payload

/-- The requests the management unit has in hand, a RESTART under way among them, or waiting (R170). -/
def State.requestsHeld (s : State) : Nat :=
  (s.handed.filter isRequest).length + (if s.mgmt.restart.isSome then 1 else 0)

/-- The dispatcher takes a consumed frame. A request that finds one in hand and one waiting is dropped (R162, R170,
log 4). -/
def dispatch (f : Frame) (s : State) : State :=
  match route s f with
  | none => s
  | some c => if isRequest c && 2 ≤ s.requestsHeld then s else hand c s

/-! ## FRAME_RECEIVED and FRAME_ABANDONED -/

/-- The receiver of the part is `rx`. -/
def setRx (rx : Rx) (s : State) : State := { s with ring := { s.ring with rx := rx } }

/-- The receiver goes on in this phase, with the level and the low period it has seen (R157). -/
def Rx.inPhase (r : Rx) (p : RxPhase) : Rx := { r with phase := p }

/-- The receiver at the rising edge that ends a break: in sync, the first eighth of the sync field heard (R157). -/
def Rx.afterBreak : Rx := { level := true, low := 0, phase := .sync 1 0 }

/-- The first byte, which follows a sync field of this span on its last bit (R157, R158). -/
def firstByte (span : Nat) : RxPhase := .byte span [] 1 2 []

/-- A good frame is decided: forwarded, consumed, both or neither (R161). -/
def decided (f : Frame) (s : State) : State :=
  let d := decideFrame s.ownAddr f
  let s1 := if d.forward then forwardFrame f s else s
  if d.consume then dispatch f s1 else s1

/-- The bytes of a frame that has completed at Port A (R158 to R163). -/
def frameReceived (bytes : List Byte) (s : State) : State :=
  let s1 := setRx (s.ring.rx.inPhase .seeking) s
  match readFrame bytes with
  | .good f => decided f s1
  | .truncated | .tooLong | .crcMismatch => ringError s1

/-- The receiver after a frame is abandoned: a break moves it to sync, and any other fault leaves it seeking (R157,
R158). -/
def Rx.abandoned (r : Rx) : AbandonCause → Rx
  | .breakArrived => Rx.afterBreak
  | .sync _ | .framing | .length _ | .silence => r.inPhase .seeking

/-- A frame is abandoned, and one ring error is counted (R157, R158, R160). A span within tolerance is no fault, nor is
a length of at most 64: the receiver reads on (log 7). -/
def frameAbandoned (c : AbandonCause) (s : State) : State :=
  match c with
  | .sync span =>
    if syncWithinTolerance span then setRx (s.ring.rx.inPhase (firstByte span)) s
    else ringError (setRx (s.ring.rx.abandoned c) s)
  | .length n => if n ≤ 64 then s else ringError (setRx (s.ring.rx.abandoned c) s)
  | .framing | .breakArrived | .silence => ringError (setRx (s.ring.rx.abandoned c) s)

/-! ## The transmit arbiter -/

/-- Which collection the arbiter takes its head from (R167). -/
inductive Choice where
  | priority | forward | ordinary | nothing
  deriving DecidableEq, Repr

/-- The table of R167: the choice and the run count after, from which of the three collections hold a frame. -/
def arbiter (priority forward ordinary : Bool) (run : Nat) : Choice × Nat :=
  if priority then (.priority, run)
  else if forward then
    if !ordinary then (.forward, 0) else if run < 4 then (.forward, run + 1) else (.ordinary, 0)
  else if ordinary then (.ordinary, 0)
  else (.nothing, run)

/-- The envelope of a frame the part originates (R166). -/
def State.envelope (s : State) (dest : Byte) (kind tag : Byte) (body : LineBody) : LineFrame :=
  { dest := dest, src := s.straps.addr, hops := BitVec.ofNat 8 s.ramp.hopInit, kind := kind, tag := tag, body := body }

/-- A priority-lane frame as it goes on the line (R166, R187). -/
def State.priorityOnLine (s : State) (f : PriorityFrame) : LineFrame :=
  let dest := match f with
    | .command _ d _ => d
    | .lower _ d _ => d
  s.envelope (BitVec.ofNat 8 dest) f.kind 0 (.plain f.payload)

/-- An ordinary-lane frame as it goes on the line; an ATTENTION's pending count is written now (R166, R183, R188). -/
def State.ordinaryOnLine (s : State) (f : OrdinaryFrame) : LineFrame :=
  let dest := match f with
    | .grant _ d .. => BitVec.ofNat 8 d
    | .wait _ d _ => BitVec.ofNat 8 d
    | .deny _ d _ => BitVec.ofNat 8 d
    | .reply _ | .attention => s.straps.supaddr
  let tag := match f with
    | .reply r => r.tag
    | .grant .. | .wait .. | .deny .. | .attention => 0
  s.envelope dest f.kind tag (f.body s.mgmt.notices.length)

/-- A forwarded frame as it goes on the line: only its CRC is made afresh (R163). -/
def Frame.onLine (f : Frame) : LineFrame :=
  { dest := f.dest, src := f.src, hops := f.hops, kind := f.kind, tag := f.tag, body := .plain f.payload }

/-- The own frames that may leave: none where the part has no node address, since it then originates none (R156,
log 20). -/
def State.sendable {α : Type} (s : State) (lane : List α) : List α := if s.ownAddr.isSome then lane else []

/-- The sections that hold a stall mark, ascending (R136). -/
def State.stalled (s : State) : List Sec := allSecs.filter fun k => (s.sec k).adm.stall

/-- A frame has left the ordinary lane: a pass on each section with a stall mark, in ascending order (R136,
log 15). -/
def ordinaryFreed (s : State) : State := s.stalled.foldl (fun s k => runPass k s) s

/-- The frame chosen is taken out of its collection and begins to leave, with the run count after it (R167, R168). -/
def sendChosen (choice : Choice × Nat) (s : State) : State :=
  match choice.1, s.ring.priority, s.ring.forward, s.ring.ordinary with
  | .priority, f :: rest, _, _ =>
    { s with ring := { s.ring with priority := rest, runCount := choice.2, line := some (s.priorityOnLine f) } }
  | .forward, _, f :: rest, _ =>
    { s with ring := { s.ring with forward := rest, runCount := choice.2, line := some f.onLine } }
  | .ordinary, _, _, f :: rest =>
    ordinaryFreed
      { s with ring := { s.ring with ordinary := rest, runCount := choice.2, line := some (s.ordinaryOnLine f) } }
  | _, _, _, _ => s

/-- The arbiter's choice from the collections as they stand (R167). -/
def State.choice (s : State) : Choice × Nat :=
  arbiter (!(s.sendable s.ring.priority).isEmpty) (!s.ring.forward.isEmpty) (!(s.sendable s.ring.ordinary).isEmpty)
    s.ring.runCount

/-- Port B's line is free (R167). -/
def State.lineFree (s : State) : State := { s with ring := { s.ring with line := none } }

/-- Port B's line falls free, and the arbiter chooses the next frame, if a collection holds one (R167). -/
def transmissionEnd (s : State) : State := sendChosen s.lineFree.choice s.lineFree

/-! ## Commands -/

/-- POWER_ON_RESET (R156): every block takes its power-on values; the commands and the levels at Port A that are still to
come are untouched. -/
def execPowerOnReset (pins : Pins) (s : State) : Outcome State Fault Refusal :=
  .next { State.powerOn pins with pending := s.pending, portA := s.portA }

/-- FRAME_RECEIVED (R161). -/
def execFrameReceived (bytes : List Byte) (s : State) : Outcome State Fault Refusal := .next (frameReceived bytes s)

/-- FRAME_ABANDONED (R158). -/
def execFrameAbandoned (c : AbandonCause) (s : State) : Outcome State Fault Refusal := .next (frameAbandoned c s)

/-- TRANSMISSION_END (R167). -/
def execTransmissionEnd (s : State) : Outcome State Fault Refusal := .next (transmissionEnd s)

end Sys2Proof.Machine
end

