-- ==== Sys2Proof/Machine/Dispatch.lean ====
section
/-! DEFINITION. The meaning of every command, one arm each. -/

namespace Sys2Proof.Machine

open Sys2Proof Host

def exec (i : Instr) (s : State) : Host.Outcome State Fault Refusal :=
  match i with
  | .powerOnReset pins => Sys2Proof.Machine.execPowerOnReset pins s
  | .frameReceived bytes => Sys2Proof.Machine.execFrameReceived bytes s
  | .frameAbandoned cause => Sys2Proof.Machine.execFrameAbandoned cause s
  | .transmissionEnd => Sys2Proof.Machine.execTransmissionEnd s
  | .measurementFrame k payload => Sys2Proof.Machine.execMeasurementFrame k payload s
  | .tripRequest k r => Sys2Proof.Machine.execTripRequest k r s
  | .tripAnswer k r a => Sys2Proof.Machine.execTripAnswer k r a s
  | .sensorWatchdogExpiry k => Sys2Proof.Machine.execSensorWatchdogExpiry k s
  | .testTimerExpiry k => Sys2Proof.Machine.execTestTimerExpiry k s
  | .breakerTimerExpiry k => Sys2Proof.Machine.execBreakerTimerExpiry k s
  | .recloseTimerExpiry k => Sys2Proof.Machine.execRecloseTimerExpiry k s
  | .stableTimerExpiry k => Sys2Proof.Machine.execStableTimerExpiry k s
  | .estopInputChange high => Sys2Proof.Machine.execEstopInputChange high s
  | .estopFilterExpiry => Sys2Proof.Machine.execEstopFilterExpiry s
  | .arrive k payload => Sys2Proof.Machine.execArrive k payload s
  | .depart k payload => Sys2Proof.Machine.execDepart k payload s
  | .raiseReq k payload => Sys2Proof.Machine.execRaiseReq k payload s
  | .state k payload => Sys2Proof.Machine.execState k payload s
  | .silenceTimerExpiry truck => Sys2Proof.Machine.execSilenceTimerExpiry truck s
  | .grantWindowExpiry truck => Sys2Proof.Machine.execGrantWindowExpiry truck s
  | .handoverWindowExpiry truck => Sys2Proof.Machine.execHandoverWindowExpiry truck s
  | .lowerWindowExpiry truck => Sys2Proof.Machine.execLowerWindowExpiry truck s
  | .getStatus r => Sys2Proof.Machine.execGetStatus r s
  | .clearPowerUp r => Sys2Proof.Machine.execClearPowerUp r s
  | .restart r => Sys2Proof.Machine.execRestart r s
  | .clearBackup r => Sys2Proof.Machine.execClearBackup r s
  | .writeRamp r => Sys2Proof.Machine.execWriteRamp r s
  | .readRamp r => Sys2Proof.Machine.execReadRamp r s
  | .writeSection r => Sys2Proof.Machine.execWriteSection r s
  | .readSection r => Sys2Proof.Machine.execReadSection r s
  | .readSectionState r => Sys2Proof.Machine.execReadSectionState r s
  | .writeFleet r => Sys2Proof.Machine.execWriteFleet r s
  | .removeFleet r => Sys2Proof.Machine.execRemoveFleet r s
  | .readFleet r => Sys2Proof.Machine.execReadFleet r s
  | .writeClass r => Sys2Proof.Machine.execWriteClass r s
  | .readClass r => Sys2Proof.Machine.execReadClass r s
  | .captureClear r => Sys2Proof.Machine.execCaptureClear r s
  | .captureKeep r => Sys2Proof.Machine.execCaptureKeep r s
  | .readResults r => Sys2Proof.Machine.execReadResults r s
  | .readResultsAll r => Sys2Proof.Machine.execReadResultsAll r s
  | .energize r => Sys2Proof.Machine.execEnergize r s
  | .deenergize r => Sys2Proof.Machine.execDeenergize r s
  | .resetLockout r => Sys2Proof.Machine.execResetLockout r s
  | .calibrate r => Sys2Proof.Machine.execCalibrate r s
  | .maintEnter r => Sys2Proof.Machine.execMaintEnter r s
  | .maintBreakerClose r => Sys2Proof.Machine.execMaintBreakerClose r s
  | .maintBreakerOpen r => Sys2Proof.Machine.execMaintBreakerOpen r s
  | .maintTest r => Sys2Proof.Machine.execMaintTest r s
  | .maintExit r => Sys2Proof.Machine.execMaintExit r s
  | .readTrucks r => Sys2Proof.Machine.execReadTrucks r s
  | .evictTruck r => Sys2Proof.Machine.execEvictTruck r s
  | .nextEvent r => Sys2Proof.Machine.execNextEvent r s

end Sys2Proof.Machine
end

