-- ==== Sys2Proof/Machine/Line.lean ====
section
/-! DEFINITION. The line of the ring: the levels the transmitter drives (R168), and the receiver that turns the levels
at Port A into FRAME_RECEIVED and FRAME_ABANDONED (R157, R158). Time goes in eighths of a nominal bit time (log 8). -/

namespace Sys2Proof.Machine

open Sys2Proof Host

/-! ## The transmitter (R168) -/

/-- One byte: a low start bit, eight data bits least significant first, a high stop bit (R158). -/
def byteLevels (b : Byte) : List Bool :=
  [false, b.getLsbD 0, b.getLsbD 1, b.getLsbD 2, b.getLsbD 3, b.getLsbD 4, b.getLsbD 5, b.getLsbD 6, b.getLsbD 7, true]

/-- The break of a transmission: low for 14 nominal bit times (R168). -/
def breakLevels : List Bool := List.replicate 14 false

/-- The sync field: eight bits of alternating level, the first high (R157). -/
def syncLevels : List Bool := [true, false, true, false, true, false, true, false]

/-- The level of each bit time of a transmission of these bytes (R168). -/
def frameLevels (bytes : List Byte) : List Bool := breakLevels ++ syncLevels ++ bytes.flatMap byteLevels

/-- A frame as the levels of its bit times at Port B. -/
def LineFrame.levels (f : LineFrame) : List Bool := frameLevels f.bytes

/-- Levels held for `w` eighths of a nominal bit time each: 8 at the nominal rate. -/
def atRate (w : Nat) (levels : List Bool) : List Bool := levels.flatMap fun l => List.replicate w l

/-! ## The receiver (R157, R158) -/

/-- A break: 13 nominal bit times of low (R157). -/
def breakLength : Nat := 104

/-- The three phases of R157. -/
def RxPhase.phase : RxPhase → Phase
  | .seeking => .seeking
  | .sync .. => .sync
  | .byte .. | .gap .. => .bytes

/-- Eight data bits, least significant first (R158). -/
def byteOf (bits : List Bool) : Byte :=
  BitVec.ofNat 8 ((bits.take 8).zipIdx.map fun (b, i) => bit b i).sum

/-- The bytes after one more has been read: the length is judged when the header completes, and the frame is whole
with its last CRC byte (R158). -/
def byteRead (span : Nat) (read : List Byte) (elapsed ahead : Nat) : RxPhase × Option Instr :=
  match headerLength read with
  | none => (.gap span read elapsed ahead, none)
  | some n =>
    if 64 < n then (.seeking, some (.frameAbandoned (.length n)))
    else if 6 + n + 2 ≤ read.length then (.seeking, some (.frameReceived read))
    else (.gap span read elapsed ahead, none)

/-- One sample of a byte. Its bit `j` is sampled in the middle of the bit, (2j + 1) half bits after the start, and the level
sampled in its start bit is not judged: R158 lists no fault for a first byte whose start bit is high, and the receiver reads
that byte on (DESIGN CHOICE, log 8). -/
def sampleByte (span : Nat) (read : List Byte) (elapsed ahead : Nat) (bits : List Bool) (level : Bool) :
    RxPhase × Option Instr :=
  if 14 * elapsed < (2 * bits.length + 1 + ahead) * span then (.byte span read (elapsed + 1) ahead bits, none)
  else if bits.length < 9 then (.byte span read (elapsed + 1) ahead (bits ++ [level]), none)
  else if level then byteRead span (read ++ [byteOf (bits.drop 1)]) (elapsed + 1) ahead
  else (.seeking, some (.frameAbandoned .framing))

/-- What an eighth of a nominal bit time at `level` does in each phase, breaks apart. `falling` tells that a low period
begins with it. -/
def phaseTick (level falling : Bool) : RxPhase → RxPhase × Option Instr
  | .seeking => (.seeking, none)
  | .sync elapsed falls =>
    if falling && falls == 3 then
      if syncWithinTolerance elapsed then (firstByte elapsed, none)
      else (.seeking, some (.frameAbandoned (.sync elapsed)))
    else if 63 ≤ elapsed then (.seeking, some (.frameAbandoned (.sync (elapsed + 1))))
    else (.sync (elapsed + 1) (if falling then falls + 1 else falls), none)
  | .byte span read elapsed ahead bits => sampleByte span read elapsed ahead bits level
  | .gap span read elapsed ahead =>
    if falling then (.byte span read 1 0 [], none)
    else if (20 + ahead) * span + 14 * breakLength ≤ 14 * elapsed then (.seeking, some (.frameAbandoned .silence))
    else (.gap span read (elapsed + 1) ahead, none)

/-- One eighth of a nominal bit time at the receiver. The rising edge that ends a break begins a sync field, whatever
the phase, and a frame in progress is then abandoned as truncated (R157). -/
def Rx.tick (r : Rx) (level : Bool) : Rx × Option Instr :=
  if level && !r.level && breakLength ≤ r.low then
    (Rx.afterBreak,
     if r.phase.phase = .bytes then some (.frameAbandoned .breakArrived) else none)
  else
    let (p, c) := phaseTick level (!level && r.level) r.phase
    ({ level := level, low := if level then 0 else r.low + 1, phase := p }, c)

/-- The receiver over a stretch of line, with the commands it brings about, in order. -/
def Rx.run : Rx → List Bool → Rx × List Instr
  | r, [] => (r, [])
  | r, l :: ls =>
    let (r1, c) := r.tick l
    let (r2, cs) := r1.run ls
    (r2, c.toList ++ cs)

/-! ## The receiver of the part -/

/-- The receiver hears an eighth of a nominal bit time at Port A, and the part carries out the command that this brings
about, if it brings one about (R157, R158). -/
def hear (level : Bool) (s : State) : Outcome State Fault Refusal :=
  let (rx, c) := s.ring.rx.tick level
  let heard : State := { s with ring := { s.ring with rx := rx } }
  match c with
  | none => .next heard
  | some c => exec c heard

end Sys2Proof.Machine
end

