-- ==== Sys2Proof/Machine/Idle.lean ====
section
/-! DEFINITION. What a step does when no command waits from outside (logs 1, 2, 35): a RESTART under way goes on, work
handed over is taken, a timer that has run out expires, a free line is given a frame, the line at Port A is heard, and
otherwise a millisecond passes. -/

namespace Sys2Proof.Machine

open Sys2Proof Host

/-! ## The passage of time -/

/-- A running timer after a millisecond (00_scope.md). -/
def Timer.tick (t : Timer) : Timer := t.map (· - 1)

/-- A timer that has run out and has yet to expire. -/
def Timer.due (t : Timer) : Bool := t == some 0

def Meas.tick (m : Meas) : Meas := { m with watchdog := Timer.tick m.watchdog }

def Seq.tick (q : Seq) : Seq :=
  { q with testTimer := Timer.tick q.testTimer, breakerTimer := Timer.tick q.breakerTimer,
           recloseTimer := Timer.tick q.recloseTimer, stableTimer := Timer.tick q.stableTimer }

def Section.tick (x : Section) : Section := { x with meas := x.meas.tick, seq := x.seq.tick }

def Truck.tick (r : Truck) : Truck :=
  { r with silence := Timer.tick r.silence, window := r.window.map fun w => { w with left := w.left - 1 } }

/-- A millisecond passes: every running timer, filter and window has one less to go. -/
def State.tick (s : State) : State :=
  { s with
    sections := s.sections.map Section.tick
    chip := { s.chip with filter := s.chip.filter.map fun f => { f with left := f.left - 1 } }
    table := { s.table with trucks := s.table.trucks.map Truck.tick } }

/-! ## What has run out -/

/-- The first timer of a section that has run out, as its expiry. -/
def Section.expired (k : Sec) (x : Section) : Option Instr :=
  if Timer.due x.meas.watchdog then some (.sensorWatchdogExpiry k)
  else if Timer.due x.seq.testTimer then some (.testTimerExpiry k)
  else if Timer.due x.seq.breakerTimer then some (.breakerTimerExpiry k)
  else if Timer.due x.seq.recloseTimer then some (.recloseTimerExpiry k)
  else if Timer.due x.seq.stableTimer then some (.stableTimerExpiry k)
  else none

/-- The expiry of a window, by its kind. -/
def WindowKind.expiry (k : WindowKind) (t : Nat) : Instr :=
  match k with
  | .grant => .grantWindowExpiry t
  | .handover => .handoverWindowExpiry t
  | .lower => .lowerWindowExpiry t

/-- The first timer of a truck that has run out, as its expiry. Where its silence timer and its window run out in one
millisecond, the silence timer is taken first; R124 and R143 to R147 give no order (DESIGN CHOICE, log 1). -/
def Truck.expired (r : Truck) : Option Instr :=
  if Timer.due r.silence then some (.silenceTimerExpiry r.id)
  else match r.window with
    | none => none
    | some w => if w.left = 0 then some (w.kind.expiry r.id) else none

/-- The E-stop filter that has run out (R107). -/
def Chip.expired (c : Chip) : Option Instr :=
  if c.filter.any (fun f => f.left == 0) then some .estopFilterExpiry else none

/-- The first expiry that is due: the E-stop filter, the sections in ascending order, the trucks in the order of
records (log 1). -/
def State.expired (s : State) : Option Instr :=
  s.chip.expired <|> allSecs.findSome? (fun k => (s.sec k).expired k) <|> s.table.trucks.findSome? Truck.expired

/-! ## The idle step -/

/-- Port B's line is free and a collection holds a frame that may leave (R167). -/
def State.wantsLine (s : State) : Bool := s.ring.line.isNone && s.choice.1 != .nothing

/-- The command the part takes of itself: work handed over first, then an expiry, then the free line (log 1). -/
def State.ownCommand (s : State) : Option Instr :=
  s.handed.head? <|> s.expired <|> (if s.wantsLine then some .transmissionEnd else none)

/-- A step with no command waiting from outside: the next stage of a RESTART under way, else the part's own next
command, else the next level at Port A, else a millisecond (logs 1, 8, 35). -/
def idle (s : State) : Outcome State Fault Refusal :=
  if s.mgmt.restart.isSome then .next (advanceRestart s)
  else match s.ownCommand with
    | some c => exec c s
    | none =>
      match s.portA with
      | level :: rest => hear level { s with portA := rest }
      | [] => .next s.tick

end Sys2Proof.Machine
end

