-- ==== Sys2Proof/Machine/Step.lean ====
section
/-! DEFINITION. One step: the command at the front of the queue, or the part's own work on an empty queue; and how the
host puts a command there. -/

namespace Sys2Proof.Machine

open Sys2Proof

/-- One step of the part. The command at the front of the queue is taken, with the rest of the queue left in place; on
an empty queue the part does its own work or lets a millisecond pass (log 1). -/
def step (s : State) : Host.Outcome State Fault Refusal :=
  match s.pending with
  | c :: rest => exec c { s with pending := rest }
  | [] => idle s

/-- The command that a word of the opcode table spells, put at the front of the queue. The table gives no row any bits,
so no word spells one. -/
def State.withFetchWord (s : State) (nbits w : Nat) : State :=
  match decodeTableWord nbits w with
  | some c => { s with pending := c :: s.pending }
  | none => s

end Sys2Proof.Machine
end

