-- ==== Sys2Proof/Safety.lean ====
section
/-! DEFINITION. What every run of the part is held to: the ranges and orders the manual's tables give its state, and
the rules that keep a section dead while it should be. The claims say that every step keeps them. -/

namespace Sys2Proof.Machine

open Sys2Proof

/-! ## The ring (R160, R163 to R165, R167, R185) -/

/-- The error counter, the forward queue, the ordinary lane with its claimed places, and the run count lie within their
bounds, and no frame that waits to be forwarded or is on the line carries more than 64 bytes of payload. -/
structure Ring.Bounded (r : Ring) : Prop where
  errors : r.errors ≤ 65535
  forward : r.forward.length ≤ 8
  ordinary : r.ordinary.length + r.claimed ≤ 16
  run : r.runCount ≤ 4
  payloads : ∀ f ∈ r.forward, f.payload.length ≤ 64
  line : ∀ f, r.line = some f → f.body.bytes.length ≤ 64

/-- The priority lane holds at most one command per section, at most one LOWER per truck id, and at most 24 LOWER
frames (R164). -/
structure LaneBounded (lane : List PriorityFrame) : Prop where
  distinct : lane.Pairwise fun f g => f.sameKey g = false
  lowers : (lane.filter (·.isLower)).length ≤ 24

/-! ## The truck table (R112, R116, R119) -/

/-- At most 64 fleet entries with distinct ids in ascending order; at most 24 records with distinct ids; and the class
of every record is defined. -/
structure TruckTable.Ok (t : TruckTable) : Prop where
  fleetOrder : (t.fleet.map (·.id)).Pairwise (· < ·)
  fleetSize : t.fleet.length ≤ 64
  ids : (t.trucks.map (·.id)).Nodup
  size : t.trucks.length ≤ 24
  generation : t.generation < 256
  defined : ∀ r ∈ t.trucks, t.classes[r.cls].defined = true

/-- A class record that is defined lies within the ranges of R116; one that is not has every figure at 0. -/
def ClassRecord.Ok (c : ClassRecord) : Prop :=
  if c.defined then
    (100 ≤ c.demandMin ∧ c.demandMin ≤ 5000) ∧ (c.demandMin ≤ c.demandMax ∧ c.demandMax ≤ 8000) ∧
    (200 ≤ c.grantMs ∧ c.grantMs ≤ 10000) ∧ (100 ≤ c.handoverMs ∧ c.handoverMs ≤ 5000) ∧
    (200 ≤ c.lowerMs ∧ c.lowerMs ≤ 10000) ∧ c.overdrawPct ≤ 100
  else c = ClassRecord.undefined

/-! ## The event notice list (R180, R181) -/

/-- The notices stand in strict order of priority and section, each with 1 to 255 occurrences, and the two chip-wide
kinds are those keyed by the chip. -/
structure NoticesOk (l : List Notice) : Prop where
  order : l.Pairwise fun m n => m.rank < n.rank
  occurrences : ∀ n ∈ l, 1 ≤ n.occurrences ∧ n.occurrences ≤ 255
  keys : ∀ n ∈ l, n.key = none ↔ n.data.priority ≤ 2

/-! ## The parameter store (R1, R3, R7) -/

/-- The ramp record's fields lie within the ranges of R1. -/
def RampRecord.Ok (r : RampRecord) : Prop :=
  (1000 ≤ r.silenceMs ∧ r.silenceMs ≤ 60000) ∧ (1 ≤ r.hopInit ∧ r.hopInit ≤ 63)

/-- The fields of a section parameter record lie within the ranges of R3, for the section that owns it. -/
def SectionParams.Ok (own : Sec) (p : SectionParams) : Prop :=
  (1 ≤ p.frontendAddr ∧ p.frontendAddr ≤ 254) ∧ (1 ≤ p.readerAddr ∧ p.readerAddr ≤ 254) ∧
  p.nextUphill ≠ some own ∧
  (100 ≤ p.limitAmps ∧ p.limitAmps ≤ 20000) ∧ (100 ≤ p.contAmps ∧ p.contAmps ≤ 20000) ∧
  (8 ≤ p.tauShift ∧ p.tauShift ≤ 20) ∧ (17 ≤ p.derateLevel ∧ p.derateLevel ≤ 62) ∧
  (p.derateLevel + 1 ≤ p.tripLevel ∧ p.tripLevel ≤ 63) ∧ (1 ≤ p.derateShare ∧ p.derateShare ≤ 8) ∧
  (1000 ≤ p.instAmps ∧ p.instAmps ≤ 32767) ∧ (50 ≤ p.riseAmps ∧ p.riseAmps ≤ 32767) ∧ p.riseFloor ≤ 32767 ∧
  (100 ≤ p.sustainAmps ∧ p.sustainAmps ≤ 32767) ∧ (1 ≤ p.sustainSamples ∧ p.sustainSamples ≤ 4096) ∧
  p.vmin ≤ 65535 ∧ p.vhyst ≤ 5000 ∧ (10 ≤ p.testMs ∧ p.testMs ≤ 2000) ∧ p.testPass ≤ 65535 ∧
  (10 ≤ p.testMaxAmps ∧ p.testMaxAmps ≤ 32767) ∧ (20 ≤ p.breakerMs ∧ p.breakerMs ≤ 1000) ∧
  (100 ≤ p.recloseMs ∧ p.recloseMs ≤ 60000) ∧ (1000 ≤ p.stableMs ∧ p.stableMs ≤ 600000) ∧ p.maxAttempts ≤ 7 ∧
  (2 ≤ p.measMs ∧ p.measMs ≤ 100) ∧ (1 ≤ p.badRun ∧ p.badRun ≤ 16) ∧ p.offsetLimit ≤ 2000

/-- Every copy present is in range; the pending copy is present whenever the active copy is, and the prior copy only
beside an active one (R7). -/
structure Copies.Ok (own : Sec) (c : Copies) : Prop where
  pending : ∀ p, c.pending = some p → p.Ok own
  active : ∀ p, c.active = some p → p.Ok own
  prior : ∀ p, c.prior = some p → p.Ok own
  written : c.active.isSome → c.pending.isSome
  replaced : c.prior.isSome → c.active.isSome

/-! ## The figures of a section (R16, R35, R52, R57) -/

/-- A calibration run has collected fewer than sixteen raw currents, each saturated (R16, R25, R31). -/
def CalRun.Ok (c : CalRun) : Prop := c.count ≤ 15 ∧ c.sum.natAbs ≤ 32767 * c.count

/-- The measurement unit's figures lie within the ranges of R16; the windows hold eight entries, and an invalid offset
is 0. -/
structure Meas.Ok (m : Meas) : Prop where
  lastSeq : ∀ q, m.lastSeq = some q → q ≤ 255
  offset : m.offset.natAbs ≤ 2000
  invalid : m.offsetValid = false → m.offset = 0
  currents : m.currents.length = 8
  voltages : m.voltages.length = 8
  range : ∀ i ∈ m.currents, i.natAbs ≤ 32767
  volts : ∀ v ∈ m.voltages, v ≤ 65535
  iPrev : ∀ i, m.iPrev = some i → i.natAbs ≤ 32767
  badRun : m.badRun ≤ 16
  cal : ∀ c, m.cal = some c → c.Ok

/-- The live accumulators lie within the ranges of R35: each saturates and none wraps. -/
structure Books.Ok (b : Books) : Prop where
  energy : -energyMax ≤ b.energy ∧ b.energy ≤ energyMax
  count : b.count ≤ max32
  peak : b.peak ≤ 32767
  peakSeq : ∀ q, b.peakSeq = some q → q ≤ 255
  minV : ∀ v, b.minV = some v → v ≤ 65535
  maxH : b.maxH ≤ max32
  longestRun : b.longestRun ≤ 4096
  missed : b.missed ≤ 65535
  trips : b.trips ≤ 255

/-- The last sample lies within the ranges of R57. -/
def LastSample.Ok (l : LastSample) : Prop := l.seq ≤ 255 ∧ l.iCorr.natAbs ≤ 32767 ∧ l.vAvg ≤ 65535

/-- The figures of measurement, accounting and protection lie within their tables' ranges: the sustained counter within
the sustain_samples active now (R57, R79), and the watchdog runs only for a section that is enabled (R16, R21). The trip
record holds what a trip request brought (R75), which the tables do not bound. -/
structure Section.Figures (x : Section) : Prop where
  meas : x.meas.Ok
  watchdog : x.meas.watchdog ≠ none → x.copies.active.any (·.enabled) = true
  books : x.acc.books.Ok
  result : x.acc.result.books.Ok
  captureNo : x.acc.result.captureNo < 65536
  heat : x.acc.heat ≤ max32
  history : x.prot.history.length ≤ 5
  sustained : x.prot.sustained ≤ 4096
  run : x.prot.sustained ≤ x.copies.active.elim 0 (·.sustainSamples)
  last : ∀ l, x.prot.last = some l → l.Ok

/-! ## The section sequencer (R7, R82, R86, R107) -/

/-- attempts lies within 0 to 8, and reaches 8 only in LOCKOUT (R82, R97). -/
def Seq.AttemptsOk (q : Seq) : Prop := q.attempts ≤ 7 ∨ (q.attempts ≤ 8 ∧ q.state = .lockout)

/-- CLOSING, LIVE and DRAINING expect the breaker CLOSED; OFF, TRIPPED, LOCKOUT and TESTING expect it OPEN (R86). -/
def Seq.Coherent (q : Seq) : Prop :=
  match q.state with
  | .closing | .live | .draining => q.expectation = .closed
  | .off | .tripped | .lockout | .testing => q.expectation = .opened
  | .maint => True

/-- The states in which no TEST or CLOSE may wait for the section (R84, R86). -/
def dead : SecState → Bool
  | .off | .tripped | .lockout => true
  | .testing | .closing | .live | .draining | .maint => false

/-- A TEST or CLOSE for the section. -/
def PriorityFrame.energises (k : Sec) : PriorityFrame → Bool
  | .command _ _ .openCmd => false
  | .command k' _ .testCmd | .command k' _ .closeCmd => k' == k
  | .lower .. => false

/-- No TEST or CLOSE for the section waits in the priority lane. -/
def State.laneQuiet (s : State) (k : Sec) : Prop := ∀ f ∈ s.ring.priority, f.energises k = false

/-- What the sequencer keeps true of a section: without an active copy it stays in OFF (R7), out of OFF and LOCKOUT its
copy is enabled (R8), its expectation fits its state (R86), attempts is in range (R82), and in OFF, TRIPPED and LOCKOUT
no command that could energise it waits. -/
structure SequencerOk (s : State) (k : Sec) : Prop where
  absent : s.active k = none → (s.sec k).seq.state = .off ∧ (s.sec k).seq.breakerTimer = none
  enabled : inService (s.sec k).seq.state = true → s.isEnabled k = true
  coherent : (s.sec k).seq.Coherent
  quiet : dead (s.sec k).seq.state = true → s.laneQuiet k

/-- The states a section can be in while the E-stop loop is open (R107). -/
def stoppedState : SecState → Bool
  | .off | .lockout | .maint => true
  | .testing | .closing | .live | .draining | .tripped => false

/-- While the E-stop loop is open no section is energised by the sequence or waits to reclose, and no TEST or CLOSE
waits in the priority lane (R107, R108). -/
def LoopSafe (s : State) : Prop :=
  s.chip.estopClosed = false → ∀ k, stoppedState (s.sec k).seq.state = true ∧ s.laneQuiet k

/-- What every step keeps of the parameter store and the sections: the ramp record, the copies, the figures and the
sequencers lie within what the tables give them. -/
structure SectionsSound (s : State) : Prop where
  ramp : s.ramp.Ok
  copies : ∀ k, (s.sec k).copies.Ok k
  figures : ∀ k, (s.sec k).Figures
  attempts : ∀ k, (s.sec k).seq.AttemptsOk
  sequencer : ∀ k, SequencerOk s k

/-! ## The admission unit (R130 to R136, R139, R148 to R150) -/

/-- The truck's window runs and is of this kind. -/
def Truck.windowIs (r : Truck) (kind : WindowKind) : Prop := r.window.map Window.kind = some kind

/-- The admission items a truck has in each pantograph state (R130). -/
def Truck.ItemsOk (r : Truck) : Prop :=
  match r.panto with
  | .idle => r.hold = none ∧ r.reserved = 0 ∧ r.demand = none ∧ r.window = none
  | .queued => r.hold = none ∧ r.reserved = 0 ∧ r.demand ≠ none ∧ r.window = none
  | .granted => r.hold = some r.sec ∧ r.demand = none ∧ r.windowIs .grant
  | .raised => r.hold = some r.sec ∧ r.demand = none ∧ r.window = none
  | .handover => (r.hold ≠ none ∧ r.hold ≠ some r.sec) ∧ r.demand = none ∧ r.windowIs .handover
  | .lowering => r.hold ≠ none ∧ r.demand = none ∧ r.windowIs .lower

/-- The figures of a truck: a demand and a reservation within what its class may ask for, and at most two overdraws in a
row, or three once the third has lowered it (R116, R139, R141). -/
def Truck.FiguresOk (r : Truck) : Prop :=
  (∀ d, r.demand = some d → 100 ≤ d ∧ d ≤ 8000) ∧ (r.hold ≠ none → 100 ≤ r.reserved ∧ r.reserved ≤ 8000) ∧
  r.overCount ≤ if r.panto = .lowering then 3 else 2

/-- A RESTART lies between its first stage and its fifth: the sections are off already, and the fifth has yet to empty
their queues and holder lists (R148, R154, R179). -/
def State.emptying (s : State) : Bool :=
  s.mgmt.restart.any fun r => match r.next with
    | .measurement | .protection | .accounting | .table => true
    | .sequencer | .ring | .management | .reply => false

/-- What the admission unit keeps true of one section: the budget of R132; queue and holder list without repeats, handover
entries ahead of ordinary ones (R133, R134); a stall mark only over a queue (R136); a handover entry only while the section
is LIVE, and no entry at all in OFF, DRAINING and MAINT (R139, R148, R150); and while it is not LIVE every holder lowering
(R149, R150). The last three wait for the fifth stage of a RESTART (R154, R179). -/
structure AdmittingOk (s : State) (k : Sec) : Prop where
  view : (s.sec k).adm.view = (s.sec k).seq.state
  budget : (s.sec k).adm.bEff = s.budgetOf k
  queueOnce : ((s.sec k).adm.queue.map (·.truck)).Nodup
  holdersOnce : (s.sec k).adm.holders.Nodup
  order : (s.sec k).adm.queue.Pairwise fun e f => e.kind = .ordinary → f.kind = .ordinary
  stall : (s.sec k).adm.stall = true → (s.sec k).adm.queue ≠ []
  crossing : s.emptying = false → (s.sec k).adm.view ≠ .live → ∀ e ∈ (s.sec k).adm.queue, e.kind = .ordinary
  closed : s.emptying = false →
    (s.sec k).adm.view = .off ∨ (s.sec k).adm.view = .draining ∨ (s.sec k).adm.view = .maint →
    (s.sec k).adm.queue = []
  lowering : s.emptying = false → (s.sec k).adm.view ≠ .live → ∀ t ∈ (s.sec k).adm.holders, s.pantoOf t = some .lowering

/-- A queue entry of section `k` stands for a truck of that section: an ordinary one for a QUEUED truck with that demand, a
handover one for a truck in HANDOVER with that reservation (R130, R133). -/
def QueueEntry.Ok (s : State) (k : Sec) (e : QueueEntry) : Prop :=
  ∃ r, s.truck e.truck = some r ∧ r.sec = k ∧
    match e.kind with
    | .ordinary => r.panto = .queued ∧ r.demand = some e.amount
    | .handover => r.panto = .handover ∧ r.reserved = e.amount

/-- What every step keeps of the admission unit: the sections, the class records and the trucks' items, and that queues and
holder lists name exactly the trucks that wait and the trucks that hold (R116, R129 to R136). -/
structure AdmissionOk (s : State) : Prop where
  sections : ∀ k, AdmittingOk s k
  classes : ∀ c : Fin 4, s.table.classes[c].Ok
  items : ∀ r ∈ s.table.trucks, r.ItemsOk
  figures : ∀ r ∈ s.table.trucks, r.FiguresOk
  entries : ∀ k, ∀ e ∈ (s.sec k).adm.queue, e.Ok s k
  waiting : ∀ r ∈ s.table.trucks, r.panto = .queued ∨ r.panto = .handover →
    r.id ∈ (s.sec r.sec).adm.queue.map (·.truck)
  held : ∀ k, ∀ t ∈ (s.sec k).adm.holders, ∃ r, s.truck t = some r ∧ r.hold = some k
  holding : ∀ r ∈ s.table.trucks, ∀ k, r.hold = some k → r.id ∈ (s.sec k).adm.holders

/-! ## RESTART (R172, R178, R179) -/

/-- What holds while a RESTART is under way, and of the claimed places without one: the place of its reply is the one
place claimed; the sections its reply names stand in ascending order; and from the end of its first stage on every section
is in OFF or LOCKOUT. -/
structure RestartOk (s : State) : Prop where
  claimed : s.ring.claimed = if s.mgmt.restart.isSome then 1 else 0
  order : ∀ r, s.mgmt.restart = some r → r.takenOff.Pairwise (· < ·)
  stopped : ∀ r, s.mgmt.restart = some r → r.next ≠ .sequencer → ∀ k, inService (s.sec k).seq.state = false

/-- No RESTART is under way (R179). -/
abbrev State.noRestart (s : State) : Prop := s.mgmt.restart = none

/-! ## The terms the claims use -/

/-- `n` steps, each of which answers a next state; the first other outcome ends them. -/
def State.steps : Nat → State → Host.Outcome State Fault Refusal
  | 0, s => .next s
  | n + 1, s => match step s with
    | .next t => t.steps n
    | .fault f => .fault f
    | .refused r => .refused r

/-- The part's own address is `a`, a node's (R156). -/
abbrev State.addressed (s : State) (a : Byte) : Prop := s.straps.addr = a ∧ 1 ≤ a.toNat ∧ a.toNat ≤ 254

/-- The receiver seeks the next frame (R157). -/
def State.seeking (s : State) : State := { s with ring := { s.ring with rx := { s.ring.rx with phase := .seeking } } }

/-- One ring error more, up to 65535 (R160). -/
def State.withError (s : State) : State := { s with ring := { s.ring with errors := min 65535 (s.ring.errors + 1) } }

/-- A frame of another node, or a broadcast, that goes on (R161, R163): with hops 0 it does not; otherwise it joins the
forward queue with its hop count one lower, or counts a ring error where the queue holds 8. -/
def State.passedOn (s : State) (f : Frame) : State :=
  if f.hops = 0 then s
  else if s.ring.forward.length < 8 then
    { s with ring := { s.ring with
      forward := s.ring.forward ++ [{ f with hops := BitVec.ofNat 8 (f.hops.toNat - 1) }] } }
  else s.withError

/-- Places for `n` replies are free in the ordinary lane (R165, R172). -/
abbrev State.roomFor (s : State) (n : Nat) : Prop := s.ring.ordinary.length + s.ring.claimed + n ≤ 16

/-- The frame appended at the tail of the ordinary lane (R165). -/
def State.withFrame (s : State) (f : OrdinaryFrame) : State :=
  { s with ring := { s.ring with ordinary := s.ring.ordinary ++ [f] } }

/-- The reply to a request at the tail of the ordinary lane: the request's tag, the kind answered, status, field number
and data (R173). -/
def State.withReply (s : State) (kind : Byte) (r : Req) (status : Status) (field : Nat) (data : ReplyData) : State :=
  s.withFrame (.reply { tag := r.tag, kind := kind, answer := { status := status, field := field, data := data } })

/-- Section `k` is a candidate for frames from `src`: it has an active copy with enabled yes and this address (R13,
R14). -/
def State.candidate (s : State) (address : SectionParams → Nat) (src : Byte) (k : Sec) : Prop :=
  ∃ p, s.active k = some p ∧ p.enabled = true ∧ address p = src.toNat

/-- Section `k` is the lowest-numbered candidate. -/
def State.lowestCandidate (s : State) (address : SectionParams → Nat) (src : Byte) (k : Sec) : Prop :=
  s.candidate address src k ∧ ∀ j, j < k → ¬ s.candidate address src j

/-- The notices of the last change of a section's state have reached its protection unit and the admission unit
(R85). -/
abbrev State.told (s : State) (k : Sec) : Prop :=
  (s.sec k).prot.view = (s.sec k).seq.state ∧ (s.sec k).adm.view = (s.sec k).seq.state

/-- The live accumulators with every figure as a capture or RESTART begins it, but for max_h, which starts at H (R46,
R48, R56). -/
def Books.begun (heat : Nat) : Books :=
  { energy := 0, count := 0, peak := 0, peakSeq := none, minV := none, maxH := heat, longestRun := 0, missed := 0
    trips := 0, overflow := false }

/-- What a section's accounting unit holds after a CAPTURE_CLEAR or CAPTURE_KEEP: the result record written, and for
CAPTURE_CLEAR the live accumulators begun again (R47 to R49). -/
def Acc.captured (a : Acc) (clear fell rose : Bool) : Acc :=
  { a with
    result := { captureNo := (a.result.captureNo + 1) % 65536
                kind := if clear then .clear else .keep
                books := a.books, fellSeen := fell, roseSeen := rose }
    books := if clear then Books.begun a.heat else a.books }

/-- The state after the first three stages of a capture (R48, R49): edge flags cleared, the eight records written, and
for CAPTURE_CLEAR the live accumulators begun again and the ring error counter 0. -/
def State.afterCapture (s : State) (clear : Bool) : State :=
  { s with
    chip := { s.chip with fellSeen := false, roseSeen := false }
    ring := { s.ring with errors := if clear then 0 else s.ring.errors }
    sections := s.sections.map fun x => { x with acc := x.acc.captured clear s.chip.fellSeen s.chip.roseSeen } }

/-- CAPTURE_CLEAR or CAPTURE_KEEP. -/
def captureOf (clear : Bool) (r : Req) : Instr := if clear then .captureClear r else .captureKeep r

/-- The pending copy differs from the active copy in a structural field; an absent active copy differs in every field
(R8). -/
def Copies.structural (c : Copies) : Bool :=
  c.pending.any fun p => c.active.all fun a => a.enabled != p.enabled || a.frontendAddr != p.frontendAddr ||
    a.readerAddr != p.readerAddr || a.nextUphill != p.nextUphill || a.bidirectional != p.bidirectional

/-- Nothing waits to be activated (R8). -/
abbrev Copies.settled (c : Copies) : Prop := c.pending = none ∨ c.pending = c.active

/-- A section outside OFF and LOCKOUT (R8, R108, R110). -/
abbrev serving (st : SecState) : Prop := st ≠ .off ∧ st ≠ .lockout

/-- The section's pending copy waits, and this capture holds it (R8). -/
def State.holdsBack (s : State) (k : Sec) : Bool :=
  let x := s.sec k
  decide (x.copies.pending ≠ x.copies.active) && x.copies.structural && decide (serving x.seq.state)

/-- Only section `k` differs. -/
def OnlySection (k : Sec) (s t : State) : Prop := t = { s with sections := t.sections } ∧ ∀ j, j ≠ k → t.sec j = s.sec j

/-- A WAIT, DENY or ATTENTION offered to the ordinary lane: placed at its tail where a place is free, and otherwise
dropped (R165). -/
def State.offered (s : State) (f : OrdinaryFrame) : State :=
  if s.ring.ordinary.length + s.ring.claimed < 16 then s.withFrame f else s

/-- The truck's part of a lowering (R144): LOWERING with its reservation kept, and the lower window started. -/
def Truck.lowered (x : Truck) (reason : LowerReason) (lowerMs : Nat) : Truck :=
  { x with panto := .lowering, window := some { kind := .lower, left := lowerMs }, lowerReason := some reason }

/-- The admission part of a truck that becomes IDLE (R130). -/
def Truck.idled (x : Truck) : Truck :=
  { x with panto := .idle, hold := none, reserved := 0, demand := none, window := none, overCount := 0
           lowerReason := none }

/-- The queue of section `k` holds each truck once, in an ordinary entry, and each is QUEUED at the section without a
departure mark (R126, R130, R133). -/
structure State.QueueReady (s : State) (k : Sec) : Prop where
  once : ((s.sec k).adm.queue.map (·.truck)).Nodup
  ready : ∀ e ∈ (s.sec k).adm.queue, e.kind = .ordinary ∧
    ∃ x, s.truck e.truck = some x ∧ x.panto = .queued ∧ x.sec = k ∧ x.mark = .none

/-- Every truck of the queue is dequeued, IDLE and sent DENY, in queue order, as long as one of `places` is left (R131, R148,
R150, R165). -/
def State.denied (s : State) (k : Sec) (p : SectionParams) (reason : DenyReason) (places : Nat) : State :=
  let ids := (s.sec k).adm.queue.map (·.truck)
  { (s.modSec k fun x => { x with adm := { x.adm with queue := [], stall := false } }) with
    table := { s.table with trucks := s.table.trucks.map fun x => if x.id ∈ ids then x.idled else x }
    ring := { s.ring with
      ordinary := s.ring.ordinary ++ (ids.map fun i => OrdinaryFrame.deny i p.readerAddr reason).take places } }

/-- From `s` to `u` those trucks of `ids` that were GRANTED or RAISED were lowered, and no other truck changed. -/
def Lowered (ids : List Nat) (reason : LowerReason) (s u : State) : Prop :=
  ∀ i, u.truck i = (s.truck i).map fun x =>
    if i ∈ ids ∧ (x.panto = .granted ∨ x.panto = .raised) then x.lowered reason (s.classOf x).lowerMs else x

/-- The LOWER of each of those trucks that was GRANTED or RAISED waits in the priority lane, addressed to the reader of
the truck's section (R131, R144). -/
def LowersSent (ids : List Nat) (reason : LowerReason) (s u : State) : Prop :=
  ∀ i x p, i ∈ ids → s.truck i = some x → x.panto = .granted ∨ x.panto = .raised → s.active x.sec = some p →
    PriorityFrame.lower i p.readerAddr reason ∈ u.ring.priority

/-- The truck's record, where it has one, is removed and the generation advances (R126). -/
def State.forget (s : State) (id : Nat) : State :=
  if s.truck id = none then s
  else { s with table := { s.table with
    trucks := s.table.trucks.filter fun x => x.id ≠ id, generation := (s.table.generation + 1) % 256 } }

/-- A truck becomes IDLE, and a record with a departure mark goes (R126, R130). -/
def State.madeIdle (s : State) (id : Nat) : State :=
  match s.truck id with
  | none => s
  | some r => if r.mark = .none then s.modTruck id Truck.idled else s.forget id

/-- With these holders the head of the queue, if there is one, is above the effective budget: a pass grants nothing and
sets no stall mark (R135). -/
def State.headWaits (s : State) (k : Sec) (holders : List Nat) (queue : List QueueEntry) : Prop :=
  ∀ e rest, queue = e :: rest → (s.sec k).adm.bEff < (holders.map s.reservedOf).sum + e.amount

/-- A queue without one truck's entry. -/
def without (id : Nat) (queue : List QueueEntry) : List QueueEntry := queue.filter fun e => e.truck ≠ id

/-- The truck's entry is gone from the queue (R133). -/
def State.dequeued (s : State) (k : Sec) (id : Nat) : State :=
  s.modSec k fun x => { x with adm := { x.adm with queue := without id x.adm.queue } }

/-- The truck's entry is gone from the queue, and the pass this started has run (R133, R135). -/
def State.unqueued (s : State) (k : Sec) (id : Nat) : State := runPass k (s.dequeued k id)

/-- The truck has an entry in section `k`'s queue and in no other. -/
def State.entryAt (s : State) (k : Sec) (id : Nat) : Prop :=
  (∃ e ∈ (s.sec k).adm.queue, e.truck = id) ∧ ∀ j, j ≠ k → ∀ e ∈ (s.sec j).adm.queue, e.truck ≠ id

/-- A section in TRIPPED begins a new line test (R100): TESTING, with TEST placed, the test timer started and what the
units do on the notice (R27, R29, R58). -/
def State.retested (s : State) (k : Sec) (p : SectionParams) : State :=
  placePriority (.command k p.frontendAddr .testCmd) (s.modSec k fun x => { x with
    seq := { x.seq with
      state := .testing, recloseTimer := none, reclosePending := false, heatRequired := false
      testTimer := some p.testMs }
    acc := { x.acc with heatWatch := false }
    meas := { x.meas with
      currents := [0, 0, 0, 0, 0, 0, 0, 0], voltages := [0, 0, 0, 0, 0, 0, 0, 0], iPrev := none
      watchdog := if p.enabled then some p.measMs else x.meas.watchdog }
    prot := { x.prot with view := .testing, history := [], sustained := 0, last := none }
    adm := { x.adm with view := .testing, bEff := 0 } })

/-- A section in DRAINING whose last holder has gone opens and goes to OFF (R103). -/
def State.drained (s : State) (k : Sec) (p : SectionParams) : State :=
  placePriority (.command k p.frontendAddr .openCmd) (s.modSec k fun x => { x with
    seq := { x.seq with
      state := .off, expectation := .opened, breakerTimer := some p.breakerMs, lastOff := some .deenergize }
    prot := { x.prot with view := .off }
    adm := { x.adm with view := .off, bEff := 0 } })

/-- The heat lies below the derate-clear threshold (R99). -/
abbrev Section.cool (x : Section) (p : SectionParams) : Prop := x.acc.heat < (p.derateLevel - 1) * 2 ^ (p.tauShift + 3)

/-- What the notice of an emptied holder list does: it ends a drain (R103), and a reclose wait that the heat allows to end,
or that otherwise waits on for the heat (R99, R100). -/
def State.emptied (s : State) (k : Sec) (p : SectionParams) : State :=
  let x := s.sec k
  if x.seq.state = .draining then s.drained k p
  else if x.seq.state = .tripped ∧ x.seq.reclosePending = true then
    if x.seq.heatRequired = true → x.cool p then s.retested k p
    else s.modSec k fun x => { x with acc := { x.acc with heatWatch := true } }
  else s

/-- A truck's reservation on section `k` is given back: it leaves the holder list, a pass runs on the section's queue, and a
holder list that is then empty is notified; a section that the pass left by a handover grant ends its own release after that
(R134, R138). -/
def State.released (s : State) (k : Sec) (p : SectionParams) (id : Nat) : State :=
  let (u, left) := pass k (s.modSec k fun x => { x with adm := { x.adm with
    holders := x.adm.holders.filter (· ≠ id) } })
  settle (left.map .release) (if (u.sec k).adm.holders = [] then u.emptied k p else u)

/-- What a release on section `k` rests on: the notices of its state are taken, and a section in DRAINING has no queue
(R134, R150). -/
structure State.Releases (s : State) (k : Sec) (p : SectionParams) : Prop where
  active : s.active k = some p
  told : s.told k
  drained : (s.sec k).seq.state = .draining → (s.sec k).adm.queue = []

/-- No truck is in HANDOVER and no handover entry stands in a queue. -/
def State.noHandover (s : State) : Prop :=
  (∀ i, s.pantoOf i ≠ some .handover) ∧ ∀ k, ∀ e ∈ (s.sec k).adm.queue, e.kind = .ordinary

/-- A report of the breaker at `pos` changes no more than the last feedback: the breaker stands where it is expected with
no timer to stop; or it is not there, and either still has its time or stood there before (R86); and no calibration run
sees it closed (R32). -/
structure Section.AtRest (x : Section) (pos : Position) : Prop where
  report : x.seq.expectation = pos ∧ x.seq.breakerTimer = none ∨
    x.seq.expectation ≠ pos ∧ (x.seq.breakerTimer ≠ none ∨ x.seq.lastFeedback = pos)
  calibration : pos = .closed → x.meas.cal = none

/-- `seq` does not repeat the section's last_seq (R18). -/
def Section.fresh (x : Section) (seq : Byte) : Prop := ∀ l, x.meas.lastSeq = some l → l < 256 ∧ l ≠ seq.toNat

/-- The samples missed before a frame that is not a duplicate: the gap less 1, and none before a first frame (R18). -/
def Section.missedBefore (x : Section) (seq : Byte) : Nat :=
  match x.meas.lastSeq with
  | none => 0
  | some l => (seq.toNat + 256 - l) % 256 - 1

/-- What a frame that is no duplicate leaves of a section at rest before its sample is judged: last_seq, the missed
samples counted, the watchdog restarted and the last feedback (R18, R21, R24, R86). A section disabled since the frame
was handed over leaves its watchdog as it stood (log 27). -/
def Section.heard (x : Section) (p : SectionParams) (seq : Byte) (pos : Position) : Section :=
  { x with
    meas := { x.meas with
      lastSeq := some seq.toNat, watchdog := if p.enabled then some p.measMs else x.meas.watchdog }
    acc := { x.acc with books := { x.acc.books with
      missed := if x.missedBefore seq = 0 then x.acc.books.missed
        else min 65535 (x.acc.books.missed + x.missedBefore seq) } }
    seq := { x.seq with lastFeedback := pos } }

/-- The corrected current (R25, R26): the raw current less the offset in force, saturated, and on a one-way section not
below 0. -/
def Section.corrected (x : Section) (p : SectionParams) (raw : Int) : Int :=
  let offset := if x.meas.offsetValid then x.meas.offset else 0
  let i := max (-32767) (min 32767 (max (-32767) raw - offset))
  if p.bidirectional = false ∧ i < 0 then 0 else i

/-- The average of a current window (R27). -/
def average (window : List Int) : Int := window.sum.tdiv 8

/-- The heat after a sample (R43). -/
def Section.heated (x : Section) (p : SectionParams) (iAvg : Int) : Nat :=
  let q := min 65535 (iAvg.natAbs ^ 2 * 128 / p.contAmps ^ 2)
  min 4294967295 (x.acc.heat - x.acc.heat / 2 ^ p.tauShift + q)

/-- The accumulators of a good sample (R37 to R40, R46): energy with the power of corrected current and voltage, the count,
the peak, and the overflow flag, which a first saturation sets. -/
def Books.sampled (b : Books) (seq : Nat) (i : Int) (voltage : Nat) : Books :=
  let energy := if b.energy.natAbs = 9223372036854775807 then b.energy
    else max (-9223372036854775807) (min 9223372036854775807 (b.energy + i * voltage))
  let count := min 4294967295 (b.count + 1)
  let newPeak : Bool := b.peakSeq.isNone || b.peak < i.natAbs
  { b with
    energy := energy, count := count
    overflow := b.overflow || energy.natAbs == 9223372036854775807 || count == 4294967295
    peak := if newPeak then i.natAbs else b.peak
    peakSeq := if newPeak then some seq else b.peakSeq }

/-- The notice of a first saturation (R39): the books before it and after it. -/
def overflowNotices (b b' : Books) (seq : Nat) : List NoticeData :=
  if b'.overflow && !b.overflow then
    [.accumOverflow (b'.energy.natAbs == 9223372036854775807) (b'.count == 4294967295) seq]
  else []

/-- The derate flag judged against a new heat (R45): set at the derate level, cleared one level below it. -/
def Section.derated (x : Section) (p : SectionParams) (heat : Nat) : Bool :=
  if x.acc.derate then (p.derateLevel - 1) * 2 ^ (p.tauShift + 3) ≤ heat
  else p.derateLevel * 2 ^ (p.tauShift + 3) ≤ heat

/-- A section in a reclose wait whose holder list is empty, at a new heat that allows it to leave: the derate clears, or a
heat watch is answered (R45, R99). -/
abbrev Section.waitEnds (x : Section) (p : SectionParams) (heat : Nat) : Prop :=
  x.seq.state = .tripped ∧ x.seq.reclosePending = true ∧ x.adm.holders = [] ∧
  heat < (p.derateLevel - 1) * 2 ^ (p.tauShift + 3) ∧ (x.acc.derate = true ∨ x.acc.heatWatch = true)

/-- What a breaker failure makes of its section (R88): LOCKOUT with the expectation OPEN, the sequence and its timers
stopped, a heat watch withdrawn, and the units told; the breaker timer as the failure leaves it. -/
def Section.failed (x : Section) (timer : Timer) : Section :=
  { x with
    seq := { x.seq with
      state := .lockout, expectation := .opened, testTimer := none, recloseTimer := none, stableTimer := none
      reclosePending := false, heatRequired := false, breakerTimer := timer }
    acc := { x.acc with heatWatch := false }
    prot := { x.prot with view := .lockout, undervolt := x.prot.undervolt && x.seq.state != .live }
    adm := { x.adm with view := .lockout, bEff := 0 } }

/-- A section in CLOSING that becomes LIVE, before the pass of its entry, which sets the stall mark anew (R94, R132, R135,
R148). -/
def Section.live (x : Section) (p : SectionParams) : Section :=
  { x with
    seq := { x.seq with state := .live, breakerTimer := none, stableTimer := some p.stableMs }
    prot := { x.prot with view := .live }
    adm := { x.adm with
      view := .live, stall := false
      bEff := if x.acc.derate then p.limitAmps * p.derateShare / 8 else p.limitAmps } }

/-- From `s` every holder of section `k` is revoked with reason TRIP and its breaker commanded open; beside the trucks and
the priority lane `u` is `t` (R84, R149). -/
structure Revoked (k : Sec) (p : SectionParams) (s t u : State) : Prop where
  rest : u = { t with table := { t.table with trucks := u.table.trucks }
                      ring := { t.ring with priority := u.ring.priority } }
  opened : PriorityFrame.command k p.frontendAddr .openCmd ∈ u.ring.priority
  lowered : Lowered (s.sec k).adm.holders .trip s u
  sent : LowersSent (s.sec k).adm.holders .trip s u

/-- One way in which a truck is let go (R114, R123 to R125): the command, when it comes, the state in which it is taken,
what it notes in the record of a truck that cannot go at once, the reason such a truck is lowered for, and the answer. -/
structure LetGo where
  command : Instr
  due : Prop
  taken : State
  noted : Truck → Truck
  reason : LowerReason
  answered : State → State

/-- DEPART, SILENCE_TIMER_EXPIRY, EVICT_TRUCK and REMOVE_FLEET for the truck with record `r`. A mark of EVICT is not
replaced by DEPART (R123, R125). -/
def letGos (s : State) (k : Sec) (req : Req) (r : Truck) : List LetGo :=
  let gone : Mark := if r.mark = .evict then .evict else .depart
  let dep := Instr.depart k (toBe 2 r.id)
  let claimed (c : Instr) : State := { (take c s) with ring := { s.ring with claimed := s.ring.claimed + 1 } }
  let removed : State := { claimed (.removeFleet req) with
    table := { s.table with fleet := s.table.fleet.filter fun e => e.id ≠ r.id } }
  let answered (kind : Byte) (u : State) : State :=
    { u with ring := { u.ring with claimed := u.ring.claimed - 1 } }.withReply kind req .ok 0 .empty
  [{ command := dep, due := True, taken := take dep s, reason := .depart, answered := id
     noted := fun x => { x with silence := some s.ramp.silenceMs, mark := gone } },
   { command := .silenceTimerExpiry r.id, due := r.silence ≠ none, taken := s, reason := .depart, answered := id
     noted := fun x => { x with silence := none, mark := gone } },
   { command := .evictTruck req, due := s.noRestart, taken := claimed (.evictTruck req)
     reason := .evict, noted := fun x => { x with mark := .evict }, answered := answered 0x5A },
   { command := .removeFleet req, due := s.noRestart ∧ 1 ≤ r.id ∧ r.id ≤ 65534 ∧ ∃ e ∈ s.table.fleet, e.id = r.id
     taken := removed, reason := .evict, noted := fun x => { x with mark := .evict }
     answered := answered 0x4A }]

/-- A state in which a section may be energised (R57). -/
abbrev energisedState (st : SecState) : Prop := st = .testing ∨ st = .closing ∨ st = .live ∨ st = .draining ∨ st = .maint

/-! ## Trucks in HANDOVER (R146 to R152) -/

/-- The handover of truck `i` has come to nothing: its entry is gone, it is LOWERING with its LOWER waiting for the reader of
its section, and it still holds its reservation on section `k` (R144). -/
structure CrossingLowered (s : State) (i : Nat) (x : Truck) (k : Sec) (q : SectionParams) (reason : LowerReason)
    (t : State) : Prop where
  record : t.truck i = some (x.lowered reason (s.classOf x).lowerMs)
  gone : ∀ m, ∀ e ∈ (t.sec m).adm.queue, e.truck ≠ i
  holder : i ∈ (t.sec k).adm.holders
  sent : PriorityFrame.lower i q.readerAddr reason ∈ t.ring.priority

/-- One event at a section that ends what its holders hold: the command, when it does so, and the reason it gives them. -/
structure SectionEnd where
  command : Instr
  due : Prop
  reason : LowerReason

/-- The trip, the breaker failure at the expiry of the breaker timer, and the drain of a section (R88, R96, R102, R149,
R150). -/
def sectionEnds (s : State) (k : Sec) (req : Req) (r : TripRequest) : List SectionEnd :=
  let q := (s.sec k).seq
  [{ command := .tripRequest k r, due := energisedState q.state, reason := .trip },
   { command := .breakerTimerExpiry k, due := q.breakerTimer ≠ none ∧ q.lastFeedback ≠ q.expectation, reason := .trip },
   { command := .deenergize req, reason := .drain
     due := s.noRestart ∧ req.broadcast = false ∧ req.payload = [BitVec.ofNat 8 k.val] ∧ s.roomFor 1 ∧ q.state = .live }]

/-! ## Activation (R8 to R12, R79, R132, R152) -/

/-- The holders that a limit revocation counts (R152). -/
def State.counted (s : State) (holders : List Nat) : Nat :=
  ((holders.filter fun t => s.pantoOf t ≠ some .lowering).map s.reservedOf).sum

/-- The activation changes limit_amps or derate_share, as one without an active copy does (R8, R11). -/
def Section.relimited (x : Section) (new : SectionParams) : Bool :=
  x.copies.active.all fun o => o.limitAmps != new.limitAmps || o.derateShare != new.derateShare

/-- The effective budget after the activation: computed anew where limit_amps or derate_share changes (R11, R132). -/
def Section.rebudgeted (x : Section) (new : SectionParams) : Nat :=
  if x.relimited new = false then x.adm.bEff
  else if x.adm.view ≠ .live ∨ x.prot.undervolt = true then 0
  else if x.acc.derate then new.limitAmps * new.derateShare / 8 else new.limitAmps

/-- What an activation makes of its section: the active copy becomes the prior copy; the watchdog starts or stops with
`enabled`; a changed frontend_addr makes the offset 0 and invalid and last_seq none; a sustained counter at or above a
changed sustain_samples becomes one less than it; and the budget follows a changed limit or share (R9 to R12, R79, R132). -/
def Section.activated (x : Section) (new : SectionParams) : Section :=
  let old := x.copies.active
  let on : Bool := new.enabled && !old.any (·.enabled)
  let ended : Bool := !new.enabled && old.any (·.enabled)
  let moved : Bool := old.all fun o => o.frontendAddr != new.frontendAddr
  let resumed : Bool := old.all fun o => o.sustainSamples != new.sustainSamples
  { x with
    copies := { pending := some new, active := some new, prior := old }
    meas := { x.meas with
      watchdog := if on then some new.measMs else if ended then none else x.meas.watchdog
      cal := if ended || moved then none else x.meas.cal
      offset := if moved then 0 else x.meas.offset
      offsetValid := if moved then false else x.meas.offsetValid
      lastSeq := if moved then none else x.meas.lastSeq }
    prot := { x.prot with sustained :=
      if resumed && decide (new.sustainSamples ≤ x.prot.sustained) then new.sustainSamples - 1 else x.prot.sustained }
    adm := { x.adm with bEff := x.rebudgeted new } }

/-- One section at a capture's activation: nothing is done where nothing waits or the section is held. Otherwise it is
activated; where a changed limit or share no longer covers the holders not in LOWERING, the newest of them are lowered; and
where the budget rises a pass runs on the queue (R8, R11, R132, R152). -/
def State.activated (s : State) (k : Sec) : State :=
  let x := s.sec k
  match x.copies.pending with
  | none => s
  | some new =>
    if x.copies.active = some new ∨ s.holdsBack k = true then s
    else
      let moved := s.modSec k fun x => x.activated new
      let spared := if x.relimited new = true ∧ new.limitAmps < s.counted x.adm.holders then
        lowerAll (moved.overLimit k new.limitAmps) .limit moved else moved
      if x.adm.bEff < x.rebudgeted new then runPass k spared else spared

/-- The first `n` sections, in ascending order, are taken one after another at a capture's activation (R8). -/
def State.activatedTo (s : State) (n : Nat) : State :=
  (([0, 1, 2, 3, 4, 5, 6, 7] : List Sec).take n).foldl State.activated s

end Sys2Proof.Machine
end

