-- ==== Sys2Proof/Certificates/Slice0/Obligations.lean ====
section
/-! DEFINITION. The statements for the provers. Each docstring names the rule of spec/ it formalises, or the log entry
whose choice it states. -/

open Sys2Proof Sys2Proof.Machine Host

/-! ## The block as a whole -/

/-- A step takes the command at the front of the queue and runs it on the state with the rest of the queue. -/
def Obligations.StepRunsFrontCommand : Prop :=
  ∀ (c : Instr) (rest : List Instr) (s : State),
    step { s with pending := c :: rest } = exec c { s with pending := rest }

/-- With an empty queue and no RESTART under way a step takes the first work handed over, else the first expiry that is due,
else gives a free line a frame that waits. With none of these the receiver hears the next level at Port A, and the part
carries out the command this brings about; and with the line at Port A at rest a millisecond passes: each running timer has
one less to go (the model's choice, logs 1, 2 and 8; a RESTART's stages come first, log 35). -/
def Obligations.EmptyQueueStep : Prop :=
  ∀ s : State, s.pending = [] → s.noRestart →
    (∀ c rest, s.handed = c :: rest → step s = exec c s) ∧
    (∀ c, s.handed = [] → s.expired = some c → step s = exec c s) ∧
    (∀ own, s.handed = [] → s.expired = none → s.ring.line = none → s.addressed own →
      s.ring.priority ≠ [] ∨ s.ring.forward ≠ [] ∨ s.ring.ordinary ≠ [] → step s = exec .transmissionEnd s) ∧
    let quiet : Prop := s.handed = [] ∧ s.expired = none ∧
      (s.ring.line ≠ none ∨ (s.ring.priority = [] ∧ s.ring.forward = [] ∧ s.ring.ordinary = []))
    (∀ level rest, quiet → s.portA = level :: rest →
      let (rx, brought) := s.ring.rx.tick level
      let heard : State := { s with portA := rest, ring := { s.ring with rx := rx } }
      (brought = none → step s = .next heard) ∧ ∀ c, brought = some c → step s = exec c heard) ∧
    (quiet → s.portA = [] → ∃ t, step s = .next t ∧
      t = { s with sections := t.sections, chip := t.chip, table := t.table } ∧
      (∀ k, (t.sec k).meas = { (s.sec k).meas with watchdog := (s.sec k).meas.watchdog.map (· - 1) } ∧
        (t.sec k).seq = { (s.sec k).seq with
          testTimer := (s.sec k).seq.testTimer.map (· - 1), breakerTimer := (s.sec k).seq.breakerTimer.map (· - 1)
          recloseTimer := (s.sec k).seq.recloseTimer.map (· - 1)
          stableTimer := (s.sec k).seq.stableTimer.map (· - 1) } ∧
        (t.sec k).acc = (s.sec k).acc ∧ (t.sec k).prot = (s.sec k).prot ∧ (t.sec k).adm = (s.sec k).adm ∧
        (t.sec k).copies = (s.sec k).copies) ∧
      t.chip = { s.chip with filter := s.chip.filter.map fun f => { f with left := f.left - 1 } } ∧
      t.table = { s.table with trucks := s.table.trucks.map fun r => { r with
        silence := r.silence.map (· - 1), window := r.window.map fun w => { w with left := w.left - 1 } } })

/-- POWER_ON_RESET leaves every item at its power-on value, with the straps and the loop as sampled; what waits
outside, commands and levels, is untouched (R1, R7, R16, R35, R52, R57, R82, R83, R112, R116, R119, R129, R156, R169, R184;
that it stands in queues of the model, and the level and low period the receiver starts from, is the model's choice, logs 1
and 8). -/
def Obligations.PowerOnValues : Prop :=
  ∀ (pins : Pins) (s : State), ∃ t, exec (.powerOnReset pins) s = .next t ∧
    t.pending = s.pending ∧ t.portA = s.portA ∧ t.handed = [] ∧
    t.ramp = { silenceMs := 10000, hopInit := 16, broadcastCapture := true } ∧
    t.straps = { addr := pins.addr, supaddr := pins.supaddr, rate := pins.rate } ∧
    t.chip = { estopPin := pins.estopHigh, estopClosed := pins.estopHigh, filter := none, fellSeen := false,
               roseSeen := false, backupTrip := false } ∧
    t.ring = { rx := { level := true, low := 0, phase := .seeking }, errors := 0, forward := [], priority := []
               ordinary := [], claimed := 0, runCount := 0, line := none } ∧
    t.mgmt = { notices := [], powerUp := true, restart := none } ∧
    t.table.fleet = [] ∧ t.table.trucks = [] ∧ t.table.generation = 0 ∧
    (∀ c : Fin 4, t.table.classes[c] = { defined := false, demandMin := 0, demandMax := 0, grantMs := 0, handoverMs := 0,
                                         lowerMs := 0, overdrawPct := 0 }) ∧
    ∀ k, (t.sec k).copies = { pending := none, active := none, prior := none } ∧
      (t.sec k).meas = { lastSeq := none, offset := 0, offsetValid := false, currents := [0, 0, 0, 0, 0, 0, 0, 0],
                         voltages := [0, 0, 0, 0, 0, 0, 0, 0], iPrev := none, badRun := 0, lossReported := false,
                         watchdog := none, cal := none } ∧
      (t.sec k).acc.books = { energy := 0, count := 0, peak := 0, peakSeq := none, minV := none, maxH := 0,
                              longestRun := 0, missed := 0, trips := 0, overflow := false } ∧
      (t.sec k).acc.heat = 0 ∧ (t.sec k).acc.derate = false ∧ (t.sec k).acc.heatWatch = false ∧
      (t.sec k).acc.result = { captureNo := 0, kind := .none, books := (t.sec k).acc.books, fellSeen := false,
                               roseSeen := false } ∧
      (t.sec k).prot = { view := .off, history := [], sustained := 0, undervolt := false, last := none,
                         outstanding := false, record := none } ∧
      (t.sec k).seq = { state := .off, expectation := .opened, lastFeedback := .opened, attempts := 0, testTimer := none,
                        breakerTimer := none, recloseTimer := none, stableTimer := none, reclosePending := false,
                        heatRequired := false, lastOff := none } ∧
      (t.sec k).adm = { queue := [], holders := [], bEff := 0, stall := false, view := .off }

/-- The machine right after reset is what POWER_ON_RESET leaves with the pin levels of log 5 (the model's choice: the
manual gives the straps no level), with nothing waiting; and every invariant claimed below holds of it. -/
def Obligations.ResetIsPowerOn : Prop :=
  exec (.powerOnReset { addr := 1, supaddr := 2, rate := 0, estopHigh := true }) State.reset = .next State.reset ∧
    State.reset.pending = [] ∧ State.reset.portA = [] ∧ SectionsSound State.reset ∧ LoopSafe State.reset ∧
    State.reset.ring.Bounded ∧ LaneBounded State.reset.ring.priority ∧ State.reset.table.Ok ∧ NoticesOk State.reset.mgmt.notices ∧
    AdmissionOk State.reset ∧ RestartOk State.reset

/-! ## What every step keeps -/

/-- The error counter, the forward queue, the ordinary lane with its claimed places and the run count keep within their
bounds, and no frame that waits to be forwarded or is on the line has more than 64 bytes of payload (R160, R163, R165,
R167, R185). -/
def Obligations.StepKeepsRingBounded : Prop :=
  ∀ s t : State, step s = .next t → s.ring.Bounded → t.ring.Bounded

/-- The priority lane holds at most one command per section, one LOWER per truck and 24 LOWERs, and so at most 32 frames;
and the fleet table and the truck records keep their orders, sizes and classes (R112, R116, R119, R164). -/
def Obligations.StepKeepsLaneAndTable : Prop :=
  ∀ s t : State, step s = .next t → LaneBounded s.ring.priority → s.table.Ok →
    LaneBounded t.ring.priority ∧ t.ring.priority.length ≤ 32 ∧ t.table.Ok

/-- The notice list stays in strict order of priority and section, one notice for each kind and key, each with 1 to 255
occurrences, and so at most 74 notices (R180, R181). -/
def Obligations.StepKeepsNotices : Prop :=
  ∀ s t : State, step s = .next t → NoticesOk s.mgmt.notices →
    NoticesOk t.mgmt.notices ∧ t.mgmt.notices.length ≤ 74

/-- Parameter copies, the figures of measurement, accounting and protection, and the sequencers keep within what their
tables give them: windows of eight entries in range, an invalid offset 0, a calibration run short of sixteen samples, the
books within their saturation, the sustained counter within the sustain_samples active now, and the watchdog running only
for an enabled section. A section in CLOSING, LIVE or DRAINING expects its breaker CLOSED, one in OFF, TRIPPED, LOCKOUT or
TESTING expects it OPEN; a section out of OFF and LOCKOUT has an enabled active copy; and in OFF, TRIPPED and LOCKOUT no
TEST or CLOSE waits for it (R3, R7, R8, R16, R21, R35, R57, R79, R82, R86). -/
def Obligations.StepKeepsSections : Prop :=
  ∀ s t : State, step s = .next t → SectionsSound s → SectionsSound t

/-- While the E-stop loop is open no section is energised by the sequence or waits to reclose, and no CLOSE or TEST
stands in the priority lane (R107, R108). -/
def Obligations.StepKeepsLoopSafe : Prop :=
  ∀ s t : State, step s = .next t → SectionsSound s → LoopSafe s → LoopSafe t

/-- The admission unit keeps its queues, holder lists and trucks as the table of pantograph states has them: each truck has
the items of its state, an entry in the one queue it waits in and in the one holder list it holds in; handover entries stand
before ordinary ones; the effective budget follows the section's state, limit and flags; a truck has counted at most two
overdraws in a row, three where the third has lowered it; a section that is not LIVE has only lowering holders and no
handover entry, and one in OFF, DRAINING or MAINT no queue, except between the first and the fifth stage of a RESTART. A
step that raises the sum reserved on a section leaves it within the section's limit (R116, R129, R130, R132 to R136, R139,
R141, R148 to R150, R154, R179). -/
def Obligations.StepKeepsAdmission : Prop :=
  ∀ s t : State, step s = .next t → SectionsSound s → s.table.Ok → RestartOk s → AdmissionOk s →
    AdmissionOk t ∧
    ∀ k, s.reserved k < t.reserved k → ∃ p, (s.active k = some p ∨ t.active k = some p) ∧ t.reserved k ≤ p.limitAmps

/-- While a RESTART is under way one place of the ordinary lane is claimed, for its reply, and otherwise none is; the
sections its reply will name stand in ascending order; and once its first stage is over every section stays in OFF or
LOCKOUT, whatever comes between the stages (R110, R172, R178, R179; that the stages are steps of the model is log 35). -/
def Obligations.StepKeepsRestart : Prop :=
  ∀ s t : State, step s = .next t → RestartOk s → RestartOk t

/-! ## The wire -/

/-- The bytes of a frame, with the CRC of R159 appended, are read back as that frame, with every field at every value a
frame admits (R158, R159, R185). -/
def Obligations.FrameBytesReadBack : Prop :=
  ∀ f : Frame, f.payload.length ≤ 64 → readFrame f.bytes = .good f

/-- The levels the transmitter drives for a whole frame (break, sync, bytes: R168) bring a receiver at rest to exactly
one command: that frame received. It holds at the nominal rate and at a sender nine eighths as slow, the end of the
tolerance of R157. In every phase a low period of 13 nominal bit times or more is a break: at its rising edge the receiver
is in sync, and a frame then in bytes is abandoned; a shorter one leaves a seeking receiver seeking. A sync field whose span
is within seven eighths to nine eighths of nominal moves it to bytes, and any other is out of tolerance, at the latest once
it has grown beyond nine eighths, and returns it to seeking (in the model's sampling, log 8). -/
def Obligations.LineCarriesFrames : Prop :=
  let inSync : Rx := { level := true, low := 0, phase := .sync 1 0 }
  (∀ (w : Nat) (bytes : List Byte), w = 8 ∨ w = 9 → wholeFrame bytes = true →
    (Rx.powerOn.run (atRate w (frameLevels bytes))).2 = [.frameReceived bytes]) ∧
  (∀ (rx : Rx) (n : Nat), 104 ≤ n → (rx.run (List.replicate n false ++ [true])).1 = inSync) ∧
  (∀ rx : Rx, rx.level = false → 104 ≤ rx.low →
    rx.tick true = (inSync, if rx.phase.phase = .bytes then some (.frameAbandoned .breakArrived) else none)) ∧
  (∀ (rx : Rx) (n : Nat), rx.phase = .seeking → rx.low + n < 104 →
    rx.run (List.replicate n false ++ [true]) = ({ level := true, low := 0, phase := .seeking }, [])) ∧
  ∀ w : Nat, 1 ≤ w → w ≤ 16 →
    let (rx, brought) := inSync.run (((atRate w syncLevels).drop 1).take (7 * w))
    if 7 ≤ w ∧ w ≤ 9 then rx.phase.phase = .bytes ∧ brought = []
    else rx.phase = .seeking ∧ brought = [.frameAbandoned (.sync (min 64 (7 * w)))]

/-- A section parameter record within its ranges occupies 48 bytes, which the store reads back as that record (R3,
R189). -/
def Obligations.ParameterRecordReadBack : Prop :=
  ∀ (k : Sec) (p : SectionParams), p.Ok k → p.bytes.length = 48 ∧ readParams k p.bytes = .ok p

/-! ## The ring -/

/-- The bytes of a frame that is cut short, announces more than 64 bytes, or fails its CRC count one ring error and do
nothing else; so does a frame abandoned in reception, after which a break leaves the receiver in sync and any other fault
leaves it seeking. Of the good frames the part's own is removed; one of another node, and a broadcast that is no request,
goes on with its hop count one lower, is dropped with hops 0, and counts a ring error where the forward queue holds 8; one
addressed to the part with a kind that no block takes is dropped (R157 to R163; that a FRAME_RECEIVED whose bytes are cut
short is a truncated frame, and that bytes after the CRC are not read, is the model's reading of the command, log 6, and the
eighth of a bit time heard of the sync field is the model's sampling, log 8). -/
def Obligations.FrameJudged : Prop :=
  (∀ s : State,
    (∀ bytes : List Byte, (bytes.length < 6 ∨ ∃ n, headerLength bytes = some n ∧
        (64 < n ∨ bytes.length < 6 + n + 2 ∨ (bytes.drop (6 + n)).take 2 ≠ crcBytes (bytes.take (6 + n)))) →
      exec (.frameReceived bytes) s = .next s.seeking.withError) ∧
    (∀ cause : AbandonCause, cause.real = true → exec (.frameAbandoned cause) s =
      .next { s.withError with ring := { s.withError.ring with
        rx := if cause = .breakArrived then { level := true, low := 0, phase := .sync 1 0 }
          else { s.ring.rx with phase := .seeking } } })) ∧
  ∀ (s : State) (own : Byte) (f : Frame), s.addressed own → f.payload.length ≤ 64 →
    let request : Prop := 0x40 ≤ f.kind.toNat ∧ f.kind.toNat ≤ 0x5B
    (f.src = own → exec (.frameReceived f.bytes) s = .next s.seeking) ∧
    (f.src ≠ own → f.dest ≠ own → f.dest ≠ 255 ∨ ¬ request →
      exec (.frameReceived f.bytes) s = .next (s.seeking.passedOn f)) ∧
    (f.src ≠ own → f.dest = own → f.kind ∉ ([0x10, 0x20, 0x21, 0x22, 0x23] : List Byte) → ¬ request →
      exec (.frameReceived f.bytes) s = .next s.seeking)

/-- A consumed measurement frame goes to the lowest-numbered section that is active, enabled and has its source as
frontend_addr, a truck frame to the truck table with the lowest-numbered one that has it as reader_addr; with no candidate
the frame is dropped without an answer (R13, R14, R161, R162). -/
def Obligations.SectionFrameDelivered : Prop :=
  ∀ (s : State) (own : Byte) (f : Frame), s.addressed own → f.payload.length ≤ 64 → f.src ≠ own → f.dest = own →
    ∀ row ∈ ([(0x10, .measurementFrame, (·.frontendAddr)), (0x20, .arrive, (·.readerAddr)),
        (0x21, .depart, (·.readerAddr)), (0x22, .raiseReq, (·.readerAddr)), (0x23, .state, (·.readerAddr))] :
      List (Byte × (Sec → List Byte → Instr) × (SectionParams → Nat))), f.kind = row.1 →
    (∀ k, s.lowestCandidate row.2.2 f.src k →
      exec (.frameReceived f.bytes) s = .next { s.seeking with handed := s.handed ++ [row.2.1 k f.payload] }) ∧
    ((∀ k, ¬ s.candidate row.2.2 f.src k) → exec (.frameReceived f.bytes) s = .next s.seeking)

/-- The management requests by kind (R186, Table 10-3), but for READ_RESULTS and MAINT_BREAKER, whose rows their payload
tells apart. -/
def requestRows : List (Byte × (Req → Instr)) :=
  [(0x40, .getStatus), (0x41, .clearPowerUp), (0x42, .restart), (0x43, .clearBackup), (0x44, .writeRamp),
   (0x45, .readRamp), (0x46, .writeSection), (0x47, .readSection), (0x48, .readSectionState), (0x49, .writeFleet),
   (0x4A, .removeFleet), (0x4B, .readFleet), (0x4C, .writeClass), (0x4D, .readClass), (0x4E, .captureClear),
   (0x4F, .captureKeep), (0x51, .energize), (0x52, .deenergize), (0x53, .resetLockout), (0x54, .calibrate),
   (0x55, .maintEnter), (0x57, .maintTest), (0x58, .maintExit), (0x59, .readTrucks), (0x5A, .evictTruck),
   (0x5B, .nextEvent)]

/-- A request consumed from the supervisor address goes to the management unit with its tag, its payload and whether it came
broadcast; one that finds a request in hand and another waiting, or comes from another source, is dropped (R161 to R163,
R170, R186; the count of two, in which a RESTART under way is the one in hand, is log 4). A broadcast is taken and also goes
on, or counts a ring error where the forward queue holds 8. READ_RESULTS and MAINT_BREAKER go to the row their payload names
(log 26). -/
def Obligations.RequestDelivered : Prop :=
  ∀ (s : State) (own : Byte) (f : Frame), s.addressed own → f.payload.length ≤ 64 → f.src ≠ own →
    f.dest = own ∨ f.dest = 255 →
    let r : Req := { tag := f.tag, broadcast := decide (f.dest = 255), payload := f.payload }
    let t := if f.dest = 255 then s.seeking.passedOn f else s.seeking
    let delivered (c : Instr) : State :=
      if f.src = s.straps.supaddr ∧ 1 ≤ s.straps.supaddr.toNat ∧ s.straps.supaddr.toNat ≤ 254 ∧
          (s.handed.filter isRequest).length + (if s.mgmt.restart.isSome then 1 else 0) < 2 then
        { t with handed := s.handed ++ [c] }
      else t
    (∀ row ∈ requestRows, f.kind = row.1 → exec (.frameReceived f.bytes) s = .next (delivered (row.2 r))) ∧
    (f.kind = 0x50 → exec (.frameReceived f.bytes) s = .next (delivered
      (if f.payload = [255] then .readResultsAll r else .readResults r))) ∧
    (f.kind = 0x56 → exec (.frameReceived f.bytes) s = .next (delivered
      (if f.payload.length = 2 ∧ f.payload[1]? = some 1 then .maintBreakerClose r else .maintBreakerOpen r)))

/-- The codes of a DENY's reasons (R187, Table 10-5). -/
def denyCode : DenyReason → Byte
  | .notAuthorized => 1
  | .tableFull => 2
  | .unknownTruck => 3
  | .sectionOff => 4
  | .grantExpired => 5
  | .moved => 6
  | .estop => 7

/-- The codes of a LOWER's reasons (R187, Table 10-5). -/
def lowerCode : LowerReason → Byte
  | .trip => 1
  | .drain => 2
  | .estop => 3
  | .limit => 4
  | .overdraw => 5
  | .notGranted => 6
  | .handoverLate => 7
  | .moved => 8
  | .depart => 9
  | .evict => 10
  | .restart => 11

/-- The codes of a reply's statuses (R188). -/
def statusCode : Status → Byte
  | .ok => 0
  | .badRequest => 1
  | .badSection => 2
  | .badValue => 3
  | .badState => 4
  | .notFound => 5
  | .tableFull => 6
  | .estopOpen => 7
  | .notCalibrated => 8
  | .noParams => 9

/-- A frame of the part's own on the line: the envelope of R166 with a destination, a kind, a tag and a payload. -/
def ownFrame (s : State) (dest kind tag : Byte) (body : LineBody) : LineFrame :=
  { dest := dest, src := s.straps.addr, hops := BitVec.ofNat 8 s.ramp.hopInit, kind := kind, tag := tag, body := body }

/-- A frame of the priority lane as it goes on the line (R166, R186, R187). -/
def priorityFrame (s : State) : PriorityFrame → LineFrame
  | .command _ dest .openCmd => ownFrame s (BitVec.ofNat 8 dest) 0x18 0 (.plain [])
  | .command _ dest .closeCmd => ownFrame s (BitVec.ofNat 8 dest) 0x19 0 (.plain [])
  | .command _ dest .testCmd => ownFrame s (BitVec.ofNat 8 dest) 0x1A 0 (.plain [])
  | .lower id dest reason => ownFrame s (BitVec.ofNat 8 dest) 0x2B 0 (.plain (toBe 2 id ++ [lowerCode reason]))

/-- A frame of the ordinary lane as it goes on the line; an ATTENTION counts the notices then pending (R166, R183, R186 to
R188). -/
def ordinaryFrame (s : State) : OrdinaryFrame → LineFrame
  | .grant id dest k amps ms => ownFrame s (BitVec.ofNat 8 dest) 0x28 0
      (.plain (toBe 2 id ++ [BitVec.ofNat 8 k.val] ++ toBe 2 amps ++ toBe 2 ms))
  | .wait id dest position =>
      ownFrame s (BitVec.ofNat 8 dest) 0x29 0 (.plain (toBe 2 id ++ [BitVec.ofNat 8 position]))
  | .deny id dest reason => ownFrame s (BitVec.ofNat 8 dest) 0x2A 0 (.plain (toBe 2 id ++ [denyCode reason]))
  | .reply r => ownFrame s s.straps.supaddr 0x70 r.tag (.reply r)
  | .attention => ownFrame s s.straps.supaddr 0x71 0 (.plain [BitVec.ofNat 8 s.mgmt.notices.length])

/-- When Port B's line falls free, the priority lane goes first; a forwarded frame goes before an ordinary one, but for
every fifth; and with all three empty the line stays free. A forwarded frame leaves as it stands, the part's own with the
envelope and payload spelled out above; the payload of a reply is its kind, status and field number and then its data, 64
bytes at most (R163, R166, R167, R183, R185 to R188). -/
def Obligations.ArbiterChooses : Prop :=
  (∀ (s : State) (own : Byte), s.addressed own →
    (∀ f rest, s.ring.priority = f :: rest → exec .transmissionEnd s =
      .next { s with ring := { s.ring with priority := rest, line := some (priorityFrame s f) } }) ∧
    (∀ f rest, s.ring.priority = [] → s.ring.forward = f :: rest → (s.ring.ordinary = [] ∨ s.ring.runCount < 4) →
      exec .transmissionEnd s = .next { s with ring := { s.ring with
        forward := rest, runCount := if s.ring.ordinary = [] then 0 else s.ring.runCount + 1
        line := some { dest := f.dest, src := f.src, hops := f.hops, kind := f.kind, tag := f.tag,
                       body := .plain f.payload } } }) ∧
    (∀ f rest, s.ring.priority = [] → s.ring.ordinary = f :: rest → (s.ring.forward = [] ∨ 4 ≤ s.ring.runCount) →
      (∀ k, (s.sec k).adm.stall = false) →
      exec .transmissionEnd s = .next { s with ring := { s.ring with
        ordinary := rest, runCount := 0, line := some (ordinaryFrame s f) } }) ∧
    (s.ring.priority = [] → s.ring.forward = [] → s.ring.ordinary = [] →
      exec .transmissionEnd s = .next { s with ring := { s.ring with line := none } })) ∧
  ∀ r : Reply,
    (LineBody.reply r).bytes = r.kind :: statusCode r.answer.status :: BitVec.ofNat 8 r.answer.field :: r.answer.data.bytes ∧
    (LineBody.reply r).bytes.length ≤ 64

/-- A frame that leaves the ordinary lane starts a pass on each section with a stall mark, in ascending order (log 15 for
the order). With one such section the pass grants its head current up to the effective budget: an ordinary head is GRANTED
at its demand, its window starts and GRANT takes the freed place (R136, R137). -/
def Obligations.FreedPlaceGrants : Prop :=
  ∀ (s : State) (own : Byte) (f : OrdinaryFrame) (rest : List OrdinaryFrame), s.addressed own → s.ring.priority = [] →
    s.ring.forward = [] ∨ 4 ≤ s.ring.runCount → s.ring.ordinary = f :: rest →
    let left : State := { s with ring := { s.ring with
      ordinary := rest, runCount := 0, line := some (ordinaryFrame s f) } }
    exec .transmissionEnd s = .next ((([0, 1, 2, 3, 4, 5, 6, 7] : List Sec).filter fun k => (s.sec k).adm.stall).foldl
      (fun u k => runPass k u) left) ∧
    ∀ (k : Sec) (p : SectionParams) (r : Truck) (amps : Nat), s.ring.ordinary.length + s.ring.claimed ≤ 16 →
      s.active k = some p → (s.sec k).adm.queue = [{ truck := r.id, kind := .ordinary, amount := amps }] →
      (s.sec k).adm.stall = true → (∀ j, j ≠ k → (s.sec j).adm.stall = false) →
      s.truck r.id = some r → r.sec = k → r.demand = some amps → s.reserved k + amps ≤ (s.sec k).adm.bEff →
      exec .transmissionEnd s = .next
        (((left.withFrame (.grant r.id p.readerAddr k amps (s.classOf r).grantMs)).modAdm k fun a =>
          { a with queue := [], stall := false, holders := a.holders ++ [r.id] }).modTruck r.id fun x =>
          { x with reserved := amps, demand := none, hold := some k, panto := .granted
                   window := some { kind := .grant, left := (s.classOf r).grantMs } })

/-- An admission pass grants the queue's head, then the next head, and so on, while the sum reserved with it stays within
the effective budget and the ordinary lane has a place: an ordinary entry at its truck's demand, a handover entry at the
reservation its truck moves from the section that held it. Each granted truck joins the holder list at its tail and is sent
GRANT. What is left waits in order; the stall mark is set exactly where the next head has the budget and finds the lane
full. The sections that a handover left are the passes still to run; where no handover was granted, what is left is what the
passes of the other statements leave. A pass that finds no head within the budget only clears the stall mark (R133, R135,
R137, R138). -/
def Obligations.PassGrantsInOrder : Prop :=
  (∀ (s : State) (k : Sec), s.headWaits k (s.sec k).adm.holders (s.sec k).adm.queue →
    runPass k s = s.modSec k fun x => { x with adm := { x.adm with stall := false } }) ∧
  ∀ (s : State) (k : Sec) (p : SectionParams), s.active k = some p → s.table.Ok → (∀ r ∈ s.table.trucks, r.ItemsOk) →
    s.ring.ordinary.length + s.ring.claimed ≤ 16 → (∀ e ∈ (s.sec k).adm.queue, e.Ok s k) →
    ((s.sec k).adm.queue.map (·.truck)).Nodup →
    (∀ t ∈ (s.sec k).adm.holders, ∃ r, s.truck t = some r ∧ r.hold = some k) →
    ∃ (u : State) (granted waiting : List QueueEntry) (stalled : Bool),
      (s.sec k).adm.queue = granted ++ waiting ∧
      pass k s = (u, granted.filterMap fun e =>
        if e.kind = .handover then (s.truck e.truck).bind (·.hold) else none) ∧
      ((∀ e ∈ granted, e.kind = .ordinary) → runPass k s = u) ∧
      let total := s.reserved k + (granted.map (·.amount)).sum
      (granted ≠ [] → total ≤ (s.sec k).adm.bEff ∧ s.roomFor granted.length) ∧
      (waiting = [] → stalled = false) ∧
      (∀ e rest, waiting = e :: rest →
        if stalled then total + e.amount ≤ (s.sec k).adm.bEff ∧ ¬ s.roomFor (granted.length + 1)
        else (s.sec k).adm.bEff < total + e.amount) ∧
      u = { s with
        sections := u.sections
        table := { s.table with
          trucks := s.table.trucks.map fun r => if r.id ∈ granted.map (·.truck) then { r with
            reserved := r.demand.getD r.reserved, demand := none, hold := some k, panto := .granted
            window := some { kind := .grant, left := (s.classOf r).grantMs } } else r }
        ring := { s.ring with
          ordinary := s.ring.ordinary ++ granted.filterMap fun e => (s.truck e.truck).map fun r =>
            .grant e.truck p.readerAddr k e.amount (s.classOf r).grantMs } } ∧
      (u.sec k).adm = { (s.sec k).adm with
        queue := waiting, holders := (s.sec k).adm.holders ++ granted.map (·.truck), stall := stalled } ∧
      ∀ j, (u.sec j) = { s.sec j with adm := (u.sec j).adm } ∧ (j ≠ k → (u.sec j).adm = { (s.sec j).adm with
        holders := (s.sec j).adm.holders.filter fun t => !granted.any fun e =>
          e.truck == t && e.kind == .handover && (s.truck t).any (·.hold == some j) })

/-! ## Requests -/

/-- The four rows that share a kind: READ_RESULTS by its selector and MAINT_BREAKER by its position (R186, log 26). -/
def splitRows : List (Byte × (Req → Instr)) :=
  [(0x50, .readResults), (0x50, .readResultsAll), (0x56, .maintBreakerClose), (0x56, .maintBreakerOpen)]

/-- A broadcast request other than a capture is ignored, and an addressed request that finds no place for its reply is
dropped: each is taken and changes nothing (R171, R172). A request that finds a RESTART under way is taken once that has
come to its end: it finds the same part whether or not the next stage was taken before it (R170; how the model comes to that
end is log 35). -/
def Obligations.RequestIgnoredOrDropped : Prop :=
  ∀ (s : State) (r : Req), ∀ row ∈ requestRows ++ splitRows,
    (s.noRestart → r.broadcast = true → row.1 ≠ 0x4E → row.1 ≠ 0x4F → exec (row.2 r) s = .next (take (row.2 r) s)) ∧
    (s.noRestart → r.broadcast = false → ¬ s.roomFor 1 → exec (row.2 r) s = .next (take (row.2 r) s)) ∧
    ∀ t, ¬ s.noRestart → step { s with pending := [] } = .next t →
      exec (row.2 r) s = exec (row.2 r) { t with pending := s.pending }

/-- The requests without payload: with any payload they are refused with BAD_REQUEST and nothing changes (R174). -/
def emptyRows : List (Byte × (Req → Instr)) :=
  [(0x40, .getStatus), (0x41, .clearPowerUp), (0x42, .restart), (0x43, .clearBackup), (0x45, .readRamp),
   (0x4E, .captureClear), (0x4F, .captureKeep), (0x5B, .nextEvent)]

/-- The requests whose payload is one section number (R186, Table 10-3). -/
def sectionRows : List (Byte × (Req → Instr)) :=
  [(0x48, .readSectionState), (0x51, .energize), (0x52, .deenergize), (0x53, .resetLockout), (0x54, .calibrate),
   (0x55, .maintEnter), (0x57, .maintTest), (0x58, .maintExit)]

/-- A payload of a length that is not the request's is refused with BAD_REQUEST, and a section number above 7 with
BAD_SECTION; a MAINT_BREAKER whose position byte is neither is BAD_REQUEST whatever its section. None changes anything
beside the reply (R53, R91, R173 to R175, R186; which of its two rows a MAINT_BREAKER is given is log 26). -/
def Obligations.BadPayloadRefused : Prop :=
  ∀ (s : State) (r : Req), s.noRestart → r.broadcast = false → s.roomFor 1 →
    (∀ row ∈ emptyRows, r.payload ≠ [] →
      exec (row.2 r) s = .next ((take (row.2 r) s).withReply row.1 r .badRequest 0 .empty)) ∧
    (∀ row ∈ sectionRows ++ [(0x50, .readResults)], r.payload.length ≠ 1 →
      exec (row.2 r) s = .next ((take (row.2 r) s).withReply row.1 r .badRequest 0 .empty)) ∧
    (∀ row ∈ sectionRows ++ [(0x50, .readResults)], ∀ b : Byte, r.payload = [b] → 8 ≤ b.toNat → b ≠ 255 →
      exec (row.2 r) s = .next ((take (row.2 r) s).withReply row.1 r .badSection 0 .empty)) ∧
    (∀ row ∈ sectionRows, r.payload = [255] →
      exec (row.2 r) s = .next ((take (row.2 r) s).withReply row.1 r .badSection 0 .empty)) ∧
    (∀ row ∈ ([(0x4A, .removeFleet), (0x4B, .readFleet), (0x5A, .evictTruck), (0x47, .readSection)] :
        List (Byte × (Req → Instr))), r.payload.length ≠ 2 →
      exec (row.2 r) s = .next ((take (row.2 r) s).withReply row.1 r .badRequest 0 .empty)) ∧
    (∀ row ∈ ([(0x44, .writeRamp, 4), (0x46, .writeSection, 49), (0x4C, .writeClass, 13), (0x4D, .readClass, 1),
        (0x59, .readTrucks, 1), (0x56, .maintBreakerClose, 2), (0x56, .maintBreakerOpen, 2)] :
        List (Byte × (Req → Instr) × Nat)), r.payload.length ≠ row.2.2 →
      exec (row.2.1 r) s = .next ((take (row.2.1 r) s).withReply row.1 r .badRequest 0 .empty)) ∧
    (∀ row ∈ ([(.maintBreakerOpen, 0), (.maintBreakerClose, 1)] : List ((Req → Instr) × Byte)), ∀ b p : Byte,
      r.payload = [b, p] →
      (2 ≤ p.toNat → exec (row.1 r) s = .next ((take (row.1 r) s).withReply 0x56 r .badRequest 0 .empty)) ∧
      (p = row.2 → 8 ≤ b.toNat →
        exec (row.1 r) s = .next ((take (row.1 r) s).withReply 0x56 r .badSection 0 .empty)))

/-- GET_STATUS reports the part as it stands, its owners asked in one event of the model (log 36), and changes nothing;
with a payload it is refused (R177). WRITE_RAMP, for every payload of its length: the record is replaced whole, or the
first field out of range is named and nothing changes. READ_RAMP gives the record as it stands (R2). -/
def Obligations.StatusAndRampServed : Prop :=
  ∀ (s : State) (r : Req), s.noRestart → r.broadcast = false → s.roomFor 1 →
    (r.payload ≠ [] →
      exec (.getStatus r) s = .next ((take (.getStatus r) s).withReply 0x40 r .badRequest 0 .empty)) ∧
    (r.payload = [] → exec (.getStatus r) s = .next ((take (.getStatus r) s).withReply 0x40 r .ok 0 (.status {
      powerUp := s.mgmt.powerUp, notices := s.mgmt.notices.length, addr := s.straps.addr, supaddr := s.straps.supaddr
      rate := s.straps.rate, ringErrors := s.ring.errors, estopClosed := s.chip.estopClosed
      fellSeen := s.chip.fellSeen, roseSeen := s.chip.roseSeen, backupTrip := s.chip.backupTrip
      sections := ([0, 1, 2, 3, 4, 5, 6, 7] : List Sec).map fun k => {
        activePresent := (s.sec k).copies.active.isSome, enabled := (s.sec k).copies.active.any (·.enabled)
        pendingDiffers := decide ((s.sec k).copies.pending ≠ (s.sec k).copies.active), state := (s.sec k).seq.state
        lastFeedback := (s.sec k).seq.lastFeedback }
      trucks := s.table.trucks.length, generation := s.table.generation, fleet := s.table.fleet.length }))) ∧
    (r.payload = [] → exec (.readRamp r) s = .next ((take (.readRamp r) s).withReply 0x45 r .ok 0 (.ramp s.ramp))) ∧
    ∀ (silence hops : Nat) (b : Byte), silence ≤ 65535 → hops ≤ 255 →
    r.payload = toBe 2 silence ++ toBe 1 hops ++ [b] →
    let t := take (.writeRamp r) s
    exec (.writeRamp r) s = .next (
      if silence < 1000 ∨ 60000 < silence then t.withReply 0x44 r .badValue 1 .empty
      else if hops < 1 ∨ 63 < hops then t.withReply 0x44 r .badValue 2 .empty
      else if b ≠ 0 ∧ b ≠ 1 then t.withReply 0x44 r .badValue 3 .empty
      else { t with ramp := { silenceMs := silence, hopInit := hops, broadcastCapture := decide (b = 1) } }.withReply
        0x44 r .ok 0 .empty)

/-- READ_SECTION answers with the thirty fields of the copy named, or NOT_FOUND where it is absent; a section above 7 is
BAD_SECTION and, of a section that exists, any other selector BAD_REQUEST. The reply data is the section, the selector
and the record's 48 bytes (R6, R15, R189). -/
def Obligations.SectionRead : Prop :=
  ∀ (s : State) (r : Req) (b sel : Byte), s.noRestart → r.broadcast = false → r.payload = [b, sel] → s.roomFor 1 →
    (8 ≤ b.toNat →
      exec (.readSection r) s = .next ((take (.readSection r) s).withReply 0x47 r .badSection 0 .empty)) ∧
    ∀ k : Sec, b.toNat = k.val →
      (2 < sel.toNat →
        exec (.readSection r) s = .next ((take (.readSection r) s).withReply 0x47 r .badRequest 0 .empty)) ∧
      ∀ row ∈ [(0, (s.sec k).copies.pending), (1, (s.sec k).copies.active), (2, (s.sec k).copies.prior)],
        sel.toNat = row.1 →
        (row.2 = none →
          exec (.readSection r) s = .next ((take (.readSection r) s).withReply 0x47 r .notFound 0 .empty)) ∧
        ∀ p, row.2 = some p →
          exec (.readSection r) s = .next ((take (.readSection r) s).withReply 0x47 r .ok 0 (.copyOf k row.1 p)) ∧
          (ReplyData.copyOf k row.1 p).bytes = b :: sel :: p.bytes

/-- READ_FLEET lists up to eight entries from the id named on, with the id of the next one; READ_CLASS gives a class
record with the number of trucks that carry it; READ_TRUCKS gives up to three records from a place in the order of
records. Each refuses a payload of another length, and READ_CLASS and READ_TRUCKS a number out of range (R115, R118,
R127). -/
def Obligations.TablesRead : Prop :=
  ∀ (s : State) (r : Req), s.noRestart → r.broadcast = false → s.roomFor 1 →
    (r.payload.length ≠ 2 →
      exec (.readFleet r) s = .next ((take (.readFleet r) s).withReply 0x4B r .badRequest 0 .empty)) ∧
    (r.payload.length ≠ 1 →
      exec (.readClass r) s = .next ((take (.readClass r) s).withReply 0x4D r .badRequest 0 .empty) ∧
      exec (.readTrucks r) s = .next ((take (.readTrucks r) s).withReply 0x59 r .badRequest 0 .empty)) ∧
    (∀ (start : Nat) (before from' : List FleetEntry), start ≤ 65535 → r.payload = toBe 2 start →
      s.table.fleet = before ++ from' → (∀ e ∈ before, e.id < start) → (∀ e ∈ from', start ≤ e.id) →
      exec (.readFleet r) s = .next ((take (.readFleet r) s).withReply 0x4B r .ok 0
        (.fleet s.table.fleet.length (from'.take 8) (from'[8]?.map (·.id))))) ∧
    (∀ c : Fin 4, r.payload = [BitVec.ofNat 8 c.val] →
      exec (.readClass r) s = .next ((take (.readClass r) s).withReply 0x4D r .ok 0
        (.cls s.table.classes[c] (s.table.trucks.countP fun t => t.cls == c)))) ∧
    (∀ b : Byte, r.payload = [b] →
      (4 ≤ b.toNat →
        exec (.readClass r) s = .next ((take (.readClass r) s).withReply 0x4D r .badRequest 0 .empty)) ∧
      (24 ≤ b.toNat →
        exec (.readTrucks r) s = .next ((take (.readTrucks r) s).withReply 0x59 r .badRequest 0 .empty)) ∧
      (b.toNat ≤ 23 → exec (.readTrucks r) s = .next ((take (.readTrucks r) s).withReply 0x59 r .ok 0
        (.trucks s.table.trucks.length s.table.generation b.toNat
          (((s.table.trucks.drop b.toNat).take 3).map fun t => {
            id := t.id, cls := t.cls, sec := t.sec, mark := t.mark, silence := t.silence, panto := t.panto
            hold := t.hold, reserved := t.reserved, demand := t.demand, window := t.window
            overCount := t.overCount })))))

/-- READ_RESULTS gives one section's record; READ_RESULTS ALL gives one reply for each enabled section in ascending order,
numbered 1 on, or a single reply with no record where none is enabled, and is dropped whole where its replies do not all
fit. The reply data is position, size and section, and then the record's 30 bytes, each figure at its place with the most
significant byte first; with no record it is 0, 0 and 255 (R53, R54, R172, R190, Table 10-7; that no other frame stands
between the replies is the model's choice, log 36). -/
def Obligations.ResultsRead : Prop :=
  (ReplyData.noResults.bytes = [0, 0, 255] ∧
    ∀ (pos size : Nat) (k : Sec) (x : ResultRecord), x.books.Ok → x.captureNo < 65536 →
      let b := x.books
      let bytes := (ReplyData.results pos size k x).bytes
      let flag (c : Bool) (v : Nat) : Nat := if c then v else 0
      let places : List (Nat × Nat × Nat) := [
        (0, 2, x.captureNo), (2, 1, match x.kind with | .none => 0 | .clear => 1 | .keep => 2 | .limited => 3),
        (3, 1, flag b.peakSeq.isSome 1 + flag b.minV.isSome 2 + flag b.overflow 4 + flag x.fellSeen 8 +
          flag x.roseSeen 16),
        (4, 8, (b.energy % 2 ^ 64).toNat), (12, 4, b.count), (16, 2, b.peak), (18, 1, b.peakSeq.getD 0),
        (19, 2, b.minV.getD 0), (21, 4, b.maxH), (25, 2, b.longestRun), (27, 2, b.missed), (29, 1, b.trips)]
      bytes.length = 33 ∧ bytes.take 3 = [BitVec.ofNat 8 pos, BitVec.ofNat 8 size, BitVec.ofNat 8 k.val] ∧
      ∀ f ∈ places, ((bytes.drop (3 + f.1)).take f.2.1).foldl (fun n b => n * 256 + b.toNat) 0 = f.2.2) ∧
  ∀ (s : State) (r : Req), s.noRestart → r.broadcast = false →
    (∀ k : Sec, r.payload = [BitVec.ofNat 8 k.val] → s.roomFor 1 →
      exec (.readResults r) s = .next ((take (.readResults r) s).withReply 0x50 r .ok 0
        (.results 1 1 k (s.sec k).acc.result))) ∧
    (∀ ks : List Sec, r.payload = [255] → ks.Pairwise (· < ·) → (∀ k, k ∈ ks ↔ s.isEnabled k = true) →
      (ks = [] → s.roomFor 1 → exec (.readResultsAll r) s =
        .next ((take (.readResultsAll r) s).withReply 0x50 r .ok 0 .noResults)) ∧
      (ks ≠ [] → s.roomFor ks.length →
        let reply (k : Sec) (i : Nat) : OrdinaryFrame := .reply { tag := r.tag, kind := 0x50, answer := {
          status := .ok, field := 0, data := .results (i + 1) ks.length k (s.sec k).acc.result } }
        exec (.readResultsAll r) s = .next { (take (.readResultsAll r) s) with ring := { s.ring with
          ordinary := s.ring.ordinary ++ ks.zipIdx.map fun (k, i) => reply k i } }) ∧
      (ks ≠ [] → ¬ s.roomFor ks.length → exec (.readResultsAll r) s = .next (take (.readResultsAll r) s)))

/-- READ_SECTION_STATE is answered by five replies, one for each block, and empties the trip record; with fewer than five
places it is dropped (R34, R55, R57, R80, R111, R155, R172, R175). The fourth reply holds the whole protection state: that
the last sample, which R57 keeps and R80's list leaves out, is among it is the model's choice (log 34), and so is that the
five parts show one instant (log 36). -/
def Obligations.SectionStateRead : Prop :=
  ∀ (s : State) (r : Req) (k : Sec), s.noRestart → r.broadcast = false → r.payload = [BitVec.ofNat 8 k.val] →
    let x := s.sec k
    let answer (d : ReplyData) : OrdinaryFrame :=
      .reply { tag := r.tag, kind := 0x48, answer := { status := .ok, field := 0, data := d } }
    (¬ s.roomFor 5 → exec (.readSectionState r) s = .next (take (.readSectionState r) s)) ∧
    (s.roomFor 5 → exec (.readSectionState r) s = .next
      ({ (take (.readSectionState r) s) with ring := { s.ring with ordinary := s.ring.ordinary ++ [
          answer (.seqPart 1 5 k x.seq),
          answer (.measPart 2 5 k {
            lastSeq := x.meas.lastSeq, offset := x.meas.offset, offsetValid := x.meas.offsetValid
            calCount := x.meas.cal.map CalRun.count, iAvg := x.meas.currents.sum.tdiv 8
            vAvg := x.meas.voltages.sum / 8, badRun := x.meas.badRun, watchdogRunning := x.meas.watchdog.isSome }),
          answer (.accPart 3 5 k {
            heat := x.acc.heat, derate := x.acc.derate, books := x.acc.books
            thresholds := x.copies.active.map fun p : SectionParams =>
              (p.derateLevel * 2 ^ (p.tauShift + 3), (p.derateLevel - 1) * 2 ^ (p.tauShift + 3)) }),
          answer (.protPart 4 5 k x.prot),
          answer (.admPart 5 5 k {
            bEff := x.adm.bEff, reserved := s.reserved k, allowance := s.allowance k, stall := x.adm.stall
            holders := x.adm.holders.length, lowering := (s.holdersIn k .lowering).length
            entries := x.adm.queue.length, handovers := x.adm.queue.countP fun e : QueueEntry => e.kind == EntryKind.handover
            head := x.adm.queue.head? })] } }.modProt k fun p => { p with record := none }))

/-- The bytes that field `n` of a section parameter record takes (R189, Table 10-6). -/
def fieldSize (n : Nat) : Nat :=
  if n = 25 then 4
  else if n ∈ [6, 7, 12, 13, 14, 16, 17, 18, 19, 20, 21, 22, 23, 24, 30] then 2
  else 1

/-- Field `n` of the record carried, `v`, lies within its range (R3); yes, no and rise_filter as R185 and R189 code them. -/
def fieldInRange (own : Sec) (v : Nat → Nat) (n : Nat) : Bool :=
  let between (lo hi : Nat) : Bool := decide (lo ≤ v n ∧ v n ≤ hi)
  match n with
  | 1 | 5 | 26 => between 0 1
  | 2 | 3 => between 1 254
  | 4 => v n == 255 || (between 0 7 && v n != own.val)
  | 6 | 7 => between 100 20000
  | 8 => between 8 20
  | 9 => between 17 62
  | 10 => between (v 9 + 1) 63
  | 11 => between 1 8
  | 12 => between 1000 32767
  | 13 => between 50 32767
  | 14 => between 0 32767
  | 15 => between 0 3
  | 16 => between 100 32767
  | 17 => between 1 4096
  | 18 | 21 => between 0 65535
  | 19 => between 0 5000
  | 20 => between 10 2000
  | 22 => between 10 32767
  | 23 => between 20 1000
  | 24 => between 100 60000
  | 25 => between 1000 600000
  | 27 => between 0 7
  | 28 => between 2 100
  | 29 => between 1 16
  | 30 => between 0 2000
  | _ => false

/-- The record whose field `n` carries `v n` (R3, R189). -/
def recordOf (v : Nat → Nat) : SectionParams :=
  { enabled := v 1 == 1, frontendAddr := v 2, readerAddr := v 3
    nextUphill := if v 4 = 255 then none else some (Fin.ofNat 8 (v 4)), bidirectional := v 5 == 1, limitAmps := v 6
    contAmps := v 7, tauShift := v 8, derateLevel := v 9, tripLevel := v 10, derateShare := v 11, instAmps := v 12
    riseAmps := v 13, riseFloor := v 14
    riseFilter := if v 15 = 0 then .f1of1 else if v 15 = 1 then .f2of2 else if v 15 = 2 then .f2of3 else .f3of5
    sustainAmps := v 16, sustainSamples := v 17, vmin := v 18, vhyst := v 19, testMs := v 20, testPass := v 21
    testMaxAmps := v 22, breakerMs := v 23, recloseMs := v 24, stableMs := v 25, autoReclose := v 26 == 1
    maxAttempts := v 27, measMs := v 28, badRun := v 29, offsetLimit := v 30 }

/-- WRITE_SECTION, for every payload of its length: a section above 7 is BAD_SECTION; otherwise the first of the thirty
fields that lies out of its range is named with BAD_VALUE and nothing changes (next_uphill 4 also for the section's own
number, trip_level 10 also where it does not exceed the derate_level carried); with every field in range the record
replaces the pending copy and nothing else (R3 to R5, R189). -/
def Obligations.SectionWritten : Prop :=
  ∀ (s : State) (r : Req) (b : Byte) (v : Nat → Nat), s.noRestart → r.broadcast = false → s.roomFor 1 →
    (∀ n, 1 ≤ n → n ≤ 30 → v n < 256 ^ fieldSize n) →
    let fields := List.range' 1 30
    r.payload = b :: fields.flatMap (fun n => toBe (fieldSize n) (v n)) →
    let t := take (.writeSection r) s
    (8 ≤ b.toNat → exec (.writeSection r) s = .next (t.withReply 0x46 r .badSection 0 .empty)) ∧
    ∀ k : Sec, b.toNat = k.val →
      (∀ n ∈ fields, fieldInRange k v n = false → (∀ m ∈ fields, m < n → fieldInRange k v m = true) →
        exec (.writeSection r) s = .next (t.withReply 0x46 r .badValue n .empty)) ∧
      ((∀ n ∈ fields, fieldInRange k v n = true) → exec (.writeSection r) s = .next
        ((t.modSec k fun x => { x with copies := { x.copies with pending := some (recordOf v) } }).withReply
          0x46 r .ok 0 .empty))

/-- WRITE_FLEET with entries of distinct ids leaves an ascending table that holds the entries carried, and of the old
ones those whose ids are not carried; it is refused whole with TABLE_FULL where that makes more than 64. A count outside 1
to 8, or a length that does not match it, is BAD_REQUEST; the first entry with an id of 0 or 65535, a class above 3 or an
id carried before is BAD_VALUE with its number. A refused request changes nothing (R112, R113). REMOVE_FLEET takes one entry
out; an id without an entry is NOT_FOUND, and 0 and 65535 are BAD_VALUE (R114; what it does with the record of a truck that
has one is part of TruckLetGo below). -/
def Obligations.FleetWritten : Prop :=
  ∀ (s : State) (r : Req), s.noRestart → r.broadcast = false → s.roomFor 1 →
    (∀ id : Nat, id ≤ 65535 → r.payload = toBe 2 id →
      let t := take (.removeFleet r) s
      let fleet := s.table.fleet.filter fun e => e.id ≠ id
      (id = 0 ∨ id = 65535 → exec (.removeFleet r) s = .next (t.withReply 0x4A r .badValue 1 .empty)) ∧
      (1 ≤ id → id ≤ 65534 → (∀ e ∈ s.table.fleet, e.id ≠ id) →
        exec (.removeFleet r) s = .next (t.withReply 0x4A r .notFound 0 .empty)) ∧
      (1 ≤ id → id ≤ 65534 → (∃ e ∈ s.table.fleet, e.id = id) → s.truck id = none → exec (.removeFleet r) s =
        .next ({ t with table := { s.table with fleet := fleet } }.withReply 0x4A r .ok 0 .empty))) ∧
    (s.table.Ok →
      let t := take (.writeFleet r) s
      (r.payload = [] ∨ (∃ count entries, r.payload = count :: entries ∧
          (count.toNat = 0 ∨ 8 < count.toNat ∨ entries.length ≠ 3 * count.toNat)) →
        exec (.writeFleet r) s = .next (t.withReply 0x49 r .badRequest 0 .empty)) ∧
      ∀ es : List (Nat × Nat), es ≠ [] → es.length ≤ 8 → (∀ e ∈ es, e.1 ≤ 65535 ∧ e.2 ≤ 255) →
        r.payload = BitVec.ofNat 8 es.length :: (es.flatMap fun e => toBe 2 e.1 ++ toBe 1 e.2) →
        let good (before : List (Nat × Nat)) (e : Nat × Nat) : Prop :=
          1 ≤ e.1 ∧ e.1 ≤ 65534 ∧ e.2 ≤ 3 ∧ e.1 ∉ before.map (·.1)
        (∀ before e after, es = before ++ e :: after → ¬ good before e →
          (∀ before' e' after', before = before' ++ e' :: after' → good before' e') →
          exec (.writeFleet r) s = .next (t.withReply 0x49 r .badValue (before.length + 1) .empty)) ∧
        (∀ entries : List FleetEntry, es = entries.map (fun e => (e.id, e.cls.val)) →
          (∀ e ∈ entries, 1 ≤ e.id ∧ e.id ≤ 65534) → (entries.map (·.id)).Nodup →
          let kept := s.table.fleet.filter fun e => !entries.any fun x => x.id == e.id
          let fresh := entries.filter fun e => !s.table.fleet.any fun x => x.id == e.id
          (fresh.length + s.table.fleet.length ≤ 64 → ∃ fleet : List FleetEntry,
            exec (.writeFleet r) s =
              .next ({ t with table := { s.table with fleet := fleet } }.withReply 0x49 r .ok 0 .empty) ∧
            (fleet.map (·.id)).Pairwise (· < ·) ∧ ∀ e, e ∈ fleet ↔ e ∈ entries ∨ e ∈ kept) ∧
          (64 < fresh.length + s.table.fleet.length →
            exec (.writeFleet r) s = .next (t.withReply 0x49 r .tableFull 0 .empty))))

/-- WRITE_CLASS with defined yes and every field in range replaces the class record; with defined no it undefines the
class, unless a truck record carries it. A defined byte that is neither is BAD_VALUE 1; another length, or a class number
above 3, is BAD_REQUEST (R117). -/
def Obligations.ClassWritten : Prop :=
  ∀ (s : State) (r : Req), s.noRestart → r.broadcast = false → s.roomFor 1 →
    (r.payload.length ≠ 13 →
      exec (.writeClass r) s = .next ((take (.writeClass r) s).withReply 0x4C r .badRequest 0 .empty)) ∧
    (∀ (b : Byte) (fields : List Byte), r.payload = b :: fields → 4 ≤ b.toNat →
      exec (.writeClass r) s = .next ((take (.writeClass r) s).withReply 0x4C r .badRequest 0 .empty)) ∧
    ∀ (c : Fin 4) (d : Byte) (lo hi grant handover lower pct : Nat), lo ≤ 65535 → hi ≤ 65535 → grant ≤ 65535 →
    handover ≤ 65535 → lower ≤ 65535 → pct ≤ 255 →
    r.payload = [BitVec.ofNat 8 c.val, d] ++ toBe 2 lo ++ toBe 2 hi ++ toBe 2 grant ++ toBe 2 handover ++ toBe 2 lower ++
      toBe 1 pct →
    let t := take (.writeClass r) s
    exec (.writeClass r) s = .next (
      if d = 0 then
        if ∃ x ∈ s.table.trucks, x.cls = c then t.withReply 0x4C r .badState 0 .empty
        else { t with table := { s.table with classes := s.table.classes.set c {
          defined := false, demandMin := 0, demandMax := 0, grantMs := 0, handoverMs := 0, lowerMs := 0
          overdrawPct := 0 } } }.withReply 0x4C r .ok 0 .empty
      else if d ≠ 1 then t.withReply 0x4C r .badValue 1 .empty
      else if lo < 100 ∨ 5000 < lo then t.withReply 0x4C r .badValue 2 .empty
      else if hi < lo ∨ 8000 < hi then t.withReply 0x4C r .badValue 3 .empty
      else if grant < 200 ∨ 10000 < grant then t.withReply 0x4C r .badValue 4 .empty
      else if handover < 100 ∨ 5000 < handover then t.withReply 0x4C r .badValue 5 .empty
      else if lower < 200 ∨ 10000 < lower then t.withReply 0x4C r .badValue 6 .empty
      else if 100 < pct then t.withReply 0x4C r .badValue 7 .empty
      else { t with table := { s.table with classes := s.table.classes.set c {
        defined := true, demandMin := lo, demandMax := hi, grantMs := grant, handoverMs := handover, lowerMs := lower
        overdrawPct := pct } } }.withReply 0x4C r .ok 0 .empty)

/-- CLEAR_POWER_UP clears the power-up flag (R176). CLEAR_BACKUP releases the backup trip, unless an enabled section's
last feedback is closed: then it is refused with BAD_STATE (R90). NEXT_EVENT removes the first notice of the list and
returns it with the number that remain; on an empty list it returns none and 0, and nothing changes (R182). -/
def Obligations.FlagsAndNoticesTaken : Prop :=
  ∀ (s : State) (r : Req), s.noRestart → r.broadcast = false → s.roomFor 1 →
    (r.payload = [] → exec (.clearPowerUp r) s = .next
      ({ (take (.clearPowerUp r) s) with mgmt := { s.mgmt with powerUp := false } }.withReply 0x41 r .ok 0 .empty)) ∧
    (r.payload ≠ [] → exec (.clearBackup r) s = .next ((take (.clearBackup r) s).withReply 0x43 r .badRequest 0 .empty)) ∧
    (r.payload = [] → (∀ k, s.isEnabled k = true → (s.sec k).seq.lastFeedback = .opened) →
      exec (.clearBackup r) s = .next
        ({ (take (.clearBackup r) s) with chip := { s.chip with backupTrip := false } }.withReply 0x43 r .ok 0 .empty)) ∧
    (r.payload = [] → (∃ k, s.isEnabled k = true ∧ (s.sec k).seq.lastFeedback = .closed) →
      exec (.clearBackup r) s = .next ((take (.clearBackup r) s).withReply 0x43 r .badState 0 .empty)) ∧
    (r.payload ≠ [] → exec (.nextEvent r) s = .next ((take (.nextEvent r) s).withReply 0x5B r .badRequest 0 .empty)) ∧
    (∀ n rest, r.payload = [] → s.mgmt.notices = n :: rest → exec (.nextEvent r) s = .next
      ({ (take (.nextEvent r) s) with mgmt := { s.mgmt with notices := rest } }.withReply 0x5B r .ok 0
        (.event (some n) rest.length))) ∧
    (r.payload = [] → s.mgmt.notices = [] →
      exec (.nextEvent r) s = .next ((take (.nextEvent r) s).withReply 0x5B r .ok 0 (.event none 0)))

/-! ## Section control -/

/-- CALIBRATE, judged in the order of its table: it starts a run with sum 0 and count 0 and changes nothing else (R30). A
measurement frame that reports the breaker closed ends a run that is under way, with a SENSOR_FAULT notice of kind
CAL_ABORT; beside that it does what it does where no run is (R32; that the notice carries the frame's seq is log 11, and
that the frame raises it before a loss its bad run signals is log 32). -/
def Obligations.CalibrationStarted : Prop :=
  (∀ (s : State) (k : Sec) (run : CalRun) (seq i1 i0 v1 v0 g : Byte), (s.sec k).meas.cal = some run →
    (s.active k).isSome → (s.sec k).fresh seq → g.toNat ≤ 1 →
    let c := Instr.measurementFrame k [seq, i1, i0, v1, v0, 1, g]
    exec c s = exec c (raise (some k) (.sensorFault (.calAbort (some seq.toNat)))
      (s.modSec k fun x => { x with meas := { x.meas with cal := none } }))) ∧
  ∀ (s : State) (r : Req), s.noRestart → r.broadcast = false → s.roomFor 1 →
    let t := take (.calibrate r) s
    (r.payload.length ≠ 1 → exec (.calibrate r) s = .next (t.withReply 0x54 r .badRequest 0 .empty)) ∧
    (∀ b : Byte, r.payload = [b] → 8 ≤ b.toNat → exec (.calibrate r) s = .next (t.withReply 0x54 r .badSection 0 .empty)) ∧
    (∀ k : Sec, r.payload = [BitVec.ofNat 8 k.val] → exec (.calibrate r) s = .next (
      if s.active k = none then t.withReply 0x54 r .noParams 0 .empty
      else if s.isEnabled k = false ∨ (s.sec k).seq.state ≠ .off ∨ (s.sec k).meas.cal ≠ none ∨
          (s.sec k).seq.expectation = .closed ∨ (s.sec k).seq.lastFeedback = .closed then
        t.withReply 0x54 r .badState 0 .empty
      else (t.modSec k fun x => { x with meas := { x.meas with cal := some { sum := 0, count := 0 } } }).withReply
        0x54 r .ok 0 .empty))

/-- ENERGIZE, judged in the order of its table: the section goes to TESTING with attempts 0, the measurement and
protection units take the notice, TEST is placed and the test timer started (R27, R29, R58, R84, R92). -/
def Obligations.Energized : Prop :=
  ∀ (s : State) (r : Req) (k : Sec), s.noRestart → r.broadcast = false → s.roomFor 1 → r.payload = [BitVec.ofNat 8 k.val] →
    let t := take (.energize r) s
    (s.active k = none → exec (.energize r) s = .next (t.withReply 0x51 r .noParams 0 .empty)) ∧
    (∀ p, s.active k = some p → s.told k → exec (.energize r) s = .next (
      if p.enabled = false ∨ (s.sec k).seq.state ≠ .off ∨ (s.sec k).meas.cal ≠ none then
        t.withReply 0x51 r .badState 0 .empty
      else if (s.sec k).meas.offsetValid = false then t.withReply 0x51 r .notCalibrated 0 .empty
      else if s.chip.estopClosed = false then t.withReply 0x51 r .estopOpen 0 .empty
      else if (s.sec k).seq.lastFeedback = .closed then t.withReply 0x51 r .badState 0 .empty
      else (placePriority (.command k p.frontendAddr .testCmd) (t.modSec k fun x => { x with
        seq := { x.seq with state := .testing, attempts := 0, reclosePending := false, heatRequired := false
                            testTimer := some p.testMs }
        meas := { x.meas with currents := [0, 0, 0, 0, 0, 0, 0, 0], voltages := [0, 0, 0, 0, 0, 0, 0, 0], iPrev := none
                              watchdog := some p.measMs }
        prot := { x.prot with view := .testing, history := [], sustained := 0, last := none }
        adm := { x.adm with view := .testing, bEff := 0 } })).withReply 0x51 r .ok 0 .empty))

/-- DEENERGIZE by the state it finds: OFF and DRAINING are left, MAINT is refused; TESTING and CLOSING open the breaker;
TRIPPED and LOCKOUT go to OFF with attempts 0 and no command; LIVE goes to OFF at once where it has no holders, and
otherwise to DRAINING with its holders lowered and sent LOWER DRAIN, the reservations standing until they are given back.
Every truck of the queue is IDLE and sent DENY SECTION_OFF, in queue order, as long as the lane has a place beside the
reply's (R102, R103, R131, R144, R148, R150, R165, R172; a holder or a queued truck in HANDOVER is in HandoversLowered). -/
def Obligations.Deenergized : Prop :=
  ∀ (s : State) (r : Req) (k : Sec) (p : SectionParams), s.noRestart → r.broadcast = false → s.roomFor 1 →
    r.payload = [BitVec.ofNat 8 k.val] → s.active k = some p → s.told k → s.QueueReady k →
    let t := take (.deenergize r) s
    let places := 15 - (s.ring.ordinary.length + s.ring.claimed)
    let off (prot : Prot → Prot) (seq : Seq → Seq) : State := (t.denied k p .sectionOff places).modSec k fun x => { x with
      seq := { seq x.seq with state := .off, lastOff := some .deenergize }
      prot := { prot x.prot with view := .off }
      adm := { x.adm with view := .off, bEff := 0 } }
    let opened (u : State) : State := placePriority (.command k p.frontendAddr .openCmd) u
    let reply (u : State) : State := u.withReply 0x52 r .ok 0 .empty
    match (s.sec k).seq.state with
    | .off | .draining => exec (.deenergize r) s = .next (reply t)
    | .maint => exec (.deenergize r) s = .next (t.withReply 0x52 r .badState 0 .empty)
    | .testing => exec (.deenergize r) s = .next (reply (opened (off id fun q => { q with
        testTimer := none, expectation := .opened, breakerTimer := some p.breakerMs })))
    | .closing => exec (.deenergize r) s = .next (reply (opened (off id fun q => { q with
        expectation := .opened, breakerTimer := some p.breakerMs })))
    | .tripped => exec (.deenergize r) s = .next (reply ((off id fun q => { q with
        recloseTimer := none, reclosePending := false, heatRequired := false, attempts := 0 }).modSec k fun x =>
        { x with acc := { x.acc with heatWatch := false } }))
    | .lockout => exec (.deenergize r) s = .next (reply (off id fun q => { q with attempts := 0 }))
    | .live =>
      ((s.sec k).adm.holders = [] → exec (.deenergize r) s = .next (reply (opened (off
        (fun q => { q with undervolt := false })
        fun q => { q with stableTimer := none, expectation := .opened, breakerTimer := some p.breakerMs })))) ∧
      ((s.sec k).adm.holders ≠ [] → (∀ u, s.pantoOf u ≠ some .handover) →
        ∃ u, exec (.deenergize r) s = .next (reply (u.denied k p .sectionOff places)) ∧
          u = { t with sections := u.sections, table := { s.table with trucks := u.table.trucks }
                       ring := { s.ring with priority := u.ring.priority } } ∧
          LowersSent (s.sec k).adm.holders .drain s u ∧
          (∀ j, u.sec j = if j = k then { s.sec k with
            seq := { (s.sec k).seq with state := .draining, stableTimer := none }
            prot := { (s.sec k).prot with view := .draining, undervolt := false }
            adm := { (s.sec k).adm with view := .draining, bEff := 0 } } else s.sec j) ∧
          Lowered (s.sec k).adm.holders .drain s u)

/-- RESET_LOCKOUT takes a section in LOCKOUT to OFF with attempts 0, and every truck of its queue is dequeued, IDLE and sent
DENY SECTION_OFF, in queue order, as long as the lane has a place; in any other state it is refused. Timers, expectation,
feedback and last_off_reason stand (R101, R131, R148). -/
def Obligations.LockoutReset : Prop :=
  ∀ (s : State) (r : Req) (k : Sec), s.noRestart → r.broadcast = false → s.roomFor 1 → r.payload = [BitVec.ofNat 8 k.val] →
    let t := take (.resetLockout r) s
    ((s.sec k).seq.state ≠ .lockout → exec (.resetLockout r) s = .next (t.withReply 0x53 r .badState 0 .empty)) ∧
    ((s.sec k).seq.state = .lockout → s.told k →
      (∀ e ∈ (s.sec k).adm.queue, ∃ x, s.truck e.truck = some x ∧ x.panto = .queued ∧ x.mark = .none) →
      ((s.sec k).adm.queue.map (·.truck)).Nodup →
      ∃ u, exec (.resetLockout r) s = .next u ∧
        u = { t with sections := u.sections, table := { s.table with trucks := u.table.trucks }
                     ring := { s.ring with ordinary := u.ring.ordinary } } ∧
        (∀ j, u.sec j = if j = k then { s.sec k with
          seq := { (s.sec k).seq with state := .off, attempts := 0 }
          prot := { (s.sec k).prot with view := .off }
          adm := { (s.sec k).adm with view := .off, bEff := 0, queue := [], stall := false } } else s.sec j) ∧
        (∀ i, u.truck i = (s.truck i).map fun x =>
          if i ∈ (s.sec k).adm.queue.map (·.truck) then { x with
            panto := .idle, hold := none, reserved := 0, demand := none, window := none, overCount := 0
            lowerReason := none } else x) ∧
        ∃ denies, u.ring.ordinary = s.ring.ordinary ++ denies ++ [.reply { tag := r.tag, kind := 0x53, answer := {
            status := .ok, field := 0, data := .empty } }] ∧
          (∀ f ∈ denies, ∃ i dest, f = .deny i dest .sectionOff ∧ i ∈ (s.sec k).adm.queue.map (·.truck)) ∧
          ∀ p, s.active k = some p → (∀ e ∈ (s.sec k).adm.queue, ∀ x, s.truck e.truck = some x → x.sec = k) →
            denies = ((s.sec k).adm.queue.map fun e => OrdinaryFrame.deny e.truck p.readerAddr .sectionOff).take
              (15 - (s.ring.ordinary.length + s.ring.claimed)))

/-- MAINT_ENTER, judged in the order of its table, takes an OFF section to MAINT and restarts its watchdog; no command is
placed. In MAINT, MAINT_BREAKER places CLOSE or OPEN and starts the breaker timer against the new expectation, MAINT_TEST
places TEST against the expectation OPEN, and MAINT_EXIT opens the breaker and goes to OFF; an open E-stop loop refuses
CLOSE and TEST; in any other state each is refused (R29, R84, R104 to R106). -/
def Obligations.MaintenanceServed : Prop :=
  ∀ (s : State) (r : Req) (k : Sec), s.noRestart → r.broadcast = false → s.roomFor 1 →
    let b := BitVec.ofNat 8 k.val
    let enter := take (.maintEnter r) s
    (r.payload = [b] → s.active k = none → exec (.maintEnter r) s = .next (enter.withReply 0x55 r .noParams 0 .empty)) ∧
    (∀ p, r.payload = [b] → s.active k = some p → s.told k → exec (.maintEnter r) s = .next (
      if p.enabled = false ∨ (s.sec k).seq.state ≠ .off ∨ (s.sec k).meas.cal ≠ none ∨
          (s.sec k).seq.lastFeedback = .closed then
        enter.withReply 0x55 r .badState 0 .empty
      else (enter.modSec k fun x => { x with
        seq := { x.seq with state := .maint }
        meas := { x.meas with watchdog := some p.measMs }
        prot := { x.prot with view := .maint }
        adm := { x.adm with view := .maint, bEff := 0 } }).withReply 0x55 r .ok 0 .empty)) ∧
    ((s.sec k).seq.state ≠ .maint →
      (r.payload = [b, 1] → exec (.maintBreakerClose r) s =
        .next ((take (.maintBreakerClose r) s).withReply 0x56 r .badState 0 .empty)) ∧
      (r.payload = [b, 0] → exec (.maintBreakerOpen r) s =
        .next ((take (.maintBreakerOpen r) s).withReply 0x56 r .badState 0 .empty)) ∧
      (r.payload = [b] → exec (.maintTest r) s = .next ((take (.maintTest r) s).withReply 0x57 r .badState 0 .empty)) ∧
      (r.payload = [b] → exec (.maintExit r) s = .next ((take (.maintExit r) s).withReply 0x58 r .badState 0 .empty))) ∧
    (∀ p, (s.sec k).seq.state = .maint → s.active k = some p →
      (r.payload = [b, 1] → exec (.maintBreakerClose r) s = .next (
        let t := take (.maintBreakerClose r) s
        if s.chip.estopClosed = false then t.withReply 0x56 r .estopOpen 0 .empty
        else (placePriority (.command k p.frontendAddr .closeCmd) (t.modSec k fun x => { x with seq := { x.seq with
          expectation := .closed, breakerTimer := some p.breakerMs } })).withReply 0x56 r .ok 0 .empty)) ∧
      (r.payload = [b, 0] → exec (.maintBreakerOpen r) s = .next (
        (placePriority (.command k p.frontendAddr .openCmd) ((take (.maintBreakerOpen r) s).modSec k fun x =>
          { x with seq := { x.seq with expectation := .opened, breakerTimer := some p.breakerMs } })).withReply
          0x56 r .ok 0 .empty)) ∧
      (r.payload = [b] → exec (.maintTest r) s = .next (
        let t := take (.maintTest r) s
        if s.chip.estopClosed = false then t.withReply 0x57 r .estopOpen 0 .empty
        else if (s.sec k).seq.expectation = .closed then t.withReply 0x57 r .badState 0 .empty
        else (placePriority (.command k p.frontendAddr .testCmd) t).withReply 0x57 r .ok 0 .empty)) ∧
      (r.payload = [b] → s.told k → (s.sec k).adm.queue = [] → exec (.maintExit r) s = .next (
        (placePriority (.command k p.frontendAddr .openCmd) ((take (.maintExit r) s).modSec k fun x => { x with
          seq := { x.seq with state := .off, lastOff := some .maintExit, expectation := .opened
                              breakerTimer := some p.breakerMs }
          prot := { x.prot with view := .off }
          adm := { x.adm with view := .off, bEff := 0, stall := false } })).withReply 0x58 r .ok 0 .empty)))

/-! ## Captures and activation -/

/-- A capture writes every section's result record, and clears the live accumulators and the ring error counter when it is
a CAPTURE_CLEAR; its reply gives the error count read and the sections held, those whose pending copy changes a
structural field while they are neither in OFF nor in LOCKOUT. A broadcast one does the same without a reply if
broadcast_capture is yes, and is ignored if not (R8, R47 to R50, R171). That its stages are one event is the model's
choice (log 36). -/
def Obligations.CaptureWritesRecords : Prop :=
  ∀ (s : State) (r : Req) (clear : Bool) (held : List Sec), s.noRestart → r.payload = [] → held.Pairwise (· < ·) →
    (∀ k ∈ held, (s.sec k).copies.structural ∧ serving (s.sec k).seq.state) →
    (∀ k, k ∉ held → (s.sec k).copies.settled) →
    let c := captureOf clear r
    (r.broadcast = false → s.roomFor 1 → exec c s = .next (((take c s).afterCapture clear).withReply
      (if clear then 0x4E else 0x4F) r .ok 0 (.capture (if clear then .clear else .keep) s.ring.errors held))) ∧
    (r.broadcast = true → exec c s = .next (
      if s.ramp.broadcastCapture then (take c s).afterCapture clear else take c s))

/-- Activation at a capture, of any number of pending copies. The sections are taken in ascending order, each on what the
ones before it left: one whose pending copy waits and is not held has its copies moved, its watchdog, calibration run,
offset, last_seq and sustained counter set as its changed fields ask, and its budget computed anew where limit_amps or
derate_share changed; a limit that no longer covers the holders lowers the newest, and a budget that rises starts a pass. An
addressed capture does this with its reply's place claimed, and its reply lists the sections held; a broadcast one with
broadcast_capture yes does it without a reply (R8 to R12, R50, R79, R132, R152, R171, R172). That the capture's stages are
one event is the model's choice (log 36). -/
def Obligations.PendingActivated : Prop :=
  ∀ (s : State) (r : Req) (clear : Bool), s.noRestart → r.payload = [] →
    let c := captureOf clear r
    let captured : State := (take c s).afterCapture clear
    let claimed : State := { captured with ring := { captured.ring with claimed := captured.ring.claimed + 1 } }
    (r.broadcast = false → s.roomFor 1 →
      let u := claimed.activatedTo 8
      exec c s = .next ({ u with ring := { u.ring with claimed := u.ring.claimed - 1 } }.withReply
        (if clear then 0x4E else 0x4F) r .ok 0 (.capture (if clear then .clear else .keep) s.ring.errors
          (([0, 1, 2, 3, 4, 5, 6, 7] : List Sec).filter fun k => (claimed.activatedTo k.val).holdsBack k)))) ∧
    (r.broadcast = true → s.ramp.broadcastCapture = true → exec c s = .next (captured.activatedTo 8))

/-- A lowered limit activated on a LIVE section lowers its newest holders, one after another, until the reservations of
those that stay come to at most the new limit: each is sent LOWER LIMIT, the oldest keep theirs, those already in LOWERING
are passed over and not counted, and the budget follows the new limit. It does so at a CAPTURE_CLEAR and a CAPTURE_KEEP,
addressed or broadcast (R8, R9, R11, R47 to R50, R132, R144, R152). That the capture's stages are one event is the model's
choice (log 36). -/
def Obligations.LimitRevokesNewest : Prop :=
  ∀ (s : State) (r : Req) (clear : Bool) (k : Sec) (old : SectionParams) (limit : Nat), s.noRestart → r.payload = [] →
    (r.broadcast = false → s.roomFor 1) → (r.broadcast = true → s.ramp.broadcastCapture = true) →
    (∀ j, j ≠ k → (s.sec j).copies.settled) → s.active k = some old → limit < old.limitAmps →
    (s.sec k).copies.pending = some { old with limitAmps := limit } → (s.sec k).adm.view = .live →
    (s.sec k).prot.undervolt = false → (s.sec k).adm.bEff = s.budgetOf k →
    (∀ i ∈ (s.sec k).adm.holders,
      s.pantoOf i = some .granted ∨ s.pantoOf i = some .raised ∨ s.pantoOf i = some .lowering) →
    (∀ i, s.pantoOf i ≠ some .handover) →
    let amps (l : List Nat) : Nat := (l.map s.reservedOf).sum
    let new : SectionParams := { old with limitAmps := limit }
    ∃ (u : State) (kept lowered : List Nat),
      exec (captureOf clear r) s = .next (if r.broadcast then u else u.withReply (if clear then 0x4E else 0x4F) r .ok 0
        (.capture (if clear then .clear else .keep) s.ring.errors [])) ∧
      ((s.sec k).adm.holders.filter fun i => s.pantoOf i != some .lowering) = kept ++ lowered ∧ amps kept ≤ limit ∧
      (∀ i rest, lowered = i :: rest → limit < amps (kept ++ [i])) ∧
      (∀ i, u.truck i = (s.truck i).map fun x => if i ∈ lowered then { x with
        panto := .lowering, window := some { kind := .lower, left := (s.classOf x).lowerMs }
        lowerReason := some .limit } else x) ∧
      LowersSent lowered .limit s u ∧
      (u.sec k).adm = { (s.sec k).adm with
        bEff := if (s.sec k).acc.derate then limit * old.derateShare / 8 else limit } ∧
      (u.sec k).copies = { pending := some new, active := some new, prior := some old } ∧
      (∀ j, (u.sec j).seq = (s.sec j).seq ∧ (u.sec j).meas = (s.sec j).meas ∧ (u.sec j).prot = (s.sec j).prot ∧
        (u.sec j).acc = (s.sec j).acc.captured clear s.chip.fellSeen s.chip.roseSeen ∧
        (j ≠ k → (u.sec j).adm = (s.sec j).adm ∧ (u.sec j).copies = (s.sec j).copies)) ∧
      u.ring = { s.ring with priority := u.ring.priority, errors := if clear then 0 else s.ring.errors } ∧
      u.mgmt = s.mgmt ∧ u.ramp = s.ramp

/-- What ends a crossing. A truck in HANDOVER loses its entry in the next section's queue, is lowered and still holds its
reservation, with reason TRIP or DRAIN where the section it holds trips, fails or is drained, ESTOP at a falling edge, and
LIMIT where a lowered limit no longer covers it; where the next section leaves LIVE the reason is MOVED. The entry's removal
starts a pass on that queue: the ordinary head behind it is granted where it has budget and a place (R133, R144, R147 to
R152; the passes run once all trucks of one event are lowered, log 13; an expiry acts whatever time remains, log 2). -/
def Obligations.HandoversLowered : Prop :=
  ∀ (s : State) (i : Nat) (x : Truck) (k j : Sec) (q : SectionParams) (req : Req) (tr : TripRequest),
    s.table.Ok → AdmissionOk s → s.truck i = some x → x.panto = .handover → x.hold = some k → x.sec = j →
    s.active j = some q →
    let lowered (reason : LowerReason) (t : State) : Prop := CrossingLowered s i x k q reason t
    let next (t : State) : Prop := ∀ e rest,
      (s.sec j).adm.queue = { truck := i, kind := .handover, amount := x.reserved } :: e :: rest → e.kind = .ordinary →
      s.reserved j + e.amount ≤ (s.sec j).adm.bEff → s.roomFor 3 → (∀ n, n ≠ i → s.pantoOf n ≠ some .handover) →
      t.pantoOf e.truck = some .granted ∧ e.truck ∈ (t.sec j).adm.holders
    (∀ ev ∈ sectionEnds s k req tr, ev.due → ∃ t, exec ev.command s = .next t ∧ lowered ev.reason t ∧ next t) ∧
    ((s.sec j).seq.state = .live →
      ∀ ev ∈ sectionEnds s j req tr, ev.due → ∃ t, exec ev.command s = .next t ∧ lowered .moved t) ∧
    (∀ pos, (s.sec k).seq.expectation ≠ pos → (s.sec k).seq.breakerTimer = none → (s.sec k).seq.lastFeedback ≠ pos →
      lowered .trip (feedback k pos s) ∧ next (feedback k pos s)) ∧
    (∀ pos, (s.sec j).seq.state = .live → (s.sec j).seq.expectation ≠ pos → (s.sec j).seq.breakerTimer = none →
      (s.sec j).seq.lastFeedback ≠ pos → lowered .moved (feedback j pos s)) ∧
    (∀ f, s.chip.filter = some f → f.candidate = false → s.chip.estopClosed = true →
      ∃ t, exec .estopFilterExpiry s = .next t ∧ lowered .estop t) ∧
    ∀ (old : SectionParams) (limit : Nat) (before after : List Nat), s.noRestart → req.payload = [] →
      req.broadcast = false → s.roomFor 1 → (∀ m, m ≠ k → (s.sec m).copies.settled) → s.active k = some old →
      limit ≠ old.limitAmps → (s.sec k).copies.pending = some { old with limitAmps := limit } →
      (s.sec k).adm.holders = before ++ i :: after → limit < s.counted (before ++ [i]) →
      ∃ t, exec (.captureKeep req) s = .next t ∧ lowered .limit t ∧ next t

/-! ## RESTART -/

/-- RESTART is accepted with its reply's place claimed, and its stages follow. Taken one after another, with nothing sent
between them, they take every section that is neither in OFF nor in LOCKOUT to OFF with an OPEN, send LOWER RESTART to every
truck that holds a reservation, forget every truck, empty queues, holder lists, the ordinary lane and the notice list, and
begin the books again; parameters, fleet, classes, offsets, heat, trip and result records, the ring error counter, the edge
flags and the backup trip are kept (R33, R56, R81, R110, R128, R154, R169, R172, R178, R179; that a stage is a step of the
model is log 35). -/
def Obligations.Restarted : Prop :=
  ∀ (s : State) (r : Req), s.noRestart → r.broadcast = false → r.payload = [] → s.roomFor 1 →
    let t := take (.restart r) s
    let accepted : State := { t with
      ring := { s.ring with claimed := s.ring.claimed + 1 }
      mgmt := { s.mgmt with restart := some { tag := r.tag, next := .sequencer, takenOff := [], removed := 0 } } }
    exec (.restart r) s = .next accepted ∧
    (s.pending = [] → (∀ k, s.told k) → ∃ u : State, accepted.steps 8 = .next (u.withReply 0x42 r .ok 0 (.restart
        (([0, 1, 2, 3, 4, 5, 6, 7] : List Sec).filter fun k =>
          (s.sec k).seq.state != .off && (s.sec k).seq.state != .lockout) s.table.trucks.length)) ∧
      u = { t with
        sections := u.sections
        ring := { s.ring with priority := u.ring.priority, ordinary := [], runCount := 0 }
        table := { s.table with
          trucks := []
          generation := if s.table.trucks = [] then s.table.generation else (s.table.generation + 1) % 256 }
        mgmt := { s.mgmt with notices := [] } } ∧
      (s.table.Ok → ∀ i x p, s.truck i = some x → x.panto ≠ .idle → x.panto ≠ .queued → s.active x.sec = some p →
        PriorityFrame.lower i p.readerAddr .restart ∈ u.ring.priority) ∧
      (∀ k p, serving (s.sec k).seq.state → s.active k = some p →
        PriorityFrame.command k p.frontendAddr .openCmd ∈ u.ring.priority) ∧
      ∀ k, let x := s.sec k
        let out : Bool := x.seq.state != .off && x.seq.state != .lockout
        (u.sec k).copies = x.copies ∧
        (u.sec k).seq = (if out then { x.seq with
          state := .off, expectation := .opened, attempts := 0, testTimer := none
          breakerTimer := (s.active k).map SectionParams.breakerMs, recloseTimer := none, stableTimer := none
          reclosePending := false, heatRequired := false, lastOff := some .restart } else x.seq) ∧
        (u.sec k).meas = { x.meas with
          lastSeq := none, currents := [0, 0, 0, 0, 0, 0, 0, 0], voltages := [0, 0, 0, 0, 0, 0, 0, 0], iPrev := none
          badRun := 0, lossReported := false, cal := none
          watchdog := if s.isEnabled k then (s.active k).map SectionParams.measMs else none } ∧
        (u.sec k).prot = { x.prot with
          view := if out then .off else x.prot.view, history := [], sustained := 0, undervolt := false, last := none } ∧
        (u.sec k).acc = { x.acc with
          heatWatch := if out then false else x.acc.heatWatch
          books := if x.acc.books.overflow then { Books.begun x.acc.heat with
            energy := x.acc.books.energy, count := x.acc.books.count, overflow := true } else Books.begun x.acc.heat } ∧
        (u.sec k).adm = { queue := [], holders := [], bEff := 0, stall := false
                          view := if out then .off else x.adm.view })

/-- Each stage of a RESTART, taken by itself on whatever part it finds, so that an event between two stages finds the
earlier blocks restarted and the later ones not: sequencers, measurement, protection, accounting, truck table with
admission, ring, notice list, reply. LOWER RESTART is placed for every truck that then holds a reservation, in the place of
an unsent LOWER for that truck, and the rest of the priority lane stays (R33, R56, R81, R110, R128, R154, R164, R169, R178,
R179; that a stage is a step taken before the part's other own work is log 35, and the order of OPENs within the first is
log 33). -/
def Obligations.RestartStages : Prop :=
  ∀ (s : State) (r : Restarting), s.pending = [] → s.mgmt.restart = some r →
    let becomes (q : Restarting) : Mgmt := { s.mgmt with restart := some q }
    (r.next = .sequencer → (∀ k, s.told k) → ∃ u, step s = .next u ∧
      u = { s with
        sections := u.sections, ring := { s.ring with priority := u.ring.priority }
        mgmt := becomes { r with next := .measurement, takenOff := ([0, 1, 2, 3, 4, 5, 6, 7] : List Sec).filter fun k =>
          (s.sec k).seq.state != .off && (s.sec k).seq.state != .lockout } } ∧
      (∀ k p, serving (s.sec k).seq.state → s.active k = some p →
        PriorityFrame.command k p.frontendAddr .openCmd ∈ u.ring.priority) ∧
      (∀ f ∈ s.ring.priority, (∀ k d c, f = .command k d c → ¬ serving (s.sec k).seq.state) → f ∈ u.ring.priority) ∧
      ∀ k, let x := s.sec k
        u.sec k = if serving x.seq.state then { x with
          seq := { x.seq with
            state := .off, expectation := .opened, attempts := 0, testTimer := none
            breakerTimer := (s.active k).map SectionParams.breakerMs, recloseTimer := none, stableTimer := none
            reclosePending := false, heatRequired := false, lastOff := some .restart }
          acc := { x.acc with heatWatch := false }
          prot := { x.prot with view := .off, undervolt := x.prot.undervolt && x.seq.state != .live }
          adm := { x.adm with view := .off, bEff := 0 } } else x) ∧
    (r.next = .measurement → step s = .next { s with
      mgmt := becomes { r with next := .protection }
      sections := s.sections.map fun x => { x with meas := { x.meas with
        lastSeq := none, currents := [0, 0, 0, 0, 0, 0, 0, 0], voltages := [0, 0, 0, 0, 0, 0, 0, 0], iPrev := none
        badRun := 0, lossReported := false, cal := none
        watchdog := (x.copies.active.filter (·.enabled)).map SectionParams.measMs } } }) ∧
    (r.next = .protection → step s = .next { s with
      mgmt := becomes { r with next := .accounting }
      sections := s.sections.map fun x => { x with prot := { x.prot with
        history := [], sustained := 0, undervolt := false, last := none } } }) ∧
    (r.next = .accounting → step s = .next { s with
      mgmt := becomes { r with next := .table }
      sections := s.sections.map fun x => { x with acc := { x.acc with
        books := if x.acc.books.overflow then { Books.begun x.acc.heat with
          energy := x.acc.books.energy, count := x.acc.books.count, overflow := true } else Books.begun x.acc.heat } } }) ∧
    (r.next = .table → ∃ u, step s = .next u ∧
      u = { s with
        sections := s.sections.map fun x => { x with adm := { x.adm with
          queue := [], holders := [], stall := false
          bEff := if x.adm.view ≠ .live ∨ x.prot.undervolt = true then 0
            else x.copies.active.elim 0 fun p => if x.acc.derate then p.limitAmps * p.derateShare / 8 else p.limitAmps } }
        ring := { s.ring with priority := u.ring.priority }
        table := { s.table with
          trucks := []
          generation := if s.table.trucks = [] then s.table.generation else (s.table.generation + 1) % 256 }
        mgmt := becomes { r with next := .ring, removed := s.table.trucks.length } } ∧
      (∀ f ∈ s.ring.priority, f.isLower = false → f ∈ u.ring.priority) ∧
      (s.table.Ok → ∀ i x p, s.truck i = some x → x.panto ≠ .idle → x.panto ≠ .queued → s.active x.sec = some p →
        PriorityFrame.lower i p.readerAddr .restart ∈ u.ring.priority ∧
        ∀ before dest reason after, s.ring.priority = before ++ .lower i dest reason :: after →
          (∀ t d c, .lower t d c ∈ s.ring.priority → s.truck t ≠ none) →
          u.ring.priority[before.length]? = some (.lower i p.readerAddr .restart))) ∧
    (r.next = .ring → step s = .next { s with
      ring := { s.ring with ordinary := [], runCount := 0 }, mgmt := becomes { r with next := .management } }) ∧
    (r.next = .management → step s = .next { s with
      mgmt := { s.mgmt with notices := [], restart := some { r with next := .reply } } }) ∧
    (r.next = .reply → 1 ≤ s.ring.claimed → step s = .next ({ s with
      ring := { s.ring with claimed := s.ring.claimed - 1 }, mgmt := { s.mgmt with restart := none } }.withFrame
      (.reply { tag := r.tag, kind := 0x42, answer := {
        status := .ok, field := 0, data := .restart r.takenOff r.removed } })))

/-! ## Offered frames and event notices -/

/-- A frame offered to the priority lane takes the place of an unsent one for the same section or truck; a LOWER that
finds 24 LOWERs displaces the oldest for a truck without a record; every other frame joins at the tail (R164). -/
def Obligations.LanePlacement : Prop :=
  ∀ (s : State) (f : PriorityFrame), LaneBounded s.ring.priority →
    let placed (lane : List PriorityFrame) : State := { s with ring := { s.ring with priority := lane } }
    (∀ before g after, s.ring.priority = before ++ g :: after → f.sameKey g = true →
      placePriority f s = placed (before ++ f :: after)) ∧
    ((∀ g ∈ s.ring.priority, f.sameKey g = false) →
      (f.isLower = false ∨ (s.ring.priority.filter (·.isLower)).length < 24 →
        placePriority f s = placed (s.ring.priority ++ [f])) ∧
      (∀ before t dest reason after, f.isLower = true → (s.ring.priority.filter (·.isLower)).length = 24 →
        s.ring.priority = before ++ .lower t dest reason :: after → s.truck t = none →
        (∀ t' d r, .lower t' d r ∈ before → s.truck t' ≠ none) →
        placePriority f s = placed (before ++ after ++ [f])))

/-- A raise adds an occurrence to the notice of its kind and key and leaves the data; otherwise a notice with occurrences
1 takes its place by priority and section, and one that makes the empty list hold a notice offers ATTENTION, where the
supervisor address is a node's and a place is free (R181, R183). -/
def Obligations.NoticeRaised : Prop :=
  ∀ (s : State) (key : Option Sec) (d : NoticeData), NoticesOk s.mgmt.notices → (key = none ↔ d.priority ≤ 2) →
    let listed (l : List Notice) : State := { s with mgmt := { s.mgmt with notices := l } }
    let made : Notice := { key := key, occurrences := 1, data := d }
    (∀ before n after, s.mgmt.notices = before ++ n :: after → n.key = key → n.data.priority = d.priority →
      raise key d s = listed (before ++ { n with
        occurrences := if n.occurrences = 255 then 255 else n.occurrences + 1 } :: after)) ∧
    (∀ before after, s.mgmt.notices = before ++ after →
      (∀ n ∈ before, n.data.priority < d.priority ∨ (n.data.priority = d.priority ∧ keyIndex n.key < keyIndex key)) →
      (∀ n ∈ after, d.priority < n.data.priority ∨ (n.data.priority = d.priority ∧ keyIndex key < keyIndex n.key)) →
      raise key d s =
        if before ++ after = [] ∧ 1 ≤ s.straps.supaddr.toNat ∧ s.straps.supaddr.toNat ≤ 254 then
          (listed [made]).offered .attention
        else listed (before ++ made :: after))

/-! ## Measurement frames -/

/-- A measurement frame with an unusable payload, or one that repeats last_seq, changes nothing. One of bad quality
restarts the watchdog, counts toward bad_run and makes i_prev absent; at bad_run it signals sensor loss once: a trip
request in an energised state, else a SENSOR_FAULT notice (R17 to R20, R23, R24, R72; a section disabled since the frame was
handed over leaves its watchdog as it stood, log 27). -/
def Obligations.FrameWithoutSample : Prop :=
  ∀ (s : State) (k : Sec),
    (∀ payload : List Byte, payload.length ≠ 7 →
      exec (.measurementFrame k payload) s = .next (take (.measurementFrame k payload) s)) ∧
    ∀ seq i1 i0 v1 v0 b q : Byte,
      let c := Instr.measurementFrame k [seq, i1, i0, v1, v0, b, q]
      (2 ≤ b.toNat ∨ 2 ≤ q.toNat ∨ (s.sec k).meas.lastSeq = some seq.toNat → exec c s = .next (take c s)) ∧
      (∀ (p : SectionParams) (pos : Position), s.active k = some p → (s.sec k).AtRest pos → (s.sec k).fresh seq →
        (b = 0 ∧ pos = .opened ∨ b = 1 ∧ pos = .closed) → q = 1 →
        let x := (s.sec k).heard p seq pos
        let n := min 16 (x.meas.badRun + 1)
        let lost : Bool := p.badRun ≤ n && !x.meas.lossReported
        let u := (take c s).modSec k fun _ => { x with meas := { x.meas with
          badRun := n, iPrev := none, lossReported := x.meas.lossReported || lost
          cal := if lost then none else x.meas.cal } }
        (lost = false → exec c s = .next u) ∧
        (lost = true → energisedState x.seq.state → exec c s = .next (
          if x.prot.outstanding then u
          else { (u.modSec k fun y => { y with prot := { y.prot with outstanding := true } }) with
            handed := u.handed ++ [.tripRequest k {
              reason := .sensorLost, cause := some .badRun, seq := some seq.toNat
              iCorr := x.prot.last.map LastSample.iCorr, vAvg := x.prot.last.map LastSample.vAvg
              heat := x.acc.heat }] })) ∧
        (lost = true → ¬ energisedState x.seq.state →
          exec c s = .next (raise (some k) (.sensorFault (.badRun (some seq.toNat))) u)))

/-- A good sample at a section in OFF, LOCKOUT or TRIPPED that ends no reclose wait: the corrected current and the voltage
enter the windows, a calibration run collects the raw current and its sixteenth sample completes it, and energy, count,
peak, heat, derate flag, heat watch and max_h follow; the notices of a failed run, a first saturation and a derate are
raised (R25 to R28, R31, R37 to R46, R60, R99; a section disabled since the frame was handed over leaves its watchdog as it
stood, log 27). -/
def Obligations.GoodSampleMeasured : Prop :=
  ∀ (s : State) (k : Sec) (p : SectionParams) (seq i1 i0 v1 v0 b : Byte) (pos : Position), s.active k = some p →
    s.told k → (s.sec k).seq.state = .off ∨ (s.sec k).seq.state = .lockout ∨ (s.sec k).seq.state = .tripped →
    (s.sec k).adm.bEff = 0 → (s.sec k).AtRest pos → (s.sec k).fresh seq →
    (b = 0 ∧ pos = .opened ∨ b = 1 ∧ pos = .closed) →
    let c := Instr.measurementFrame k [seq, i1, i0, v1, v0, b, 0]
    let x := (s.sec k).heard p seq pos
    let raw : Int := (i1 ++ i0).toInt
    let voltage : Nat := (v1 ++ v0).toNat
    let i := x.corrected p raw
    let currents := x.meas.currents.drop 1 ++ [i]
    let voltages := x.meas.voltages.drop 1 ++ [voltage]
    let run := x.meas.cal.map fun r => ({ sum := r.sum + max (-32767) raw, count := r.count + 1 } : CalRun)
    let found := (run.filter fun r => 16 ≤ r.count).map fun r => r.sum.tdiv 16
    let offset := found.filter fun o => o.natAbs ≤ p.offsetLimit
    let books := x.acc.books.sampled seq.toNat i voltage
    let heat := x.heated p (average currents)
    let derate := x.derated p heat
    let notices : List NoticeData :=
      (if offset.isNone then found.toList.map fun o => .sensorFault (.calLimit o) else []) ++
      overflowNotices x.acc.books books seq.toNat ++
      (if derate && !x.acc.derate then [.derate heat seq.toNat] else [])
    ¬ x.waitEnds p heat →
    exec c s = .next (notices.foldl (fun u d => raise (some k) d u) ((take c s).modSec k fun _ => { x with
      meas := { x.meas with
        badRun := 0, lossReported := false, currents := currents, voltages := voltages, iPrev := some i
        cal := if found.isSome then none else run, offset := offset.getD x.meas.offset
        offsetValid := x.meas.offsetValid || offset.isSome }
      acc := { x.acc with
        heat := heat, derate := derate
        heatWatch := x.acc.heatWatch && decide ((p.derateLevel - 1) * 2 ^ (p.tauShift + 3) ≤ heat)
        books := { books with maxH := max x.acc.books.maxH heat } }
      prot := { x.prot with last := some { seq := seq.toNat, iCorr := i, vAvg := voltages.sum / 8 } } }))

/-- A good sample whose heat ends a reclose wait, by the derate-clear notice or as the answer to a heat watch, once the
holder list is empty: the section leaves TRIPPED for a new line test, and the sample is judged in TESTING as its first: it
is broken, its condition opens the history, only the instantaneous and the test-overcurrent check may fire, and its end sets
i_prev (R28, R45, R59 to R63, R67, R99, R100; that this sample counts as the first in TESTING is log 17, and a section
disabled since the frame was handed over leaves its watchdog as it stood, log 27). -/
def Obligations.SampleEndsWait : Prop :=
  ∀ (s : State) (k : Sec) (p : SectionParams) (seq i1 i0 v1 v0 b : Byte) (pos : Position), s.active k = some p →
    s.told k → (s.sec k).adm.bEff = 0 → (s.sec k).AtRest pos → (s.sec k).fresh seq → (s.sec k).meas.cal = none →
    (b = 0 ∧ pos = .opened ∨ b = 1 ∧ pos = .closed) →
    let c := Instr.measurementFrame k [seq, i1, i0, v1, v0, b, 0]
    let x := (s.sec k).heard p seq pos
    let voltage : Nat := (v1 ++ v0).toNat
    let i := x.corrected p (i1 ++ i0).toInt
    let iAvg := average (x.meas.currents.drop 1 ++ [i])
    let vAvg := (x.meas.voltages.drop 1 ++ [voltage]).sum / 8
    let books := x.acc.books.sampled seq.toNat i voltage
    let heat := x.heated p iAvg
    let sustained := if (p.sustainAmps : Int) ≤ iAvg then min p.sustainSamples 1 else 0
    let reason : Option TripReason :=
      if p.instAmps ≤ i.natAbs then some .instantaneous
      else if p.testMaxAmps ≤ i.natAbs then some .testOvercurrent
      else none
    x.waitEnds p heat →
    let tested := ((take c s).modSec k fun _ => { x with
      meas := { x.meas with badRun := 0, lossReported := false }
      acc := { x.acc with heat := heat, derate := x.derated p heat
                          books := { books with maxH := max x.acc.books.maxH heat
                                                longestRun := max x.acc.books.longestRun sustained } } }).retested k p
    exec c s = .next ((overflowNotices x.acc.books books seq.toNat).foldl (fun u d => raise (some k) d u)
      { (tested.modSec k fun y => { y with
          meas := { y.meas with iPrev := some i }
          prot := { y.prot with
            history := [false], sustained := sustained, outstanding := x.prot.outstanding || reason.isSome
            last := some { seq := seq.toNat, iCorr := i, vAvg := vAvg } } }) with
        handed := (take c s).handed ++ (if x.prot.outstanding then [] else reason.toList.map fun r => .tripRequest k {
          reason := r, cause := none, seq := some seq.toNat, iCorr := some i, vAvg := some vAvg, heat := heat }) })

/-- A good sample at an energised section: energy, count, peak, heat, derate flag and max_h follow as in any state, and
min_v in LIVE; the rise condition and the sustained counter are kept; the first check that its state allows and that fires
hands the sequencer one trip request, unless one is outstanding; in LIVE the undervolt flag is judged, and the effective
budget follows the two flags. Where it rises a pass runs on the queue: at a derate that clears before protection reads the
allowance, at an undervoltage that clears after its checks. The notices of a first saturation, a derate and an undervoltage
are raised. Nothing else changes (R28, R36 to R46, R59 to R71, R73, R132, R135; a section disabled since the frame was
handed over leaves its watchdog as it stood, log 27; that a set undervolt flag clears at vmin with vhyst 0, where R70 and R71
differ, is log 37). -/
def Obligations.SampleJudged : Prop :=
  ∀ (s : State) (k : Sec) (p : SectionParams) (seq i1 i0 v1 v0 b : Byte) (pos : Position), s.active k = some p →
    s.told k → energisedState (s.sec k).seq.state → (s.sec k).AtRest pos → (s.sec k).fresh seq →
    (b = 0 ∧ pos = .opened ∨ b = 1 ∧ pos = .closed) → (s.sec k).meas.cal = none →
    (s.sec k).adm.bEff = s.budgetOf k →
    let c := Instr.measurementFrame k [seq, i1, i0, v1, v0, b, 0]
    let x := (s.sec k).heard p seq pos
    let st := x.seq.state
    let voltage : Nat := (v1 ++ v0).toNat
    let i := x.corrected p (i1 ++ i0).toInt
    let currents := x.meas.currents.drop 1 ++ [i]
    let voltages := x.meas.voltages.drop 1 ++ [voltage]
    let iAvg := average currents
    let vAvg := voltages.sum / 8
    let books := x.acc.books.sampled seq.toNat i voltage
    let heat := x.heated p iAvg
    let derate := x.derated p heat
    let undervolt : Bool := if st ≠ .live then x.prot.undervolt
      else if x.prot.undervolt then decide (vAvg < p.vmin + p.vhyst) else decide (vAvg ≤ p.vmin)
    let sustained := if (p.sustainAmps : Int) ≤ iAvg then min p.sustainSamples (x.prot.sustained + 1) else 0
    let budget (low : Bool) : Nat := if st ≠ .live ∨ low = true then 0
      else if derate then p.limitAmps * p.derateShare / 8 else p.limitAmps
    let passed (before after : Nat) (u : State) : State := if before < after then runPass k u else u
    let noted (ds : List NoticeData) (u : State) : State := ds.foldl (fun u d => raise (some k) d u) u
    let counted : State := passed x.adm.bEff (budget x.prot.undervolt) (noted (overflowNotices x.acc.books books seq.toNat)
      ((take c s).modSec k fun _ => { x with
        meas := { x.meas with
          badRun := 0, lossReported := false, currents := currents, voltages := voltages, iPrev := some i }
        acc := { x.acc with
          heat := heat, derate := derate
          heatWatch := x.acc.heatWatch && decide ((p.derateLevel - 1) * 2 ^ (p.tauShift + 3) ≤ heat)
          books := { books with
            maxH := max x.acc.books.maxH heat, longestRun := max x.acc.books.longestRun sustained
            minV := if st = .live then some (x.acc.books.minV.elim vAvg (min vAvg)) else x.acc.books.minV } }
        adm := { x.adm with bEff := budget x.prot.undervolt } }))
    let allowance := min 32767
      ((((counted.sec k).adm.holders.filter fun t => counted.pantoOf t == some .granted).map counted.reservedOf).sum)
    let consecutive : Bool := (s.sec k).meas.lastSeq.any fun l => (seq.toNat + 256 - l) % 256 == 1
    let rise : Bool := consecutive && (p.riseFloor : Int) ≤ i &&
      x.meas.iPrev.any fun prev => ((p.riseAmps + allowance : Nat) : Int) ≤ i - prev
    let history := (x.prot.history ++ [rise]).drop (x.prot.history.length + 1 - 5)
    let trues (n : Nat) : Nat := (history.drop (history.length - n)).count true
    let riseFires : Bool := match p.riseFilter with
      | .f1of1 => 1 ≤ trues 1
      | .f2of2 => 2 ≤ trues 2
      | .f2of3 => 2 ≤ trues 3
      | .f3of5 => 3 ≤ trues 5
    let reason : Option TripReason :=
      if p.instAmps ≤ i.natAbs then some .instantaneous
      else if st = .testing then (if p.testMaxAmps ≤ i.natAbs then some .testOvercurrent else none)
      else if st = .maint then none
      else if riseFires then some .rise
      else if sustained = p.sustainSamples then some .sustained
      else if p.tripLevel * 2 ^ (p.tauShift + 3) ≤ heat then some .thermal
      else none
    exec c s = .next (passed (budget x.prot.undervolt) (budget undervolt) (noted
      ((if derate && !x.acc.derate then [.derate heat seq.toNat] else []) ++
        (if undervolt && !x.prot.undervolt then [.undervolt vAvg seq.toNat] else []))
      { (counted.modSec k fun y => { y with
          prot := { y.prot with
            history := history, sustained := sustained, undervolt := undervolt
            outstanding := x.prot.outstanding || reason.isSome
            last := some { seq := seq.toNat, iCorr := i, vAvg := vAvg } }
          adm := { y.adm with bEff := budget undervolt } }) with
        handed := (take c s).handed ++ (if x.prot.outstanding then [] else reason.toList.map fun r => .tripRequest k {
          reason := r, cause := none, seq := some seq.toNat, iCorr := some i, vAvg := some vAvg, heat := heat }) }))

/-! ## Breaker, timers and trips -/

/-- Breaker feedback: a position that is expected stops a running breaker timer, and in CLOSING takes the section to LIVE
with its full budget, and a pass runs on its queue; one that is not is tolerated while the timer runs, and raises nothing
where the last feedback was the same; otherwise it is a breaker failure with cause UNEXPECTED: LOCKOUT and OPEN, the holders
lowered with reason TRIP, and the breaker timer started where the breaker closed unbidden. A measurement frame does what a
frame does whose feedback changes nothing, on the state its feedback leaves; one that ends a calibration run is in
CalibrationStarted, and a truck in HANDOVER in HandoversLowered (R17, R24, R86, R88, R94, R132, R135, R148, R149). -/
def Obligations.FeedbackJudged : Prop :=
  ∀ (s : State) (k : Sec) (pos : Position),
    let q := (s.sec k).seq
    let heard := s.modSec k fun x => { x with seq := { x.seq with lastFeedback := pos } }
    (pos = q.expectation → q.breakerTimer ≠ none → q.state ≠ .closing →
      feedback k pos s = heard.modSec k fun x => { x with seq := { x.seq with breakerTimer := none } }) ∧
    (∀ p, pos = q.expectation → q.breakerTimer ≠ none → q.state = .closing → s.active k = some p → s.told k →
      (s.sec k).prot.undervolt = false →
      feedback k pos s = runPass k (heard.modSec k fun x => x.live p) ∧
      ((s.sec k).adm.queue = [] → feedback k pos s = heard.modSec k fun x => x.live p)) ∧
    (pos = q.expectation → q.breakerTimer = none → feedback k pos s = heard) ∧
    (pos ≠ q.expectation → q.breakerTimer ≠ none ∨ pos = q.lastFeedback → feedback k pos s = heard) ∧
    (∀ p, pos ≠ q.expectation → q.breakerTimer = none → pos ≠ q.lastFeedback → s.active k = some p → s.told k →
      let failed := heard.modSec k fun x => x.failed (if pos = .closed then some p.breakerMs else none)
      let noticed (u : State) : State := raise (some k) (.breakerFail .unexpected q.expectation pos q.state) u
      ((s.sec k).adm.holders = [] → (s.sec k).adm.queue = [] →
        feedback k pos s = noticed (placePriority (.command k p.frontendAddr .openCmd) failed)) ∧
      (s.noHandover → ∃ u, feedback k pos s = noticed u ∧ Revoked k p s failed u)) ∧
    ∀ seq i1 i0 v1 v0 b g : Byte,
      let c := Instr.measurementFrame k [seq, i1, i0, v1, v0, b, g]
      (b = 0 ∧ pos = .opened ∨ b = 1 ∧ pos = .closed) → g.toNat ≤ 1 → (s.active k).isSome → (s.sec k).fresh seq →
      (pos = .closed → (s.sec k).meas.cal = none) → exec c s = exec c (feedback k pos s)

/-- BREAKER_TIMER_EXPIRY: a stopped timer has no expiry. With the breaker where it is expected the timer stops, and a
section in CLOSING becomes LIVE with its full budget, and a pass runs on its queue. With the breaker elsewhere the section
goes to LOCKOUT with an OPEN, its holders lowered with reason TRIP; one that failed to open asserts the backup trip (R87 to
R89, R94, R132, R135, R148, R149; the expiry acts whatever time its timer still had, log 2; a truck in HANDOVER is in
HandoversLowered). -/
def Obligations.BreakerTimerExpires : Prop :=
  ∀ (s : State) (k : Sec),
    let q := (s.sec k).seq
    (q.breakerTimer = none → exec (.breakerTimerExpiry k) s = .next s) ∧
    (q.breakerTimer ≠ none → q.lastFeedback = q.expectation → q.state ≠ .closing →
      exec (.breakerTimerExpiry k) s = .next (s.modSec k fun x => { x with seq := { x.seq with breakerTimer := none } })) ∧
    (∀ p, q.breakerTimer ≠ none → s.active k = some p → s.told k →
      (q.state = .closing → q.lastFeedback = .closed → q.expectation = .closed → (s.sec k).prot.undervolt = false →
        exec (.breakerTimerExpiry k) s = .next (runPass k (s.modSec k fun x => x.live p)) ∧
        ((s.sec k).adm.queue = [] → exec (.breakerTimerExpiry k) s = .next (s.modSec k fun x => x.live p))) ∧
      (q.lastFeedback ≠ q.expectation →
        let failed := s.modSec k fun x => x.failed none
        let noticed (u : State) : State :=
          raise (some k) (.breakerFail .timeout q.expectation q.lastFeedback q.state)
            (if q.expectation = .opened then
              raise none (.backupTrip k) { u with chip := { s.chip with backupTrip := true } }
            else u)
        ((s.sec k).adm.holders = [] → (s.sec k).adm.queue = [] → exec (.breakerTimerExpiry k) s =
          .next (noticed (placePriority (.command k p.frontendAddr .openCmd) failed))) ∧
        (s.noHandover → ∃ u, exec (.breakerTimerExpiry k) s = .next (noticed u) ∧ Revoked k p s failed u)))

/-- SENSOR_WATCHDOG_EXPIRY signals sensor loss and stays stopped; RECLOSE_TIMER_EXPIRY in TRIPPED begins a new line test
where the holder list is empty and the heat allows it, and otherwise waits; STABLE_TIMER_EXPIRY in LIVE sets attempts to
0. A stopped timer has no expiry, and the time a timer still had is the sender's affair (R22, R23, R95, R99, R100; log 2
for the last). -/
def Obligations.SectionTimersExpire : Prop :=
  ∀ (s : State) (k : Sec),
    let x := s.sec k
    (x.meas.watchdog = none → exec (.sensorWatchdogExpiry k) s = .next s) ∧
    (x.meas.watchdog ≠ none →
      let u := s.modSec k fun y => { y with meas := { y.meas with watchdog := none, cal := none } }
      (energisedState x.seq.state → exec (.sensorWatchdogExpiry k) s = .next (
        if x.prot.outstanding then u
        else { (u.modSec k fun y => { y with prot := { y.prot with outstanding := true } }) with
          handed := s.handed ++ [.tripRequest k {
            reason := .sensorLost, cause := some .watchdog, seq := x.meas.lastSeq
            iCorr := x.prot.last.map LastSample.iCorr, vAvg := x.prot.last.map LastSample.vAvg
            heat := x.acc.heat }] })) ∧
      (¬ energisedState x.seq.state →
        exec (.sensorWatchdogExpiry k) s = .next (raise (some k) (.sensorFault (.watchdog x.meas.lastSeq)) u))) ∧
    (x.seq.recloseTimer = none → exec (.recloseTimerExpiry k) s = .next s) ∧
    (∀ p, x.seq.recloseTimer ≠ none → x.seq.state = .tripped → s.active k = some p → s.told k →
      let cool := x.cool p
      (x.adm.holders = [] → (x.seq.heatRequired = true → cool) → exec (.recloseTimerExpiry k) s =
        .next (s.retested k p)) ∧
      (x.adm.holders ≠ [] ∨ (x.seq.heatRequired = true ∧ ¬ cool) → exec (.recloseTimerExpiry k) s = .next
        (s.modSec k fun y => { y with
          seq := { y.seq with recloseTimer := none, reclosePending := true }
          acc := { y.acc with heatWatch := y.acc.heatWatch || (x.seq.heatRequired && !decide cool) } }))) ∧
    (x.seq.stableTimer = none → exec (.stableTimerExpiry k) s = .next s) ∧
    (x.seq.stableTimer ≠ none → exec (.stableTimerExpiry k) s = .next (s.modSec k fun y => { y with seq := { y.seq with
      stableTimer := none, attempts := if x.seq.state = .live then 0 else y.seq.attempts } }))

/-- TEST_TIMER_EXPIRY in TESTING: a voltage average at or above test_pass closes the breaker; a lower one takes the trip
path, fills the trip record, counts a trip and raises LINE_TEST_FAIL, with LOCKOUT and its notice where attempts exceeds
max_attempts or auto_reclose is no. Holders still in LOWERING stay as they stand (R77, R92, R93, R97, R149; the expiry acts
whatever time its timer still had, log 2). -/
def Obligations.TestTimerExpires : Prop :=
  ∀ (s : State) (k : Sec) (p : SectionParams), s.active k = some p →
    let x := s.sec k
    let vAvg := x.meas.voltages.sum / 8
    let attempts := x.seq.attempts + 1
    let locked : Bool := !p.autoReclose || p.maxAttempts < attempts
    let target : SecState := if locked then .lockout else .tripped
    (x.seq.testTimer = none → exec (.testTimerExpiry k) s = .next s) ∧
    (x.seq.testTimer ≠ none → x.seq.state = .testing → s.told k → (∀ i ∈ x.adm.holders, s.pantoOf i = some .lowering) →
      (p.testPass ≤ vAvg → exec (.testTimerExpiry k) s = .next (placePriority (.command k p.frontendAddr .closeCmd)
        (s.modSec k fun y => { y with
          seq := { y.seq with
            state := .closing, testTimer := none, expectation := .closed, breakerTimer := some p.breakerMs }
          prot := { y.prot with view := .closing }
          adm := { y.adm with view := .closing, bEff := 0 } }))) ∧
      (vAvg < p.testPass →
        let u := placePriority (.command k p.frontendAddr .openCmd) (s.modSec k fun y => { y with
          seq := { y.seq with
            state := target, testTimer := none, stableTimer := none, expectation := .opened
            breakerTimer := some p.breakerMs, attempts := attempts
            recloseTimer := if locked then y.seq.recloseTimer else some p.recloseMs
            heatRequired := if locked then y.seq.heatRequired else false }
          acc := { y.acc with books := { y.acc.books with trips := min 255 (y.acc.books.trips + 1) } }
          prot := { y.prot with
            view := target
            record := match y.prot.record with
              | some r => some { r with more := true }
              | none => some {
                  reason := .lineTest, iCorr := y.prot.last.map LastSample.iCorr, vAvg := y.prot.last.map LastSample.vAvg
                  seq := y.prot.last.map LastSample.seq, heat := y.acc.heat, more := false } }
          adm := { y.adm with view := target, bEff := 0 } })
        exec (.testTimerExpiry k) s = .next (raise (some k) (.lineTestFail vAvg p.testPass attempts)
          (if locked then raise (some k) (.lockout .lineTest attempts) u else u))))

/-- TRIP_ANSWER clears the outstanding mark. An acted one takes the state entered for the view, fills an absent trip record
from the request or sets `more` in a present one, and raises a TRIP notice; an ignored one only sets `more` (R58, R74, R76).
TRIP_REQUEST by the state it finds. In OFF, TRIPPED and LOCKOUT it is answered as ignored. In TESTING, CLOSING and LIVE
the section opens and goes to TRIPPED or LOCKOUT with one attempt more; in DRAINING it goes to OFF, in MAINT to LOCKOUT.
Its holders are lowered with reason TRIP and keep their reservations, one trip is counted and the answer says acted, with
the state entered; no other section changes (R96 to R98, R148, R149; a truck in HANDOVER is in HandoversLowered). -/
def Obligations.TripRequestTaken : Prop :=
  ∀ (s : State) (k : Sec) (r : TripRequest),
    exec (.tripAnswer k r .ignored) s = .next ((take (.tripAnswer k r .ignored) s).modSec k fun x => { x with
      prot := { x.prot with
        outstanding := false, record := x.prot.record.map fun y => { y with more := true } } }) ∧
    (∀ st, st = .off ∨ st = .tripped ∨ st = .lockout → (s.sec k).adm.view ≠ .live → (s.sec k).adm.bEff = 0 →
      let c := Instr.tripAnswer k r (.acted st)
      exec c s = .next (raise (some k) (.trip r.reason r.seq r.cause) ((take c s).modSec k fun x => { x with
        prot := { x.prot with
          view := st, outstanding := false, undervolt := x.prot.undervolt && x.prot.view != .live
          record := match x.prot.record with
            | some y => some { y with more := true }
            | none => some {
                reason := r.reason, iCorr := r.iCorr, vAvg := r.vAvg, seq := r.seq, heat := r.heat, more := false } } }))) ∧
    let c := Instr.tripRequest k r
    let x := s.sec k
    let st := x.seq.state
    (st = .off ∨ st = .tripped ∨ st = .lockout →
      exec c s = .next { (take c s) with handed := (take c s).handed ++ [.tripAnswer k r .ignored] }) ∧
    (∀ p, s.active k = some p → s.told k → s.noHandover → energisedState st → (st = .draining → x.adm.queue = []) →
      let counted : Bool := st != .draining && st != .maint
      let attempts := if counted then x.seq.attempts + 1 else x.seq.attempts
      let locked : Bool := st == .maint || (counted && (!p.autoReclose || p.maxAttempts < attempts))
      let target : SecState := if st = .draining then .off else if locked then .lockout else .tripped
      let t := if locked then raise (some k) (.lockout r.reason attempts) (take c s) else take c s
      ∃ u : State, exec c s = .next u ∧
        u = { t with
          sections := u.sections, table := { s.table with trucks := u.table.trucks }
          ring := { t.ring with priority := u.ring.priority }
          handed := t.handed ++ [.tripAnswer k r (.acted target)] } ∧
        (∀ j, u.sec j = if j = k then { x with
          seq := { x.seq with
            state := target, expectation := .opened, breakerTimer := some p.breakerMs, attempts := attempts
            testTimer := if counted then none else x.seq.testTimer
            stableTimer := if counted then none else x.seq.stableTimer
            recloseTimer := if target = .tripped then some p.recloseMs else x.seq.recloseTimer
            heatRequired := if target = .tripped then decide (r.reason = .thermal) else x.seq.heatRequired
            lastOff := if target = .off then some .deenergize else x.seq.lastOff }
          acc := { x.acc with books := { x.acc.books with trips := min 255 (x.acc.books.trips + 1) } }
          adm := { x.adm with
            view := target, bEff := 0, stall := if st = .draining then false else x.adm.stall } } else s.sec j) ∧
        Lowered x.adm.holders .trip s u ∧
        PriorityFrame.command k p.frontendAddr .openCmd ∈ u.ring.priority ∧
        (∀ i y p', i ∈ x.adm.holders → s.truck i = some y → y.panto = .granted ∨ y.panto = .raised →
          s.active y.sec = some p' → PriorityFrame.lower i p'.readerAddr .trip ∈ u.ring.priority))

/-! ## The emergency-stop loop -/

/-- ESTOP_INPUT_CHANGE starts the filter with 2 ms, and a return to the level estop_closed stands for before they are over
idles it. ESTOP_FILTER_EXPIRY with the candidate closed is a rising edge, which sets its flag and does nothing else (R107,
R109; the expiry acts whatever time the filter still had, log 2). A falling edge takes every section that is neither in OFF
nor in LOCKOUT to OFF with an OPEN and attempts 0, lowers every holder with reason ESTOP, makes every queued truck IDLE and
sends it DENY ESTOP, section by section in queue order, as long as the lane has a place, writes the limited capture, in
which the accumulators stay as they are, and raises the ESTOP notice with the sections taken off (R51, R107, R108, R131,
R144, R151, R183; a truck in HANDOVER is in HandoversLowered). -/
def Obligations.EstopLoopJudged : Prop :=
  (∀ (s : State) (high : Bool),
    exec (.estopInputChange high) s = .next (if high = s.chip.estopPin then s else { s with chip := { s.chip with
      estopPin := high
      filter := match s.chip.filter with
        | none => some { candidate := high, left := 2 }
        | some f => if high = s.chip.estopClosed then none else some f } }) ∧
    (s.chip.filter = none → exec .estopFilterExpiry s = .next s) ∧
    (∀ f, s.chip.filter = some f → f.candidate = s.chip.estopClosed →
      exec .estopFilterExpiry s = .next { s with chip := { s.chip with filter := none } }) ∧
    (∀ f, s.chip.filter = some f → f.candidate = true → s.chip.estopClosed = false →
      exec .estopFilterExpiry s = .next { s with chip := { s.chip with
        filter := none, estopClosed := true, roseSeen := true } })) ∧
  ∀ (s : State) (f : EstopFilter), s.chip.filter = some f → f.candidate = false → s.chip.estopClosed = true →
    (∀ k, s.told k) → s.noHandover → (∀ i y, s.truck i = some y → y.panto = .queued → y.mark = .none) →
    ∃ u : State, exec .estopFilterExpiry s = .next u ∧
      u = { s with
        sections := u.sections, table := { s.table with trucks := u.table.trucks }
        chip := { s.chip with filter := none, estopClosed := false, fellSeen := true }
        ring := { s.ring with priority := u.ring.priority, ordinary := u.ring.ordinary }
        mgmt := { s.mgmt with notices := raiseIn none (.estop (([0, 1, 2, 3, 4, 5, 6, 7] : List Sec).filter fun k =>
          (s.sec k).seq.state != .off && (s.sec k).seq.state != .lockout)) s.mgmt.notices } } ∧
      (∀ k p, serving (s.sec k).seq.state → s.active k = some p →
        PriorityFrame.command k p.frontendAddr .openCmd ∈ u.ring.priority) ∧
      (∀ i, u.truck i = (s.truck i).map fun y =>
        if (∃ k, i ∈ (s.sec k).adm.holders) ∧ (y.panto = .granted ∨ y.panto = .raised) then
          y.lowered .estop (s.classOf y).lowerMs
        else if (∃ k, i ∈ (s.sec k).adm.queue.map (·.truck)) ∧ y.panto = .queued then y.idled else y) ∧
      (∀ k, LowersSent (s.sec k).adm.holders .estop s u) ∧
      ((∀ k, ∀ e ∈ (s.sec k).adm.queue, (s.active k).isSome ∧ ∃ y, s.truck e.truck = some y ∧ y.panto = .queued ∧ y.sec = k) →
        (([0, 1, 2, 3, 4, 5, 6, 7] : List Sec).flatMap fun k => (s.sec k).adm.queue.map (·.truck)).Nodup →
        let denies := ([0, 1, 2, 3, 4, 5, 6, 7] : List Sec).flatMap fun k => (s.sec k).adm.queue.map fun e =>
          OrdinaryFrame.deny e.truck ((s.active k).elim 0 (·.readerAddr)) .estop
        let attention := if s.mgmt.notices = [] ∧ 1 ≤ s.straps.supaddr.toNat ∧ s.straps.supaddr.toNat ≤ 254 then
          [OrdinaryFrame.attention] else []
        u.ring.ordinary =
          s.ring.ordinary ++ (denies ++ attention).take (16 - (s.ring.ordinary.length + s.ring.claimed))) ∧
      ∀ k, let x := s.sec k
        let out : Bool := x.seq.state != .off && x.seq.state != .lockout
        (u.sec k).copies = x.copies ∧ (u.sec k).meas = x.meas ∧
        (u.sec k).seq = (if out then { x.seq with
          state := .off, expectation := .opened, attempts := 0, testTimer := none
          breakerTimer := (s.active k).map SectionParams.breakerMs, recloseTimer := none, stableTimer := none
          reclosePending := false, heatRequired := false, lastOff := some .estop } else x.seq) ∧
        (u.sec k).prot = (if out then { x.prot with
          view := .off, undervolt := x.prot.undervolt && x.seq.state != .live } else x.prot) ∧
        (u.sec k).acc = { x.acc with
          heatWatch := x.acc.heatWatch && !out
          result := { captureNo := (x.acc.result.captureNo + 1) % 65536, kind := .limited, books := x.acc.books
                      fellSeen := true, roseSeen := s.chip.roseSeen } } ∧
        (u.sec k).adm = { x.adm with
          queue := [], stall := false, view := if out then .off else x.adm.view
          bEff := if out then 0 else x.adm.bEff }

/-! ## Trucks -/

/-- ARRIVE. One whose length is not its own is dropped. Without a record: NOT_AUTHORIZED without a fleet entry of a defined
class, TABLE_FULL at 24 records, otherwise a record with the values of R119, last in the order. With one at the same
section: the silence timer restarts and a DEPART mark clears. At another section an IDLE or LOWERING truck only moves; a
QUEUED one loses its entry and is IDLE; a GRANTED one gives its reservation back, is IDLE and denied MOVED by the new
section's reader; a RAISED one is lowered with reason MOVED unless the new section is the LIVE next one uphill; one in
HANDOVER loses its entry and is lowered with reason MOVED. An entry that leaves a queue and a reservation given back start a
pass on that section, and what it grants comes before the frame that tells the truck (log 30). A truck marked EVICT that
becomes IDLE loses its record (R120 to R122, R126, R131, R133 to R135, R145 to R147). -/
def Obligations.Arrives : Prop :=
  ∀ (s : State) (k : Sec) (p : SectionParams) (id : Nat), s.active k = some p → id ≤ 65535 → s.table.Ok →
    let c := Instr.arrive k (toBe 2 id)
    let t := take c s
    let deny (reason : DenyReason) : State := t.offered (.deny id p.readerAddr reason)
    (∀ payload : List Byte, payload.length ≠ 2 → exec (.arrive k payload) s = .next (take (.arrive k payload) s)) ∧
    (s.truck id = none →
      ((∀ e ∈ s.table.fleet, e.id = id → s.table.classes[e.cls].defined = false) →
        exec c s = .next (deny .notAuthorized)) ∧
      (∀ e ∈ s.table.fleet, e.id = id → s.table.classes[e.cls].defined = true → exec c s = .next (
        if s.table.trucks.length = 24 then deny .tableFull
        else { t with table := { s.table with
          generation := (s.table.generation + 1) % 256
          trucks := s.table.trucks ++ [{
            id := id, cls := e.cls, sec := k, silence := some s.ramp.silenceMs, mark := .none, panto := .idle, hold := none
            reserved := 0, demand := none, window := none, overCount := 0, lowerReason := none }] } }))) ∧
    (∀ r, s.truck id = some r →
      let mark : Mark := if r.mark = .depart then .none else r.mark
      let came : State := t.modTruck id fun x => { x with sec := k, silence := some s.ramp.silenceMs, mark := mark }
      (r.sec = k ∨ r.panto = .idle ∨ r.panto = .lowering → exec c s = .next came) ∧
      (r.sec ≠ k → r.panto = .queued → exec c s = .next ((came.unqueued r.sec id).madeIdle id)) ∧
      (∀ h q, r.sec ≠ k → r.panto = .granted → r.hold = some h → s.Releases h q →
        exec c s = .next (((came.released h q id).madeIdle id).offered (.deny id p.readerAddr .moved))) ∧
      (r.sec ≠ k → r.panto = .raised →
        (∀ q, s.active r.sec = some q → q.nextUphill = some k → (s.sec k).adm.view ≠ .live) →
        exec c s = .next (placePriority (.lower id p.readerAddr .moved)
          (came.modTruck id fun x => x.lowered .moved (s.classOf r).lowerMs))) ∧
      (r.sec ≠ k → r.panto = .handover → s.entryAt r.sec id →
        exec c s = .next (runPass r.sec (placePriority (.lower id p.readerAddr .moved)
          ((came.dequeued r.sec id).modTruck id fun x => x.lowered .moved (s.classOf r).lowerMs)))))

/-- A RAISED truck that arrives at the LIVE section next uphill is handed over: its entry joins behind the handover entries
there and ahead of every ordinary one, and a pass runs there. At the head, with budget and a place, it is granted at once:
its reservation moves from one holder list to the other unchanged, the grant window starts and GRANT is placed, and a pass
runs on the section it leaves. Where the head lacks the budget it waits in HANDOVER, its reservation still on the old
section; where the head has the budget and the ordinary lane no place, the stall mark is set (R133 to R135, R138, R146). -/
def Obligations.HandoverGranted : Prop :=
  ∀ (s : State) (old new : Sec) (p q : SectionParams) (id : Nat) (r : Truck) (hs os : List QueueEntry), s.table.Ok →
    id ≤ 65535 → s.truck id = some r → r.panto = .raised → r.sec = old → r.hold = some old → old ≠ new →
    s.active old = some p → p.nextUphill = some new → s.active new = some q → (s.sec new).adm.view = .live →
    (s.sec old).seq.state = .live →
    (s.sec new).adm.queue = hs ++ os → (∀ e ∈ hs, e.kind = .handover ∧ e.truck ≠ id) →
    (∀ e ∈ os, e.kind = .ordinary ∧ e.truck ≠ id) →
    let c := Instr.arrive new (toBe 2 id)
    let t := take c s
    let c0 := s.classOf r
    let moved (x : Truck) : Truck := { x with
      sec := new, silence := some s.ramp.silenceMs, mark := if r.mark = .depart then .none else r.mark }
    let entry : QueueEntry := { truck := id, kind := .handover, amount := r.reserved }
    let head : QueueEntry := hs.headD entry
    let joined (stall : Bool) : State :=
      (t.modTruck id fun x => { moved x with
        panto := .handover, window := some { kind := .handover, left := c0.handoverMs } }).modSec new fun x =>
        { x with adm := { x.adm with queue := hs ++ entry :: os, stall := stall } }
    exec c s = .next (runPass new (joined false)) ∧
    (hs = [] → s.reserved new + r.reserved ≤ (s.sec new).adm.bEff → s.roomFor 1 →
      (∀ e rest, os = e :: rest → (s.sec new).adm.bEff < s.reserved new + r.reserved + e.amount) → exec c s = .next
      (runPass old ((((t.withFrame (.grant id q.readerAddr new r.reserved c0.grantMs)).modTruck id fun x => { moved x with
        panto := .granted, hold := some new, window := some { kind := .grant, left := c0.grantMs } }).modSec old fun x =>
        { x with adm := { x.adm with holders := x.adm.holders.filter (· ≠ id) } }).modSec new fun x =>
        { x with adm := { x.adm with queue := os, holders := x.adm.holders ++ [id], stall := false } }))) ∧
    ((s.sec new).adm.bEff < s.reserved new + head.amount → exec c s = .next (joined false)) ∧
    (s.reserved new + head.amount ≤ (s.sec new).adm.bEff → ¬ s.roomFor 1 → exec c s = .next (joined true))

/-- DEPART, SILENCE_TIMER_EXPIRY, EVICT_TRUCK and REMOVE_FLEET let a truck go: an IDLE one loses its record, a QUEUED one
its entry and record, a GRANTED or RAISED one is lowered and marked, one in HANDOVER loses its entry there and is lowered
and marked, a LOWERING one is marked; a mark of EVICT is not replaced by DEPART. An entry that leaves a queue starts a pass
on it, which a request runs with its reply's place claimed. Without a record DEPART is denied
UNKNOWN_TRUCK and EVICT_TRUCK answered NOT_FOUND (R114, R120, R123 to R126, R131, R133, R135, R144, R153, R172; a LOWER goes to the
reader of the truck's own section, also where a DEPART taken at another section brings it, log 16; a SILENCE_TIMER_EXPIRY
acts whatever time the timer still had, log 2). -/
def Obligations.TruckLetGo : Prop :=
  ∀ (s : State) (k : Sec) (req : Req) (id : Nat), id ≤ 65535 → req.broadcast = false → req.payload = toBe 2 id →
    s.roomFor 1 → s.table.Ok →
    let dep := Instr.depart k (toBe 2 id)
    (∀ payload : List Byte, payload.length ≠ 2 → exec (.depart k payload) s = .next (take (.depart k payload) s)) ∧
    (s.truck id = none →
      (∀ p, s.active k = some p →
        exec dep s = .next ((take dep s).offered (.deny id p.readerAddr .unknownTruck))) ∧
      exec (.silenceTimerExpiry id) s = .next s ∧
      (s.noRestart →
        exec (.evictTruck req) s = .next ((take (.evictTruck req) s).withReply 0x5A req .notFound 0 .empty))) ∧
    (∀ r, s.truck id = some r →
      (r.silence = none → exec (.silenceTimerExpiry id) s = .next s) ∧
      ∀ g ∈ letGos s k req r, g.due →
        let sent (p : SectionParams) (u : State) : State := placePriority (.lower id p.readerAddr g.reason)
          (u.modTruck id fun x => (g.noted x).lowered g.reason (s.classOf r).lowerMs)
        (r.panto = .idle → exec g.command s = .next (g.answered (g.taken.forget id))) ∧
        (r.panto = .queued → exec g.command s = .next (g.answered ((g.taken.unqueued r.sec id).forget id))) ∧
        (∀ p, r.panto = .granted ∨ r.panto = .raised → s.active r.sec = some p →
          exec g.command s = .next (g.answered (sent p g.taken))) ∧
        (∀ p, r.panto = .handover → s.active r.sec = some p → s.entryAt r.sec id →
          exec g.command s = .next (g.answered (runPass r.sec (sent p (g.taken.dequeued r.sec id))))) ∧
        (r.panto = .lowering → exec g.command s = .next (g.answered (g.taken.modTruck id g.noted))))

/-- RAISE_REQ of a truck at its own section. From IDLE the demand is clamped to the class and, where the section takes
trucks, the truck joins the queue at its tail and a pass runs: one that is still QUEUED is sent WAIT with its position, also
behind a head that waits for budget. On an empty queue it is granted if the reservations with it stay within the effective
budget and the ordinary lane has a place, and above the budget it is sent WAIT 1. A section in OFF, LOCKOUT, MAINT or
DRAINING denies it; a request from another section is denied MOVED; a truck that already holds a reservation is not answered
(R120, R131, R133, R135, R137, R139). -/
def Obligations.RaiseRequested : Prop :=
  ∀ (s : State) (k : Sec) (p : SectionParams) (id demand : Nat), s.table.Ok → id ≤ 65535 → demand ≤ 65535 →
    s.active k = some p →
    let c := Instr.raiseReq k (toBe 2 id ++ toBe 2 demand)
    let t := take c s
    let heard := t.modTruck id fun x => { x with silence := some s.ramp.silenceMs }
    let deny (u : State) (reason : DenyReason) : State := u.offered (.deny id p.readerAddr reason)
    (∀ payload : List Byte, payload.length ≠ 4 → exec (.raiseReq k payload) s = .next (take (.raiseReq k payload) s)) ∧
    (s.truck id = none → exec c s = .next (deny t .unknownTruck)) ∧
    (∀ r, s.truck id = some r →
      (r.panto ≠ .idle → r.panto ≠ .queued → exec c s = .next heard) ∧
      (r.panto = .idle ∨ r.panto = .queued → r.sec ≠ k → exec c s = .next (deny heard .moved)) ∧
      let c0 := s.classOf r
      let amps := if demand < c0.demandMin then c0.demandMin
        else if c0.demandMax < demand then c0.demandMax else demand
      (r.panto = .idle → r.sec = k →
        let v := (s.sec k).adm.view
        (v = .off ∨ v = .lockout ∨ v = .maint ∨ v = .draining → exec c s = .next (deny heard .sectionOff)) ∧
        (v = .testing ∨ v = .closing ∨ v = .live ∨ v = .tripped →
          let joined := (heard.modTruck id fun x => { x with demand := some amps, panto := .queued }).modSec k fun x =>
            { x with adm := { x.adm with queue := x.adm.queue ++ [{ truck := id, kind := .ordinary, amount := amps }] } }
          let u := runPass k joined
          exec c s = .next (if u.pantoOf id = some .queued then u.offered (.wait id p.readerAddr
            ((u.sec k).adm.queue.findIdx (fun e => e.truck == id) + 1)) else u) ∧
          ((s.sec k).adm.queue ≠ [] → (∀ e ∈ (s.sec k).adm.queue, e.truck ≠ id) →
            s.headWaits k (s.sec k).adm.holders (s.sec k).adm.queue →
            exec c s = .next ((joined.modSec k fun x => { x with adm := { x.adm with stall := false } }).offered
              (.wait id p.readerAddr ((s.sec k).adm.queue.length + 1)))) ∧
          ((s.sec k).adm.queue = [] →
          let queued := (heard.modTruck id fun x => { x with demand := some amps, panto := .queued }).modSec k fun x =>
            { x with adm := { x.adm with queue := [{ truck := id, kind := .ordinary, amount := amps }], stall := false } }
          (s.reserved k + amps ≤ (s.sec k).adm.bEff → s.roomFor 1 → exec c s = .next
            (((heard.modTruck id fun x => { x with
              reserved := amps, demand := none, hold := some k, panto := .granted
              window := some { kind := .grant, left := c0.grantMs } }).modSec k fun x =>
              { x with adm := { x.adm with holders := x.adm.holders ++ [id], stall := false } }).withFrame
              (.grant id p.readerAddr k amps c0.grantMs))) ∧
          (s.reserved k + amps ≤ (s.sec k).adm.bEff → ¬ s.roomFor 1 → exec c s = .next
            (queued.modSec k fun x => { x with adm := { x.adm with stall := true } })) ∧
          ((s.sec k).adm.bEff < s.reserved k + amps →
            exec c s = .next (queued.offered (.wait id p.readerAddr 1)))))) ∧
      (∀ before amount after, r.panto = .queued → r.sec = k →
        (s.sec k).adm.queue = before ++ { truck := id, kind := .ordinary, amount := amount } :: after →
        (∀ e ∈ before ++ after, e.truck ≠ id) → exec c s = .next
          (((heard.modTruck id fun x => { x with demand := some amps }).modSec k fun x => { x with adm := { x.adm with
            queue := before ++ { truck := id, kind := .ordinary, amount := amps } :: after } }).offered
            (.wait id p.readerAddr (before.length + 1)))))

/-- STATE. Up: a GRANTED truck becomes RAISED; a RAISED one counts an overdraw above its reservation and tolerance, and the
third in a row lowers it; an IDLE or QUEUED one is told to lower; in HANDOVER and LOWERING nothing changes. Down: a truck
that holds a reservation gives it back, with a handover entry where it has one, and becomes IDLE, or loses its record where
it is marked. An entry that leaves a queue and a reservation given back start a pass on that section; a holder list that is
then empty ends a drain in OFF with an OPEN, and a reclose wait that the heat allows to end (R99, R100, R103, R120, R126,
R133 to R135, R140 to R142; an overdraw's LOWER goes to the reader of the truck's own section, also where the report was
taken at another, log 16). -/
def Obligations.TruckReports : Prop :=
  ∀ (s : State) (k : Sec) (p : SectionParams) (id amps : Nat), s.table.Ok → id ≤ 65535 → amps ≤ 65535 →
    s.active k = some p →
    let up := Instr.state k (toBe 2 id ++ [1] ++ toBe 2 amps)
    let down := Instr.state k (toBe 2 id ++ [0] ++ toBe 2 amps)
    let heard (c : Instr) : State := (take c s).modTruck id fun x => { x with silence := some s.ramp.silenceMs }
    (∀ payload : List Byte, payload.length ≠ 5 ∨ (∃ b ∈ payload[2]?, 2 ≤ b.toNat) →
      exec (.state k payload) s = .next (take (.state k payload) s)) ∧
    (∀ c ∈ [up, down], s.truck id = none → exec c s = .next ((take c s).offered (.deny id p.readerAddr .unknownTruck))) ∧
    (∀ r, s.truck id = some r →
      (r.panto = .idle ∨ r.panto = .queued →
        exec up s = .next (placePriority (.lower id p.readerAddr .notGranted) (heard up)) ∧
        exec down s = .next (heard down)) ∧
      (r.panto = .granted → exec up s = .next ((heard up).modTruck id fun x => { x with
        panto := .raised, window := none, overCount := 0 })) ∧
      (r.panto = .handover ∨ r.panto = .lowering → exec up s = .next (heard up)) ∧
      (r.panto = .raised →
        let above := amps * 100 > r.reserved * (100 + (s.classOf r).overdrawPct)
        (¬ above → exec up s = .next ((heard up).modTruck id fun x => { x with overCount := 0 })) ∧
        (above → r.overCount < 2 →
          exec up s = .next ((heard up).modTruck id fun x => { x with overCount := r.overCount + 1 })) ∧
        (∀ q, above → r.overCount = 2 → s.active r.sec = some q →
          exec up s = .next (placePriority (.lower id q.readerAddr .overdraw) ((heard up).modTruck id fun x =>
            { x.lowered .overdraw (s.classOf r).lowerMs with overCount := 3 })))) ∧
      (∀ h q, r.hold = some h → s.Releases h q →
        (r.panto = .granted ∨ r.panto = .raised ∨ r.panto = .lowering →
          exec down s = .next (((heard down).released h q id).madeIdle id)) ∧
        (r.panto = .handover → h ≠ r.sec → s.entryAt r.sec id →
          exec down s = .next ((((heard down).unqueued r.sec id).released h q id).madeIdle id))))

/-- A window that runs out. GRANT: the reservation is released, the truck IDLE and denied GRANT_EXPIRED. LOWER: released and
IDLE, with a PANTO_UNCONFIRMED notice at the section that held it. HANDOVER: the entry is removed and the truck lowered with
reason HANDOVER_LATE, its reservation kept. An entry that leaves a queue and a reservation given back start a pass on that
section, and what it grants comes before the frame that tells the truck (log 30). A marked truck that becomes IDLE loses its
record, and a holder list empty after the pass ends a drain, or a reclose wait that the heat allows to end. A window of
another kind has no such expiry (R99, R100, R103, R126, R133 to R135, R143, R144, R147; an expiry acts whatever time the
window still had, log 2). -/
def Obligations.WindowsExpire : Prop :=
  ∀ (s : State) (id : Nat) (r : Truck), s.table.Ok → s.truck id = some r →
    (∀ row ∈ ([(.grant, .grantWindowExpiry), (.handover, .handoverWindowExpiry), (.lower, .lowerWindowExpiry)] :
        List (WindowKind × (Nat → Instr))), (∀ w, r.window = some w → w.kind ≠ row.1) →
      exec (row.2 id) s = .next s) ∧
    ∀ (left : Nat) (p : SectionParams), s.active r.sec = some p →
      (∀ h q, r.hold = some h → s.Releases h q →
        let idle : State := (s.released h q id).madeIdle id
        (r.window = some { kind := .grant, left := left } →
          exec (.grantWindowExpiry id) s = .next (idle.offered (.deny id p.readerAddr .grantExpired))) ∧
        (r.window = some { kind := .lower, left := left } →
          exec (.lowerWindowExpiry id) s = .next (raise (some h) (.pantoUnconfirmed id r.lowerReason) idle))) ∧
      (r.window = some { kind := .handover, left := left } → r.panto = .handover → s.entryAt r.sec id →
        exec (.handoverWindowExpiry id) s = .next (runPass r.sec (placePriority (.lower id p.readerAddr .handoverLate)
          ((s.dequeued r.sec id).modTruck id fun x => x.lowered .handoverLate (s.classOf r).lowerMs))))
end

