-- ==== Sys2Proof/Laws/State.lean ====
section
/-! SUPPORT. What each update of the state leaves as it stood, and what it sets: one lemma per field per update. -/

namespace Sys2Proof.Machine

set_option Elab.async false

open Sys2Proof

/-! ## One section -/

variable (s : State) (j k : Sec)

@[simp] theorem State.modSec_sec (f : Section → Section) :
    (s.modSec k f).sec j = if j = k then f (s.sec k) else s.sec j := by
  by_cases h : j = k
  · subst h; simp [State.modSec, State.sec]
  · have h' : (k : Nat) ≠ (j : Nat) := fun e => h (Fin.ext e.symm)
    simp [State.modSec, State.sec, h, h']

@[simp] theorem State.modSec_ramp (f : Section → Section) : (s.modSec k f).ramp = s.ramp := rfl
@[simp] theorem State.modSec_chip (f : Section → Section) : (s.modSec k f).chip = s.chip := rfl
@[simp] theorem State.modSec_straps (f : Section → Section) : (s.modSec k f).straps = s.straps := rfl
@[simp] theorem State.modSec_ring (f : Section → Section) : (s.modSec k f).ring = s.ring := rfl
@[simp] theorem State.modSec_table (f : Section → Section) : (s.modSec k f).table = s.table := rfl
@[simp] theorem State.modSec_mgmt (f : Section → Section) : (s.modSec k f).mgmt = s.mgmt := rfl
@[simp] theorem State.modSec_handed (f : Section → Section) : (s.modSec k f).handed = s.handed := rfl
@[simp] theorem State.modSec_pending (f : Section → Section) : (s.modSec k f).pending = s.pending := rfl
@[simp] theorem State.modSec_portA (f : Section → Section) : (s.modSec k f).portA = s.portA := rfl
@[simp] theorem State.modMeas_ramp (f : Meas → Meas) : (s.modMeas k f).ramp = s.ramp := rfl
@[simp] theorem State.modMeas_chip (f : Meas → Meas) : (s.modMeas k f).chip = s.chip := rfl
@[simp] theorem State.modMeas_straps (f : Meas → Meas) : (s.modMeas k f).straps = s.straps := rfl
@[simp] theorem State.modMeas_ring (f : Meas → Meas) : (s.modMeas k f).ring = s.ring := rfl
@[simp] theorem State.modMeas_table (f : Meas → Meas) : (s.modMeas k f).table = s.table := rfl
@[simp] theorem State.modMeas_mgmt (f : Meas → Meas) : (s.modMeas k f).mgmt = s.mgmt := rfl
@[simp] theorem State.modMeas_handed (f : Meas → Meas) : (s.modMeas k f).handed = s.handed := rfl
@[simp] theorem State.modMeas_pending (f : Meas → Meas) : (s.modMeas k f).pending = s.pending := rfl
@[simp] theorem State.modMeas_portA (f : Meas → Meas) : (s.modMeas k f).portA = s.portA := rfl
@[simp] theorem State.modAcc_ramp (f : Acc → Acc) : (s.modAcc k f).ramp = s.ramp := rfl
@[simp] theorem State.modAcc_chip (f : Acc → Acc) : (s.modAcc k f).chip = s.chip := rfl
@[simp] theorem State.modAcc_straps (f : Acc → Acc) : (s.modAcc k f).straps = s.straps := rfl
@[simp] theorem State.modAcc_ring (f : Acc → Acc) : (s.modAcc k f).ring = s.ring := rfl
@[simp] theorem State.modAcc_table (f : Acc → Acc) : (s.modAcc k f).table = s.table := rfl
@[simp] theorem State.modAcc_mgmt (f : Acc → Acc) : (s.modAcc k f).mgmt = s.mgmt := rfl
@[simp] theorem State.modAcc_handed (f : Acc → Acc) : (s.modAcc k f).handed = s.handed := rfl
@[simp] theorem State.modAcc_pending (f : Acc → Acc) : (s.modAcc k f).pending = s.pending := rfl
@[simp] theorem State.modAcc_portA (f : Acc → Acc) : (s.modAcc k f).portA = s.portA := rfl
@[simp] theorem State.modProt_ramp (f : Prot → Prot) : (s.modProt k f).ramp = s.ramp := rfl
@[simp] theorem State.modProt_chip (f : Prot → Prot) : (s.modProt k f).chip = s.chip := rfl
@[simp] theorem State.modProt_straps (f : Prot → Prot) : (s.modProt k f).straps = s.straps := rfl
@[simp] theorem State.modProt_ring (f : Prot → Prot) : (s.modProt k f).ring = s.ring := rfl
@[simp] theorem State.modProt_table (f : Prot → Prot) : (s.modProt k f).table = s.table := rfl
@[simp] theorem State.modProt_mgmt (f : Prot → Prot) : (s.modProt k f).mgmt = s.mgmt := rfl
@[simp] theorem State.modProt_handed (f : Prot → Prot) : (s.modProt k f).handed = s.handed := rfl
@[simp] theorem State.modProt_pending (f : Prot → Prot) : (s.modProt k f).pending = s.pending := rfl
@[simp] theorem State.modProt_portA (f : Prot → Prot) : (s.modProt k f).portA = s.portA := rfl
@[simp] theorem State.modSeq_ramp (f : Seq → Seq) : (s.modSeq k f).ramp = s.ramp := rfl
@[simp] theorem State.modSeq_chip (f : Seq → Seq) : (s.modSeq k f).chip = s.chip := rfl
@[simp] theorem State.modSeq_straps (f : Seq → Seq) : (s.modSeq k f).straps = s.straps := rfl
@[simp] theorem State.modSeq_ring (f : Seq → Seq) : (s.modSeq k f).ring = s.ring := rfl
@[simp] theorem State.modSeq_table (f : Seq → Seq) : (s.modSeq k f).table = s.table := rfl
@[simp] theorem State.modSeq_mgmt (f : Seq → Seq) : (s.modSeq k f).mgmt = s.mgmt := rfl
@[simp] theorem State.modSeq_handed (f : Seq → Seq) : (s.modSeq k f).handed = s.handed := rfl
@[simp] theorem State.modSeq_pending (f : Seq → Seq) : (s.modSeq k f).pending = s.pending := rfl
@[simp] theorem State.modSeq_portA (f : Seq → Seq) : (s.modSeq k f).portA = s.portA := rfl
@[simp] theorem State.modAdm_ramp (f : Adm → Adm) : (s.modAdm k f).ramp = s.ramp := rfl
@[simp] theorem State.modAdm_chip (f : Adm → Adm) : (s.modAdm k f).chip = s.chip := rfl
@[simp] theorem State.modAdm_straps (f : Adm → Adm) : (s.modAdm k f).straps = s.straps := rfl
@[simp] theorem State.modAdm_ring (f : Adm → Adm) : (s.modAdm k f).ring = s.ring := rfl
@[simp] theorem State.modAdm_table (f : Adm → Adm) : (s.modAdm k f).table = s.table := rfl
@[simp] theorem State.modAdm_mgmt (f : Adm → Adm) : (s.modAdm k f).mgmt = s.mgmt := rfl
@[simp] theorem State.modAdm_handed (f : Adm → Adm) : (s.modAdm k f).handed = s.handed := rfl
@[simp] theorem State.modAdm_pending (f : Adm → Adm) : (s.modAdm k f).pending = s.pending := rfl
@[simp] theorem State.modAdm_portA (f : Adm → Adm) : (s.modAdm k f).portA = s.portA := rfl

@[simp] theorem State.modMeas_sec (f : Meas → Meas) :
    (s.modMeas k f).sec j = if j = k then { s.sec k with meas := f (s.sec k).meas } else s.sec j := by
  simp [State.modMeas]

@[simp] theorem State.modAcc_sec (f : Acc → Acc) :
    (s.modAcc k f).sec j = if j = k then { s.sec k with acc := f (s.sec k).acc } else s.sec j := by
  simp [State.modAcc]

@[simp] theorem State.modProt_sec (f : Prot → Prot) :
    (s.modProt k f).sec j = if j = k then { s.sec k with prot := f (s.sec k).prot } else s.sec j := by
  simp [State.modProt]

@[simp] theorem State.modSeq_sec (f : Seq → Seq) :
    (s.modSeq k f).sec j = if j = k then { s.sec k with seq := f (s.sec k).seq } else s.sec j := by
  simp [State.modSeq]

@[simp] theorem State.modAdm_sec (f : Adm → Adm) :
    (s.modAdm k f).sec j = if j = k then { s.sec k with adm := f (s.sec k).adm } else s.sec j := by
  simp [State.modAdm]

/-- A change within a section that leaves its copies leaves every active copy. -/
theorem State.modSec_active {f : Section → Section} (h : (f (s.sec k)).copies = (s.sec k).copies) :
    (s.modSec k f).active j = s.active j := by
  simp only [State.active, State.modSec_sec]
  split
  · subst_vars; rw [h]
  · rfl

@[simp] theorem State.modMeas_active (f : Meas → Meas) : (s.modMeas k f).active j = s.active j :=
  State.modSec_active s j k rfl

@[simp] theorem State.modAcc_active (f : Acc → Acc) : (s.modAcc k f).active j = s.active j :=
  State.modSec_active s j k rfl

@[simp] theorem State.modProt_active (f : Prot → Prot) : (s.modProt k f).active j = s.active j :=
  State.modSec_active s j k rfl

@[simp] theorem State.modSeq_active (f : Seq → Seq) : (s.modSeq k f).active j = s.active j :=
  State.modSec_active s j k rfl

@[simp] theorem State.modAdm_active (f : Adm → Adm) : (s.modAdm k f).active j = s.active j :=
  State.modSec_active s j k rfl

/-- The sections of a state written out. -/
@[simp] theorem State.mk_sec (ramp : RampRecord) (l : Vector Section 8) (chip : Chip) (straps : Straps) (ring : Ring)
    (table : TruckTable) (mgmt : Mgmt) (handed pending : List Instr) (portA : List Bool) :
    (State.mk ramp l chip straps ring table mgmt handed pending portA).sec j = l[j] := rfl

theorem State.sections_get : s.sections[(j : Nat)] = s.sec j := rfl

/-- Two changes of one section are one. -/
theorem State.modSec_modSec (f g : Section → Section) : (s.modSec k f).modSec k g = s.modSec k (g ∘ f) := by
  simp [State.modSec]

/-- States are equal when their sections are, one by one, and the rest is. -/
theorem State.ext_sec {t u : State} (hs : ∀ k, t.sec k = u.sec k) (hr : t = { u with sections := t.sections }) : t = u := by
  have : t.sections = u.sections := Vector.ext fun i hi => hs ⟨i, hi⟩
  rw [hr, this]

/-! ## One truck -/

variable (t : Nat) (f : Truck → Truck)

@[simp] theorem State.modTruck_ramp : (s.modTruck t f).ramp = s.ramp := rfl
@[simp] theorem State.modTruck_chip : (s.modTruck t f).chip = s.chip := rfl
@[simp] theorem State.modTruck_straps : (s.modTruck t f).straps = s.straps := rfl
@[simp] theorem State.modTruck_ring : (s.modTruck t f).ring = s.ring := rfl
@[simp] theorem State.modTruck_mgmt : (s.modTruck t f).mgmt = s.mgmt := rfl
@[simp] theorem State.modTruck_handed : (s.modTruck t f).handed = s.handed := rfl
@[simp] theorem State.modTruck_pending : (s.modTruck t f).pending = s.pending := rfl
@[simp] theorem State.modTruck_portA : (s.modTruck t f).portA = s.portA := rfl
@[simp] theorem State.modTruck_sections : (s.modTruck t f).sections = s.sections := rfl
@[simp] theorem State.modTruck_fleet : (s.modTruck t f).table.fleet = s.table.fleet := rfl
@[simp] theorem State.modTruck_classes : (s.modTruck t f).table.classes = s.table.classes := rfl
@[simp] theorem State.modTruck_generation : (s.modTruck t f).table.generation = s.table.generation := rfl
@[simp] theorem State.modTruck_sec : (s.modTruck t f).sec j = s.sec j := rfl
@[simp] theorem State.modTruck_active : (s.modTruck t f).active j = s.active j := rfl

/-- Changing records without their ids keeps the ids in the table. -/
theorem State.modTruck_ids (h : ∀ r, (f r).id = r.id) :
    (s.modTruck t f).table.trucks.map (·.id) = s.table.trucks.map (·.id) := by
  simp only [State.modTruck, List.map_map]
  apply List.map_congr_left
  intro r _
  simp only [Function.comp]
  split <;> simp_all

/-- The record found after a change of one truck's record. -/
theorem State.modTruck_truck (u : Nat) (h : ∀ r, (f r).id = r.id) :
    (s.modTruck t f).truck u = (s.truck u).map fun r => if u = t then f r else r := by
  simp only [State.truck, State.modTruck]
  induction s.table.trucks with
  | nil => rfl
  | cons a l ih =>
    simp only [List.map_cons, List.find?_cons]
    by_cases ha : a.id = t
    · simp only [ha, if_true, h]
      by_cases hu : t = u
      · simp [hu]
      · have : (t == u) = false := by simpa using hu
        simp only [this]; exact ih
    · simp only [ha, if_false]
      by_cases hu : a.id = u
      · subst hu; simp [ha]
      · have : (a.id == u) = false := by simpa using hu
        simp only [this]; exact ih

/-- A record found has the id looked for. -/
theorem State.truck_id {u : Nat} {r : Truck} (h : s.truck u = some r) : r.id = u := by
  simpa using List.find?_some h

/-! ## Work handed over, errors and the claim of places -/

variable (c : Instr)

@[simp] theorem hand_ramp : (hand c s).ramp = s.ramp := rfl
@[simp] theorem hand_chip : (hand c s).chip = s.chip := rfl
@[simp] theorem hand_straps : (hand c s).straps = s.straps := rfl
@[simp] theorem hand_ring : (hand c s).ring = s.ring := rfl
@[simp] theorem hand_table : (hand c s).table = s.table := rfl
@[simp] theorem hand_mgmt : (hand c s).mgmt = s.mgmt := rfl
@[simp] theorem hand_pending : (hand c s).pending = s.pending := rfl
@[simp] theorem hand_portA : (hand c s).portA = s.portA := rfl
@[simp] theorem hand_sections : (hand c s).sections = s.sections := rfl
@[simp] theorem take_ramp : (take c s).ramp = s.ramp := by unfold take; split <;> rfl
@[simp] theorem take_chip : (take c s).chip = s.chip := by unfold take; split <;> rfl
@[simp] theorem take_straps : (take c s).straps = s.straps := by unfold take; split <;> rfl
@[simp] theorem take_ring : (take c s).ring = s.ring := by unfold take; split <;> rfl
@[simp] theorem take_table : (take c s).table = s.table := by unfold take; split <;> rfl
@[simp] theorem take_mgmt : (take c s).mgmt = s.mgmt := by unfold take; split <;> rfl
@[simp] theorem take_pending : (take c s).pending = s.pending := by unfold take; split <;> rfl
@[simp] theorem take_portA : (take c s).portA = s.portA := by unfold take; split <;> rfl
@[simp] theorem take_sections : (take c s).sections = s.sections := by unfold take; split <;> rfl
@[simp] theorem hand_sec : (hand c s).sec j = s.sec j := rfl
@[simp] theorem hand_active : (hand c s).active j = s.active j := rfl
@[simp] theorem take_sec : (take c s).sec j = s.sec j := by simp [State.sec]
@[simp] theorem take_active : (take c s).active j = s.active j := by simp [State.active]

/-- Taking a command changes nothing but the work handed over. -/
theorem take_eq : take c s = { s with handed := (take c s).handed } := by
  unfold take; split <;> rfl

/-- A command that was not handed over leaves the work handed over as it stands. -/
theorem take_none (h : c ∉ s.handed) : take c s = s := by
  unfold take
  split
  · rename_i h'; exact absurd (List.mem_of_find?_eq_some h') h
  · rfl

/-! ## Numbers in bytes (R185) -/

theorem toBe_length : ∀ n v, (toBe n v).length = n
  | 0, _ => rfl
  | n + 1, v => by simp [toBe, toBe_length n]

end Sys2Proof.Machine
end

