-- ==== Sys2Proof/Laws/Changes.lean ====
section
/-! SUPPORT. Everything a command can do, said once: `Change` lists the elementary changes with what each guarantees,
and `exec_changes` (Laws/Exec.lean) says that a command's effect is a run of them. An invariant that each elementary
change keeps is kept by every command. -/

namespace Sys2Proof.Machine

set_option Elab.async false

open Sys2Proof

/-- The bounds of an active copy on which figures rest. -/
def SectionParams.Bounded (p : SectionParams) : Prop :=
  p.sustainSamples ≤ 4096 ∧ p.offsetLimit ≤ 2000 ∧ p.maxAttempts ≤ 7

/-- Every active copy is bounded. -/
def State.ActiveBounded (s : State) : Prop := ∀ k p, s.active k = some p → p.Bounded

/-- What a command's changes rest on: every active copy is bounded, and a section without one has no breaker timer
running in OFF, and the figures lie within their ranges. -/
def State.Known (s : State) : Prop :=
  s.ActiveBounded ∧ (∀ k, s.active k = none → (s.sec k).seq.state = .off → (s.sec k).seq.breakerTimer = none) ∧
  ∀ k, (s.sec k).Figures

/-- A command placed, or none. -/
def placeOpt (k : Sec) (c : Option BreakerCmd) (s : State) : State :=
  match c with
  | none => s
  | some c => placeCommand k c s

/-- What holds when a section's sequencer goes to `q` and places `c`: R82, R86, R97, R107. -/
structure SeqChange (V : Prop) (s : State) (k : Sec) (q : Seq) (c : Option BreakerCmd) : Prop where
  absent : V → s.active k = none → (s.sec k).seq.state = .off → (s.sec k).seq.breakerTimer = none →
    q.state = .off ∧ q.breakerTimer = none
  enabled : inService q.state = true → inService (s.sec k).seq.state = true ∨ s.isEnabled k = true
  coherent : (s.sec k).seq.Coherent → q.Coherent
  attempts : V → (s.sec k).seq.AttemptsOk → q.AttemptsOk
  loop : s.chip.estopClosed = false → stoppedState (s.sec k).seq.state = true → stoppedState q.state = true
  quiet : dead q.state = true → dead (s.sec k).seq.state = true ∨ c = some .openCmd
  command : c = some .testCmd ∨ c = some .closeCmd →
    q.state = .testing ∨ q.state = .closing ∨ (q.state = .maint ∧ s.chip.estopClosed = true)

/-- An elementary change. `V` is what is known of the state where the command began, and `A` whether a copy may be
activated. -/
inductive Change (V A : Prop) : State → State → Prop
  | figures (s : State) (k : Sec) (x : Section) : x.seq = (s.sec k).seq → x.copies = (s.sec k).copies →
      (V → (s.sec k).Figures → x.Figures) → Change V A s (s.modSec k fun _ => x)
  | stored (s : State) (k : Sec) (c : Copies) : c.active = (s.sec k).copies.active →
      ((s.sec k).copies.Ok k → c.Ok k) → Change V A s (s.modSec k fun x => { x with copies := c })
  | activated (s : State) (k : Sec) (x : Section) (new : SectionParams) : A → x.seq = (s.sec k).seq →
      x.copies.active = some new → ((s.sec k).copies.Ok k → x.copies.Ok k) → ((s.sec k).Figures → x.Figures) →
      (inService (s.sec k).seq.state = true → s.isEnabled k = true → new.enabled = true) →
      Change V A s (s.modSec k fun _ => x)
  | seq (s : State) (k : Sec) (q : Seq) (c : Option BreakerCmd) : SeqChange V s k q c →
      Change V A s (placeOpt k c (s.modSeq k fun _ => q))
  | ring (s : State) (r : Ring) : r.priority.Sublist s.ring.priority → (s.ring.Bounded → r.Bounded) →
      Change V A s { s with ring := r }
  | lower (s : State) (t dest : Nat) (reason : LowerReason) : s.hasTruck t = true →
      Change V A s (placePriority (.lower t dest reason) s)
  | notice (s : State) (key : Option Sec) (d : NoticeData) : (key = none ↔ d.priority ≤ 2) →
      Change V A s { s with mgmt := { s.mgmt with notices := raiseIn key d s.mgmt.notices } }
  | notices (s : State) (l : List Notice) : l.Sublist s.mgmt.notices →
      Change V A s { s with mgmt := { s.mgmt with notices := l } }
  | table (s : State) (t : TruckTable) : (s.table.Ok → t.Ok) → Change V A s { s with table := t }
  | chip (s : State) (c : Chip) : c.estopClosed = s.chip.estopClosed ∨ c.estopClosed = true →
      Change V A s { s with chip := c }
  | rest (s : State) (ramp : RampRecord) (handed : List Instr) (powerUp : Bool) (restart : Option Restarting) :
      (s.ramp.Ok → ramp.Ok) → Change V A s { s with
        ramp := ramp, handed := handed, mgmt := { s.mgmt with powerUp := powerUp, restart := restart } }
  | tick (s : State) : Change V A s s.tick

/-- A run of elementary changes. -/
inductive Changes (V A : Prop) : State → State → Prop
  | refl (s : State) : Changes V A s s
  | tail {a b c : State} : Changes V A a b → Change V A b c → Changes V A a c

theorem Changes.trans {V A : Prop} {a b c : State} (h : Changes V A a b) (h' : Changes V A b c) : Changes V A a c := by
  induction h' with
  | refl => exact h
  | tail _ hc ih => exact ih.tail hc

/-- A property that every elementary change keeps is kept by a run of them. -/
theorem Changes.induct {V A : Prop} {P : State → Prop} (hP : ∀ s t, Change V A s t → P s → P t) {a b : State}
    (h : Changes V A a b) : P a → P b := by
  induction h with
  | refl => exact id
  | tail _ hc ih => exact fun ha => hP _ _ hc (ih ha)

variable {V A : Prop} {a s : State}

/-! ## Changes within a section -/

theorem Section.Figures.congr {x y : Section} (h : x.Figures) (hm : y.meas = x.meas) (ha : y.acc = x.acc)
    (hp : y.prot = x.prot) (hc : y.copies.active = x.copies.active) : y.Figures := by
  obtain ⟨h1, h2, h3, h4, h5, h6, h7, h8, h9, h10⟩ := h
  constructor <;> simp only [hm, ha, hp, hc] <;> assumption

/-- A change of a section's figures that leaves its sequencer and copies. -/
theorem Changes.sec (h : Changes V A a s) (k : Sec) {f : Section → Section} (hs : (f (s.sec k)).seq = (s.sec k).seq)
    (hc : (f (s.sec k)).copies = (s.sec k).copies) (hf : V → (s.sec k).Figures → (f (s.sec k)).Figures) :
    Changes V A a (s.modSec k f) :=
  h.tail (Change.figures s k (f (s.sec k)) hs hc hf)

theorem Changes.meas (h : Changes V A a s) (k : Sec) {f : Meas → Meas}
    (hf : V → (s.sec k).Figures → { s.sec k with meas := f (s.sec k).meas }.Figures) :
    Changes V A a (s.modMeas k f) := h.sec k rfl rfl hf

theorem Changes.acc (h : Changes V A a s) (k : Sec) {f : Acc → Acc}
    (hf : V → (s.sec k).Figures → { s.sec k with acc := f (s.sec k).acc }.Figures) :
    Changes V A a (s.modAcc k f) := h.sec k rfl rfl hf

theorem Changes.prot (h : Changes V A a s) (k : Sec) {f : Prot → Prot}
    (hf : V → (s.sec k).Figures → { s.sec k with prot := f (s.sec k).prot }.Figures) :
    Changes V A a (s.modProt k f) := h.sec k rfl rfl hf

theorem Changes.adm (h : Changes V A a s) (k : Sec) (f : Adm → Adm) : Changes V A a (s.modAdm k f) :=
  h.sec k rfl rfl fun _ hx => hx.congr rfl rfl rfl rfl

/-- A change of a section's sequencer, with the command it places. -/
theorem Changes.seq (h : Changes V A a s) (k : Sec) {f : Seq → Seq} (c : Option BreakerCmd)
    (hq : SeqChange V s k (f (s.sec k).seq) c) : Changes V A a (placeOpt k c (s.modSeq k f)) :=
  h.tail (Change.seq s k (f (s.sec k).seq) c hq)

/-- What a change of timers and marks alone guarantees. -/
theorem SeqChange.same {k : Sec} {q : Seq} (hs : q.state = (s.sec k).seq.state)
    (he : q.expectation = (s.sec k).seq.expectation)
    (hn : q.attempts = (s.sec k).seq.attempts ∨ q.attempts = 0)
    (hb : s.active k = none → (s.sec k).seq.breakerTimer = none → q.breakerTimer = none) :
    SeqChange V s k q none where
  absent _ ha h1 h2 := ⟨hs.trans h1, hb ha h2⟩
  enabled h := .inl (hs ▸ h)
  coherent h := by simpa only [Seq.Coherent, hs, he] using h
  attempts _ h := by
    rcases hn with hn | hn
    · simpa only [Seq.AttemptsOk, hn, hs] using h
    · left; omega
  loop _ h := hs ▸ h
  quiet h := .inl (hs ▸ h)
  command h := by rcases h with h | h <;> cases h

/-- A change of timers and marks alone. -/
theorem Changes.marks (h : Changes V A a s) (k : Sec) {f : Seq → Seq}
    (hs : ∀ q, (f q).state = q.state := by intro _; rfl)
    (he : ∀ q, (f q).expectation = q.expectation := by intro _; rfl)
    (hn : ∀ q, (f q).attempts = q.attempts ∨ (f q).attempts = 0 := by intro _; exact .inl rfl)
    (hb : ∀ q, q.breakerTimer = none → (f q).breakerTimer = none := by intro _ e; first | exact e | rfl) :
    Changes V A a (s.modSeq k f) := h.seq k none (SeqChange.same (hs _) (he _) (hn _) fun _ => hb _)

/-! ## The ring, the table, the rest -/

theorem Changes.ring (h : Changes V A a s) (r : Ring) (hp : r.priority.Sublist s.ring.priority)
    (hb : s.ring.Bounded → r.Bounded) : Changes V A a { s with ring := r } := h.tail (.ring s r hp hb)

theorem Changes.table (h : Changes V A a s) (t : TruckTable) (ht : s.table.Ok → t.Ok) :
    Changes V A a { s with table := t } := h.tail (.table s t ht)

theorem Changes.chip (h : Changes V A a s) (c : Chip) (hc : c.estopClosed = s.chip.estopClosed ∨ c.estopClosed = true) :
    Changes V A a { s with chip := c } := h.tail (.chip s c hc)

theorem Changes.handed (h : Changes V A a s) (l : List Instr) : Changes V A a { s with handed := l } :=
  h.tail (.rest s s.ramp l s.mgmt.powerUp s.mgmt.restart id)

theorem Changes.withRestart (h : Changes V A a s) (r : Option Restarting) : Changes V A a (s.withRestart r) :=
  h.tail (.rest s s.ramp s.handed s.mgmt.powerUp r id)

theorem Changes.hand (h : Changes V A a s) (c : Instr) : Changes V A a (hand c s) := h.handed _

theorem Changes.take (h : Changes V A a s) (c : Instr) : Changes V A a (take c s) := by
  unfold Machine.take
  split
  · exact h.handed _
  · exact h

theorem Changes.ringError (h : Changes V A a s) : Changes V A a (ringError s) :=
  h.ring _ (List.Sublist.refl _) fun b => ⟨Nat.min_le_left _ _, b.forward, b.ordinary, b.run, b.payloads, b.line⟩

theorem Changes.offer (h : Changes V A a s) (f : OrdinaryFrame) : Changes V A a (offer f s) := by
  unfold Machine.offer
  split
  · rename_i hp
    refine h.ring _ (List.Sublist.refl _) fun b => ⟨b.errors, b.forward, ?_, b.run, b.payloads, b.line⟩
    simp [hasPlace] at hp ⊢
    omega
  · exact h

/-- A claim leaves all but the count of claimed places, and keeps the lane within 16. -/
theorem claim_eq_some {n : Nat} {t : State} (h : claim n s = some t) :
    s.ring.ordinary.length + s.ring.claimed + n ≤ 16 ∧
      t = { s with ring := { s.ring with claimed := s.ring.claimed + n } } := by
  unfold claim at h
  split at h
  · exact ⟨‹_›, by simpa using h.symm⟩
  · cases h

theorem Changes.claim (h : Changes V A a s) {n : Nat} {t : State} (hc : claim n s = some t) : Changes V A a t := by
  obtain ⟨hle, rfl⟩ := claim_eq_some hc
  exact h.ring _ (List.Sublist.refl _) fun b => ⟨b.errors, b.forward, by simpa [Nat.add_assoc] using hle, b.run, b.payloads, b.line⟩

theorem Changes.fill (h : Changes V A a s) (f : OrdinaryFrame) : Changes V A a (fill f s) := by
  unfold Machine.fill
  split
  · exact h
  · refine h.ring _ (List.Sublist.refl _) fun b => ⟨b.errors, b.forward, ?_, b.run, b.payloads, b.line⟩
    have := b.ordinary
    simp
    omega

theorem Changes.placeGrant (h : Changes V A a s) (f : OrdinaryFrame) : Changes V A a (placeGrant f s) := by
  unfold Machine.placeGrant
  split
  · exact h
  · rename_i hc
    exact (h.claim hc).fill f

theorem Changes.raise (h : Changes V A a s) (key : Option Sec) (d : NoticeData)
    (hk : key = none ↔ d.priority ≤ 2) : Changes V A a (raise key d s) := by
  unfold Machine.raise
  have h1 := h.tail (Change.notice s key d hk)
  dsimp only
  split
  · exact h1.offer _
  · exact h1

theorem Changes.raiseSec (h : Changes V A a s) (k : Sec) (d : NoticeData) (hd : 2 < d.priority) :
    Changes V A a (Machine.raise (some k) d s) := h.raise _ _ ⟨nofun, fun h => absurd h (by omega)⟩

theorem Changes.offerDeny (h : Changes V A a s) (t : Nat) (r : DenyReason) (k : Sec) :
    Changes V A a (offerDeny t r k s) := by
  unfold Machine.offerDeny
  split
  · exact h
  · exact h.offer _

theorem Changes.offerWait (h : Changes V A a s) (t n : Nat) (k : Sec) : Changes V A a (offerWait t n k s) := by
  unfold Machine.offerWait
  split
  · exact h
  · exact h.offer _

theorem Changes.placeLower (h : Changes V A a s) {t : Nat} (r : LowerReason) (k : Sec) (ht : s.hasTruck t = true) :
    Changes V A a (placeLower t r k s) := by
  unfold Machine.placeLower
  split
  · exact h
  · exact h.tail (.lower s _ _ _ ht)

/-! ## Truck records -/

theorem hasTruck_iff (s : State) (t : Nat) : s.hasTruck t = true ↔ t ∈ s.table.trucks.map (·.id) := by
  simp [State.hasTruck, List.any_eq_true]

theorem hasTruck_of_truck {t : Nat} {r : Truck} (h : s.truck t = some r) : s.hasTruck t = true := by
  simp only [State.truck] at h
  simp only [State.hasTruck, List.any_eq_true]
  exact ⟨r, List.mem_of_find?_eq_some h, by simpa using List.find?_some h⟩

/-- Changing a record without its id and class keeps the table in order. -/
theorem Changes.truck (h : Changes V A a s) (t : Nat) {f : Truck → Truck}
    (hi : ∀ r, (f r).id = r.id := by intro _; rfl) (hc : ∀ r, (f r).cls = r.cls := by intro _; rfl) : Changes V A a (s.modTruck t f) := by
  refine h.table _ fun ok => ⟨ok.fleetOrder, ok.fleetSize, ?_, by simpa using ok.size, ok.generation, ?_⟩
  · have := State.modTruck_ids s t f hi
    simp only [State.modTruck] at this
    rw [this]; exact ok.ids
  · intro r hr
    simp only [List.mem_map] at hr
    obtain ⟨r', hr', rfl⟩ := hr
    have h1 : (if r'.id = t then f r' else r').cls = r'.cls := by split <;> simp [hc]
    show s.table.classes[(if r'.id = t then f r' else r').cls].defined = true
    simp only [h1]
    exact ok.defined r' hr'

theorem modTruck_hasTruck (s : State) (t u : Nat) {f : Truck → Truck} (hi : ∀ r, (f r).id = r.id) :
    (s.modTruck t f).hasTruck u = s.hasTruck u := by
  rw [Bool.eq_iff_iff, hasTruck_iff, hasTruck_iff, State.modTruck_ids s t f hi]

theorem Changes.removeRecord (h : Changes V A a s) (t : Nat) : Changes V A a (removeRecord t s) := by
  unfold Machine.removeRecord
  split
  · refine h.table _ fun ok => ⟨ok.fleetOrder, ok.fleetSize, ?_, ?_, by simp; omega, ?_⟩
    · exact ((List.filter_sublist).map _).nodup ok.ids
    · exact Nat.le_trans (List.length_filter_le _ _) ok.size
    · exact fun r hr => ok.defined r (List.mem_filter.mp hr).1
  · exact h

theorem Changes.becomeIdle (h : Changes V A a s) (t : Nat) : Changes V A a (becomeIdle t s) := by
  unfold Machine.becomeIdle
  dsimp only
  have h1 : Changes V A a (s.modTruck t Truck.toIdle) := h.truck t
  split
  · exact h1.removeRecord t
  · exact h1

theorem Changes.dropEntry (h : Changes V A a s) (k : Sec) (t : Nat) : Changes V A a (dropEntry k t s) := h.adm k _

end Sys2Proof.Machine
end

