-- ==== Sys2Proof/Laws/Still.lean ====
section
/-! SUPPORT. What the notices, grants and lowerings leave as it stood: every sequencer's state, every copy and the
chip-level state. -/

namespace Sys2Proof.Machine

set_option Elab.async false

open Sys2Proof

/-- Every section's sequencer and copies, the chip-level state and the straps are the same. -/
structure Still (s t : State) : Prop where
  seq : ∀ j, (t.sec j).seq = (s.sec j).seq
  copies : ∀ j, (t.sec j).copies = (s.sec j).copies
  chip : t.chip = s.chip
  straps : t.straps = s.straps
  pending : t.pending = s.pending

theorem Still.refl (s : State) : Still s s := ⟨fun _ => rfl, fun _ => rfl, rfl, rfl, rfl⟩

theorem Still.trans {a b c : State} (h : Still a b) (h' : Still b c) : Still a c :=
  ⟨fun j => (h'.seq j).trans (h.seq j), fun j => (h'.copies j).trans (h.copies j), h'.chip.trans h.chip,
   h'.straps.trans h.straps, h'.pending.trans h.pending⟩

theorem Still.active {a b : State} (h : Still a b) (j : Sec) : b.active j = a.active j := by
  simp only [State.active, h.copies]

variable {a s : State}

theorem Still.sec (h : Still a s) (k : Sec) {f : Section → Section} (hs : (f (s.sec k)).seq = (s.sec k).seq)
    (hc : (f (s.sec k)).copies = (s.sec k).copies) : Still a (s.modSec k f) :=
  h.trans ⟨fun j => by simp only [State.modSec_sec]; split <;> simp_all,
    fun j => by simp only [State.modSec_sec]; split <;> simp_all, rfl, rfl, rfl⟩

theorem Still.meas (h : Still a s) (k : Sec) (f : Meas → Meas) : Still a (s.modMeas k f) := h.sec k rfl rfl
theorem Still.acc (h : Still a s) (k : Sec) (f : Acc → Acc) : Still a (s.modAcc k f) := h.sec k rfl rfl
theorem Still.prot (h : Still a s) (k : Sec) (f : Prot → Prot) : Still a (s.modProt k f) := h.sec k rfl rfl
theorem Still.adm (h : Still a s) (k : Sec) (f : Adm → Adm) : Still a (s.modAdm k f) := h.sec k rfl rfl

/-- A change of the ring, the table, the notices or the work handed over. -/
theorem Still.rest (h : Still a s) {t : State} (hs : t.sections = s.sections) (hc : t.chip = s.chip)
    (ht : t.straps = s.straps) (hp : t.pending = s.pending) : Still a t :=
  h.trans ⟨fun j => by simp only [State.sec, hs], fun j => by simp only [State.sec, hs], hc, ht, hp⟩

theorem Still.truck (h : Still a s) (t : Nat) (f : Truck → Truck) : Still a (s.modTruck t f) :=
  h.rest rfl rfl rfl rfl

theorem Still.placePriority (h : Still a s) (f : PriorityFrame) : Still a (placePriority f s) :=
  h.rest rfl rfl rfl rfl

theorem Still.placeCommand (h : Still a s) (k : Sec) (c : BreakerCmd) : Still a (placeCommand k c s) := by
  unfold Machine.placeCommand; split
  · exact h
  · exact h.placePriority _

theorem Still.offer (h : Still a s) (f : OrdinaryFrame) : Still a (offer f s) := by
  unfold Machine.offer; split
  · exact h.rest rfl rfl rfl rfl
  · exact h

theorem Still.placeGrant (h : Still a s) (f : OrdinaryFrame) : Still a (placeGrant f s) := by
  unfold Machine.placeGrant; split
  · exact h
  · rename_i hc
    obtain ⟨-, rfl⟩ := claim_eq_some hc
    unfold fill; split <;> exact h.rest rfl rfl rfl rfl

theorem Still.raise (h : Still a s) (key : Option Sec) (d : NoticeData) : Still a (raise key d s) := by
  unfold Machine.raise; dsimp only; split
  · apply Still.offer; exact h.rest rfl rfl rfl rfl
  · exact h.rest rfl rfl rfl rfl

theorem Still.placeLower (h : Still a s) (t : Nat) (r : LowerReason) (k : Sec) : Still a (placeLower t r k s) := by
  unfold Machine.placeLower; split
  · exact h
  · exact h.placePriority _

theorem Still.offerDeny (h : Still a s) (t : Nat) (r : DenyReason) (k : Sec) : Still a (offerDeny t r k s) := by
  unfold Machine.offerDeny; split
  · exact h
  · exact h.offer _

theorem Still.removeRecord (h : Still a s) (t : Nat) : Still a (removeRecord t s) := by
  unfold Machine.removeRecord; split
  · exact h.rest rfl rfl rfl rfl
  · exact h

theorem Still.becomeIdle (h : Still a s) (t : Nat) : Still a (becomeIdle t s) := by
  unfold Machine.becomeIdle; dsimp only; split
  · exact (h.truck t _).removeRecord t
  · exact h.truck t _

theorem Still.foldl {α : Type} {f : State → α → State} (hf : ∀ s x, Still a s → Still a (f s x)) (l : List α) :
    ∀ {s}, Still a s → Still a (l.foldl f s) := by
  induction l with
  | nil => exact id
  | cons x l ih => exact fun h => ih (hf _ x h)

theorem Still.lowerCore (h : Still a s) (t : Nat) (r : LowerReason) : Still a (lowerCore t r s).1 := by
  unfold Machine.lowerCore
  split
  · exact h
  · split
    · dsimp only
      apply Still.placeLower
      apply Still.truck
      split
      · exact h
      · exact h.adm _ _
    · exact h

theorem Still.lowerEach (r : LowerReason) (ts : List Nat) : ∀ {s}, Still a s → Still a (lowerEach r ts s).1 := by
  induction ts with
  | nil => exact id
  | cons t ts ih => exact fun h => ih (h.lowerCore t r)

theorem Still.recompute (h : Still a s) (k : Sec) : Still a (recompute k s) := h.adm k _

theorem Still.dropHandovers (h : Still a s) (k : Sec) : Still a (dropHandovers k s) :=
  Still.lowerEach _ _ (h.adm k _)

theorem Still.denyQueued (h : Still a s) (r : DenyReason) (t : Nat) : Still a (denyQueued r t s) := by
  unfold Machine.denyQueued; split
  · exact h
  · split
    · exact (h.becomeIdle t).offerDeny _ _ _
    · exact h

theorem Still.denyQueue (h : Still a s) (k : Sec) (r : DenyReason) : Still a (denyQueue k r s) :=
  Still.foldl (fun _ t h => h.denyQueued r t) _ (h.adm k _)

theorem Still.restartWatchdog (h : Still a s) (k : Sec) : Still a (restartWatchdog k s) := by
  unfold Machine.restartWatchdog; split
  · exact h.meas k _
  · exact h

theorem Still.measNotice (h : Still a s) (k : Sec) (new : SecState) : Still a (measNotice k new s) := by
  unfold Machine.measNotice
  split <;> first | exact h | exact h.restartWatchdog k | exact (h.meas k _).restartWatchdog k

theorem Still.admNotice (h : Still a s) (k : Sec) (new : SecState) (c : NoticeCause) :
    Still a (admNotice k new c s) := by
  unfold Machine.admNotice
  have h1 := (h.adm k fun a => { a with view := new }).recompute k
  dsimp only
  split
  · split <;> split
    · exact (h1.dropHandovers _).denyQueue _ _
    · exact h1.denyQueue _ _
    · exact h1.dropHandovers _
    · exact h1
  · exact h1

theorem Still.protNotice (h : Still a s) (k : Sec) (new : SecState) : Still a (protNotice k new s) := by
  unfold Machine.protNotice
  dsimp only
  repeat' split
  all_goals
    repeat' first
      | exact h
      | apply Still.recompute
      | apply Still.prot

theorem Still.notifyState (h : Still a s) (k : Sec) (new : SecState) (c : NoticeCause) (told : ProtTold) :
    Still a (notifyState k new c told s) := by
  unfold Machine.notifyState
  dsimp only
  split
  · exact ((h.measNotice k new).admNotice k new c).protNotice k new
  · exact (h.measNotice k new).admNotice k new c

end Sys2Proof.Machine
end

