-- ==== Sys2Proof/Laws/Blocks.lean ====
section
/-! SUPPORT. The notices, the admission pass and all it leads to, and the sequencer's own moves, each as a run of
elementary changes. -/

namespace Sys2Proof.Machine

set_option Elab.async false

open Sys2Proof

variable {V A : Prop} {a s : State}

theorem Changes.foldl {α : Type} {f : State → α → State} (hf : ∀ s x, Changes V A a s → Changes V A a (f s x))
    (l : List α) : ∀ {s}, Changes V A a s → Changes V A a (l.foldl f s) := by
  induction l with
  | nil => exact id
  | cons x l ih => exact fun h => ih (hf _ x h)

/-! ## The notices -/

theorem Section.Figures.setMeas {x : Section} (h : x.Figures) {m : Meas} (hm : m.Ok)
    (hw : m.watchdog ≠ none → x.copies.active.any (·.enabled) = true) : { x with meas := m }.Figures :=
  ⟨hm, hw, h.books, h.result, h.captureNo, h.heat, h.history, h.sustained, h.run, h.last⟩

theorem Section.Figures.setProt {x : Section} (h : x.Figures) {p : Prot} (hh : p.history.length ≤ 5)
    (hs : p.sustained ≤ 4096) (hr : p.sustained ≤ x.copies.active.elim 0 (·.sustainSamples))
    (hl : ∀ l, p.last = some l → l.Ok) : { x with prot := p }.Figures :=
  ⟨h.meas, h.watchdog, h.books, h.result, h.captureNo, h.heat, hh, hs, hr, hl⟩

theorem Section.Figures.setAcc {x : Section} (h : x.Figures) {c : Acc} (hb : c.books.Ok) (hr : c.result.books.Ok)
    (hn : c.result.captureNo < 65536) (hh : c.heat ≤ max32) : { x with acc := c }.Figures :=
  ⟨h.meas, h.watchdog, hb, hr, hn, hh, h.history, h.sustained, h.run, h.last⟩

/-- A change of measurement marks: each figure as it was or at a value of its range. -/
theorem Meas.Ok.marks {m n : Meas} (h : m.Ok) (hc : n.currents = m.currents := by rfl)
    (hv : n.voltages = m.voltages := by rfl) (ho : n.offset = m.offset := by rfl)
    (hw : n.offsetValid = m.offsetValid := by rfl) (hb : n.badRun ≤ 16 ∨ n.badRun = m.badRun := by exact .inr rfl)
    (hq : n.lastSeq = m.lastSeq ∨ (∀ q, n.lastSeq = some q → q ≤ 255) := by first | exact .inl rfl | exact .inr nofun)
    (hi : n.iPrev = m.iPrev ∨ n.iPrev = none := by first | exact .inl rfl | exact .inr rfl)
    (hl : n.cal = m.cal ∨ (∀ c, n.cal = some c → c.Ok) := by first | exact .inl rfl | exact .inr nofun) : n.Ok where
  lastSeq := hq.elim (fun e => by rw [e]; exact h.lastSeq) id
  offset := by rw [ho]; exact h.offset
  invalid := by rw [ho, hw]; exact h.invalid
  currents := by rw [hc]; exact h.currents
  voltages := by rw [hv]; exact h.voltages
  range := by rw [hc]; exact h.range
  volts := by rw [hv]; exact h.volts
  iPrev := hi.elim (fun e => by rw [e]; exact h.iPrev) fun e => by rw [e]; nofun
  badRun := hb.elim id fun e => by rw [e]; exact h.badRun
  cal := hl.elim (fun e => by rw [e]; exact h.cal) id

/-- A change of measurement marks that starts no watchdog. -/
theorem Changes.measMarks (h : Changes V A a s) (k : Sec) {f : Meas → Meas} (hf : ∀ m, m.Ok → (f m).Ok := by exact fun _ h => h.marks)
    (hw : ∀ m, (f m).watchdog = m.watchdog ∨ (f m).watchdog = none := by
      intro _; first | exact .inl rfl | exact .inr rfl) : Changes V A a (s.modMeas k f) :=
  h.meas k fun _ x => x.setMeas (hf _ x.meas)
    ((hw _).elim (fun e => by rw [e]; exact x.watchdog) fun e => by rw [e]; exact fun n => absurd rfl n)

/-- A change of protection marks that leaves history, counter and last sample, or empties them. -/
theorem Changes.protMarks (h : Changes V A a s) (k : Sec) {f : Prot → Prot}
    (hh : ∀ p, (f p).history = p.history ∨ (f p).history = [] := by intro _; first | exact .inl rfl | exact .inr rfl)
    (hs : ∀ p, (f p).sustained = p.sustained ∨ (f p).sustained = 0 := by
      intro _; first | exact .inl rfl | exact .inr rfl)
    (hl : ∀ p, (f p).last = p.last ∨ ∀ l, (f p).last = some l → l.Ok := by
      intro _; first | exact .inl rfl | exact .inr nofun) :
    Changes V A a (s.modProt k f) :=
  h.prot k fun _ x => x.setProt ((hh _).elim (fun e => by rw [e]; exact x.history) fun e => by simp [e])
    ((hs _).elim (fun e => by rw [e]; exact x.sustained) fun e => by simp [e])
    ((hs _).elim (fun e => by rw [e]; exact x.run) fun e => by simp [e])
    ((hl _).elim (fun e => by rw [e]; exact x.last) id)

/-- A change of accounting marks that leaves books, result and heat. -/
theorem Changes.accMarks (h : Changes V A a s) (k : Sec) {f : Acc → Acc}
    (hb : ∀ c, (f c).books = c.books := by intro _; rfl) (hr : ∀ c, (f c).result = c.result := by intro _; rfl)
    (hh : ∀ c, (f c).heat = c.heat := by intro _; rfl) : Changes V A a (s.modAcc k f) :=
  h.acc k fun _ x => x.setAcc (by rw [hb]; exact x.books) (by rw [hr]; exact x.result) (by rw [hr]; exact x.captureNo)
    (by rw [hh]; exact x.heat)

theorem Changes.restartWatchdog (h : Changes V A a s) (k : Sec) : Changes V A a (restartWatchdog k s) := by
  unfold Machine.restartWatchdog; split
  · rename_i he
    exact h.meas k fun _ x => x.setMeas x.meas.marks fun _ => he
  · exact h

/-- Eight zeros are a window. -/
theorem Meas.Ok.clearWindows {m : Meas} (h : m.Ok) : m.clearWindows.Ok where
  lastSeq := h.lastSeq
  offset := h.offset
  invalid := h.invalid
  currents := rfl
  voltages := rfl
  range i hi := by simp [Meas.clearWindows] at hi; subst hi; decide
  volts v hv := by simp [Meas.clearWindows] at hv; subst hv; decide
  iPrev := h.iPrev
  badRun := h.badRun
  cal := h.cal

theorem Changes.measNotice (h : Changes V A a s) (k : Sec) (new : SecState) : Changes V A a (measNotice k new s) := by
  unfold Machine.measNotice
  split
  · exact (h.measMarks k (hf := fun _ m => m.clearWindows.marks)).restartWatchdog k
  · exact h.restartWatchdog k
  all_goals exact h

theorem Changes.lowerCore (h : Changes V A a s) (t : Nat) (r : LowerReason) : Changes V A a (lowerCore t r s).1 := by
  unfold Machine.lowerCore
  split
  · exact h
  · rename_i rec hrec
    split
    · dsimp only
      have ht := hasTruck_of_truck hrec
      apply Changes.placeLower
      · refine Changes.truck ?_ _
        split
        · exact h
        · exact h.dropEntry _ _
      · rw [modTruck_hasTruck (hi := by intro _; rfl)]
        split
        · exact ht
        · exact ht
    · exact h

theorem Changes.lowerEach (r : LowerReason) (ts : List Nat) :
    ∀ {s}, Changes V A a s → Changes V A a (lowerEach r ts s).1 := by
  induction ts with
  | nil => exact id
  | cons t ts ih => exact fun h => ih (h.lowerCore t r)

theorem Changes.recompute (h : Changes V A a s) (k : Sec) : Changes V A a (recompute k s) := h.adm k _

theorem Changes.dropHandovers (h : Changes V A a s) (k : Sec) : Changes V A a (dropHandovers k s) :=
  Changes.lowerEach _ _ (h.adm k _)

theorem Changes.denyQueued (h : Changes V A a s) (r : DenyReason) (t : Nat) : Changes V A a (denyQueued r t s) := by
  unfold Machine.denyQueued; split
  · exact h
  · split
    · exact (h.becomeIdle t).offerDeny _ _ _
    · exact h

theorem Changes.denyQueue (h : Changes V A a s) (k : Sec) (r : DenyReason) : Changes V A a (denyQueue k r s) :=
  Changes.foldl (fun _ t h => h.denyQueued r t) _ (h.adm k _)

theorem Changes.admNotice (h : Changes V A a s) (k : Sec) (new : SecState) (c : NoticeCause) :
    Changes V A a (admNotice k new c s) := by
  unfold Machine.admNotice
  have h1 := (h.adm k fun a => { a with view := new }).recompute k
  dsimp only
  split
  · split <;> split
    · exact (h1.dropHandovers _).denyQueue _ _
    · exact h1.denyQueue _ _
    · exact h1.dropHandovers _
    · exact h1
  · exact h1

theorem Changes.protNotice (h : Changes V A a s) (k : Sec) (new : SecState) : Changes V A a (protNotice k new s) := by
  unfold Machine.protNotice
  have h1 : Changes V A a (s.modProt k fun p => { p with view := new }) := h.protMarks k
  dsimp only
  repeat' split
  · exact ((h1.protMarks k).protMarks k).recompute k
  · exact (h1.protMarks k).recompute k
  · exact h1.protMarks k
  · exact h1

theorem Changes.notifyState (h : Changes V A a s) (k : Sec) (new : SecState) (c : NoticeCause) (told : ProtTold) :
    Changes V A a (notifyState k new c told s) := by
  unfold Machine.notifyState
  dsimp only
  split
  · exact ((h.measNotice k new).admNotice k new c).protNotice k new
  · exact (h.measNotice k new).admNotice k new c

/-! ## The sequencer's moves -/

theorem Changes.seqTo (h : Changes V A a s) (k : Sec) {f : Seq → Seq} (hq : SeqChange V s k (f (s.sec k).seq) none) :
    Changes V A a (s.modSeq k f) := h.seq k none hq

theorem Changes.setWatch (h : Changes V A a s) (k : Sec) (b : Bool) : Changes V A a (setWatch k b s) :=
  h.accMarks k

@[simp] theorem State.modSeq_modSeq (s : State) (k : Sec) (f g : Seq → Seq) :
    (s.modSeq k f).modSeq k g = s.modSeq k fun q => g (f q) := by
  simp [State.modSeq, State.modSec]

@[simp] theorem State.modSeq_startTimer (s : State) (k j : Sec) (f : Seq → Seq) (len : SectionParams → Nat) :
    (s.modSeq k f).startTimer j len = s.startTimer j len := by simp [State.startTimer]

theorem startTimer_none {s : State} {k : Sec} {len : SectionParams → Nat} (h : s.active k = none) :
    s.startTimer k len = none := by simp [State.startTimer, h]

/-- A sequencer goes where it expects the breaker open, and OPEN is placed. -/
theorem Changes.openTo (h : Changes V A a s) (k : Sec) {f : Seq → Seq}
    (habs : V → s.active k = none → (s.sec k).seq.state = .off → (f (s.sec k).seq).state = .off)
    (hen : inService (f (s.sec k).seq).state = true → inService (s.sec k).seq.state = true)
    (hst : (f (s.sec k).seq).state = .off ∨ (f (s.sec k).seq).state = .lockout ∨
      (f (s.sec k).seq).state = .tripped ∨ (f (s.sec k).seq).state = .maint)
    (hatt : V → (s.sec k).seq.AttemptsOk → (f (s.sec k).seq).AttemptsOk)
    (hloop : stoppedState (s.sec k).seq.state = true → (f (s.sec k).seq).state ≠ .tripped) :
    Changes V A a (commandOpen k (s.modSeq k f)) := by
  unfold Machine.commandOpen
  rw [State.modSeq_modSeq]
  refine h.seq k (some .openCmd) ⟨?_, fun e => .inl (hen e), fun _ => ?_, hatt, fun _ hs => ?_, fun _ => .inr rfl, ?_⟩
  · exact fun v ha hoff _ => ⟨habs v ha hoff, by simpa using startTimer_none ha⟩
  · rcases hst with e | e | e | e <;> simp [Seq.Coherent, e]
  · rcases hst with e | e | e | e <;> simp [stoppedState, e]
    exact absurd e (hloop hs)
  · intro hc; rcases hc with hc | hc <;> cases hc

/-- OPEN is placed as the section goes to OFF. -/
theorem Changes.openOff (h : Changes V A a s) (k : Sec) {f : Seq → Seq}
    (hn : (f (s.sec k).seq).attempts = 0 ∨
      ((f (s.sec k).seq).attempts = (s.sec k).seq.attempts ∧ (s.sec k).seq.state ≠ .lockout))
    (hst : ∀ q, (f q).state = .off := by intro _; rfl) :
    Changes V A a (commandOpen k (s.modSeq k f)) := by
  refine h.openTo k (fun _ _ _ => hst _) (fun e => by simp [hst, inService] at e) (.inl (hst _)) (fun _ ha => ?_)
    (fun _ e => by simp [hst] at e)
  rcases hn with hn | ⟨hn, hl⟩
  · left; omega
  · rcases ha with ha | ⟨-, ha⟩
    · left; omega
    · exact absurd ha hl

theorem Changes.stopSequence (h : Changes V A a s) (k : Sec) : Changes V A a (stopSequence k s) :=
  (h.marks k).setWatch k false

theorem Changes.drainEnd (h : Changes V A a s) (k : Sec) (hst : (s.sec k).seq.state = .draining) :
    Changes V A a (drainEnd k s) :=
  (h.openOff k (.inr ⟨rfl, by simp [hst]⟩)).notifyState k _ _ _

/-- TEST is placed for a section in TESTING, or in MAINT with the loop closed. -/
theorem Changes.commandTest (h : Changes V A a s) (k : Sec)
    (hst : (s.sec k).seq.state = .testing ∨ ((s.sec k).seq.state = .maint ∧ s.chip.estopClosed = true)) :
    Changes V A a (commandTest k s) := by
  have h1 := h.tail (Change.seq s k (s.sec k).seq (some .testCmd) ⟨fun _ _ h1 h2 => ⟨h1, h2⟩, .inl, id, fun _ => id,
    fun _ => id, .inl, fun _ => hst.elim .inl fun e => .inr (.inr e)⟩)
  have e : (s.modSeq k fun _ => (s.sec k).seq) = s := by
    simp only [State.modSeq, State.modSec, State.sec]
    have : s.sections.set k s.sections[k] = s.sections := by
      apply Vector.ext; intro i hi
      rw [Vector.getElem_set]; split <;> simp_all
    exact congrArg (fun v => ({ s with sections := v } : State)) this
  rw [e] at h1
  exact h1

/-- Entry to TESTING, from TRIPPED, or from OFF with an enabled copy and the loop closed (R92, R100). -/
theorem Changes.enterTesting (h : Changes V A a s) (k : Sec)
    (hst : (s.sec k).seq.state = .tripped ∨
      ((s.sec k).seq.state = .off ∧ s.isEnabled k = true ∧ s.chip.estopClosed = true)) :
    Changes V A a (enterTesting k s) := by
  unfold Machine.enterTesting
  have hact : (s.sec k).seq.state = .off → s.active k ≠ none := by
    intro e hn
    rcases hst with h' | ⟨-, h', -⟩
    · rw [e] at h'; cases h'
    · simp [State.isEnabled, hn] at h'
  have h1 : Changes V A a (s.modSeq k fun q => { q with state := .testing }) := by
    refine h.seqTo k ⟨fun _ ha e _ => absurd ha (hact e), fun _ => ?_, fun hc => ?_, fun _ ha => ?_, ?_,
      fun hd => by simp [dead] at hd, ?_⟩
    · rcases hst with e | ⟨-, e, -⟩
      · simp [e, inService]
      · exact .inr e
    · rcases hst with e | ⟨e, -, -⟩ <;> simpa [Seq.Coherent, e] using hc
    · rcases ha with ha | ⟨-, ha⟩
      · exact .inl ha
      · rcases hst with e | ⟨e, -, -⟩ <;> simp [e] at ha
    · intro hc hs
      rcases hst with e | ⟨-, -, e⟩
      · simp [e, stoppedState] at hs
      · simp [e] at hc
    · intro hc; rcases hc with hc | hc <;> cases hc
  have h2 := h1.notifyState k .testing .plain .byNotice
  have still := (Still.refl (s.modSeq k fun q => { q with state := .testing })).notifyState k .testing .plain .byNotice
  have h3 := h2.commandTest k (.inl (by rw [still.seq]; simp))
  have last : ∀ t : State, Changes V A a t →
      Changes V A a (t.modSeq k fun q => { q with testTimer := t.startTimer k (·.testMs) }) :=
    fun t ht => ht.marks k
  exact last _ h3

theorem Changes.leaveTripped (h : Changes V A a s) (k : Sec) (hst : (s.sec k).seq.state = .tripped) :
    Changes V A a (leaveTripped k s) := by
  unfold Machine.leaveTripped
  have h1 := (h.marks k (f := fun q => { q with recloseTimer := none, reclosePending := false, heatRequired := false })
   ).setWatch k false
  exact h1.enterTesting k (.inl (by simpa [Machine.setWatch] using hst))

theorem Changes.judgeReclose (h : Changes V A a s) (k : Sec) (hst : (s.sec k).seq.state = .tripped) :
    Changes V A a (judgeReclose k s) := by
  unfold Machine.judgeReclose
  have h1 := h.marks k (f := fun q => { q with reclosePending := true })
  dsimp only
  split
  · exact h.leaveTripped k hst
  · split
    · exact h1
    · exact h1.setWatch k true

theorem Changes.rejudge (h : Changes V A a s) (k : Sec) : Changes V A a (rejudge k s) := by
  unfold Machine.rejudge
  split
  · rename_i hc; exact h.judgeReclose k hc.1
  · exact h

theorem Changes.holdersEmptied (h : Changes V A a s) (k : Sec) : Changes V A a (holdersEmptied k s) := by
  unfold Machine.holdersEmptied
  split
  · rename_i hc; exact h.drainEnd k hc
  · exact h.rejudge k

/-! ## The pass -/

theorem Changes.grantOrdinary (h : Changes V A a s) (k : Sec) (e : QueueEntry) (r : Truck) :
    Changes V A a (grantOrdinary k e r s) := by
  unfold Machine.grantOrdinary
  have h1 : ∀ f : Truck → Truck, (∀ r, (f r).id = r.id) → (∀ r, (f r).cls = r.cls) →
      ∀ g, Changes V A a (((Machine.dropEntry k e.truck s).modTruck e.truck f).modAdm k g) :=
    fun f hi hc g => ((h.dropEntry k e.truck).truck e.truck hi hc).adm k g
  dsimp only
  split
  · exact h1 _ (by intro _; rfl) (by intro _; rfl) _
  · exact (h1 _ (by intro _; rfl) (by intro _; rfl) _).placeGrant _

theorem Changes.dropHolder (h : Changes V A a s) (k : Sec) (t : Nat) : Changes V A a (dropHolder k t s) := h.adm k _

theorem Changes.grantHandover (h : Changes V A a s) (k : Sec) (e : QueueEntry) (r : Truck) :
    Changes V A a (grantHandover k e r s).1 := by
  unfold Machine.grantHandover
  dsimp only
  have h1 := h.dropEntry k e.truck
  have h2 : Changes V A a (match r.hold with
      | none => Machine.dropEntry k e.truck s
      | some h => Machine.dropHolder h e.truck (Machine.dropEntry k e.truck s)) := by
    split
    · exact h1
    · exact h1.dropHolder _ _
  split
  · refine Changes.truck ?_ _
    exact h2.adm k _
  · apply Changes.placeGrant
    refine Changes.truck ?_ _
    exact h2.adm k _

theorem Changes.grantHead (h : Changes V A a s) (k : Sec) (e : QueueEntry) : Changes V A a (grantHead k e s).1 := by
  unfold Machine.grantHead
  split
  · exact h.dropEntry _ _
  · split
    · exact h.grantOrdinary _ _ _
    · exact h.grantHandover _ _ _

theorem Changes.passLoop (n : Nat) (k : Sec) : ∀ {s}, Changes V A a s → Changes V A a (passLoop n k s).1 := by
  induction n with
  | zero => exact id
  | succ n ih =>
    intro s h
    unfold Machine.passLoop
    split
    · exact h
    · split
      · split
        · exact ih (h.grantHead _ _)
        · exact h.adm k fun a => { a with stall := true }
      · exact h

theorem Changes.pass (h : Changes V A a s) (k : Sec) : Changes V A a (pass k s).1 := Changes.passLoop _ k (h.adm k _)

theorem Changes.runJob (h : Changes V A a s) (j : Job) : Changes V A a (runJob j s).1 := by
  unfold Machine.runJob
  cases j with
  | pass k => exact h.pass k
  | release k =>
    dsimp only
    unfold notifyIfEmpty
    split
    · exact (h.pass k).holdersEmptied k
    · exact h.pass k

theorem Changes.runJobs (n : Nat) : ∀ (jobs : List Job) {s}, Changes V A a s → Changes V A a (runJobs n jobs s) := by
  induction n with
  | zero => exact fun _ _ h => h
  | succ n ih =>
    intro jobs s h
    cases jobs with
    | nil => exact h
    | cons j js => exact ih _ (h.runJob j)

theorem Changes.settle (h : Changes V A a s) (jobs : List Job) : Changes V A a (settle jobs s) := Changes.runJobs _ _ h
theorem Changes.runPass (h : Changes V A a s) (k : Sec) : Changes V A a (runPass k s) := h.settle _
theorem Changes.runPasses (h : Changes V A a s) (ks : List Sec) : Changes V A a (runPasses ks s) := h.settle _

/-! ## What the other blocks ask of admission -/

theorem Changes.budgetNotice (h : Changes V A a s) (k : Sec) : Changes V A a (budgetNotice k s) := by
  unfold Machine.budgetNotice
  dsimp only
  split
  · exact (h.recompute k).runPass k
  · exact h.recompute k

theorem Changes.notifyLive (h : Changes V A a s) (k : Sec) : Changes V A a (notifyLive k s) :=
  (h.notifyState k _ _ _).runPass k

theorem Changes.release (h : Changes V A a s) (k : Sec) (t : Nat) : Changes V A a (release k t s) :=
  (h.dropHolder k t).settle _

theorem Changes.releaseToIdle (h : Changes V A a s) (t : Nat) (hold : Option Sec) :
    Changes V A a (releaseToIdle t hold s) := by
  unfold Machine.releaseToIdle
  split
  · exact h.becomeIdle t
  · exact (h.release _ t).becomeIdle t

theorem Changes.leaveQueue (h : Changes V A a s) (k : Sec) (t : Nat) : Changes V A a (leaveQueue k t s) :=
  (h.dropEntry k t).runPass k

theorem Changes.lower (h : Changes V A a s) (t : Nat) (r : LowerReason) : Changes V A a (Machine.lower t r s) :=
  (h.lowerCore t r).runPasses _

theorem Changes.lowerAll (h : Changes V A a s) (ts : List Nat) (r : LowerReason) : Changes V A a (lowerAll ts r s) :=
  (Changes.lowerEach r ts h).runPasses _

theorem Changes.revoke (h : Changes V A a s) (k : Sec) (r : LowerReason) : Changes V A a (revoke k r s) :=
  h.lowerAll _ _

theorem Changes.drain (h : Changes V A a s) (k : Sec) : Changes V A a (drain k s) := (h.revoke k _).denyQueue k _

theorem Changes.limitNotice (h : Changes V A a s) (k : Sec) : Changes V A a (limitNotice k s) := by
  unfold Machine.limitNotice
  have h1 := h.recompute k
  have h2 : Changes V A a (match s.active k with
      | none => Machine.recompute k s
      | some p => Machine.lowerAll ((Machine.recompute k s).overLimit k p.limitAmps) .limit (Machine.recompute k s)) := by
    split
    · exact h1
    · exact h1.lowerAll _ _
  dsimp only
  split
  · exact h2.runPass k
  · exact h2

theorem Changes.letGo (h : Changes V A a s) (t : Nat) (r : LowerReason) : Changes V A a (letGo t r s) := by
  unfold Machine.letGo
  split
  · exact h
  · split
    · exact h
    · exact h
    · exact (h.leaveQueue _ t).becomeIdle t
    all_goals exact h.lower t r

theorem Changes.waitIfQueued (h : Changes V A a s) (t : Nat) (k : Sec) : Changes V A a (waitIfQueued t k s) := by
  unfold Machine.waitIfQueued
  split
  · exact h.offerWait _ _ _
  · exact h

theorem Changes.raiseRequest (h : Changes V A a s) (t : Nat) (x : Sec) (d : Nat) :
    Changes V A a (raiseRequest t x d s) := by
  unfold Machine.raiseRequest
  split
  · exact h
  · split
    · exact h
    · exact h
    · exact h
    · exact h
    · split
      · exact h.offerDeny _ _ _
      · split
        · apply Changes.waitIfQueued
          apply Changes.runPass
          apply Changes.adm
          exact h.truck t
        · exact h.offerDeny _ _ _
    · split
      · exact h.offerDeny _ _ _
      · apply Changes.waitIfQueued
        apply Changes.adm
        exact h.truck t

theorem Changes.reportUp (h : Changes V A a s) (t : Nat) (x : Sec) (amps : Nat) : Changes V A a (reportUp t x amps s) := by
  unfold Machine.reportUp
  split
  · exact h
  · rename_i hr
    have ht := hasTruck_of_truck hr
    split
    · exact h.placeLower _ _ ht
    · exact h.placeLower _ _ ht
    · exact h.truck t
    · have h1 : Changes V A a (s.modTruck t fun r => { r with overCount := r.overCount + 1 }) :=
        h.truck t
      dsimp only
      split
      · split
        · exact h1.lower _ _
        · exact h1
      · exact h.truck t
    · exact h
    · exact h

theorem Changes.reportDown (h : Changes V A a s) (t : Nat) : Changes V A a (reportDown t s) := by
  unfold Machine.reportDown
  split
  · exact h
  · split
    · exact h.releaseToIdle _ _
    · exact h.releaseToIdle _ _
    · exact h.releaseToIdle _ _
    · split
      · exact h.releaseToIdle _ _
      · exact (h.leaveQueue _ _).releaseToIdle _ _
    all_goals exact h

theorem Changes.moveTruck (h : Changes V A a s) (t : Nat) (old new : Sec) : Changes V A a (moveTruck t old new s) := by
  unfold Machine.moveTruck
  split
  · exact h
  · split
    · exact h
    · exact h
    · exact (h.leaveQueue _ t).becomeIdle t
    · exact (h.releaseToIdle _ _).offerDeny _ _ _
    · split
      · apply Changes.runPass
        apply Changes.adm
        exact h.truck t
      · exact h.lower _ _
    · exact h.lower _ _

theorem Changes.grantExpires (h : Changes V A a s) (t : Nat) : Changes V A a (grantExpires t s) := by
  unfold Machine.grantExpires
  split
  · exact h
  · split
    · exact (h.releaseToIdle _ _).offerDeny _ _ _
    · exact h

theorem Changes.handoverExpires (h : Changes V A a s) (t : Nat) : Changes V A a (handoverExpires t s) := by
  unfold Machine.handoverExpires
  split
  · exact h
  · split
    · exact h.lower _ _
    · exact h

theorem Changes.lowerExpires (h : Changes V A a s) (t : Nat) : Changes V A a (lowerExpires t s) := by
  unfold Machine.lowerExpires
  split
  · exact h
  · split
    · dsimp only
      split
      · exact h.releaseToIdle _ _
      · exact (h.releaseToIdle _ _).raiseSec _ _ (by simp [NoticeData.priority])
    · exact h

/-! ## What a run of changes keeps -/

@[simp] theorem placeOpt_sec (k j : Sec) (c : Option BreakerCmd) : (placeOpt k c s).sec j = s.sec j := by
  unfold placeOpt placeCommand
  split
  · rfl
  · split <;> rfl

@[simp] theorem State.tick_sec (j : Sec) : s.tick.sec j = (s.sec j).tick := by simp [State.tick, State.sec]

theorem Change.active {t : State} (h : Change V False s t) (j : Sec) : t.active j = s.active j := by
  cases h with
  | figures k x _ hc => simp only [State.active, State.modSec_sec]; split <;> simp_all
  | stored k c hc => simp only [State.active, State.modSec_sec]; split <;> simp_all
  | activated k x new h => exact h.elim
  | seq k q c =>
    simp only [State.active, placeOpt_sec, State.modSeq_sec]
    split
    · rename_i e; subst e; rfl
    · rfl
  | tick => simp [State.active, Section.tick]
  | _ => rfl

/-- Without an activation the active copies stay as they are. -/
theorem Changes.active {t : State} (h : Changes V False s t) (j : Sec) : t.active j = s.active j :=
  h.induct (P := fun u => u.active j = s.active j) (fun _ _ hc e => (hc.active j).trans e) rfl

theorem Change.figuresKept {t : State} (h : Change V A s t) (v : V) (hs : ∀ k, (s.sec k).Figures) (j : Sec) :
    (t.sec j).Figures := by
  cases h with
  | figures k x _ _ hx =>
    simp only [State.modSec_sec]
    split
    · rename_i e; subst e; exact hx v (hs j)
    · exact hs j
  | stored k c hc =>
    simp only [State.modSec_sec]
    split
    · rename_i e; subst e; exact (hs j).congr rfl rfl rfl hc
    · exact hs j
  | activated k x new _ _ _ _ hx =>
    simp only [State.modSec_sec]
    split
    · rename_i e; subst e; exact hx (hs j)
    · exact hs j
  | seq k q c =>
    simp only [placeOpt_sec, State.modSeq_sec]
    split
    · rename_i e; subst e; exact (hs j).congr rfl rfl rfl rfl
    · exact hs j
  | tick =>
    have h := hs j
    simp only [State.tick_sec]
    refine ⟨h.meas.marks, fun hw => h.watchdog fun e => hw ?_, h.books, h.result, h.captureNo, h.heat, h.history,
      h.sustained, h.run, h.last⟩
    simp [Section.tick, Meas.tick, Timer.tick, e]
  | _ => exact hs j

/-- The figures stay within their ranges. -/
theorem Changes.figuresKept {t : State} (h : Changes V A s t) (v : V) (hs : ∀ k, (s.sec k).Figures) :
    ∀ k, (t.sec k).Figures :=
  h.induct (P := fun u => ∀ k, (u.sec k).Figures) (fun _ _ hc hu => hc.figuresKept v hu) hs

end Sys2Proof.Machine
end

