-- ==== Sys2Proof/Laws/Samples.lean ====
section
/-! SUPPORT. Captures, trips, breaker feedback, the emergency stop, and a sample's way through measurement, accounting
and protection, each as a run of elementary changes. -/

namespace Sys2Proof.Machine

set_option Elab.async false

open Sys2Proof

variable {V A : Prop} {a s : State}

/-! ## Captures and counts -/

theorem clearedBooks_ok {h : Nat} (hh : h ≤ max32) : (clearedBooks h).Ok := by
  constructor <;> simp [clearedBooks, Books.zero, energyMax, hh]

theorem Changes.captureAll (h : Changes V A a s) (kind : CaptureKind) (fell rose : Bool) :
    Changes V A a (captureAll kind fell rose s) := by
  refine Changes.foldl (fun s k h => h.acc k fun _ x => ?_) _ h
  refine x.setAcc ?_ x.books (Nat.mod_lt _ (by decide)) x.heat
  simp only [captureAt]
  split
  · exact clearedBooks_ok x.heat
  · exact x.books

theorem Changes.limitedCapture (h : Changes V A a s) : Changes V A a (limitedCapture s) := h.captureAll _ _ _

/-- A change of the books that keeps them in range. -/
theorem Changes.books (h : Changes V A a s) (k : Sec) {f : Acc → Acc}
    (hb : V → (s.sec k).acc.books.Ok → (s.sec k).acc.heat ≤ max32 → (f (s.sec k).acc).books.Ok)
    (hr : ∀ c, (f c).result = c.result := by intro _; rfl) (hh : ∀ c, (f c).heat = c.heat := by intro _; rfl) :
    Changes V A a (s.modAcc k f) :=
  h.acc k fun v x => x.setAcc (hb v x.books x.heat) (by rw [hr]; exact x.result) (by rw [hr]; exact x.captureNo)
    (by rw [hh]; exact x.heat)

theorem Changes.countTrip (h : Changes V A a s) (k : Sec) : Changes V A a (countTrip k s) :=
  h.books k (fun _ b _ => ⟨b.energy, b.count, b.peak, b.peakSeq, b.minV, b.maxH, b.longestRun, b.missed, Nat.min_le_left _ _⟩)

theorem Changes.countMissed (h : Changes V A a s) (k : Sec) (n : Nat) : Changes V A a (countMissed k n s) :=
  h.books k (fun _ b _ => ⟨b.energy, b.count, b.peak, b.peakSeq, b.minV, b.maxH, b.longestRun, Nat.min_le_left _ _, b.trips⟩)

theorem Changes.reportRun (h : Changes V A a s) (k : Sec) {c : Nat} (hc : V → c ≤ 4096) :
    Changes V A a (reportRun k c s) :=
  h.books k (fun v b _ => ⟨b.energy, b.count, b.peak, b.peakSeq, b.minV, b.maxH, Nat.max_le.mpr ⟨b.longestRun, hc v⟩, b.missed, b.trips⟩)

theorem Changes.lineTestReport (h : Changes V A a s) (k : Sec) : Changes V A a (lineTestReport k s) := by
  unfold Machine.lineTestReport
  exact h.protMarks k

theorem Changes.takeAnswer (h : Changes V A a s) (k : Sec) (r : TripRequest) (ans : TripAnswer) :
    Changes V A a (takeAnswer k r ans s) := by
  unfold Machine.takeAnswer
  have h1 : Changes V A a (s.modProt k fun p =>
      { p with outstanding := false, record := recordAnswer r ans p.record }) := h.protMarks k
  dsimp only
  split
  · exact h1
  · apply Changes.raiseSec _ _ _ (by simp [NoticeData.priority])
    split
    · exact (h1.protNotice k _).runPass k
    · exact h1.protNotice k _

/-! ## Breaker feedback and failure -/

theorem Changes.becomeLive (h : Changes V A a s) (k : Sec) (hst : (s.sec k).seq.state = .closing) :
    Changes V A a (becomeLive k s) := by
  apply Changes.notifyLive
  refine h.seqTo k ⟨fun _ _ e => ?_, fun _ => .inl ?_, fun hc => ?_, fun _ ha => ?_, fun _ e => ?_, fun e => ?_, ?_⟩
  · rw [hst] at e; cases e
  · simp [hst, inService]
  · simpa [Seq.Coherent, hst] using hc
  · rcases ha with ha | ⟨-, ha⟩
    · exact .inl ha
    · rw [hst] at ha; cases ha
  · simp [hst, stoppedState] at e
  · simp [dead] at e
  · intro hc; rcases hc with hc | hc <;> cases hc

theorem Changes.assertBackup (h : Changes V A a s) (k : Sec) : Changes V A a (assertBackup k s) := by
  apply Changes.raise _ _ _ ⟨fun _ => by simp [NoticeData.priority], fun _ => rfl⟩
  exact h.chip _ (.inl rfl)

theorem Changes.breakerFailure (h : Changes V A a s) (k : Sec) (c : FailCause)
    (hact : V → s.active k = none → (s.sec k).seq.state ≠ .off) : Changes V A a (breakerFailure k c s) := by
  unfold Machine.breakerFailure
  have h1 : Changes V A a (commandOpen k ((Machine.stopSequence k s).modSeq k fun q => { q with state := .lockout })) := by
    refine (h.stopSequence k).openTo k (fun v ha e => ?_) (fun e => by simp [inService] at e) (.inr (.inl rfl))
      (fun _ ha => ?_) (fun _ => by simp)
    · exact absurd (by simpa [Machine.stopSequence, Machine.setWatch] using e)
        (hact v (by simpa [Machine.stopSequence, Machine.setWatch] using ha))
    · rcases ha with ha | ⟨ha, -⟩
      · exact .inl ha
      · exact .inr ⟨ha, rfl⟩
  have h2 : ∀ (b : Bool) (t : State), Changes V A a t →
      Changes V A a (if b then t.modSeq k fun q => { q with breakerTimer := none } else t) := by
    intro b t ht
    cases b
    · exact ht
    · show Changes V A a (t.modSeq k fun q => { q with breakerTimer := none })
      exact ht.marks k
  have h3 : ∀ (b : Bool) (t : State), Changes V A a t → Changes V A a (if b then Machine.assertBackup k t else t) := by
    intro b t ht
    cases b
    · exact ht
    · exact ht.assertBackup k
  dsimp only
  apply Changes.raiseSec _ _ _ (by simp [NoticeData.priority])
  apply Changes.notifyState
  apply Changes.revoke
  have := h3 (failedToOpen c (s.sec k).seq.expectation && (s.sec k).seq.lastFeedback == .closed) _
    (h2 (failedToOpen c (s.sec k).seq.expectation || (s.sec k).seq.lastFeedback == .opened) _ h1)
  simpa only [Bool.or_eq_true, Bool.and_eq_true, beq_iff_eq, decide_eq_true_eq] using this

theorem Changes.feedback (h : Changes V A a s) (k : Sec) (pos : Position) (hact : s.active k ≠ none) :
    Changes V A a (feedback k pos s) := by
  unfold Machine.feedback
  have h1 : Changes V A a (s.modSeq k fun q => { q with lastFeedback := pos }) :=
    h.marks k
  dsimp only
  split
  · split
    · split
      · rename_i hc; exact h1.becomeLive k (by simpa using hc)
      · exact h1.marks k
    · exact h1
  · split
    · exact h1.breakerFailure k _ (fun _ e => absurd (by simpa using e) hact)
    · exact h1

theorem Changes.breakerExpires (h : Changes V A a s) (k : Sec)
    (hact : V → s.active k = none → (s.sec k).seq.state = .off → (s.sec k).seq.breakerTimer = none) :
    Changes V A a (breakerExpires k s) := by
  unfold Machine.breakerExpires
  dsimp only
  split
  · exact h
  · rename_i hb
    have h1 : Changes V A a (s.modSeq k fun q => { q with breakerTimer := none }) :=
      h.marks k
    split
    · split
      · rename_i hc; exact h1.becomeLive k (by simpa using hc.1)
      · exact h1
    · refine h1.breakerFailure k _ fun v e => ?_
      intro e'
      rw [State.modSeq_active] at e
      simp only [State.modSeq_sec, if_true] at e'
      exact hb (by rw [hact v e e']; rfl)

/-! ## Trips -/

@[simp] theorem placeCommand_sec (s : State) (j k : Sec) (c : BreakerCmd) : (placeCommand k c s).sec j = s.sec j := by
  unfold placeCommand; split <;> rfl

@[simp] theorem placeCommand_active (s : State) (j k : Sec) (c : BreakerCmd) :
    (placeCommand k c s).active j = s.active j := by simp [State.active]

theorem placeCommand_modSeq (s : State) (k : Sec) (c : BreakerCmd) (f : Seq → Seq) :
    (placeCommand k c s).modSeq k f = placeCommand k c (s.modSeq k f) := by
  unfold placeCommand
  rw [State.modSeq_active]
  split <;> rfl

theorem tripTarget_cases (p : Option SectionParams) (n : Nat) :
    tripTarget p n = .lockout ∨ (tripTarget p n = .tripped ∧ ∃ r, p = some r ∧ n ≤ r.maxAttempts) := by
  unfold tripTarget
  split
  · exact .inl rfl
  · split
    · exact .inl rfl
    · rename_i hc; exact .inr ⟨rfl, _, rfl, by omega⟩

/-- The states the trip path is taken from (R97). -/
def tripFrom : SecState → Bool
  | .testing | .closing | .live => true
  | .off | .draining | .tripped | .lockout | .maint => false

theorem Changes.tripPath (h : Changes V A a s) (k : Sec) (reason : TripReason) (told : ProtTold)
    (hst : tripFrom (s.sec k).seq.state = true) (hV : V → ∀ p, s.active k = some p → p.maxAttempts ≤ 7) :
    Changes V A a (tripPath k reason told s) := by
  unfold Machine.tripPath
  dsimp only
  apply Changes.notifyState
  apply Changes.revoke
  have hoff : (s.sec k).seq.state ≠ .off := by intro e; simp [e, tripFrom] at hst
  have hlock : (s.sec k).seq.state ≠ .lockout := by intro e; simp [e, tripFrom] at hst
  have hstop : stoppedState (s.sec k).seq.state = false := by
    cases e : (s.sec k).seq.state <;> simp_all [tripFrom, stoppedState]
  have hserv : inService (s.sec k).seq.state = true := by
    cases e : (s.sec k).seq.state <;> simp_all [tripFrom, inService]
  unfold enterTripped Machine.commandOpen
  simp only [placeCommand_modSeq, State.modSeq_modSeq, State.modSeq_startTimer, placeCommand_sec, placeCommand_active,
    State.modSeq_sec, State.modSeq_active, if_true]
  rcases tripTarget_cases (s.active k) ((s.sec k).seq.attempts + 1) with ht | ⟨ht, r, hr, hle⟩
  · simp only [ht]
    apply Changes.raiseSec _ _ _ (by simp [NoticeData.priority])
    refine h.seq k (some .openCmd) ⟨fun _ _ e => absurd e hoff, fun e => by simp [inService] at e, fun _ => rfl,
      fun _ ha => ?_, fun _ e => by simp [hstop] at e, fun _ => .inr rfl, fun e => ?_⟩
    · rcases ha with ha | ⟨-, ha⟩
      · exact .inr ⟨Nat.succ_le_succ ha, rfl⟩
      · exact absurd ha hlock
    · rcases e with e | e <;> cases e
  · simp only [ht]
    refine h.seq k (some .openCmd) ⟨fun _ _ e => absurd e hoff, fun _ => .inl hserv, fun _ => rfl,
      fun v _ => ?_, fun _ e => by simp [hstop] at e, fun _ => .inr rfl, fun e => ?_⟩
    · exact .inl (Nat.le_trans hle (hV v r hr))
    · rcases e with e | e <;> cases e

theorem Changes.tripDraining (h : Changes V A a s) (k : Sec) (hst : (s.sec k).seq.state = .draining) :
    Changes V A a (tripDraining k s) := by
  unfold Machine.tripDraining
  apply Changes.notifyState
  apply Changes.revoke
  exact h.openOff k (.inr ⟨rfl, by simp [hst]⟩)

theorem Changes.tripMaint (h : Changes V A a s) (k : Sec) (reason : TripReason)
    (hst : (s.sec k).seq.state = .maint) : Changes V A a (tripMaint k reason s) := by
  unfold Machine.tripMaint
  apply Changes.notifyState
  apply Changes.revoke
  apply Changes.raiseSec _ _ _ (by simp [NoticeData.priority])
  refine h.openTo k (fun _ _ e => by simp [hst] at e) (fun e => by simp [inService] at e) (.inr (.inl rfl))
    (fun _ ha => ?_) (fun _ => by simp)
  rcases ha with ha | ⟨-, ha⟩
  · exact .inl ha
  · simp [hst] at ha

theorem Changes.takeTripRequest (h : Changes V A a s) (k : Sec) (r : TripRequest)
    (hV : V → ∀ p, s.active k = some p → p.maxAttempts ≤ 7) : Changes V A a (takeTripRequest k r s) := by
  unfold Machine.takeTripRequest
  dsimp only
  split
  · apply Changes.hand
    apply Changes.countTrip
    unfold tripByState
    split
    all_goals rename_i hst
    · exact h.tripPath k _ _ (by simp [hst, tripFrom]) hV
    · exact h.tripPath k _ _ (by simp [hst, tripFrom]) hV
    · exact h.tripPath k _ _ (by simp [hst, tripFrom]) hV
    · exact h.tripDraining k hst
    · exact h.tripMaint k _ hst
    all_goals exact h
  · exact h.hand _

/-! ## Timers and requests of the sequencer -/

theorem Changes.lineTestPasses (h : Changes V A a s) (k : Sec) (hst : (s.sec k).seq.state = .testing) :
    Changes V A a (lineTestPasses k s) := by
  unfold Machine.lineTestPasses
  have h1 : Changes V A a (s.modSeq k fun q => { q with
      state := .closing, expectation := .closed, breakerTimer := s.startTimer k (·.breakerMs) }) := by
    refine h.seqTo k ⟨fun _ _ e => ?_, fun _ => .inl ?_, fun _ => rfl, fun _ ha => ?_, fun _ e => ?_, fun e => ?_, ?_⟩
    · simp [hst] at e
    · simp [hst, inService]
    · rcases ha with ha | ⟨-, ha⟩
      · exact .inl ha
      · simp [hst] at ha
    · simp [hst, stoppedState] at e
    · simp [dead] at e
    · intro hc; rcases hc with hc | hc <;> cases hc
  have h2 := h1.notifyState k .closing .plain .byNotice
  have still := (Still.refl (s.modSeq k fun q => { q with
    state := .closing, expectation := .closed, breakerTimer := s.startTimer k (·.breakerMs) })).notifyState k .closing
    .plain .byNotice
  revert h2 still
  generalize Machine.notifyState k .closing .plain .byNotice _ = t
  intro h2 still
  have hs := still.seq k
  simp only [State.modSeq_sec, if_true] at hs
  have h3 := h2.tail (Change.seq t k (t.sec k).seq (some .closeCmd) ⟨fun _ _ e1 e2 => ⟨e1, e2⟩, .inl, id, fun _ => id,
    fun _ => id, .inl, fun _ => .inr (.inl (by rw [hs]))⟩)
  have e : (t.modSeq k fun _ => (t.sec k).seq) = t := by
    simp only [State.modSeq, State.modSec, State.sec]
    have : t.sections.set k t.sections[k] = t.sections := by
      apply Vector.ext; intro i hi
      rw [Vector.getElem_set]; split <;> simp_all
    exact congrArg (fun v => ({ t with sections := v } : State)) this
  rw [e] at h3
  exact h3

theorem Changes.testExpires (h : Changes V A a s) (k : Sec) (hV : V → ∀ p, s.active k = some p → p.maxAttempts ≤ 7) :
    Changes V A a (testExpires k s) := by
  unfold Machine.testExpires
  have h1 : Changes V A a (s.modSeq k fun q => { q with testTimer := none }) :=
    h.marks k
  dsimp only
  split
  · exact h
  · split
    · exact h1
    · split
      · exact h1
      · rename_i hst
        have hst : (s.sec k).seq.state = .testing := by
          cases e : (s.sec k).seq.state <;> simp_all
        split
        · exact h1.lineTestPasses k (by simpa using hst)
        · unfold lineTestFails
          dsimp only
          apply Changes.raiseSec _ _ _ (by simp [NoticeData.priority])
          apply Changes.countTrip
          refine (h1.lineTestReport k).tripPath k _ _ ?_ ?_
          · simp [Machine.lineTestReport, hst, tripFrom]
          · simpa [Machine.lineTestReport] using hV

theorem Changes.recloseExpires (h : Changes V A a s) (k : Sec) : Changes V A a (recloseExpires k s) := by
  unfold Machine.recloseExpires
  have h1 : Changes V A a (s.modSeq k fun q => { q with recloseTimer := none }) :=
    h.marks k
  dsimp only
  split
  · exact h
  · split
    · rename_i hst; exact h1.judgeReclose k (by simpa using hst)
    · exact h1

theorem Changes.stableExpires (h : Changes V A a s) (k : Sec) : Changes V A a (stableExpires k s) := by
  unfold Machine.stableExpires
  dsimp only
  split
  · exact h
  · split
    · exact h.marks k (hn := by intro _; exact .inr rfl)
    · exact h.marks k

/-- A sequencer goes to OFF from a state in which it already expects the breaker open, or never leaves it. -/
theorem Changes.toOff (h : Changes V A a s) (k : Sec) {f : Seq → Seq} (hst : (f (s.sec k).seq).state = .off)
    (hd : dead (s.sec k).seq.state = true)
    (he : (f (s.sec k).seq).expectation = (s.sec k).seq.expectation)
    (hb : (f (s.sec k).seq).breakerTimer = (s.sec k).seq.breakerTimer)
    (hn : (f (s.sec k).seq).attempts = 0) : Changes V A a (s.modSeq k f) := by
  refine h.seqTo k ⟨fun _ _ _ e => ⟨hst, hb.trans e⟩, fun e => ?_, fun hc => ?_, fun _ _ => ?_, fun _ _ => ?_,
    fun _ => .inl hd, ?_⟩
  · simp [hst, inService] at e
  · revert hc hd
    simp only [Seq.Coherent, hst, he]
    cases (s.sec k).seq.state <;> simp [dead]
  · left; omega
  · simp [hst, stoppedState]
  · intro hc; rcases hc with hc | hc <;> cases hc

theorem Changes.takeOff (h : Changes V A a s) (k : Sec) : Changes V A a (takeOff k s) := by
  unfold Machine.takeOff
  dsimp only
  split
  all_goals rename_i hst
  · exact h
  · exact h
  · exact h
  · exact (h.openOff k (.inr ⟨rfl, by simp [hst]⟩)).notifyState k _ _ _
  · exact (h.openOff k (.inr ⟨rfl, by simp [hst]⟩)).notifyState k _ _ _
  · have h1 : Changes V A a (s.modSeq k fun q => { q with stableTimer := none, state := .draining }) := by
      refine h.seqTo k ⟨fun _ _ e => ?_, fun _ => .inl ?_, fun hc => ?_, fun _ ha => ?_, fun _ e => ?_, fun e => ?_, ?_⟩
      · simp [hst] at e
      · simp [hst, inService]
      · simpa [Seq.Coherent, hst] using hc
      · rcases ha with ha | ⟨-, ha⟩
        · exact .inl ha
        · simp [hst] at ha
      · simp [hst, stoppedState] at e
      · simp [dead] at e
      · intro hc; rcases hc with hc | hc <;> cases hc
    have h2 := (h1.notifyState k .draining .plain .byNotice).drain k
    split
    · rename_i hc; exact h2.drainEnd k hc.2
    · exact h2
  · apply Changes.notifyState
    apply Changes.setWatch
    exact h.toOff k rfl (by simp [hst, dead]) rfl rfl rfl
  · apply Changes.notifyState
    exact h.toOff k rfl (by simp [hst, dead]) rfl rfl rfl

/-! ## The emergency-stop loop -/

theorem Changes.estopChange (h : Changes V A a s) (b : Bool) : Changes V A a (estopChange b s) := by
  unfold Machine.estopChange
  dsimp only
  split
  · exact h
  · exact h.chip _ (.inl rfl)

theorem Changes.estopSection (h : Changes V A a s) (k : Sec) : Changes V A a (estopSection k s) := by
  unfold Machine.estopSection
  exact ((h.stopSequence k).openOff k (.inl rfl)).notifyState k _ _ _

theorem Changes.takeEach {f : Sec → State → State} (hf : ∀ {s} k, Changes V A a s → Changes V A a (f k s)) (l : List Sec) :
    ∀ {s}, Changes V A a s → Changes V A a (takeEach f l s).1 := by
  induction l with
  | nil => exact fun h => h
  | cons k l ih =>
    intro s h
    unfold Machine.takeEach
    split
    · exact ih (hf k h)
    · exact ih h

theorem Changes.estopSections (h : Changes V A a s) : Changes V A a (estopSections s).1 :=
  Changes.takeEach (fun k h => h.estopSection k) allSecs h

theorem Changes.emergencyStop (h : Changes V A a s) : Changes V A a (emergencyStop s) :=
  Changes.foldl (fun _ k h => h.denyQueue k .estop) _ (h.lowerAll _ _)

theorem Changes.fallingEdge (h : Changes V A a s) : Changes V A a (fallingEdge s) := by
  unfold Machine.fallingEdge
  dsimp only
  apply Changes.raise _ _ _ ⟨fun _ => by simp [NoticeData.priority], fun _ => rfl⟩
  apply Changes.limitedCapture
  apply Changes.emergencyStop
  apply Changes.estopSections
  exact h.chip _ (.inl rfl)

/-! ## A sample at accounting -/

theorem addEnergy_range (e p : Int) (h : -energyMax ≤ e ∧ e ≤ energyMax) :
    -energyMax ≤ addEnergy e p ∧ addEnergy e p ≤ energyMax := by
  unfold addEnergy
  split
  · exact h
  · simp only [energyMax]; omega

theorem addPower_ok {b : Books} (h : b.Ok) (x : Sample) : (addPower x b).Ok :=
  ⟨addEnergy_range _ _ h.energy, Nat.min_le_left _ _, h.peak, h.peakSeq, h.minV, h.maxH, h.longestRun, h.missed, h.trips⟩

/-- A sample's figures lie within their ranges (R16, R28). -/
structure Sample.Ok (x : Sample) : Prop where
  seq : x.seq ≤ 255
  current : x.iCorr.natAbs ≤ 32767
  volts : x.vAvg ≤ 65535

theorem addPeak_ok {b : Books} (h : b.Ok) {x : Sample} (hx : x.Ok) : (addPeak x b).Ok := by
  unfold addPeak
  split
  · exact ⟨h.energy, h.count, hx.current, fun q e => by cases e; exact hx.seq, h.minV, h.maxH, h.longestRun, h.missed, h.trips⟩
  · exact h

theorem addMinV_ok {b : Books} (h : b.Ok) (live : Bool) {x : Sample} (hx : x.Ok) : (addMinV live x b).Ok := by
  unfold addMinV
  split
  · exact ⟨h.energy, h.count, h.peak, h.peakSeq, fun v e => by cases e; exact hx.volts, h.maxH, h.longestRun, h.missed, h.trips⟩
  · exact h

theorem Changes.judgeOverflow (h : Changes V A a s) (k : Sec) (seq : Nat) : Changes V A a (judgeOverflow k seq s) := by
  unfold Machine.judgeOverflow
  dsimp only
  split
  · apply Changes.raiseSec _ _ _ (by simp [NoticeData.priority])
    exact h.books k (fun _ b _ => ⟨b.energy, b.count, b.peak, b.peakSeq, b.minV, b.maxH, b.longestRun, b.missed, b.trips⟩)
  · exact h

theorem Changes.judgeHeat (h : Changes V A a s) (k : Sec) (p : SectionParams) (seq : Nat) :
    Changes V A a (judgeHeat k p seq s) := by
  unfold Machine.judgeHeat
  have h1 : ∀ b, Changes V A a (s.modAcc k fun a => { a with derate := b }) := fun b => h.accMarks k
  dsimp only
  have h2 : ∀ (c c' : Bool) (b : Bool) (t : State), Changes V A a t →
      Changes V A a (if b then (Machine.rejudge k (Machine.setWatch k false t)) else t) := by
    intro _ _ b t ht
    cases b
    · exact ht
    · exact (ht.setWatch k false).rejudge k
  apply h2 true true
  split
  · exact h1 _
  · split
    · exact ((h1 _).budgetNotice k).raiseSec _ _ (by simp [NoticeData.priority])
    · exact ((h1 _).budgetNotice k).rejudge k

theorem nextHeat_le (heat : Nat) (i : Int) (p : SectionParams) : nextHeat heat i p ≤ max32 := Nat.min_le_left _ _

theorem Changes.accountSample (h : Changes V A a s) (k : Sec) (p : SectionParams) {x : Sample}
    (hx : V → x.Ok) : Changes V A a (accountSample k p x s) := by
  unfold Machine.accountSample
  dsimp only
  have h1 : Changes V A a (s.modAcc k fun a => { a with books := addPower x a.books }) :=
    h.books k (fun _ b _ => addPower_ok b x)
  have h2 := h1.judgeOverflow k x.seq
  revert h2
  generalize Machine.judgeOverflow k x.seq _ = t
  intro h2
  have h3 : ∀ live, Changes V A a (t.modAcc k fun a => { a with books := addMinV live x (addPeak x a.books) }) :=
    fun live => h2.books k (fun v b _ => addMinV_ok (addPeak_ok b (hx v)) live (hx v))
  have h4 : ∀ {t : State} (n : Nat), n ≤ max32 → Changes V A a t →
      Changes V A a (t.modAcc k fun a => { a with heat := n }) :=
    fun n hn ht => ht.acc k fun _ y => y.setAcc y.books y.result y.captureNo hn
  apply Changes.books _ k (fun _ b _ => ⟨b.energy, b.count, b.peak, b.peakSeq, b.minV, Nat.max_le.mpr ⟨b.maxH, nextHeat_le _ _ _⟩,
    b.longestRun, b.missed, b.trips⟩)
  apply Changes.judgeHeat
  exact h4 _ (nextHeat_le _ _ _) (h3 _)

/-! ## A sample at protection -/

theorem Changes.raiseTrip (h : Changes V A a s) (k : Sec) (r : TripRequest) : Changes V A a (raiseTrip k r s) := by
  unfold Machine.raiseTrip
  split
  · exact h
  · apply Changes.hand
    exact h.protMarks k

theorem Changes.lossReport (h : Changes V A a s) (k : Sec) (c : LossCause) (q : Option Nat) :
    Changes V A a (lossReport k c q s) := h.raiseTrip k _

theorem nextSustained_le (c : Nat) (i : Int) (p : SectionParams) : nextSustained c i p ≤ p.sustainSamples := by
  unfold nextSustained
  split
  · exact Nat.min_le_left _ _
  · exact Nat.zero_le _

theorem pushCondition_length (l : List Bool) (c : Bool) : (pushCondition l c).length ≤ 5 := by
  simp [pushCondition, newest]; omega

theorem Changes.keepHistory (h : Changes V A a s) (k : Sec) (p : SectionParams) (x : Sample) (broken : Bool)
    (iPrev : Option Int) (al : Nat) (hact : s.active k = some p) (hp : V → p.Bounded) :
    Changes V A a (keepHistory k p x broken iPrev al s) := by
  unfold Machine.keepHistory
  dsimp only
  have hs : ∀ c, V → nextSustained c x.iAvg p ≤ 4096 :=
    fun c v => Nat.le_trans (nextSustained_le _ _ _) (hp v).1
  apply Changes.reportRun
  · refine h.prot k fun v y => y.setProt (pushCondition_length _ _) (hs _ v) ?_ y.last
    have e : (s.sec k).copies.active = some p := hact
    rw [e]
    exact nextSustained_le _ _ _
  · intro v
    simp only [State.modProt_sec, if_true]
    exact hs _ v

theorem Changes.judgeVoltage (h : Changes V A a s) (k : Sec) (p : SectionParams) (x : Sample) :
    Changes V A a (judgeVoltage k p x s) := by
  unfold Machine.judgeVoltage
  have h1 : ∀ b, Changes V A a (s.modProt k fun q => { q with undervolt := b }) :=
    fun b => h.protMarks k
  dsimp only
  split
  · exact h1 _
  · split
    · exact ((h1 _).budgetNotice k).raiseSec _ _ (by simp [NoticeData.priority])
    · exact (h1 _).budgetNotice k

theorem Changes.protectSample (h : Changes V A a s) (k : Sec) (p : SectionParams) (x : Sample) (broken : Bool)
    (iPrev : Option Int) (hact : s.active k = some p) (hx : V → x.Ok) (hp : V → p.Bounded) :
    Changes V A a (protectSample k p x broken iPrev s) := by
  unfold Machine.protectSample
  dsimp only
  have h1 : Changes V A a (s.modProt k fun q => { q with
      last := some { seq := x.seq, iCorr := x.iCorr, vAvg := x.vAvg } }) :=
    h.prot k fun v y => y.setProt y.history y.sustained y.run fun l e => by
      cases e; exact ⟨(hx v).seq, (hx v).current, (hx v).volts⟩
  have h2 : ∀ (b : Bool) (t : State) (al : Nat), t.active k = some p → Changes V A a t →
      Changes V A a (if b then Machine.keepHistory k p x broken iPrev al t else t) := by
    intro b t al hk ht
    cases b
    · exact ht
    · exact ht.keepHistory k p x broken iPrev al hk hp
  have h3 := h2 (energised (s.sec k).prot.view) _ (s.allowance k) (by simpa using hact) h1
  revert h3
  generalize (if energised (s.sec k).prot.view = true then Machine.keepHistory k p x broken iPrev (s.allowance k) _
    else _) = t
  intro h3
  have h4 : ∀ (o : Option TripReason) (g : TripReason → TripRequest), Changes V A a (match o with
      | none => t
      | some reason => Machine.raiseTrip k (g reason) t) := by
    intro o g
    cases o
    · exact h3
    · exact h3.raiseTrip k _
  split
  · exact Changes.judgeVoltage (h4 _ _) k p x
  · exact h4 _ _

/-! ## A frame at measurement -/

theorem correct_range (b : Bool) (o r : Int) : (correct b o r).natAbs ≤ 32767 := by
  unfold correct
  dsimp only
  split <;> omega

theorem readRaw_range {r : Int} (h : r ≤ 32767) : (readRaw r).natAbs ≤ 32767 := by
  unfold readRaw; omega

theorem Changes.sensorLoss (h : Changes V A a s) (k : Sec) (c : LossCause) : Changes V A a (sensorLoss k c s) := by
  unfold Machine.sensorLoss
  have h1 : Changes V A a (s.modMeas k fun m => { m with cal := none }) := h.measMarks k
  dsimp only
  split
  · exact h1.lossReport k c _
  · exact h1.raiseSec _ _ (by simp [NoticeData.priority])

theorem Changes.watchdogExpires (h : Changes V A a s) (k : Sec) : Changes V A a (watchdogExpires k s) := by
  unfold Machine.watchdogExpires
  split
  · exact h
  · apply Changes.sensorLoss
    exact h.measMarks k

theorem Changes.calFeedback (h : Changes V A a s) (k : Sec) (pos : Position) : Changes V A a (calFeedback k pos s) := by
  unfold Machine.calFeedback
  split
  · apply Changes.raiseSec _ _ _ (by simp [NoticeData.priority])
    exact h.measMarks k
  · exact h

theorem Changes.calSample (h : Changes V A a s) (k : Sec) (p : SectionParams) {raw : Int} (hp : V → p.Bounded)
    (hr : raw ≤ 32767) : Changes V A a (calSample k p raw s) := by
  unfold Machine.calSample
  split
  · exact h
  · rename_i c hc
    dsimp only
    split
    · rename_i hn
      refine h.meas k fun _ x => x.setMeas (x.meas.marks (hl := .inr fun c' e => ?_)) x.watchdog
      cases e
      have h1 := x.meas.cal c hc
      have h2 := readRaw_range hr
      simp only [CalRun.Ok] at *
      omega
    · have h1 : Changes V A a (s.modMeas k fun m => { m with cal := none }) := h.measMarks k
      split
      · rename_i ho
        refine h1.meas k fun v x => x.setMeas ?_ x.watchdog
        exact ⟨x.meas.lastSeq, Nat.le_trans ho (hp v).2.1, nofun, x.meas.currents, x.meas.voltages, x.meas.range,
          x.meas.volts, x.meas.iPrev, x.meas.badRun, x.meas.cal⟩
      · exact h1.raiseSec _ _ (by simp [NoticeData.priority])

theorem Changes.takeSeq (h : Changes V A a s) (k : Sec) {q : Nat} (hq : q ≤ 255) (r : SeqResult) :
    Changes V A a (takeSeq k q r s) := by
  unfold Machine.takeSeq
  have h1 : Changes V A a (s.modMeas k fun m => { m with lastSeq := some q }) :=
    h.measMarks k (hf := fun _ m => m.marks (hq := .inr fun q' e => by cases e; exact hq))
  dsimp only
  split
  · exact h1.countMissed k _
  · exact h1

theorem Changes.badFrame (h : Changes V A a s) (k : Sec) (p : SectionParams) : Changes V A a (badFrame k p s) := by
  unfold Machine.badFrame
  have h1 : Changes V A a (s.modMeas k fun m => { m with badRun := min 16 (m.badRun + 1), iPrev := none }) :=
    h.measMarks k (hf := fun _ m => m.marks (hb := .inl (Nat.min_le_left _ _)))
  dsimp only
  split
  · apply Changes.sensorLoss
    exact h1.measMarks k
  · exact h1

theorem push_length {α : Type} (w : List α) (x : α) (h : w.length = 8) : (push w x).length = 8 := by
  simp [push, h]

/-- What a measurement frame brings lies within its fields (R17, R186). -/
structure Measurement.Ok (x : Measurement) : Prop where
  seq : x.seq ≤ 255
  current : x.current ≤ 32767
  voltage : x.voltage ≤ 65535

/-- The average of a voltage window is a voltage (R27). -/
theorem vAvgOf_le {w : List Nat} (hl : w.length = 8) (h : ∀ v ∈ w, v ≤ 65535) : vAvgOf w ≤ 65535 := by
  have : ∀ l : List Nat, (∀ v ∈ l, v ≤ 65535) → l.sum ≤ 65535 * l.length := by
    intro l
    induction l with
    | nil => simp
    | cons x l ih =>
      intro hl
      have h1 := hl x (List.mem_cons_self ..)
      have h2 := ih fun v hv => hl v (List.mem_cons_of_mem _ hv)
      simp only [List.sum_cons, List.length_cons]
      omega
  have := this w h
  unfold vAvgOf
  omega

/-- A good sample enters both windows (R27). -/
def windowed (k : Sec) (i : Int) (voltage : Nat) (s : State) : State :=
  s.modMeas k fun m => { m with
    badRun := 0, lossReported := false, currents := push m.currents i, voltages := push m.voltages voltage }

theorem Changes.windowed (h : Changes V A a s) (k : Sec) {i : Int} {v : Nat} (hi : i.natAbs ≤ 32767) (hv : v ≤ 65535) :
    Changes V A a (windowed k i v s) := by
  refine h.meas k fun _ y => y.setMeas ⟨y.meas.lastSeq, y.meas.offset, y.meas.invalid,
    push_length _ _ y.meas.currents, push_length _ _ y.meas.voltages, fun j hj => ?_, fun j hj => ?_, y.meas.iPrev,
    Nat.zero_le _, y.meas.cal⟩ y.watchdog
  · simp only [push, List.mem_append, List.mem_singleton] at hj
    rcases hj with hj | rfl
    · exact y.meas.range j (List.mem_of_mem_drop hj)
    · exact hi
  · simp only [push, List.mem_append, List.mem_singleton] at hj
    rcases hj with hj | rfl
    · exact y.meas.volts j (List.mem_of_mem_drop hj)
    · exact hv

theorem Changes.setPrev (h : Changes V A a s) (k : Sec) {i : Int} (hi : i.natAbs ≤ 32767) :
    Changes V A a (s.modMeas k fun m => { m with iPrev := some i }) :=
  h.meas k fun _ z => z.setMeas (Meas.Ok.mk z.meas.lastSeq z.meas.offset z.meas.invalid z.meas.currents z.meas.voltages
    z.meas.range z.meas.volts (fun j e => by cases e; exact hi) z.meas.badRun z.meas.cal) z.watchdog

theorem Changes.goodFrame (h : Changes V A a s) (k : Sec) (p : SectionParams) {x : Measurement} (hx : x.Ok) (gap : Bool)
    (hact : s.active k = some p) (hf : V → ∀ k, (a.sec k).Figures) (hp : V → p.Bounded) :
    Changes V A a (goodFrame k p x gap s) := by
  have hr := correct_range p.bidirectional (s.sec k).meas.offsetInForce x.current
  unfold Machine.goodFrame
  dsimp only
  revert hr
  generalize correct p.bidirectional (s.sec k).meas.offsetInForce x.current = i
  intro hr
  have h1 := h.windowed k hr hx.voltage
  have hs : V → (sampleOf x i ((Machine.windowed k i x.voltage s).sec k).meas).Ok := fun v => by
    have := (h1.figuresKept v (hf v) k).meas
    exact ⟨hx.seq, hr, vAvgOf_le this.voltages this.volts⟩
  have hk : ∀ {V A : Prop} {a t : State} {y : Sample}, Changes V A a t → (V → y.Ok) → (V → p.Bounded) →
      Changes V A a (Machine.accountSample k p y (Machine.calSample k p x.current t)) :=
    fun h hs hp => (h.calSample k p hp hx.current).accountSample k p hs
  have h3 := (hk (V := False) (A := False) (y := sampleOf x i ((Machine.windowed k i x.voltage s).sec k).meas)
    ((Changes.refl s).windowed k hr hx.voltage) (fun v => v.elim) fun v => v.elim).active k
  exact ((hk h1 hs hp).protectSample k p _ _ _ (h3.trans hact) hs hp).setPrev k hr

@[simp] theorem countMissed_active (s : State) (j k : Sec) (n : Nat) : (countMissed k n s).active j = s.active j := by
  simp [countMissed]

theorem restartWatchdog_active (s : State) (j k : Sec) : (restartWatchdog k s).active j = s.active j :=
  ((Still.refl s).restartWatchdog k).active j

theorem takeSeq_active (s : State) (j k : Sec) (q : Nat) (r : SeqResult) : (takeSeq k q r s).active j = s.active j := by
  unfold takeSeq; dsimp only; split <;> simp

theorem calFeedback_still (s : State) (k : Sec) (pos : Position) : Still s (calFeedback k pos s) := by
  unfold calFeedback
  split
  · exact ((Still.refl s).meas k _).raise _ _
  · exact Still.refl s

theorem Changes.takeMeasurement (h : Changes V A a s) (k : Sec) (p : SectionParams) {x : Measurement} (hx : x.Ok)
    (hact : s.active k = some p) (hf : V → ∀ k, (a.sec k).Figures) (hp : V → p.Bounded) :
    Changes V A a (takeMeasurement k p x s) := by
  unfold Machine.takeMeasurement
  split
  · exact h
  · dsimp only
    have hk : ∀ {V A : Prop} {a : State}, Changes V A a s → Changes V A a (Machine.feedback k x.breaker
        (Machine.calFeedback k x.breaker (Machine.restartWatchdog k
          (Machine.takeSeq k x.seq (seqCheck (s.sec k).meas.lastSeq x.seq) s)))) := fun h =>
      (((h.takeSeq k hx.seq (seqCheck (s.sec k).meas.lastSeq x.seq)).restartWatchdog k).calFeedback k
        x.breaker).feedback k x.breaker (by
          rw [(calFeedback_still _ k x.breaker).active, restartWatchdog_active, takeSeq_active, hact]; simp)
    have h2 := hk h
    split
    · refine Changes.goodFrame ?_ k p hx _ (((hk (Changes.refl (V := False) (A := False) s)).active k).trans hact) hf hp
      exact h2
    · refine Changes.badFrame ?_ k p
      exact h2

theorem signed16_le {n : Nat} (h : n < 65536) : signed16 n ≤ 32767 := by unfold signed16; split <;> omega

theorem readMeasurement_ok {payload : List Byte} {x : Measurement} (h : readMeasurement payload = some x) : x.Ok := by
  unfold readMeasurement at h
  split at h
  · split at h
    · rename_i q i1 i0 v1 v0 b g pos good _ _
      cases h
      refine ⟨?_, signed16_le ?_, ?_⟩
      · have := q.isLt; dsimp only; omega
      · have := i1.isLt; have := i0.isLt; simp only [beNat, List.foldl]; omega
      · have := v1.isLt; have := v0.isLt; simp only [beNat, List.foldl]; omega
    · cases h
  · cases h

theorem Changes.measurementAt (h : Changes V A a s) (k : Sec) (payload : List Byte)
    (hf : V → ∀ k, (a.sec k).Figures) (hV : V → ∀ p, s.active k = some p → p.Bounded) :
    Changes V A a (measurementAt k payload s) := by
  unfold Machine.measurementAt
  split
  · rename_i hx hact
    exact h.takeMeasurement k _ (readMeasurement_ok hx) hact hf fun v => hV v _ hact
  · exact h

end Sys2Proof.Machine
end

