-- ==== Sys2Proof/Laws/Exec.lean ====
section
/-! SUPPORT. Every command's effect is a run of elementary changes (`exec_changes`); the power-on reset and the falling
edge of the E-stop loop stand apart, since the one sets every field and the other opens the loop. -/

namespace Sys2Proof.Machine

set_option Elab.async false

open Sys2Proof Host

variable {V A : Prop} {a s : State}

/-! ## RESTART -/

theorem Changes.restartSection (h : Changes V A a s) (k : Sec) : Changes V A a (restartSection k s) := by
  unfold Machine.restartSection
  dsimp only
  apply Changes.notifyState
  unfold Machine.commandOpen
  rw [placeCommand_modSeq, State.modSeq_modSeq]
  refine (h.stopSequence k).seq k (some .openCmd) ⟨fun _ _ _ _ => ⟨rfl, ?_⟩, fun e => ?_, fun _ => rfl,
    fun _ _ => .inl (Nat.zero_le _), fun _ _ => rfl, fun _ => .inr rfl, fun e => ?_⟩
  · apply startTimer_none; assumption
  · simp [inService] at e
  · rcases e with e | e <;> cases e

theorem Changes.restartMeas (h : Changes V A a s) (k : Sec) : Changes V A a (restartMeas k s) := by
  unfold Machine.restartMeas
  exact (h.measMarks k (hf := fun _ m => m.clearWindows.marks (hb := .inl (Nat.zero_le _)))).restartWatchdog k

theorem restartBooks_ok {b : Books} {n : Nat} (hb : b.Ok) (hn : n ≤ max32) : (restartBooks n b).Ok := by
  unfold restartBooks
  have h := clearedBooks_ok hn
  split
  · exact ⟨hb.energy, hb.count, h.peak, h.peakSeq, h.minV, h.maxH, h.longestRun, h.missed, h.trips⟩
  · exact h

theorem Changes.restartAcc (h : Changes V A a s) (k : Sec) : Changes V A a (restartAcc k s) :=
  h.books k (fun _ b hh => restartBooks_ok b hh)

theorem placeLower_table (t : Nat) (r : LowerReason) (k : Sec) (s : State) :
    (placeLower t r k s).table = s.table := by
  unfold placeLower; split <;> rfl

theorem Changes.restartLowers (l : List Truck) : ∀ {s}, (∀ r ∈ l, r ∈ s.table.trucks) → Changes V A a s →
    Changes V A a (l.foldl (fun s r => Machine.placeLower r.id .restart r.sec s) s) := by
  induction l with
  | nil => exact fun _ h => h
  | cons r l ih =>
    intro s hl h
    have ht : s.hasTruck r.id = true :=
      (hasTruck_iff s r.id).mpr (List.mem_map_of_mem (hl r (List.mem_cons_self ..)))
    refine ih (fun x hx => ?_) (h.placeLower .restart r.sec ht)
    rw [placeLower_table]
    exact hl x (List.mem_cons_of_mem _ hx)

theorem Changes.restartAdmission (h : Changes V A a s) : Changes V A a (restartAdmission s) := by
  unfold Machine.restartAdmission
  dsimp only
  apply Changes.foldl (fun _ k h => (h.adm k _).recompute k)
  refine (Changes.restartLowers _ (fun r hr => (List.mem_filter.mp hr).1) h).table _ fun ok => ?_
  refine ⟨ok.fleetOrder, ok.fleetSize, ?_, by simpa using ok.size, ok.generation, fun r hr => ?_⟩
  · simpa [Function.comp_def] using ok.ids
  · simp only [List.mem_map] at hr
    obtain ⟨r', hr', rfl⟩ := hr
    exact ok.defined r' hr'

theorem Changes.restartTable (h : Changes V A a s) : Changes V A a (restartTable s) := by
  unfold Machine.restartTable
  apply h.table
  intro ok
  have hg : (if s.table.trucks = [] then s.table.generation else (s.table.generation + 1) % 256) < 256 := by
    split
    · exact ok.generation
    · exact Nat.mod_lt _ (by decide)
  exact ⟨ok.fleetOrder, ok.fleetSize, List.nodup_nil, Nat.zero_le _, hg, fun r hr => absurd hr List.not_mem_nil⟩

theorem Changes.restartRing (h : Changes V A a s) : Changes V A a (restartRing s) := by
  refine h.ring _ (List.Sublist.refl _) fun b => ⟨b.errors, b.forward, ?_, Nat.zero_le _, b.payloads, b.line⟩
  have := b.ordinary
  show ([] : List OrdinaryFrame).length + _ ≤ 16
  simp only [List.length_nil]; omega

theorem Changes.restartNotices (h : Changes V A a s) : Changes V A a (restartNotices s) :=
  h.tail (.notices s [] (List.nil_sublist _))

theorem Changes.restartStage (h : Changes V A a s) (r : Restarting) : Changes V A a (restartStage r s) := by
  unfold Machine.restartStage
  split
  · exact (Changes.takeEach (fun k h => h.restartSection k) allSecs h).withRestart _
  · exact (Changes.foldl (fun _ k h => Changes.restartMeas h k) allSecs h).withRestart _
  · exact (Changes.foldl (fun _ k h => Changes.protMarks h k) allSecs h).withRestart _
  · exact (Changes.foldl (fun _ k h => Changes.restartAcc h k) allSecs h).withRestart _
  · exact h.restartAdmission.restartTable.withRestart _
  · exact h.restartRing.withRestart _
  · exact h.restartNotices.withRestart _
  · exact (h.withRestart none).fill _

theorem Changes.advanceRestart (h : Changes V A a s) : Changes V A a (advanceRestart s) := by
  unfold Machine.advanceRestart
  split
  · exact h
  · exact h.restartStage _

theorem Changes.advanceBy (n : Nat) : ∀ {s}, Changes V A a s → Changes V A a (advanceBy n s) := by
  induction n with
  | zero => exact id
  | succ n ih => exact fun h => ih h.advanceRestart

theorem Changes.endRestart (h : Changes V A a s) : Changes V A a (endRestart s) := h.advanceBy 8

/-! ## Requests -/

theorem Changes.placeReplies (h : Changes V A a s) (kind : Byte) (r : Req) (as : List Answer) :
    Changes V A a (placeReplies kind r as s) := Changes.foldl (fun _ _ h => h.fill _) _ h

/-- A served request makes the changes of its body, with its places claimed and filled. -/
theorem Changes.answerAll (h : Changes V A a s) (kind : Byte) (r : Req) (n : Nat) {body : State → State × List Answer}
    (hb : ∀ {t}, Changes V A a t → Changes V A a (body t).1) : Changes V A a (answerAll kind r n body s) := by
  unfold Machine.answerAll
  split
  · exact h
  · rename_i t hc
    exact (hb (h.claim hc)).placeReplies kind r _

theorem Changes.takeRequest (h : Changes V A a s) (c : Instr) : Changes V A a (takeRequest c s) := h.endRestart.take c

theorem Changes.serve (h : Changes V A a s) (c : Instr) (kind : Byte) (r : Req) {body : State → State × Answer}
    (hb : ∀ {t}, Changes V A a t → Changes V A a (body t).1) : Changes V A a (serve c kind r body s) := by
  unfold Machine.serve
  dsimp only
  split
  · exact h.takeRequest c
  · exact (h.takeRequest c).answerAll kind r 1 hb

/-- A request that reads changes nothing but the lane. -/
theorem Changes.serveReads (h : Changes V A a s) (c : Instr) (kind : Byte) (r : Req) (f : State → Answer) :
    Changes V A a (Machine.serve c kind r (reads f) s) := h.serve c kind r fun ht => ht

theorem Changes.onEmpty {t : State} (p : List Byte) {body : State → State × Answer} (ht : Changes V A a t)
    (hb : Changes V A a (body t).1) : Changes V A a (onEmpty p body t).1 := by
  unfold Machine.onEmpty
  split
  · exact hb
  · exact ht

theorem Changes.onSection {t : State} (p : List Byte) {body : Sec → State → State × Answer} (ht : Changes V A a t)
    (hb : ∀ k, Changes V A a (body k t).1) : Changes V A a (onSection p body t).1 := by
  unfold Machine.onSection
  split
  · split
    · exact ht
    · exact hb _
  · exact ht

/-! ## The parameter store -/

/-- The first failing check is absent exactly when every check holds. -/
theorem firstBad_none {l : List (Nat × Bool)} (h : firstBad l = none) : ∀ c ∈ l, c.2 = true := by
  induction l with
  | nil => simp
  | cons c l ih =>
    obtain ⟨n, b⟩ := c
    cases b
    · simp [firstBad] at h
    · simp only [firstBad] at h
      simpa using fun c b hc => ih h (c, b) hc

theorem inRange_iff {lo hi v : Nat} : inRange lo hi v = true ↔ lo ≤ v ∧ v ≤ hi := by simp [inRange]

theorem readRampFields_ok {p : List Byte} {r : RampRecord} (h : readRampFields p = some (.ok r)) : r.Ok := by
  unfold readRampFields at h
  split at h
  · simp only [Option.some.injEq] at h
    split at h
    · cases h
    · rename_i hb
      have := firstBad_none hb
      simp only [List.mem_cons, List.not_mem_nil, or_false, forall_eq_or_imp, forall_eq, inRange_iff] at this
      cases h
      exact ⟨this.1, this.2.1⟩
  · cases h

theorem nextUphillOf_ok {own : Sec} {n : Nat} {u : Option Sec} (h : nextUphillOf own n = some u) : u ≠ some own := by
  unfold nextUphillOf at h
  split at h
  · cases h; simp
  · split at h
    · cases h
    · split at h
      · cases h
      · cases h; simpa

theorem readParams_ok {own : Sec} {b : List Byte} {p : SectionParams} (h : readParams own b = .ok p) : p.Ok own := by
  unfold readParams at h
  dsimp only at h
  split at h
  · cases h
  · rename_i hb
    have := firstBad_none hb
    simp only [List.mem_cons, List.not_mem_nil, or_false, forall_eq_or_imp, forall_eq, inRange_iff,
      Option.isSome_iff_exists] at this
    cases h
    obtain ⟨-, h2, h3, ⟨u, h4⟩, -, h6, h7, h8, h9, h10, h11, h12, h13, h14, -, h16, h17, h18, h19, h20, h21, h22, h23,
      h24, h25, -, h27, h28, h29, h30⟩ := this
    refine ⟨h2, h3, ?_, h6, h7, h8, h9, h10, h11, h12, h13, h14.2, h16, h17, h18.2, h19.2, h20, h21.2, h22, h23, h24,
      h25, h27.2, h28, h29, h30.2⟩
    show (nextUphillOf own (fieldAt b 3 1)).getD none ≠ some own
    rw [h4]
    exact nextUphillOf_ok h4

theorem Changes.writeRampBody (h : Changes V A a s) (p : List Byte) : Changes V A a (writeRampBody p s).1 := by
  unfold Machine.writeRampBody
  split
  · exact h
  · exact h
  · rename_i hr
    exact h.tail (.rest s _ s.handed s.mgmt.powerUp s.mgmt.restart fun _ => readRampFields_ok hr)

theorem Changes.writeSectionBody (h : Changes V A a s) (p : List Byte) : Changes V A a (writeSectionBody p s).1 := by
  unfold Machine.writeSectionBody
  split
  · split
    · exact h
    · split
      · exact h
      · rename_i _ k _ _ rec hr
        refine h.tail (.stored s k { (s.sec k).copies with pending := some rec } rfl fun ok => ?_)
        exact ⟨fun q e => by cases e; exact readParams_ok hr, ok.active, ok.prior, fun _ => rfl, ok.replaced⟩
  · exact h

theorem measActivated_ok {old : Option SectionParams} {new : SectionParams} {m : Meas} (h : m.Ok) :
    (measActivated old new m).Ok := by
  unfold measActivated
  dsimp only
  have h1 : ∀ n : Meas, n.Ok → { n with offset := 0, offsetValid := false, lastSeq := none, cal := none }.Ok := fun n h =>
    ⟨nofun, Nat.zero_le _, fun _ => rfl, h.currents, h.voltages, h.range, h.volts, h.iPrev, h.badRun, nofun⟩
  split <;> split <;> split <;> first | exact h1 _ h.marks | exact h.marks

theorem measActivated_watchdog {old : Option SectionParams} {new : SectionParams} {m : Meas}
    (h : m.watchdog ≠ none → old.any (·.enabled) = true) :
    (measActivated old new m).watchdog ≠ none → new.enabled = true := by
  intro hw
  cases hn : new.enabled
  · refine absurd ?_ hw
    cases ho : old.any (·.enabled)
    · have : m.watchdog = none := Classical.byContradiction fun e => by simp [ho] at h; exact e h
      unfold measActivated
      dsimp only
      split <;> split <;> split <;> simp_all
    · unfold measActivated
      dsimp only
      split <;> split <;> split <;> simp_all
  · rfl

theorem protActivated_figures {old : Option SectionParams} {new : SectionParams} {q : Prot}
    (h : q.sustained ≤ old.elim 0 (·.sustainSamples)) :
    (protActivated old new q).history = q.history ∧ (protActivated old new q).last = q.last ∧
    (protActivated old new q).sustained ≤ q.sustained ∧ (protActivated old new q).sustained ≤ new.sustainSamples := by
  unfold protActivated
  split
  · rename_i h
    simp only [Bool.and_eq_true, decide_eq_true_eq] at h
    exact ⟨rfl, rfl, by dsimp only; omega, by dsimp only; omega⟩
  · rename_i hn
    refine ⟨rfl, rfl, Nat.le_refl _, ?_⟩
    simp only [Bool.and_eq_true, decide_eq_true_eq, not_and] at hn
    cases old with
    | none => simp at h; omega
    | some o =>
      simp only [Option.elim_some] at h
      by_cases e : o.sustainSamples = new.sustainSamples
      · omega
      · have := hn (by simpa [changes] using e); omega

theorem Changes.activate (h : Changes V A a s) (hA : A) (k : Sec) (new : SectionParams)
    (hp : (s.sec k).copies.pending = some new)
    (he : inService (s.sec k).seq.state = true → s.isEnabled k = true → new.enabled = true) :
    Changes V A a (activate k new s) := by
  unfold Machine.activate
  dsimp only
  have h1 : Changes V A a (s.modSec k fun x => { x with
      copies := { x.copies with active := some new, prior := s.active k }
      meas := measActivated (s.active k) new x.meas
      prot := protActivated (s.active k) new x.prot }) := by
    refine h.tail (.activated s k _ new hA rfl rfl (fun ok => ?_) (fun x => ?_) he)
    · refine ⟨ok.pending, fun q e => ok.pending q (by cases e; exact hp), ok.active, fun _ => ?_, fun _ => rfl⟩
      show (s.sec k).copies.pending.isSome = true
      rw [hp]; rfl
    · show Section.Figures { s.sec k with
        copies := { (s.sec k).copies with active := some new, prior := s.active k }
        meas := measActivated (s.active k) new (s.sec k).meas
        prot := protActivated (s.active k) new (s.sec k).prot }
      obtain ⟨h5, h6, h7, h8⟩ := protActivated_figures (new := new) x.run
      exact ⟨measActivated_ok x.meas, measActivated_watchdog x.watchdog, x.books, x.result, x.captureNo, x.heat,
        by dsimp only [State.active]; rw [h5]; exact x.history, Nat.le_trans h7 x.sustained, h8, by dsimp only [State.active]; rw [h6]; exact x.last⟩
  split
  · exact h1.limitNotice k
  · exact h1

theorem enabled_of_not_structure {old : Option SectionParams} {new : SectionParams}
    (h : changesStructure old new = false) (ho : old.any (·.enabled) = true) : new.enabled = true := by
  cases old with
  | none => simp at ho
  | some o =>
    simp only [Option.any_some] at ho
    simp only [changesStructure, changes, Option.all_some, Bool.or_eq_false_iff, decide_eq_false_iff_not,
      ne_eq, Decidable.not_not] at h
    rw [← h.1.1.1.1]; exact ho

theorem Changes.activateAt (h : Changes V A a s) (hA : A) (k : Sec) : Changes V A a (activateAt k s).1 := by
  unfold Machine.activateAt
  split
  · exact h
  · rename_i new hp
    split
    · exact h
    · split
      · exact h
      · rename_i hc
        refine h.activate hA k new hp fun hs he => ?_
        simp only [Bool.and_eq_true, not_and, Bool.not_eq_true] at hc
        cases hx : changesStructure (s.active k) new
        · exact enabled_of_not_structure hx he
        · exact absurd hs (by simp [hc hx])

theorem Changes.activateAll (h : Changes V A a s) (hA : A) : Changes V A a (activateAll s).1 := by
  unfold Machine.activateAll
  suffices ∀ (l held : List Sec) {s}, Changes V A a s → Changes V A a (l.foldl (fun (x : State × List Sec) k =>
      ((Machine.activateAt k x.1).1, x.2 ++ (Machine.activateAt k x.1).2)) (s, held)).1 from this allSecs [] h
  intro l
  induction l with
  | nil => exact fun _ _ h => h
  | cons k l ih => exact fun _ _ h => ih _ (h.activateAt hA k)

/-! ## The truck table -/

theorem Changes.restartSilence (h : Changes V A a s) (t : Nat) : Changes V A a (restartSilence t s) := h.truck t

theorem authorised_defined {t : Nat} {c : Fin 4} (h : s.authorised t = some c) :
    s.table.classes[c].defined = true := by
  unfold State.authorised at h
  split at h
  · cases h
  · split at h
    · rename_i hd; cases h; exact hd
    · cases h

theorem truck_none {t : Nat} (h : s.truck t = none) : t ∉ s.table.trucks.map (·.id) := by
  simp only [State.truck, List.find?_eq_none, beq_iff_eq] at h
  simpa [List.mem_map] using h

theorem Changes.arriveNew (h : Changes V A a s) (t : Nat) (k : Sec) (hn : s.truck t = none) :
    Changes V A a (arriveNew t k s) := by
  unfold Machine.arriveNew
  split
  · exact h.offerDeny _ _ _
  · rename_i c hc
    split
    · exact h.offerDeny _ _ _
    · rename_i hl
      refine h.table _ fun ok => ⟨ok.fleetOrder, ok.fleetSize, ?_, ?_, Nat.mod_lt _ (by decide), ?_⟩
      · simp only [List.map_append, List.map_cons, List.map_nil]
        rw [List.nodup_append]
        refine ⟨ok.ids, by simp, ?_⟩
        intro x hx y hy
        simp only [newTruck, List.mem_singleton] at hy
        subst hy
        exact fun e => truck_none hn (e ▸ hx)
      · simp; omega
      · intro r hr
        simp only [List.mem_append, List.mem_singleton] at hr
        rcases hr with hr | rfl
        · exact ok.defined r hr
        · exact authorised_defined hc

theorem Changes.arriveAt (h : Changes V A a s) (k : Sec) (p : List Byte) : Changes V A a (arriveAt k p s) := by
  unfold Machine.arriveAt
  split
  · exact h
  · split
    · rename_i hn; exact h.arriveNew _ k hn
    · unfold arriveKnown
      have h1 := h.restartSilence (s := s)
      dsimp only
      split
      · exact (h1 _).truck _
      · apply Changes.moveTruck
        exact Changes.truck ((h1 _).truck _) _

theorem Changes.depart (h : Changes V A a s) (t : Nat) (m : Mark) (r : LowerReason) :
    Changes V A a (depart t m r s) := by
  unfold Machine.depart
  split
  · exact h
  · exact (h.letGo t r).removeRecord t
  · exact (h.letGo t r).removeRecord t
  all_goals
    apply Changes.letGo
    exact h.truck t

theorem Changes.withRecord (h : Changes V A a s) (t : Nat) (k : Sec) {act : State → State}
    (hf : ∀ {u}, Changes V A a u → Changes V A a (act u)) : Changes V A a (withRecord t k act s) := by
  unfold Machine.withRecord
  split
  · exact hf (h.restartSilence t)
  · exact h.offerDeny _ _ _

theorem Changes.departAt (h : Changes V A a s) (k : Sec) (p : List Byte) : Changes V A a (departAt k p s) := by
  unfold Machine.departAt
  split
  · exact h
  · exact h.withRecord _ k fun hu => hu.depart _ _ _

theorem Changes.raiseAt (h : Changes V A a s) (k : Sec) (p : List Byte) : Changes V A a (raiseAt k p s) := by
  unfold Machine.raiseAt
  split
  · exact h
  · exact h.withRecord _ k fun hu => hu.raiseRequest _ _ _

theorem Changes.reportAt (h : Changes V A a s) (k : Sec) (p : List Byte) : Changes V A a (reportAt k p s) := by
  unfold Machine.reportAt
  split
  · exact h
  · refine h.withRecord _ k fun {u} hu => ?_
    split
    · exact hu.reportUp _ _ _
    · exact hu.reportDown _

theorem Changes.silenceExpires (h : Changes V A a s) (t : Nat) : Changes V A a (silenceExpires t s) := by
  unfold Machine.silenceExpires
  split
  · exact h
  · split
    · exact h
    · apply Changes.depart
      exact h.truck t

theorem setEntry_ids (e : FleetEntry) : ∀ l : List FleetEntry, (l.map (·.id)).Pairwise (· < ·) →
    ((setEntry e l).map (·.id)).Pairwise (· < ·) ∧ (∀ i, i ∈ (setEntry e l).map (·.id) → i = e.id ∨ i ∈ l.map (·.id)) ∧
    (∀ i, i ∈ l.map (·.id) → i ∈ (setEntry e l).map (·.id)) ∧
    (setEntry e l).length ≤ l.length + (if e.id ∈ l.map (·.id) then 0 else 1)
  | [], _ => by simp [setEntry]
  | x :: xs, h => by
    simp only [List.map_cons, List.pairwise_cons] at h
    obtain ⟨h1, h2, h3, h4⟩ := setEntry_ids e xs h.2
    unfold setEntry
    split
    · rename_i hlt
      have hn : e.id ∉ xs.map (·.id) := fun hm => by have := h.1 _ hm; omega
      refine ⟨?_, ?_, ?_, ?_⟩
      · simp only [List.map_cons, List.pairwise_cons]
        refine ⟨fun i hi => ?_, h.1, h.2⟩
        rcases List.mem_cons.mp hi with rfl | hi
        · exact hlt
        · have := h.1 i hi; omega
      · intro i hi; simpa using hi
      · intro i hi; simp only [List.map_cons, List.mem_cons] at hi ⊢; exact .inr hi
      · simp only [List.map_cons, List.mem_cons, hn, or_false, List.length_cons]
        split <;> omega
    · split
      · rename_i heq
        refine ⟨?_, ?_, ?_, ?_⟩
        · simp only [List.map_cons, List.pairwise_cons, heq]; exact h
        · intro i hi; simp only [List.map_cons, List.mem_cons] at hi ⊢; rw [heq] at hi; exact .inr hi
        · intro i hi; simp only [List.map_cons, List.mem_cons] at hi ⊢; rw [heq]; exact hi
        · simp [heq]
      · rename_i hlt hne
        refine ⟨?_, ?_, ?_, ?_⟩
        · simp only [List.map_cons, List.pairwise_cons]
          refine ⟨fun i hi => ?_, h1⟩
          rcases h2 i hi with rfl | hi
          · omega
          · exact h.1 i hi
        · intro i hi
          simp only [List.map_cons, List.mem_cons] at hi ⊢
          rcases hi with hi | hi
          · exact .inr (.inl hi)
          · rcases h2 i hi with hi | hi
            · exact .inl hi
            · exact .inr (.inr hi)
        · intro i hi
          simp only [List.map_cons, List.mem_cons] at hi ⊢
          exact hi.imp id (h3 i)
        · simp only [List.length_cons, List.map_cons, List.mem_cons, hne, false_or]
          omega

theorem setEntries_ids (es : List FleetEntry) (base : List Nat) : ∀ l : List FleetEntry,
    (l.map (·.id)).Pairwise (· < ·) → (∀ i ∈ base, i ∈ l.map (·.id)) →
    ((es.foldl (fun l e => setEntry e l) l).map (·.id)).Pairwise (· < ·) ∧
    (es.foldl (fun l e => setEntry e l) l).length ≤ l.length + (es.filter fun e => !decide (e.id ∈ base)).length := by
  induction es with
  | nil => exact fun l h _ => ⟨h, by simp⟩
  | cons e es ih =>
    intro l h hb
    obtain ⟨h1, h2, h3, h4⟩ := setEntry_ids e l h
    obtain ⟨i1, i2⟩ := ih (setEntry e l) h1 fun i hi => h3 i (hb i hi)
    refine ⟨i1, ?_⟩
    simp only [List.foldl_cons, List.filter_cons]
    by_cases hm : e.id ∈ base
    · have := hb _ hm
      simp only [hm, decide_true, Bool.not_true, Bool.false_eq_true, if_false]
      simp only [this, if_true] at h4
      omega
    · simp only [hm, decide_false, Bool.not_false, if_true, List.length_cons]
      split at h4 <;> omega

theorem Changes.writeFleetBody (h : Changes V A a s) (p : List Byte) : Changes V A a (writeFleetBody p s).1 := by
  unfold Machine.writeFleetBody
  split
  · exact h
  · split
    · exact h
    · rename_i es _
      dsimp only
      split
      · exact h
      · rename_i hl
        refine h.table _ fun ok => ?_
        obtain ⟨h1, h2⟩ := setEntries_ids es (s.table.fleet.map (·.id)) s.table.fleet ok.fleetOrder fun _ hi => hi
        refine ⟨h1, ?_, ok.ids, ok.size, ok.generation, ok.defined⟩
        have e : (es.filter fun e => !decide (e.id ∈ s.table.fleet.map (·.id))) =
            es.filter fun e => !s.table.fleet.any fun x => x.id == e.id := by
          apply List.filter_congr
          intro e _
          congr 1
          rw [Bool.eq_iff_iff]
          simp [List.any_eq_true]
        rw [e] at h2
        dsimp only
        omega

theorem Changes.removeFleetBody (h : Changes V A a s) (p : List Byte) : Changes V A a (removeFleetBody p s).1 := by
  unfold Machine.removeFleetBody
  split
  · exact h
  · split
    · exact h
    · split
      · apply Changes.depart
        refine h.table _ fun ok => ⟨?_, ?_, ok.ids, ok.size, ok.generation, ok.defined⟩
        · exact ok.fleetOrder.sublist ((List.filter_sublist).map _)
        · exact Nat.le_trans (List.length_filter_le _ _) ok.fleetSize
      · exact h

theorem readClassFields_ok {p : List Byte} {r : ClassRecord} (h : readClassFields p = .ok r) : r.defined = true := by
  unfold readClassFields at h
  dsimp only at h
  split at h
  · cases h
  · cases h; rfl

theorem Changes.setClass (h : Changes V A a s) (c : Fin 4) (r : ClassRecord)
    (hr : r.defined = true ∨ s.ofClass c = 0) : Changes V A a (s.setClass c r) := by
  refine h.table _ fun ok => ⟨ok.fleetOrder, ok.fleetSize, ok.ids, ok.size, ok.generation, fun x hx => ?_⟩
  have hd := ok.defined x hx
  dsimp only at hx ⊢
  by_cases hc : x.cls = c
  · rcases hr with hr | hr
    · subst hc
      have : (s.table.classes.set x.cls r)[x.cls] = r := by simp
      rw [this]; exact hr
    · simp only [State.ofClass, List.length_eq_zero_iff, List.filter_eq_nil_iff] at hr
      exact absurd (decide_eq_true hc) (hr x hx)
  · have hne : (c : Nat) ≠ (x.cls : Nat) := fun e => hc (Fin.ext e.symm)
    have : (s.table.classes.set c r)[x.cls] = s.table.classes[x.cls] := by simp [hne]
    rw [this]; exact hd

theorem Changes.writeClassBody (h : Changes V A a s) (p : List Byte) : Changes V A a (writeClassBody p s).1 := by
  unfold Machine.writeClassBody
  split
  · exact h
  · split
    · exact h
    · split
      · exact h
      · rename_i hr; exact h.setClass _ _ (.inl (readClassFields_ok hr))
    · split
      · rename_i hc; exact h.setClass _ _ (.inr hc)
      · exact h

theorem Changes.evictBody (h : Changes V A a s) (p : List Byte) : Changes V A a (evictBody p s).1 := by
  unfold Machine.evictBody
  split
  · exact h
  · split
    · exact h.depart _ _ _
    · exact h

/-! ## The management unit -/

/-- A guarded request makes its changes only where every condition holds. -/
theorem Changes.guarded {cs : List (Bool × Status)} {act : State → State} (h : Changes V A a s)
    (ha : firstRefusal cs = none → Changes V A a (act s)) : Changes V A a (guarded cs act s).1 := by
  unfold Machine.guarded
  split
  · exact h
  · rename_i hc; exact ha hc

theorem firstRefusal_none {l : List (Bool × Status)} (h : firstRefusal l = none) : ∀ c ∈ l, c.1 = true := by
  induction l with
  | nil => simp
  | cons c l ih =>
    obtain ⟨b, st⟩ := c
    cases b
    · simp [firstRefusal] at h
    · simp only [firstRefusal] at h
      simpa using fun c b hc => ih h (c, b) hc

theorem Changes.beginLineTest (h : Changes V A a s) (k : Sec) (hs : (s.sec k).seq.state = .off)
    (he : s.isEnabled k = true) (hc : s.chip.estopClosed = true) : Changes V A a (beginLineTest k s) := by
  unfold Machine.beginLineTest
  apply Changes.enterTesting
  · exact h.marks k (hn := by intro _; exact .inr rfl)
  · refine .inr ⟨by simpa using hs, ?_, hc⟩
    simpa [State.isEnabled] using he

theorem Changes.leaveLockout (h : Changes V A a s) (k : Sec) (hs : (s.sec k).seq.state = .lockout) :
    Changes V A a (leaveLockout k s) :=
  (h.toOff k rfl (by simp [hs, dead]) rfl rfl rfl).notifyState k _ _ _

theorem Changes.enterMaint (h : Changes V A a s) (k : Sec) (hs : (s.sec k).seq.state = .off)
    (he : s.isEnabled k = true) : Changes V A a (enterMaint k s) := by
  unfold Machine.enterMaint
  apply Changes.notifyState
  refine h.seqTo k ⟨fun _ hn => ?_, fun _ => .inr he, fun _ => trivial, fun _ ha => ?_, fun _ _ => rfl, ?_, ?_⟩
  · simp [State.isEnabled, hn] at he
  · rcases ha with ha | ⟨-, ha⟩
    · exact .inl ha
    · simp [hs] at ha
  · intro e; simp [dead] at e
  · intro e; rcases e with e | e <;> cases e

theorem Changes.maintClose (h : Changes V A a s) (k : Sec) (hs : (s.sec k).seq.state = .maint)
    (hc : s.chip.estopClosed = true) : Changes V A a (commandClose k s) := by
  unfold Machine.commandClose
  refine h.seq k (some .closeCmd) ⟨fun _ _ e => ?_, .inl, fun _ => ?_, fun _ ha => ha, fun _ e => e, fun e => ?_,
    fun _ => .inr (.inr ⟨hs, hc⟩)⟩
  · rw [hs] at e; cases e
  · simp [Seq.Coherent, hs]
  · simp [hs, dead] at e

theorem Changes.maintOpen (h : Changes V A a s) (k : Sec) (hs : (s.sec k).seq.state = .maint) :
    Changes V A a (commandOpen k s) := by
  unfold Machine.commandOpen
  refine h.seq k (some .openCmd) ⟨fun _ _ e => ?_, .inl, fun _ => ?_, fun _ ha => ha, fun _ e => e, fun _ => .inr rfl,
    fun e => ?_⟩
  · rw [hs] at e; cases e
  · simp [Seq.Coherent, hs]
  · rcases e with e | e <;> cases e

theorem Changes.leaveMaint (h : Changes V A a s) (k : Sec) (hs : (s.sec k).seq.state = .maint) :
    Changes V A a (leaveMaint k s) := by
  unfold Machine.leaveMaint
  apply Changes.notifyState
  exact h.openOff k (.inr ⟨rfl, by simp [hs]⟩)

theorem Changes.capture (h : Changes V A a s) (hA : A) (kind : CaptureKind) : Changes V A a (capture kind s).1 := by
  unfold Machine.capture
  dsimp only
  refine Changes.activateAll ?_ hA
  have h1 : Changes V A a { s with chip := { s.chip with fellSeen := false, roseSeen := false } } := h.chip _ (.inl rfl)
  have h2 := h1.captureAll kind s.chip.fellSeen s.chip.roseSeen
  split
  · exact h2.ring _ (List.Sublist.refl _) fun b => ⟨Nat.zero_le _, b.forward, b.ordinary, b.run, b.payloads, b.line⟩
  · exact h2

theorem Changes.serveCapture (h : Changes V A a s) (hA : A) (c : Instr) (kb : Byte) (kind : CaptureKind) (r : Req) :
    Changes V A a (serveCapture c kb kind r s) := by
  unfold Machine.serveCapture
  dsimp only
  split
  · split
    · exact (h.takeRequest c).capture hA kind
    · exact h.takeRequest c
  · exact h.serve c kb r fun ht => Changes.onEmpty _ ht (ht.capture hA kind)

theorem Changes.serveResults (h : Changes V A a s) (c : Instr) (r : Req) : Changes V A a (serveResults c r s) := by
  unfold Machine.serveResults
  dsimp only
  split
  · exact h.takeRequest c
  · exact (h.takeRequest c).answerAll _ _ _ fun ht => ht

theorem Changes.startRestart (h : Changes V A a s) (r : Req) : Changes V A a (startRestart r s) := by
  unfold Machine.startRestart
  dsimp only
  have h1 := h.takeRequest (.restart r)
  split
  · exact h1
  · split
    · exact h1
    · rename_i hc
      split
      · exact (h1.claim hc).withRestart _
      · exact (h1.claim hc).placeReplies 0x42 r _

theorem Changes.serveSectionState (h : Changes V A a s) (r : Req) : Changes V A a (serveSectionState r s) := by
  unfold Machine.serveSectionState
  dsimp only
  have h1 := h.takeRequest (.readSectionState r)
  split
  · exact h1
  · split
    · split
      · exact h1.answerAll _ _ _ fun ht => ht
      · exact h1.answerAll _ _ _ fun ht => by dsimp only; exact ht.protMarks _
    · exact h1.answerAll _ _ _ fun ht => ht

/-! ## The ring -/

theorem Changes.forwardFrame (h : Changes V A a s) {f : Frame} (hf : f.payload.length ≤ 64) :
    Changes V A a (forwardFrame f s) := by
  unfold Machine.forwardFrame
  split
  · exact h.ringError
  · refine h.ring _ (List.Sublist.refl _) fun b => ⟨b.errors, ?_, b.ordinary, b.run, fun g hg => ?_, b.line⟩
    · simp; omega
    · simp only [List.mem_append, List.mem_singleton] at hg
      rcases hg with hg | rfl
      · exact b.payloads g hg
      · exact hf

theorem Changes.dispatch (h : Changes V A a s) (f : Frame) : Changes V A a (dispatch f s) := by
  unfold Machine.dispatch
  split
  · exact h
  · split
    · exact h
    · exact h.hand _

theorem Changes.setRx (h : Changes V A a s) (rx : Rx) : Changes V A a (setRx rx s) :=
  h.ring _ (List.Sublist.refl _) fun b => ⟨b.errors, b.forward, b.ordinary, b.run, b.payloads, b.line⟩

/-- A frame read whole carries at most 64 bytes of payload (R158, R185). -/
theorem readFrame_payload {bytes : List Byte} {f : Frame} (h : readFrame bytes = .good f) : f.payload.length ≤ 64 := by
  unfold readFrame at h
  split at h
  · split at h
    · cases h
    · split at h
      · cases h
      · dsimp only at h
        split at h
        · cases h
          simp only [List.length_take]
          omega
        · cases h
  · cases h

theorem Changes.frameReceived (h : Changes V A a s) (bytes : List Byte) : Changes V A a (frameReceived bytes s) := by
  unfold Machine.frameReceived
  dsimp only
  have h1 := h.setRx (s.ring.rx.inPhase .seeking)
  split
  · rename_i f hf
    have hp := readFrame_payload hf
    unfold decided
    dsimp only
    split <;> split
    · exact (h1.forwardFrame hp).dispatch _
    · exact h1.dispatch _
    · exact h1.forwardFrame hp
    · exact h1
  all_goals exact h1.ringError

theorem Changes.frameAbandoned (h : Changes V A a s) (c : AbandonCause) : Changes V A a (frameAbandoned c s) := by
  unfold Machine.frameAbandoned
  split
  · split
    · exact h.setRx _
    · exact (h.setRx _).ringError
  · split
    · exact h
    · exact (h.setRx _).ringError
  all_goals exact (h.setRx _).ringError

theorem arbiter_run (p f o : Bool) {run : Nat} (h : run ≤ 4) : (arbiter p f o run).2 ≤ 4 := by
  unfold arbiter
  repeat' split
  all_goals dsimp only
  all_goals omega

theorem SectionParams.bytes_length (p : SectionParams) : p.bytes.length = 48 := by
  unfold SectionParams.bytes
  simp only [List.length_append, toBe_length]
  rfl

/-- Reply data takes at most the 61 bytes a payload leaves it (R185, R188). -/
theorem ReplyData.bytes_length (d : ReplyData) : d.bytes.length ≤ 61 := by
  unfold ReplyData.bytes
  split
  · simp
  · simp [toBe_length, SectionParams.bytes_length]
  · simp [toBe_length, ResultRecord.bytes, toBeSigned]
  · simp
  · simp only [List.length_take]; omega

/-- Every frame of the priority lane fits a payload (R185). -/
theorem PriorityFrame.payload_length (f : PriorityFrame) : f.payload.length ≤ 64 := by
  cases f <;> simp [PriorityFrame.payload, toBe_length]

/-- Every frame of the ordinary lane fits a payload (R185). -/
theorem OrdinaryFrame.body_length (f : OrdinaryFrame) (n : Nat) : (f.body n).bytes.length ≤ 64 := by
  cases f with
  | reply r =>
    have := ReplyData.bytes_length r.answer.data
    simp [OrdinaryFrame.body, LineBody.bytes, Reply.payload]; omega
  | _ => simp [OrdinaryFrame.body, LineBody.bytes, toBe_length]

theorem Changes.sendChosen (h : Changes V A a s) (c : Choice × Nat) (hc : s.ring.runCount ≤ 4 → c.2 ≤ 4) :
    Changes V A a (sendChosen c s) := by
  unfold Machine.sendChosen
  split
  · rename_i f rest _ hp
    refine h.ring _ ?_ fun b => ⟨b.errors, b.forward, b.ordinary, hc b.run, b.payloads, fun g hg => ?_⟩
    · rw [hp]; exact List.sublist_cons_self ..
    · have e : s.priorityOnLine f = g := Option.some.inj hg
      subst e; exact f.payload_length
  · rename_i f rest _ hf
    refine h.ring _ (List.Sublist.refl _) fun b => ⟨b.errors, ?_, b.ordinary, hc b.run, fun g hg => ?_, fun g hg => ?_⟩
    · have := b.forward; rw [hf] at this; simp at this; dsimp only; omega
    · exact b.payloads g (by rw [hf]; exact List.mem_cons_of_mem _ hg)
    · have e : f.onLine = g := Option.some.inj hg
      subst e; exact b.payloads f (by rw [hf]; exact List.mem_cons_self ..)
  · rename_i f rest _ ho
    unfold ordinaryFreed
    apply Changes.foldl (fun _ k h => h.runPass k)
    refine h.ring _ (List.Sublist.refl _) fun b => ⟨b.errors, b.forward, ?_, hc b.run, b.payloads, fun g hg => ?_⟩
    · have := b.ordinary; rw [ho] at this; simp at this; dsimp only; omega
    · have e : s.ordinaryOnLine f = g := Option.some.inj hg
      subst e; exact f.body_length _
  · exact h

theorem Changes.transmissionEnd (h : Changes V A a s) : Changes V A a (transmissionEnd s) := by
  unfold Machine.transmissionEnd
  apply Changes.sendChosen
  · refine h.ring _ (List.Sublist.refl _) fun b => ⟨b.errors, b.forward, b.ordinary, b.run, b.payloads, fun f e => ?_⟩
    have e' : none = some f := e
    cases e'
  · exact fun hr => arbiter_run _ _ _ hr

/-! ## Every command -/

/-- The commands that stand apart. -/
def apart (c : Instr) : Bool :=
  match c with
  | .powerOnReset _ | .estopFilterExpiry => true
  | _ => false

theorem ActiveBounded.attempts {s : State} {k : Sec} (h : s.ActiveBounded) :
    ∀ p, s.active k = some p → p.maxAttempts ≤ 7 := fun p hp => (h k p hp).2.2

/-- Every command but the two that stand apart is a run of elementary changes, given what is known as it begins. -/
theorem exec_changes {c : Instr} {t : State} (hc : apart c = false) (h : exec c s = .next t) :
    Changes s.Known True s t := by
  have h0 : Changes s.Known True s s := .refl s
  cases c
  all_goals first | (simp [apart] at hc; done) | skip
  case frameReceived b => cases h; exact h0.frameReceived b
  case frameAbandoned c => cases h; exact h0.frameAbandoned c
  case transmissionEnd => cases h; exact h0.transmissionEnd
  case measurementFrame k p =>
    cases h; exact (h0.take _).measurementAt k p (fun v => v.2.2) (fun v q hq => v.1 k q (by simpa using hq))
  case tripRequest k r =>
    cases h; exact (h0.take _).takeTripRequest k r (fun v q hq => ActiveBounded.attempts v.1 q (by simpa using hq))
  case tripAnswer k r ans => cases h; exact (h0.take _).takeAnswer k r ans
  case sensorWatchdogExpiry k => cases h; exact h0.watchdogExpires k
  case testTimerExpiry k => cases h; exact h0.testExpires k fun v => ActiveBounded.attempts v.1
  case breakerTimerExpiry k => cases h; exact h0.breakerExpires k fun v => v.2.1 k
  case recloseTimerExpiry k => cases h; exact h0.recloseExpires k
  case stableTimerExpiry k => cases h; exact h0.stableExpires k
  case estopInputChange b => cases h; exact h0.estopChange b
  case arrive k p => cases h; exact (h0.take _).arriveAt k p
  case depart k p => cases h; exact (h0.take _).departAt k p
  case raiseReq k p => cases h; exact (h0.take _).raiseAt k p
  case state k p => cases h; exact (h0.take _).reportAt k p
  case silenceTimerExpiry t => cases h; exact h0.silenceExpires t
  case grantWindowExpiry t => cases h; exact h0.grantExpires t
  case handoverWindowExpiry t => cases h; exact h0.handoverExpires t
  case lowerWindowExpiry t => cases h; exact h0.lowerExpires t
  case getStatus r => cases h; exact h0.serve _ _ r fun ht => Changes.onEmpty _ ht ht
  case clearPowerUp r =>
    cases h
    exact h0.serve _ _ r fun ht => Changes.onEmpty _ ht (ht.tail (.rest _ _ _ false _ id))
  case restart r => cases h; exact h0.startRestart r
  case clearBackup r =>
    cases h
    exact h0.serve _ _ r fun ht => Changes.onEmpty _ ht (ht.guarded fun _ => ht.chip _ (.inl rfl))
  case writeRamp r => cases h; exact h0.serve _ _ r fun ht => ht.writeRampBody _
  case readRamp r => cases h; exact h0.serve _ _ r fun ht => Changes.onEmpty _ ht ht
  case writeSection r => cases h; exact h0.serve _ _ r fun ht => ht.writeSectionBody _
  case readSection r => cases h; exact h0.serveReads _ _ r _
  case readSectionState r => cases h; exact h0.serveSectionState r
  case writeFleet r => cases h; exact h0.serve _ _ r fun ht => ht.writeFleetBody _
  case removeFleet r => cases h; exact h0.serve _ _ r fun ht => ht.removeFleetBody _
  case readFleet r => cases h; exact h0.serveReads _ _ r _
  case writeClass r => cases h; exact h0.serve _ _ r fun ht => ht.writeClassBody _
  case readClass r => cases h; exact h0.serveReads _ _ r _
  case captureClear r => cases h; exact h0.serveCapture trivial _ _ _ r
  case captureKeep r => cases h; exact h0.serveCapture trivial _ _ _ r
  case readResults r => cases h; exact h0.serveResults _ r
  case readResultsAll r => cases h; exact h0.serveResults _ r
  case energize r =>
    cases h
    refine h0.serve _ _ r fun ht => Changes.onSection _ ht fun k => ht.guarded fun hg => ?_
    have := firstRefusal_none hg
    simp [energizeConditions, State.seqIn] at this
    exact ht.beginLineTest k this.2.2.1 this.2.1 this.2.2.2.2.2.1
  case deenergize r =>
    cases h
    exact h0.serve _ _ r fun ht => Changes.onSection _ ht fun k => ht.guarded fun _ => ht.takeOff k
  case resetLockout r =>
    cases h
    refine h0.serve _ _ r fun ht => Changes.onSection _ ht fun k => ht.guarded fun hg => ?_
    have := firstRefusal_none hg
    simp [State.seqIn] at this
    exact ht.leaveLockout k this
  case calibrate r =>
    cases h
    exact h0.serve _ _ r fun ht => Changes.onSection _ ht fun k => ht.guarded fun _ =>
      ht.measMarks k (hf := fun _ m => m.marks (hl := .inr fun c e => by cases e; exact ⟨Nat.zero_le _, Nat.le_refl _⟩))
  case maintEnter r =>
    cases h
    refine h0.serve _ _ r fun ht => Changes.onSection _ ht fun k => ht.guarded fun hg => ?_
    have := firstRefusal_none hg
    simp [maintEnterConditions, State.seqIn] at this
    exact ht.enterMaint k this.2.2.1 this.2.1
  case maintBreakerClose r =>
    cases h
    refine h0.serve _ _ r fun ht => ?_
    unfold onPosition
    split
    · split
      · refine Changes.onSection _ ht fun k => ht.guarded fun hg => ?_
        have := firstRefusal_none hg
        simp [State.seqIn] at this
        exact ht.maintClose k this.1 this.2
      · exact ht
    · exact ht
  case maintBreakerOpen r =>
    cases h
    refine h0.serve _ _ r fun ht => ?_
    unfold onPosition
    split
    · split
      · refine Changes.onSection _ ht fun k => ht.guarded fun hg => ?_
        have := firstRefusal_none hg
        simp [State.seqIn] at this
        exact ht.maintOpen k this
      · exact ht
    · exact ht
  case maintTest r =>
    cases h
    refine h0.serve _ _ r fun ht => Changes.onSection _ ht fun k => ht.guarded fun hg => ?_
    have := firstRefusal_none hg
    simp [State.seqIn] at this
    exact ht.commandTest k (.inr ⟨this.1, this.2.1⟩)
  case maintExit r =>
    cases h
    refine h0.serve _ _ r fun ht => Changes.onSection _ ht fun k => ht.guarded fun hg => ?_
    have := firstRefusal_none hg
    simp [State.seqIn] at this
    exact ht.leaveMaint k this
  case readTrucks r => cases h; exact h0.serveReads _ _ r _
  case evictTruck r => cases h; exact h0.serve _ _ r fun ht => ht.evictBody _
  case nextEvent r =>
    cases h
    exact h0.serve _ _ r fun ht => Changes.onEmpty _ ht (ht.tail (.notices _ _ (List.tail_sublist _)))

/-- The E-stop filter's expiry opens the loop and takes the falling edge, or only changes the chip-level part. -/
theorem exec_estop_changes {t : State} (h : exec .estopFilterExpiry s = .next t) :
    Changes V A s t ∨ (s.chip.estopClosed = true ∧
      t = fallingEdge { s with chip := { s.chip with filter := none, estopClosed := false } }) := by
  cases h
  unfold estopExpires
  split
  · exact .inl (.refl s)
  · rename_i f _
    dsimp only
    split
    · rename_i hc
      exact .inl ((Changes.refl s).chip _ (.inl hc))
    · rename_i hc
      split
      · rename_i ht
        exact .inl ((Changes.refl s).chip _ (.inr ht))
      · rename_i ht
        cases hf : f.candidate
        · exact .inr ⟨by cases he : s.chip.estopClosed <;> simp_all, rfl⟩
        · exact absurd hf ht

/-! ## The line at Port A -/

/-- What the receiver brings about is a frame received or a frame abandoned (R157, R158). -/
theorem tick_command {r : Rx} {level : Bool} {c : Instr} (h : (r.tick level).2 = some c) :
    (∃ bytes, c = .frameReceived bytes) ∨ ∃ cause, c = .frameAbandoned cause := by
  have hphase : ∀ (level falling : Bool) (p : RxPhase), (phaseTick level falling p).2 = some c →
      (∃ bytes, c = .frameReceived bytes) ∨ ∃ cause, c = .frameAbandoned cause := by
    intro level falling p hc
    unfold phaseTick sampleByte byteRead at hc
    repeat' split at hc
    all_goals first
      | cases hc; exact .inl ⟨_, rfl⟩
      | cases hc; exact .inr ⟨_, rfl⟩
      | cases hc
  unfold Rx.tick at h
  split at h
  · split at h
    · cases h; exact .inr ⟨_, rfl⟩
    · cases h
  · exact hphase _ _ _ h

/-- A level heard at Port A is a run of elementary changes. -/
theorem hear_changes {level : Bool} {t : State} (h : hear level s = .next t) : Changes V A s t := by
  unfold hear at h
  have h1 : Changes V A s { s with ring := { s.ring with rx := (s.ring.rx.tick level).1 } } :=
    (Changes.refl s).setRx _
  dsimp only at h
  split at h
  · cases h; exact h1
  · rename_i c hc
    rcases tick_command hc with ⟨b, rfl⟩ | ⟨x, rfl⟩
    · cases h; exact h1.frameReceived b
    · cases h; exact h1.frameAbandoned x

end Sys2Proof.Machine
end

