-- ==== Sys2Proof/Laws/Passes.lean ====
section
/-! SUPPORT. What an admission pass, and whatever follows from it, leaves as it stood: everything but the queues and
holder lists, the truck records, the two lanes, and the sections that a notice of an emptied holder list moves on. -/

namespace Sys2Proof.Machine

set_option Elab.async false

open Sys2Proof

/-- Nothing but the queues, holder lists, truck records and lanes differs, apart from the sections of `P`, whose
sequencer, measurement, protection view and heat watch may differ too. -/
structure Local (P : Sec → Prop) (s t : State) : Prop where
  seq : ∀ k, ¬ P k → (t.sec k).seq = (s.sec k).seq
  meas : ∀ k, ¬ P k → (t.sec k).meas = (s.sec k).meas
  prot : ∀ k, ¬ P k → (t.sec k).prot = (s.sec k).prot
  watch : ∀ k, ¬ P k → (t.sec k).acc.heatWatch = (s.sec k).acc.heatWatch
  acc : ∀ k, (t.sec k).acc = { (s.sec k).acc with heatWatch := (t.sec k).acc.heatWatch }
  copies : ∀ k, (t.sec k).copies = (s.sec k).copies
  ring : t.ring = { s.ring with priority := t.ring.priority, ordinary := t.ring.ordinary }
  table : t.table = { s.table with trucks := t.table.trucks, generation := t.table.generation }
  rest : t = { s with sections := t.sections, ring := t.ring, table := t.table }

variable {P : Sec → Prop} {a s : State}

theorem Local.refl (s : State) : Local P s s :=
  ⟨fun _ _ => rfl, fun _ _ => rfl, fun _ _ => rfl, fun _ _ => rfl, fun _ => rfl, fun _ => rfl, rfl, rfl, rfl⟩

theorem Local.trans {b c : State} (h : Local P a b) (h' : Local P b c) : Local P a c where
  seq k hk := (h'.seq k hk).trans (h.seq k hk)
  meas k hk := (h'.meas k hk).trans (h.meas k hk)
  prot k hk := (h'.prot k hk).trans (h.prot k hk)
  watch k hk := (h'.watch k hk).trans (h.watch k hk)
  acc k := by rw [h'.acc k, h.acc k]
  copies k := (h'.copies k).trans (h.copies k)
  ring := by rw [h'.ring, h.ring]
  table := by rw [h'.table, h.table]
  rest := by rw [h'.rest, h.rest]

theorem Local.mono {Q : Sec → Prop} {t : State} (h : Local P s t) (hPQ : ∀ k, P k → Q k) : Local Q s t :=
  ⟨fun k hk => h.seq k fun p => hk (hPQ k p), fun k hk => h.meas k fun p => hk (hPQ k p),
   fun k hk => h.prot k fun p => hk (hPQ k p), fun k hk => h.watch k fun p => hk (hPQ k p), h.acc, h.copies, h.ring,
   h.table, h.rest⟩

theorem Local.active {t : State} (h : Local P s t) (k : Sec) : t.active k = s.active k := by
  simp only [State.active, h.copies]

/-! ## Changes of the lanes, the records and the queues -/

theorem Local.lanes (h : Local P a s) (p : List PriorityFrame) (o : List OrdinaryFrame) :
    Local P a { s with ring := { s.ring with priority := p, ordinary := o } } :=
  h.trans ⟨fun _ _ => rfl, fun _ _ => rfl, fun _ _ => rfl, fun _ _ => rfl, fun _ => rfl, fun _ => rfl, rfl, rfl, rfl⟩

theorem Local.trucks (h : Local P a s) (l : List Truck) (g : Nat) :
    Local P a { s with table := { s.table with trucks := l, generation := g } } :=
  h.trans ⟨fun _ _ => rfl, fun _ _ => rfl, fun _ _ => rfl, fun _ _ => rfl, fun _ => rfl, fun _ => rfl, rfl, rfl, rfl⟩

/-- A change within a section that only sections of `P` make to more than their admission state. -/
theorem Local.sec (h : Local P a s) (k : Sec) {f : Section → Section}
    (hP : P k ∨ ((f (s.sec k)).seq = (s.sec k).seq ∧ (f (s.sec k)).meas = (s.sec k).meas ∧
      (f (s.sec k)).prot = (s.sec k).prot ∧ (f (s.sec k)).acc.heatWatch = (s.sec k).acc.heatWatch))
    (ha : (f (s.sec k)).acc = { (s.sec k).acc with heatWatch := (f (s.sec k)).acc.heatWatch } := by rfl)
    (hc : (f (s.sec k)).copies = (s.sec k).copies := by rfl) : Local P a (s.modSec k f) := by
  refine h.trans ⟨?_, ?_, ?_, ?_, fun j => ?_, fun j => ?_, rfl, rfl, rfl⟩
  all_goals try intro j hj
  all_goals rw [State.modSec_sec]; split
  all_goals first | rfl | skip
  all_goals subst_vars
  · exact (hP.resolve_left hj).1
  · exact (hP.resolve_left hj).2.1
  · exact (hP.resolve_left hj).2.2.1
  · exact (hP.resolve_left hj).2.2.2
  · exact ha
  · exact hc

theorem Local.adm (h : Local P a s) (k : Sec) (f : Adm → Adm) : Local P a (s.modAdm k f) :=
  h.sec k (.inr ⟨rfl, rfl, rfl, rfl⟩)

theorem Local.seqAt (h : Local P a s) {k : Sec} (hk : P k) (f : Seq → Seq) : Local P a (s.modSeq k f) := h.sec k (.inl hk)
theorem Local.measAt (h : Local P a s) {k : Sec} (hk : P k) (f : Meas → Meas) : Local P a (s.modMeas k f) :=
  h.sec k (.inl hk)
theorem Local.protAt (h : Local P a s) {k : Sec} (hk : P k) (f : Prot → Prot) : Local P a (s.modProt k f) :=
  h.sec k (.inl hk)
theorem Local.setWatch (h : Local P a s) {k : Sec} (hk : P k) (b : Bool) : Local P a (setWatch k b s) := by
  unfold Machine.setWatch Machine.State.modAcc
  exact h.sec k (.inl hk)

theorem Local.truck (h : Local P a s) (t : Nat) (f : Truck → Truck) : Local P a (s.modTruck t f) := h.trucks _ _

theorem Local.placePriority (h : Local P a s) (f : PriorityFrame) : Local P a (placePriority f s) := h.lanes _ _

theorem Local.placeCommand (h : Local P a s) (k : Sec) (c : BreakerCmd) : Local P a (placeCommand k c s) := by
  unfold Machine.placeCommand; split
  · exact h
  · exact h.placePriority _

theorem Local.offer (h : Local P a s) (f : OrdinaryFrame) : Local P a (offer f s) := by
  unfold Machine.offer; split
  · exact h.lanes _ _
  · exact h

/-- A grant claims a place and fills it in one event. -/
theorem placeGrant_eq (f : OrdinaryFrame) (s : State) : placeGrant f s = offer f s := by
  unfold placeGrant offer claim hasPlace fill
  by_cases h : s.ring.ordinary.length + s.ring.claimed + 1 ≤ 16
  · rw [if_pos h, if_pos (by simp; omega)]
    simp
  · rw [if_neg h, if_neg (by simp; omega)]

theorem Local.placeGrant (h : Local P a s) (f : OrdinaryFrame) : Local P a (placeGrant f s) := by
  rw [placeGrant_eq]; exact h.offer f

theorem Local.placeLower (h : Local P a s) (t : Nat) (r : LowerReason) (k : Sec) : Local P a (placeLower t r k s) := by
  unfold Machine.placeLower; split
  · exact h
  · exact h.placePriority _

theorem Local.offerDeny (h : Local P a s) (t : Nat) (r : DenyReason) (k : Sec) : Local P a (offerDeny t r k s) := by
  unfold Machine.offerDeny; split
  · exact h
  · exact h.offer _

theorem Local.removeRecord (h : Local P a s) (t : Nat) : Local P a (removeRecord t s) := by
  unfold Machine.removeRecord; split
  · exact h.trucks _ _
  · exact h

theorem Local.becomeIdle (h : Local P a s) (t : Nat) : Local P a (becomeIdle t s) := by
  unfold Machine.becomeIdle; dsimp only; split
  · exact (h.truck t _).removeRecord t
  · exact h.truck t _

theorem Local.foldl {α : Type} {f : State → α → State} (hf : ∀ s x, Local P a s → Local P a (f s x)) (l : List α) :
    ∀ {s}, Local P a s → Local P a (l.foldl f s) := by
  induction l with
  | nil => exact id
  | cons x l ih => exact fun h => ih (hf _ x h)

theorem Local.lowerCore (h : Local P a s) (t : Nat) (r : LowerReason) : Local P a (lowerCore t r s).1 := by
  unfold Machine.lowerCore
  split
  · exact h
  · split
    · dsimp only
      apply Local.placeLower
      apply Local.truck
      split
      · exact h
      · exact h.adm _ _
    · exact h

theorem Local.lowerEach (r : LowerReason) (ts : List Nat) : ∀ {s}, Local P a s → Local P a (lowerEach r ts s).1 := by
  induction ts with
  | nil => exact id
  | cons t ts ih => exact fun h => ih (h.lowerCore t r)

theorem Local.recompute (h : Local P a s) (k : Sec) : Local P a (recompute k s) := h.adm k _

theorem Local.dropHandovers (h : Local P a s) (k : Sec) : Local P a (dropHandovers k s) :=
  Local.lowerEach _ _ (h.adm k _)

theorem Local.denyQueued (h : Local P a s) (r : DenyReason) (t : Nat) : Local P a (denyQueued r t s) := by
  unfold Machine.denyQueued; split
  · exact h
  · split
    · exact (h.becomeIdle t).offerDeny _ _ _
    · exact h

theorem Local.denyQueue (h : Local P a s) (k : Sec) (r : DenyReason) : Local P a (denyQueue k r s) :=
  Local.foldl (fun _ t h => h.denyQueued r t) _ (h.adm k _)

theorem Local.admNotice (h : Local P a s) (k : Sec) (new : SecState) (c : NoticeCause) :
    Local P a (admNotice k new c s) := by
  unfold Machine.admNotice
  have h1 := (h.adm k fun a => { a with view := new }).recompute k
  dsimp only
  split
  · split <;> split
    · exact (h1.dropHandovers _).denyQueue _ _
    · exact h1.denyQueue _ _
    · exact h1.dropHandovers _
    · exact h1
  · exact h1

/-! ## The notices of a section of `P` -/

theorem Local.restartWatchdog (h : Local P a s) {k : Sec} (hk : P k) : Local P a (restartWatchdog k s) := by
  unfold Machine.restartWatchdog; split
  · exact h.measAt hk _
  · exact h

theorem Local.measNotice (h : Local P a s) {k : Sec} (hk : P k) (new : SecState) : Local P a (measNotice k new s) := by
  unfold Machine.measNotice
  split <;> first | exact h | exact h.restartWatchdog hk | exact (h.measAt hk _).restartWatchdog hk

theorem Local.protNotice (h : Local P a s) {k : Sec} (hk : P k) (new : SecState) : Local P a (protNotice k new s) := by
  unfold Machine.protNotice
  dsimp only
  repeat' split
  all_goals
    repeat' first
      | exact h
      | exact hk
      | apply Local.recompute
      | apply Local.protAt

theorem Local.notifyState (h : Local P a s) {k : Sec} (hk : P k) (new : SecState) (c : NoticeCause) (told : ProtTold) :
    Local P a (notifyState k new c told s) := by
  unfold Machine.notifyState
  dsimp only
  split
  · exact ((h.measNotice hk new).admNotice k new c).protNotice hk new
  · exact (h.measNotice hk new).admNotice k new c

theorem Local.commandOpen (h : Local P a s) {k : Sec} (hk : P k) : Local P a (commandOpen k s) :=
  (h.seqAt hk _).placeCommand k _

theorem Local.drainEnd (h : Local P a s) {k : Sec} (hk : P k) : Local P a (drainEnd k s) := by
  unfold Machine.drainEnd
  exact ((h.seqAt hk _).commandOpen hk).notifyState hk _ _ _

theorem Local.enterTesting (h : Local P a s) {k : Sec} (hk : P k) : Local P a (enterTesting k s) := by
  unfold Machine.enterTesting
  dsimp only
  apply Local.seqAt _ hk
  exact ((h.seqAt hk _).notifyState hk _ _ _).placeCommand k _

theorem Local.leaveTripped (h : Local P a s) {k : Sec} (hk : P k) : Local P a (leaveTripped k s) := by
  unfold Machine.leaveTripped
  exact ((h.seqAt hk _).setWatch hk _).enterTesting hk

theorem Local.judgeReclose (h : Local P a s) {k : Sec} (hk : P k) : Local P a (judgeReclose k s) := by
  unfold Machine.judgeReclose
  dsimp only
  split
  · exact h.leaveTripped hk
  · split
    · exact h.seqAt hk _
    · exact (h.seqAt hk _).setWatch hk _

/-! ## Passes -/

/-- No notice of an emptied holder list, and no judgement of a reclose wait, moves the section on (R99, R103). -/
def AtRest (s : State) (k : Sec) : Prop :=
  (s.sec k).seq.state ≠ .draining ∧ ¬ ((s.sec k).seq.state = .tripped ∧ (s.sec k).seq.reclosePending = true)

/-- What a pass leaves: everything that `Local` lists, for the sections at rest. -/
abbrev Aside (s t : State) : Prop := Local (fun k => ¬ AtRest s k) s t

theorem Aside.atRest {t : State} (h : Aside s t) {k : Sec} (hk : AtRest s k) : AtRest t k := by
  unfold AtRest; rw [h.seq k (by simpa using hk)]; exact hk

theorem Aside.trans {b c : State} (h : Aside a b) (h' : Aside b c) : Aside a c :=
  Local.trans h (h'.mono fun _ hk ha => hk (h.atRest ha))

theorem Aside.rejudge (s : State) (k : Sec) : Aside s (rejudge k s) := by
  unfold Machine.rejudge
  split
  · rename_i hc
    exact (Local.refl s).judgeReclose (k := k) (fun hr => hr.2 hc)
  · exact Local.refl s

theorem Aside.holdersEmptied (s : State) (k : Sec) : Aside s (holdersEmptied k s) := by
  unfold Machine.holdersEmptied
  split
  · rename_i hc
    exact (Local.refl s).drainEnd (k := k) (fun hr => hr.1 hc)
  · exact Aside.rejudge s k

/-- A grant changes no section but in its queues and holder lists (R137, R138). -/
theorem Local.grantHead (s : State) (k : Sec) (e : QueueEntry) : Local (fun _ => False) s (grantHead k e s).1 := by
  unfold Machine.grantHead
  split
  · dsimp only; exact (Local.refl s).adm k _
  · split
    · unfold Machine.grantOrdinary
      dsimp only
      have h1 := ((Local.refl (P := fun _ => False) s).adm k fun a =>
        let q := a.queue.filter fun x => x.truck ≠ e.truck
        { a with queue := q, stall := a.stall && !q.isEmpty })
      split
      · exact ((h1.truck _ _).adm k _)
      · exact ((h1.truck _ _).adm k _).placeGrant _
    · unfold Machine.grantHandover
      dsimp only
      have h1 := ((Local.refl (P := fun _ => False) s).adm k fun a =>
        let q := a.queue.filter fun x => x.truck ≠ e.truck
        { a with queue := q, stall := a.stall && !q.isEmpty })
      split <;> split <;> first | exact (((h1.adm _ _).truck _ _)) | exact ((h1.adm _ _).truck _ _).placeGrant _ |
        exact (((h1.adm _ _).adm _ _).truck _ _) | exact (((h1.adm _ _).adm _ _).truck _ _).placeGrant _

theorem Local.passLoop (n : Nat) (k : Sec) : ∀ s, Local (fun _ => False) s (passLoop n k s).1 := by
  induction n with
  | zero => exact fun s => Local.refl s
  | succ n ih =>
    intro s
    unfold Machine.passLoop
    split
    · exact Local.refl s
    · split
      · split
        · exact (Local.grantHead s k _).trans (ih _)
        · dsimp only; exact (Local.refl s).adm k _
      · exact Local.refl s

/-- A pass changes no section but in its queues and holder lists (R135). -/
theorem Local.pass (s : State) (k : Sec) : Local (fun _ => False) s (pass k s).1 := by
  have h1 : Local (fun _ => False) s (s.modAdm k fun a => { a with stall := false }) := (Local.refl s).adm k _
  exact h1.trans (Local.passLoop _ k _)

theorem Aside.pass (s : State) (k : Sec) : Aside s (pass k s).1 := (Local.pass s k).mono fun _ h => h.elim

theorem Aside.runJob (j : Job) (s : State) : Aside s (runJob j s).1 := by
  unfold Machine.runJob
  split
  · exact Aside.pass s _
  · rename_i k
    refine Aside.trans (Aside.pass s k) ?_
    show Aside _ (notifyIfEmpty k (Machine.pass k s).1)
    unfold notifyIfEmpty
    split
    · exact Aside.holdersEmptied _ k
    · exact Local.refl _

theorem Aside.runJobs (n : Nat) : ∀ (jobs : List Job) (s : State), Aside s (runJobs n jobs s) := by
  induction n with
  | zero => exact fun _ s => Local.refl s
  | succ n ih =>
    intro jobs s
    cases jobs with
    | nil => exact Local.refl s
    | cons j js => exact Aside.trans (Aside.runJob j s) (ih _ _)

theorem Aside.settle (jobs : List Job) (s : State) : Aside s (settle jobs s) := Aside.runJobs _ _ s
theorem Aside.runPass (k : Sec) (s : State) : Aside s (runPass k s) := Aside.settle _ s
theorem Aside.runPasses (ks : List Sec) (s : State) : Aside s (runPasses ks s) := Aside.settle _ s

theorem Aside.lower (t : Nat) (r : LowerReason) (s : State) : Aside s (lower t r s) :=
  Aside.trans ((Local.refl s).lowerCore t r) (Aside.runPasses _ _)

theorem Aside.lowerAll (ts : List Nat) (r : LowerReason) (s : State) : Aside s (lowerAll ts r s) :=
  Aside.trans (Local.lowerEach r ts (Local.refl s)) (Aside.runPasses _ _)

theorem Aside.revoke (k : Sec) (r : LowerReason) (s : State) : Aside s (revoke k r s) := Aside.lowerAll _ r s

theorem Aside.release (k : Sec) (t : Nat) (s : State) : Aside s (release k t s) := by
  have h1 : Aside s (dropHolder k t s) := (Local.refl s).adm k _
  exact h1.trans (Aside.settle _ _)

theorem Aside.budgetNotice (k : Sec) (s : State) : Aside s (budgetNotice k s) := by
  unfold Machine.budgetNotice
  have h1 : Aside s (recompute k s) := (Local.refl s).recompute k
  dsimp only
  split
  · exact h1.trans (Aside.runPass k _)
  · exact h1

theorem Aside.limitNotice (k : Sec) (s : State) : Aside s (limitNotice k s) := by
  unfold Machine.limitNotice
  have h1 : Aside s (recompute k s) := (Local.refl s).recompute k
  dsimp only
  cases s.active k with
  | none =>
    dsimp only
    split
    · exact h1.trans (Aside.runPass k _)
    · exact h1
  | some p =>
    dsimp only
    have h2 := Aside.trans h1 (Aside.lowerAll ((Machine.recompute k s).overLimit k p.limitAmps) .limit _)
    split
    · exact h2.trans (Aside.runPass k _)
    · exact h2

end Sys2Proof.Machine
end

