-- ==== Sys2Proof/Laws/Heard.lean ====
section
/-! SUPPORT. Breaker feedback reads nothing of what the first stages of a measurement frame write: the section's
measurement state, its accumulators, and the work handed over. -/

namespace Sys2Proof.Machine

set_option Elab.async false

open Sys2Proof

/-- Another measurement state and other accumulators at section `k`, and other work handed over. -/
def State.swap (k : Sec) (m : Meas) (b : Books) (h : List Instr) (s : State) : State :=
  { s.modSec k fun x => { x with meas := m, acc := { x.acc with books := b } } with handed := h }

variable {k : Sec} {m : Meas} {b : Books} {h : List Instr} (s : State) (j : Sec)

/-! ## What a swap leaves -/

theorem swap_sec : (s.swap k m b h).sec j =
    if j = k then { s.sec k with meas := m, acc := { (s.sec k).acc with books := b } } else s.sec j :=
  State.modSec_sec s j k fun x => { x with meas := m, acc := { x.acc with books := b } }

@[simp] theorem swap_seq : ((s.swap k m b h).sec j).seq = (s.sec j).seq := by rw [swap_sec]; split <;> simp_all
@[simp] theorem swap_prot : ((s.swap k m b h).sec j).prot = (s.sec j).prot := by rw [swap_sec]; split <;> simp_all
@[simp] theorem swap_adm : ((s.swap k m b h).sec j).adm = (s.sec j).adm := by rw [swap_sec]; split <;> simp_all
@[simp] theorem swap_copies : ((s.swap k m b h).sec j).copies = (s.sec j).copies := by rw [swap_sec]; split <;> simp_all
@[simp] theorem swap_heat : ((s.swap k m b h).sec j).acc.heat = (s.sec j).acc.heat := by rw [swap_sec]; split <;> simp_all
@[simp] theorem swap_derate : ((s.swap k m b h).sec j).acc.derate = (s.sec j).acc.derate := by
  rw [swap_sec]; split <;> simp_all
@[simp] theorem swap_active : (s.swap k m b h).active j = s.active j := by simp [State.active]
@[simp] theorem swap_reader : (s.swap k m b h).reader j = s.reader j := by simp [State.reader]
@[simp] theorem swap_enabled : (s.swap k m b h).isEnabled j = s.isEnabled j := by simp [State.isEnabled]
@[simp] theorem swap_startTimer (f : SectionParams → Nat) : (s.swap k m b h).startTimer j f = s.startTimer j f := by
  simp [State.startTimer]
@[simp] theorem swap_truck (t : Nat) : (s.swap k m b h).truck t = s.truck t := rfl
@[simp] theorem swap_ring : (s.swap k m b h).ring = s.ring := rfl
@[simp] theorem swap_table : (s.swap k m b h).table = s.table := rfl
@[simp] theorem swap_mgmt : (s.swap k m b h).mgmt = s.mgmt := rfl
@[simp] theorem swap_straps : (s.swap k m b h).straps = s.straps := rfl
@[simp] theorem swap_chip : (s.swap k m b h).chip = s.chip := rfl
@[simp] theorem swap_hasTruck (t : Nat) : (s.swap k m b h).hasTruck t = s.hasTruck t := rfl
@[simp] theorem swap_hasPlace : hasPlace (s.swap k m b h) = hasPlace s := rfl
@[simp] theorem swap_pantoOf (t : Nat) : (s.swap k m b h).pantoOf t = s.pantoOf t := rfl
@[simp] theorem swap_reservedOf (t : Nat) : (s.swap k m b h).reservedOf t = s.reservedOf t := rfl
@[simp] theorem swap_classOf (r : Truck) : (s.swap k m b h).classOf r = s.classOf r := rfl
@[simp] theorem swap_reserved : (s.swap k m b h).reserved j = s.reserved j := by simp [State.reserved]
@[simp] theorem swap_entrySec (t : Nat) : (s.swap k m b h).entrySec t = s.entrySec t := by simp [State.entrySec]
@[simp] theorem swap_budgetOf : (s.swap k m b h).budgetOf j = s.budgetOf j := by simp [State.budgetOf]
@[simp] theorem swap_heatAllows : (s.swap k m b h).heatAllows j = s.heatAllows j := by simp [State.heatAllows]
@[simp] theorem swap_queued : (s.swap k m b h).queued = s.queued := by simp [State.queued]

/-! ## Updates and a swap change places -/

/-- A change of a section that neither reads nor writes what is swapped. -/
theorem swap_modSec {f : Section → Section} (hf : j = k → ∀ x : Section,
    f { x with meas := m, acc := { x.acc with books := b } } =
      { f x with meas := m, acc := { (f x).acc with books := b } }) :
    (s.swap k m b h).modSec j f = (s.modSec j f).swap k m b h := by
  refine State.ext_sec (fun i => ?_) rfl
  rw [State.modSec_sec, swap_sec, swap_sec, swap_sec, State.modSec_sec, State.modSec_sec]
  by_cases hj : j = k
  · subst hj
    by_cases hi : i = j
    · simp [hi, hf rfl]
    · simp [hi]
  · by_cases hi : i = j
    · subst hi; simp [hj]
    · have : ¬ k = j := fun e => hj e.symm
      simp [hi, this]

@[simp] theorem swap_modSeq (f : Seq → Seq) : (s.swap k m b h).modSeq j f = (s.modSeq j f).swap k m b h :=
  swap_modSec s j fun _ _ => rfl
@[simp] theorem swap_modProt (f : Prot → Prot) : (s.swap k m b h).modProt j f = (s.modProt j f).swap k m b h :=
  swap_modSec s j fun _ _ => rfl
@[simp] theorem swap_modAdm (f : Adm → Adm) : (s.swap k m b h).modAdm j f = (s.modAdm j f).swap k m b h :=
  swap_modSec s j fun _ _ => rfl
@[simp] theorem swap_setWatch (w : Bool) : setWatch j w (s.swap k m b h) = (setWatch j w s).swap k m b h :=
  swap_modSec (f := fun x => { x with acc := { x.acc with heatWatch := w } }) s j fun _ _ => rfl
theorem swap_modMeas (hj : j ≠ k) (f : Meas → Meas) : (s.swap k m b h).modMeas j f = (s.modMeas j f).swap k m b h :=
  swap_modSec s j fun e => absurd e hj

@[simp] theorem swap_modTruck (t : Nat) (f : Truck → Truck) :
    (s.swap k m b h).modTruck t f = (s.modTruck t f).swap k m b h := rfl

theorem swap_ite {c : Prop} [Decidable c] {t u : State} :
    (if c then t.swap k m b h else u.swap k m b h) = (if c then t else u).swap k m b h := by split <;> rfl

@[simp] theorem swap_placePriority (f : PriorityFrame) :
    placePriority f (s.swap k m b h) = (placePriority f s).swap k m b h := rfl

@[simp] theorem swap_placeCommand (c : BreakerCmd) :
    placeCommand j c (s.swap k m b h) = (placeCommand j c s).swap k m b h := by
  unfold placeCommand; rw [swap_active]; split <;> rfl

@[simp] theorem swap_offer (f : OrdinaryFrame) : offer f (s.swap k m b h) = (offer f s).swap k m b h := by
  unfold offer; rw [swap_hasPlace]; split <;> rfl

@[simp] theorem swap_placeGrant (f : OrdinaryFrame) : placeGrant f (s.swap k m b h) = (placeGrant f s).swap k m b h := by
  rw [placeGrant_eq, placeGrant_eq, swap_offer]

@[simp] theorem swap_placeLower (t : Nat) (r : LowerReason) :
    placeLower t r j (s.swap k m b h) = (placeLower t r j s).swap k m b h := by
  unfold placeLower; rw [swap_reader]; split <;> rfl

@[simp] theorem swap_offerDeny (t : Nat) (r : DenyReason) :
    offerDeny t r j (s.swap k m b h) = (offerDeny t r j s).swap k m b h := by
  unfold offerDeny; rw [swap_reader]; split
  · rfl
  · exact swap_offer s _

@[simp] theorem swap_raise (key : Option Sec) (d : NoticeData) :
    raise key d (s.swap k m b h) = (raise key d s).swap k m b h := by
  unfold raise
  by_cases hc : s.mgmt.notices = [] ∧ isNode s.straps.supaddr = true
  · have hc' : (s.swap k m b h).mgmt.notices = [] ∧ isNode (s.swap k m b h).straps.supaddr = true := hc
    dsimp only
    rw [if_pos hc, if_pos hc']
    exact swap_offer { s with mgmt := { s.mgmt with notices := raiseIn key d s.mgmt.notices } } _
  · have hc' : ¬ ((s.swap k m b h).mgmt.notices = [] ∧ isNode (s.swap k m b h).straps.supaddr = true) := hc
    dsimp only
    rw [if_neg hc, if_neg hc']
    rfl

@[simp] theorem swap_removeRecord (t : Nat) : removeRecord t (s.swap k m b h) = (removeRecord t s).swap k m b h := by
  unfold removeRecord; rw [swap_hasTruck]; split <;> rfl

@[simp] theorem swap_becomeIdle (t : Nat) : becomeIdle t (s.swap k m b h) = (becomeIdle t s).swap k m b h := by
  unfold becomeIdle
  dsimp only
  rw [swap_truck, swap_modTruck, swap_removeRecord, swap_ite]

@[simp] theorem swap_dropEntry (t : Nat) : dropEntry j t (s.swap k m b h) = (dropEntry j t s).swap k m b h :=
  swap_modAdm s j _

@[simp] theorem swap_dropHolder (t : Nat) : dropHolder j t (s.swap k m b h) = (dropHolder j t s).swap k m b h :=
  swap_modAdm s j _

/-- The state of an outcome swapped. -/
def swapFst {α : Type} (k : Sec) (m : Meas) (b : Books) (h : List Instr) (o : State × α) : State × α :=
  (o.1.swap k m b h, o.2)

theorem swap_lowerCore (t : Nat) (r : LowerReason) :
    lowerCore t r (s.swap k m b h) = swapFst k m b h (lowerCore t r s) := by
  unfold lowerCore swapFst
  rw [swap_truck]
  split
  · rfl
  · split
    · simp only [swap_entrySec, swap_classOf]
      split <;> simp
    · rfl

theorem swap_lowerEach (r : LowerReason) (ts : List Nat) :
    ∀ s : State, lowerEach r ts (s.swap k m b h) = swapFst k m b h (lowerEach r ts s) := by
  induction ts with
  | nil => exact fun _ => rfl
  | cons t ts ih =>
    intro s
    simp only [lowerEach, swap_lowerCore, swapFst, ih]

@[simp] theorem swap_recompute : recompute j (s.swap k m b h) = (recompute j s).swap k m b h := by
  unfold recompute; rw [swap_budgetOf, swap_modAdm]

@[simp] theorem swap_dropHandovers : dropHandovers j (s.swap k m b h) = (dropHandovers j s).swap k m b h := by
  unfold dropHandovers
  simp only [swap_adm, swap_modAdm, swap_lowerEach, swapFst]

@[simp] theorem swap_denyQueued (r : DenyReason) (t : Nat) :
    denyQueued r t (s.swap k m b h) = (denyQueued r t s).swap k m b h := by
  unfold denyQueued; rw [swap_truck]
  split
  · rfl
  · simp only [swap_becomeIdle, swap_offerDeny, swap_ite]

theorem swap_foldl {α : Type} {f : State → α → State} (hf : ∀ s x, f (s.swap k m b h) x = (f s x).swap k m b h)
    (l : List α) : ∀ s : State, l.foldl f (s.swap k m b h) = (l.foldl f s).swap k m b h := by
  induction l with
  | nil => exact fun _ => rfl
  | cons x l ih => intro s; rw [List.foldl_cons, List.foldl_cons, hf, ih]

@[simp] theorem swap_denyQueue (r : DenyReason) : denyQueue j r (s.swap k m b h) = (denyQueue j r s).swap k m b h := by
  unfold denyQueue
  simp only [swap_adm, swap_modAdm]
  exact swap_foldl (fun s t => swap_denyQueued s r t) _ _

@[simp] theorem swap_admNotice (new : SecState) (c : NoticeCause) :
    admNotice j new c (s.swap k m b h) = (admNotice j new c s).swap k m b h := by
  unfold admNotice
  simp only [swap_adm, swap_modAdm, swap_recompute, swap_dropHandovers, swap_ite, swap_denyQueue]

@[simp] theorem swap_protNotice (new : SecState) :
    protNotice j new (s.swap k m b h) = (protNotice j new s).swap k m b h := by
  unfold protNotice
  simp only [swap_prot, swap_modProt, swap_ite, swap_recompute]

@[simp] theorem swap_commandOpen : commandOpen j (s.swap k m b h) = (commandOpen j s).swap k m b h := by
  unfold commandOpen; simp

@[simp] theorem swap_stopSequence : stopSequence j (s.swap k m b h) = (stopSequence j s).swap k m b h := by
  unfold stopSequence; simp

/-- The notices of a state that the measurement unit does not act on, or of another section. -/
theorem swap_notifyState (new : SecState) (c : NoticeCause) (told : ProtTold)
    (hm : j ≠ k ∨ (new ≠ .testing ∧ new ≠ .maint)) :
    notifyState j new c told (s.swap k m b h) = (notifyState j new c told s).swap k m b h := by
  have hmeas : measNotice j new (s.swap k m b h) = (measNotice j new s).swap k m b h := by
    unfold measNotice restartWatchdog
    cases new <;> try rfl
    all_goals
      have hj : j ≠ k := hm.resolve_right fun x => by simp at x
      simp only [swap_modMeas _ _ hj, swap_enabled, swap_startTimer, swap_ite]
  unfold notifyState
  rw [hmeas]
  cases told <;> simp

/-! ## Passes -/

theorem swap_grantHead (e : QueueEntry) :
    grantHead j e (s.swap k m b h) = swapFst k m b h (grantHead j e s) := by
  unfold grantHead swapFst
  rw [swap_truck]
  split
  · simp
  · split
    · unfold grantOrdinary
      simp only [swap_classOf, swap_dropEntry, swap_modTruck, swap_modAdm, swap_reader]
      split <;> simp
    · rename_i r _ _ _
      unfold grantHandover
      simp only [swap_classOf, swap_dropEntry]
      cases r.hold <;> simp only [swap_dropHolder, swap_modTruck, swap_modAdm, swap_reader] <;> split <;> simp

theorem swap_passLoop (n : Nat) : ∀ s : State, passLoop n j (s.swap k m b h) = swapFst k m b h (passLoop n j s) := by
  induction n with
  | zero => exact fun _ => rfl
  | succ n ih =>
    intro s
    unfold passLoop
    rw [swap_adm, swap_reserved, swap_hasPlace]
    split
    · rfl
    · split
      · split
        · simp only [swap_grantHead, swapFst, ih]
        · simp [swapFst]
      · rfl

theorem swap_pass : pass j (s.swap k m b h) = swapFst k m b h (pass j s) := by
  unfold pass
  rw [swap_adm, swap_modAdm, swap_passLoop]

theorem swap_leaveTripped (hj : j ≠ k) : leaveTripped j (s.swap k m b h) = (leaveTripped j s).swap k m b h := by
  unfold leaveTripped enterTesting commandTest
  simp only [swap_modSeq, swap_setWatch, swap_notifyState _ _ _ _ _ (.inl hj), swap_placeCommand, swap_startTimer]

/-- The notice of an emptied holder list moves section `k` on only out of a drain or a reclose wait. -/
theorem swap_holdersEmptied (hr : AtRest s k) :
    holdersEmptied j (s.swap k m b h) = (holdersEmptied j s).swap k m b h := by
  unfold holdersEmptied rejudge
  simp only [swap_seq]
  by_cases hj : j = k
  · subst hj
    rw [if_neg hr.1, if_neg hr.1, if_neg hr.2, if_neg hr.2]
  · unfold drainEnd judgeReclose
    simp only [swap_modSeq, swap_commandOpen, swap_notifyState _ _ _ _ _ (.inl hj), swap_adm, swap_heatAllows,
      swap_leaveTripped _ _ hj, swap_setWatch, swap_ite]

theorem swap_runJob (job : Job) (hr : AtRest s k) : runJob job (s.swap k m b h) = swapFst k m b h (runJob job s) := by
  cases job with
  | pass j => simp only [runJob, swap_pass, swapFst]
  | release j =>
    have hr' : AtRest (pass j s).1 k := (Aside.pass s j).atRest hr
    simp only [runJob, swap_pass, swapFst, notifyIfEmpty, swap_adm, swap_holdersEmptied _ _ hr', swap_ite]

theorem swap_runJobs (n : Nat) : ∀ (jobs : List Job) (s : State), AtRest s k →
    runJobs n jobs (s.swap k m b h) = (runJobs n jobs s).swap k m b h := by
  induction n with
  | zero => exact fun _ _ _ => rfl
  | succ n ih =>
    intro jobs s hr
    cases jobs with
    | nil => rfl
    | cons job jobs =>
      simp only [runJobs, swap_runJob _ _ hr, swapFst]
      exact ih _ _ ((Aside.runJob job s).atRest hr)

theorem swap_settle (jobs : List Job) (hr : AtRest s k) :
    settle jobs (s.swap k m b h) = (settle jobs s).swap k m b h := by
  unfold settle
  rw [swap_queued, swap_runJobs _ _ _ hr]

theorem swap_runPass (hr : AtRest s k) : runPass j (s.swap k m b h) = (runPass j s).swap k m b h := swap_settle s _ hr

theorem swap_lowerAll (ts : List Nat) (r : LowerReason) (hr : AtRest s k) :
    lowerAll ts r (s.swap k m b h) = (lowerAll ts r s).swap k m b h := by
  unfold lowerAll runPasses
  rw [swap_lowerEach]
  exact swap_settle _ _ (Aside.atRest (Local.lowerEach r ts (Local.refl s)) hr)

theorem swap_revoke (r : LowerReason) (hr : AtRest s k) : revoke j r (s.swap k m b h) = (revoke j r s).swap k m b h := by
  unfold revoke; rw [swap_adm, swap_lowerAll _ _ _ hr]

/-! ## Feedback -/

theorem swap_becomeLive : becomeLive k (s.swap k m b h) = (becomeLive k s).swap k m b h := by
  unfold becomeLive notifyLive
  rw [swap_startTimer, swap_modSeq, swap_notifyState _ _ _ _ _ (.inr (by decide))]
  apply swap_runPass
  have hs : ((notifyState k .live .plain .byNotice (s.modSeq k fun q => { q with
      breakerTimer := none, state := .live, stableTimer := s.startTimer k (·.stableMs) })).sec k).seq.state = .live := by
    rw [(Still.notifyState (Still.refl _) k _ _ _).seq]
    simp
  unfold AtRest
  rw [hs]
  simp

theorem swap_breakerFailure (c : FailCause) : breakerFailure k c (s.swap k m b h) = (breakerFailure k c s).swap k m b h := by
  unfold breakerFailure assertBackup
  simp only [swap_seq, swap_stopSequence, swap_modSeq, swap_commandOpen, swap_ite]
  generalize hu : (if (failedToOpen c (s.sec k).seq.expectation || decide ((s.sec k).seq.lastFeedback = .opened)) = true
    then (commandOpen k ((stopSequence k s).modSeq k fun q => { q with state := .lockout })).modSeq k fun q =>
      { q with breakerTimer := none }
    else commandOpen k ((stopSequence k s).modSeq k fun q => { q with state := .lockout })) = u
  have hs : (u.sec k).seq.state = .lockout := by
    rw [← hu]
    split <;> simp [commandOpen]
  have hb : (if (failedToOpen c (s.sec k).seq.expectation && decide ((s.sec k).seq.lastFeedback = .closed)) = true
      then raise none (.backupTrip k) { u.swap k m b h with chip := { u.chip with backupTrip := true } }
      else u.swap k m b h) = (if (failedToOpen c (s.sec k).seq.expectation &&
        decide ((s.sec k).seq.lastFeedback = .closed)) = true
      then raise none (.backupTrip k) { u with chip := { u.chip with backupTrip := true } } else u).swap k m b h := by
    rw [← swap_ite]
    congr 1
    exact swap_raise { u with chip := { u.chip with backupTrip := true } } _ _
  simp only [swap_chip] at hb ⊢
  rw [hb]
  generalize hv : (if (failedToOpen c (s.sec k).seq.expectation && decide ((s.sec k).seq.lastFeedback = .closed)) = true
      then raise none (.backupTrip k) { u with chip := { u.chip with backupTrip := true } } else u) = v
  have hv' : (v.sec k).seq.state = .lockout := by
    rw [← hv]
    split
    · rw [(Still.raise (Still.refl _) none _).seq]; exact hs
    · exact hs
  have hr : AtRest v k := by unfold AtRest; rw [hv']; simp
  rw [swap_revoke _ _ _ hr, swap_notifyState _ _ _ _ _ (.inr (by decide)), swap_raise]

/-- Feedback neither reads nor writes the section's measurement state, its accumulators and the work handed over (R86, R88,
R94). -/
theorem swap_feedback (pos : Position) : feedback k pos (s.swap k m b h) = (feedback k pos s).swap k m b h := by
  unfold feedback
  simp only [swap_seq, swap_modSeq, swap_becomeLive, swap_breakerFailure, swap_ite]

theorem swap_self : s.swap k (s.sec k).meas (s.sec k).acc.books s.handed = s := by
  refine State.ext_sec (fun j => ?_) rfl
  rw [swap_sec]
  split
  · subst_vars; rfl
  · rfl

/-- Feedback leaves the section's measurement state, its accumulators and the work handed over. -/
theorem feedback_keeps (pos : Position) :
    ((feedback k pos s).sec k).meas = (s.sec k).meas ∧
    ((feedback k pos s).sec k).acc.books = (s.sec k).acc.books ∧ (feedback k pos s).handed = s.handed := by
  have h := swap_feedback (k := k) (m := (s.sec k).meas) (b := (s.sec k).acc.books) (h := s.handed) s pos
  rw [swap_self] at h
  rw [h]
  refine ⟨?_, ?_, rfl⟩ <;> rw [swap_sec, if_pos rfl]

theorem becomeLive_seq : ((becomeLive k s).sec k).seq = { (s.sec k).seq with
    breakerTimer := none, state := .live, stableTimer := s.startTimer k (·.stableMs) } := by
  unfold becomeLive notifyLive
  generalize ht : notifyState k .live .plain .byNotice (s.modSeq k fun q => { q with
    breakerTimer := none, state := .live, stableTimer := s.startTimer k (·.stableMs) }) = t
  have hs : (t.sec k).seq = { (s.sec k).seq with
      breakerTimer := none, state := .live, stableTimer := s.startTimer k (·.stableMs) } := by
    rw [← ht, (Still.notifyState (Still.refl _) k _ _ _).seq]
    simp
  have hr : AtRest t k := by unfold AtRest; rw [hs]; simp
  rw [(Aside.runPass k t).seq k (by simpa using hr), hs]

theorem breakerFailure_seq (c : FailCause) : ((breakerFailure k c s).sec k).seq = { (s.sec k).seq with
    state := .lockout, expectation := .opened, testTimer := none, recloseTimer := none, stableTimer := none
    reclosePending := false, heatRequired := false
    breakerTimer := if failedToOpen c (s.sec k).seq.expectation || (s.sec k).seq.lastFeedback = .opened then none
      else s.startTimer k (·.breakerMs) } := by
  unfold breakerFailure assertBackup
  dsimp only
  rw [(Still.raise (Still.refl _) _ _).seq, (Still.notifyState (Still.refl _) k _ _ _).seq]
  generalize hv : (if (failedToOpen c (s.sec k).seq.expectation && decide ((s.sec k).seq.lastFeedback = .closed)) = true
      then raise none (.backupTrip k) _ else _) = v
  have hs : (v.sec k).seq = { (s.sec k).seq with
      state := .lockout, expectation := .opened, testTimer := none, recloseTimer := none, stableTimer := none
      reclosePending := false, heatRequired := false
      breakerTimer := if failedToOpen c (s.sec k).seq.expectation || (s.sec k).seq.lastFeedback = .opened then none
        else s.startTimer k (·.breakerMs) } := by
    rw [← hv]
    have hw : ∀ (q : Prop) [Decidable q] (u : State), ((if q then raise none (.backupTrip k)
        { u with chip := { u.chip with backupTrip := true } } else u).sec k).seq = (u.sec k).seq := by
      intro q _ u
      split
      · rw [(Still.raise (Still.refl _) none _).seq]; rfl
      · rfl
    rw [hw]
    split <;> simp [commandOpen, stopSequence, setWatch, State.startTimer]
  have hr : AtRest v k := by unfold AtRest; rw [hs]; simp
  rw [(Aside.revoke k .trip v).seq k (by simpa using hr), hs]

/-- The same report again changes nothing (R86). -/
theorem feedback_again (pos : Position) : feedback k pos (feedback k pos s) = feedback k pos s := by
  have hset : ∀ t : State, (t.sec k).seq.lastFeedback = pos → (t.modSeq k fun q => { q with lastFeedback := pos }) = t := by
    intro t h
    refine State.ext_sec (fun j => ?_) rfl
    rw [State.modSeq_sec]
    split
    · subst_vars; rfl
    · rfl
  have hstay : ∀ t : State, (t.sec k).seq.lastFeedback = pos →
      (pos = (t.sec k).seq.expectation → (t.sec k).seq.breakerTimer = none) → feedback k pos t = t := by
    intro t h1 h2
    unfold feedback
    dsimp only
    rw [hset t h1]
    split
    · rename_i he
      rw [h2 he]; rfl
    · rw [if_neg (by simp [h1])]
  apply hstay
  all_goals
    unfold feedback
    dsimp only
    split
    · rename_i he
      split
      · split
        · rw [becomeLive_seq]; simp
        · simp
      · simp_all
    · rename_i he
      split
      · rw [breakerFailure_seq]
        simp +contextual
      · simp_all

end Sys2Proof.Machine
end

