-- ==== Sys2Proof/Laws/Jobs.lean ====
section
/-! SUPPORT. The jobs an admission pass leaves come to an end: each handover grant takes an entry out of a queue, and
nothing a job does puts one in. So the fuel of `settle` is enough, and jobs may be settled part by part. -/

namespace Sys2Proof.Machine

set_option Elab.async false

open Sys2Proof

/-- No queue grows. -/
structure Shrinks (s t : State) : Prop where
  le : ∀ k, (t.sec k).adm.queue.length ≤ (s.sec k).adm.queue.length

variable {a b s t : State} {k : Sec}

theorem Shrinks.refl (s : State) : Shrinks s s := ⟨fun _ => Nat.le_refl _⟩

theorem Shrinks.trans (h : Shrinks a b) (h' : Shrinks b s) : Shrinks a s :=
  ⟨fun k => Nat.le_trans (h'.le k) (h.le k)⟩

theorem Shrinks.same (h : Shrinks a s) (ht : t.sections = s.sections) : Shrinks a t :=
  h.trans ⟨fun k => by simp only [State.sec, ht]; exact Nat.le_refl _⟩

theorem Shrinks.sec (h : Shrinks a s) (k : Sec) {f : Section → Section}
    (hf : (f (s.sec k)).adm.queue.length ≤ (s.sec k).adm.queue.length) : Shrinks a (s.modSec k f) :=
  h.trans ⟨fun j => by
    rw [State.modSec_sec]
    split
    · subst_vars; exact hf
    · exact Nat.le_refl _⟩

theorem Shrinks.adm (h : Shrinks a s) (k : Sec) {f : Adm → Adm}
    (hf : (f (s.sec k).adm).queue.length ≤ (s.sec k).adm.queue.length) : Shrinks a (s.modAdm k f) := h.sec k hf

theorem Shrinks.truck (h : Shrinks a s) (t : Nat) (f : Truck → Truck) : Shrinks a (s.modTruck t f) := h.same rfl
theorem Shrinks.seq (h : Shrinks a s) (k : Sec) (f : Seq → Seq) : Shrinks a (s.modSeq k f) := h.sec k (Nat.le_refl _)
theorem Shrinks.meas (h : Shrinks a s) (k : Sec) (f : Meas → Meas) : Shrinks a (s.modMeas k f) := h.sec k (Nat.le_refl _)
theorem Shrinks.prot (h : Shrinks a s) (k : Sec) (f : Prot → Prot) : Shrinks a (s.modProt k f) := h.sec k (Nat.le_refl _)
theorem Shrinks.acc (h : Shrinks a s) (k : Sec) (f : Acc → Acc) : Shrinks a (s.modAcc k f) := h.sec k (Nat.le_refl _)

theorem placeCommand_sections (k : Sec) (c : BreakerCmd) (s : State) : (placeCommand k c s).sections = s.sections := by
  unfold placeCommand; split <;> rfl

theorem placeLower_sections (t : Nat) (r : LowerReason) (k : Sec) (s : State) :
    (placeLower t r k s).sections = s.sections := by unfold placeLower; split <;> rfl

theorem offer_sections (f : OrdinaryFrame) (s : State) : (offer f s).sections = s.sections := by
  unfold offer; split <;> rfl

theorem placeGrant_sections (f : OrdinaryFrame) (s : State) : (placeGrant f s).sections = s.sections := by
  rw [placeGrant_eq]; exact offer_sections f s

theorem offerDeny_sections (t : Nat) (r : DenyReason) (k : Sec) (s : State) :
    (offerDeny t r k s).sections = s.sections := by
  unfold offerDeny; split
  · rfl
  · exact offer_sections _ _

theorem becomeIdle_sections (t : Nat) (s : State) : (becomeIdle t s).sections = s.sections := by
  unfold becomeIdle removeRecord; dsimp only; split
  · split <;> rfl
  · rfl

theorem denyQueued_sections (r : DenyReason) (t : Nat) (s : State) : (denyQueued r t s).sections = s.sections := by
  unfold denyQueued; split
  · rfl
  · split
    · rw [offerDeny_sections, becomeIdle_sections]
    · rfl

theorem Shrinks.dropEntry (h : Shrinks a s) (k : Sec) (t : Nat) : Shrinks a (dropEntry k t s) :=
  h.adm k (List.length_filter_le _ _)

theorem Shrinks.denyQueue (h : Shrinks a s) (k : Sec) (r : DenyReason) : Shrinks a (denyQueue k r s) := by
  unfold Machine.denyQueue
  have h1 : Shrinks a (s.modAdm k fun a => { a with queue := [], stall := false }) := h.adm k (Nat.zero_le _)
  dsimp only
  generalize (s.sec k).adm.queue.map (·.truck) = ts
  generalize s.modAdm k (fun a => { a with queue := [], stall := false }) = u at h1
  induction ts generalizing u with
  | nil => exact h1
  | cons t ts ih => exact ih _ (h1.same (denyQueued_sections r t u))

theorem Shrinks.lowerCore (h : Shrinks a s) (t : Nat) (r : LowerReason) : Shrinks a (lowerCore t r s).1 := by
  unfold Machine.lowerCore
  split
  · exact h
  · split
    · dsimp only
      refine Shrinks.same ?_ (placeLower_sections _ _ _ _)
      apply Shrinks.truck
      split
      · exact h
      · exact h.dropEntry _ _
    · exact h

theorem Shrinks.lowerEach (r : LowerReason) (ts : List Nat) : ∀ {s}, Shrinks a s → Shrinks a (lowerEach r ts s).1 := by
  induction ts with
  | nil => exact id
  | cons t ts ih => exact fun h => ih (h.lowerCore t r)

theorem Shrinks.admNotice (h : Shrinks a s) (k : Sec) (new : SecState) (c : NoticeCause) :
    Shrinks a (admNotice k new c s) := by
  have h1 : Shrinks a (recompute k (s.modAdm k fun a => { a with view := new })) :=
    (h.adm k (f := fun a => { a with view := new }) (Nat.le_refl _)).adm k (Nat.le_refl _)
  have hd : ∀ {u : State}, Shrinks a u → Shrinks a (dropHandovers k u) := fun hu =>
    Shrinks.lowerEach _ _ (hu.adm k (List.length_filter_le _ _))
  unfold Machine.admNotice
  dsimp only
  split
  · split <;> split
    · exact (hd h1).denyQueue _ _
    · exact h1.denyQueue _ _
    · exact hd h1
    · exact h1
  · exact h1

theorem Shrinks.restartWatchdog (h : Shrinks a s) (k : Sec) : Shrinks a (restartWatchdog k s) := by
  unfold Machine.restartWatchdog; split
  · exact h.meas k _
  · exact h

theorem Shrinks.notifyState (h : Shrinks a s) (k : Sec) (new : SecState) (c : NoticeCause) (told : ProtTold) :
    Shrinks a (notifyState k new c told s) := by
  have h1 : Shrinks a (measNotice k new s) := by
    unfold measNotice
    split <;> first | exact h | exact h.restartWatchdog k | exact (h.meas k _).restartWatchdog k
  have h2 := h1.admNotice k new c
  unfold Machine.notifyState
  dsimp only
  split
  · unfold protNotice
    dsimp only
    repeat' split
    all_goals
      repeat' first
        | exact h2
        | apply Shrinks.prot
        | (refine Shrinks.adm ?_ k (Nat.le_refl _))
  · exact h2

theorem Shrinks.commandOpen (h : Shrinks a s) (k : Sec) : Shrinks a (commandOpen k s) :=
  (h.seq k _).same (placeCommand_sections k _ _)

theorem Shrinks.leaveTripped (h : Shrinks a s) (k : Sec) : Shrinks a (leaveTripped k s) := by
  unfold Machine.leaveTripped enterTesting
  dsimp only
  apply Shrinks.seq
  refine Shrinks.same ?_ (placeCommand_sections _ _ _)
  apply Shrinks.notifyState
  apply Shrinks.seq
  exact (h.seq k _).acc k _

theorem Shrinks.holdersEmptied (h : Shrinks a s) (k : Sec) : Shrinks a (holdersEmptied k s) := by
  unfold Machine.holdersEmptied
  split
  · exact ((h.seq k _).commandOpen k).notifyState k _ _ _
  · unfold rejudge
    split
    · unfold judgeReclose
      dsimp only
      split
      · exact h.leaveTripped k
      · split
        · exact h.seq k _
        · exact (h.seq k _).acc k _
    · exact h

/-! ## The entries that are left -/

theorem Shrinks.queued (h : Shrinks s t) : t.queued ≤ s.queued := by
  unfold State.queued allSecs
  have := h.le 0; have := h.le 1; have := h.le 2; have := h.le 3
  have := h.le 4; have := h.le 5; have := h.le 6; have := h.le 7
  simp only [List.map_cons, List.map_nil, List.sum_cons, List.sum_nil]
  omega

/-- A queue that has become shorter leaves fewer entries. -/
theorem Shrinks.queued_lt (h : Shrinks s t) (hk : (t.sec k).adm.queue.length < (s.sec k).adm.queue.length) :
    t.queued < s.queued := by
  unfold State.queued allSecs
  have := h.le 0; have := h.le 1; have := h.le 2; have := h.le 3
  have := h.le 4; have := h.le 5; have := h.le 6; have := h.le 7
  simp only [List.map_cons, List.map_nil, List.sum_cons, List.sum_nil]
  obtain ⟨i, hi⟩ := k
  have : i = 0 ∨ i = 1 ∨ i = 2 ∨ i = 3 ∨ i = 4 ∨ i = 5 ∨ i = 6 ∨ i = 7 := by omega
  rcases this with rfl | rfl | rfl | rfl | rfl | rfl | rfl | rfl <;>
    (simp only [State.sec] at *; simp at *; omega)

/-- A granted head leaves its queue, and a handover grant releases at most one section. -/
theorem grantHead_measure {e : QueueEntry} (he : e ∈ (s.sec k).adm.queue) :
    Shrinks s (grantHead k e s).1 ∧ (grantHead k e s).2.length + (grantHead k e s).1.queued ≤ s.queued := by
  have hd : ∀ (r : State), Shrinks (dropEntry k e.truck s) r → Shrinks s r ∧ r.queued < s.queued := by
    intro r hr
    have h1 : Shrinks s (dropEntry k e.truck s) := (Shrinks.refl s).dropEntry k e.truck
    refine ⟨h1.trans hr, Nat.lt_of_le_of_lt hr.queued (h1.queued_lt (k := k) ?_)⟩
    simp only [dropEntry, State.modAdm_sec, if_true]
    refine List.length_filter_lt_length_iff_exists.mpr ⟨e, he, by simp⟩
  unfold grantHead
  split
  · have := hd _ (Shrinks.refl _)
    exact ⟨this.1, by simp; omega⟩
  · split
    · unfold grantOrdinary
      dsimp only
      have h1 : ∀ (f : Truck → Truck) (g : Adm → List Nat), Shrinks (dropEntry k e.truck s)
          (((dropEntry k e.truck s).modTruck e.truck f).modAdm k fun a => { a with holders := g a }) :=
        fun f g => ((Shrinks.refl _).truck _ f).adm k (f := fun a => { a with holders := g a }) (Nat.le_refl _)
      have hn : ∀ {u : State}, Shrinks (dropEntry k e.truck s) u →
          Shrinks s u ∧ ([] : List Sec).length + u.queued ≤ s.queued := fun hu => by
        have := hd _ hu
        exact ⟨this.1, by simp only [List.length_nil]; omega⟩
      split
      · exact hn (h1 _ _)
      · exact hn ((h1 _ _).same (placeGrant_sections _ _))
    · rename_i r _ _ _
      have hl : ∀ {u : State}, Shrinks (dropEntry k e.truck s) u →
          Shrinks s u ∧ r.hold.toList.length + u.queued ≤ s.queued := fun hu => by
        have := hd _ hu
        refine ⟨this.1, ?_⟩
        cases r.hold <;> simp <;> omega
      unfold grantHandover
      dsimp only
      have h1 : Shrinks (dropEntry k e.truck s) (match r.hold with
          | none => dropEntry k e.truck s
          | some h => dropHolder h e.truck (dropEntry k e.truck s)) := by
        split
        · exact Shrinks.refl _
        · exact (Shrinks.refl _).adm _ (Nat.le_refl _)
      have h2 : ∀ (u : State) (g : Adm → List Nat) (f : Truck → Truck), Shrinks (dropEntry k e.truck s) u →
          Shrinks (dropEntry k e.truck s) ((u.modAdm k fun a => { a with holders := g a }).modTruck e.truck f) :=
        fun u g f hu => (hu.adm k (f := fun a => { a with holders := g a }) (Nat.le_refl _)).truck _ f
      split
      · exact hl (h2 _ _ _ h1)
      · exact hl ((h2 _ _ _ h1).same (placeGrant_sections _ _))

theorem passLoop_measure (n : Nat) : ∀ s : State,
    Shrinks s (passLoop n k s).1 ∧ (passLoop n k s).2.length + (passLoop n k s).1.queued ≤ s.queued := by
  induction n with
  | zero => exact fun s => ⟨Shrinks.refl s, by simp [passLoop]⟩
  | succ n ih =>
    intro s
    unfold passLoop
    split
    · exact ⟨Shrinks.refl s, by simp⟩
    · rename_i e es hq
      split
      · split
        · have h1 := grantHead_measure (s := s) (k := k) (e := e) (by rw [hq]; exact List.mem_cons_self)
          have h2 := ih (grantHead k e s).1
          refine ⟨h1.1.trans h2.1, ?_⟩
          simp only [List.length_append]
          omega
        · have h1 : Shrinks s (s.modAdm k fun a => { a with stall := true }) := (Shrinks.refl s).adm k (Nat.le_refl _)
          exact ⟨h1, by have := h1.queued; simpa using this⟩
      · exact ⟨Shrinks.refl s, by simp⟩

theorem pass_measure (k : Sec) (s : State) : Shrinks s (pass k s).1 ∧ (pass k s).2.length + (pass k s).1.queued ≤ s.queued := by
  have h1 : Shrinks s (s.modAdm k fun a => { a with stall := false }) := (Shrinks.refl s).adm k (Nat.le_refl _)
  have h2 := passLoop_measure (k := k) (s.sec k).adm.queue.length (s.modAdm k fun a => { a with stall := false })
  exact ⟨h1.trans h2.1, Nat.le_trans h2.2 h1.queued⟩

theorem runJob_measure (j : Job) (s : State) : (runJob j s).2.length + (runJob j s).1.queued ≤ s.queued := by
  cases j with
  | pass k => simpa [runJob] using (pass_measure k s).2
  | release k =>
    have h := (pass_measure k s).2
    have h1 : (notifyIfEmpty k (pass k s).1).queued ≤ (pass k s).1.queued := by
      unfold notifyIfEmpty
      split
      · exact ((Shrinks.refl _).holdersEmptied k).queued
      · exact Nat.le_refl _
    simp only [runJob, List.length_map]
    omega

/-! ## The fuel is enough -/

/-- With fuel for every job and every entry, more fuel changes nothing. -/
theorem runJobs_fuel (n : Nat) : ∀ (m : Nat) (js : List Job) (s : State),
    js.length + s.queued ≤ n → js.length + s.queued ≤ m → runJobs n js s = runJobs m js s := by
  induction n with
  | zero =>
    intro m js s hn _
    cases js with
    | nil => cases m <;> simp [runJobs]
    | cons j js => simp at hn
  | succ n ih =>
    intro m js s hn hm
    cases js with
    | nil => cases m <;> simp [runJobs]
    | cons j js =>
      cases m with
      | zero => simp at hm
      | succ m =>
        simp only [runJobs]
        have := runJob_measure j s
        simp only [List.length_cons] at hn hm
        exact ih _ _ _ (by simp only [List.length_append]; omega) (by simp only [List.length_append]; omega)

/-- Jobs are settled by running the first and settling what then waits. -/
theorem settle_cons (j : Job) (js : List Job) (s : State) :
    settle (j :: js) s = settle (js ++ (runJob j s).2) (runJob j s).1 := by
  have h := runJob_measure j s
  unfold settle
  rw [show (j :: js).length + s.queued = (js.length + s.queued) + 1 from by simp; omega]
  simp only [runJobs]
  exact runJobs_fuel _ _ _ _ (by simp only [List.length_append]; omega) (by simp only [List.length_append]; omega)

/-- A pass, and then the releases of the sections that its handover grants left (R135, R138). -/
theorem runPass_split (k : Sec) (s : State) : runPass k s = settle ((pass k s).2.map .release) (pass k s).1 := by
  unfold runPass
  rw [settle_cons]
  rfl

end Sys2Proof.Machine
end

