-- ==== Sys2Proof/Laws/Restart.lean ====
section
/-! SUPPORT. The RESTART under way, said once: what each stage leaves of it, that it comes to its end, and that a request
finds the same part whether or not the next stage was taken before it. -/

namespace Sys2Proof.Machine

set_option Elab.async false

open Sys2Proof

variable {s : State}

/-- The stage that follows (R178). -/
def RestartStage.succ : RestartStage → Option RestartStage
  | .sequencer => some .measurement
  | .measurement => some .protection
  | .protection => some .accounting
  | .accounting => some .table
  | .table => some .ring
  | .ring => some .management
  | .management => some .reply
  | .reply => none

/-- The stages still to come. -/
def RestartStage.left : RestartStage → Nat
  | .sequencer => 8
  | .measurement => 7
  | .protection => 6
  | .accounting => 5
  | .table => 4
  | .ring => 3
  | .management => 2
  | .reply => 1

@[simp] theorem withRestart_restart (r : Option Restarting) : (s.withRestart r).mgmt.restart = r := rfl

@[simp] theorem fill_mgmt (f : OrdinaryFrame) : (fill f s).mgmt = s.mgmt := by unfold fill; split <;> rfl

/-- After a stage the next one comes, with the same tag; after the reply no RESTART is under way. -/
theorem restartStage_restart (r : Restarting) :
    (restartStage r s).mgmt.restart.map (fun q => (q.tag, q.next)) = r.next.succ.map fun n => (r.tag, n) := by
  unfold restartStage
  split <;> rename_i h <;> simp [h, RestartStage.succ]

theorem advanceRestart_none (h : s.noRestart) : advanceRestart s = s := by simp [advanceRestart, h]

theorem advanceBy_none (n : Nat) (h : s.noRestart) : advanceBy n s = s := by
  induction n with
  | zero => rfl
  | succ n ih => rw [advanceBy, advanceRestart_none h, ih]

/-- As many stages as are left end the RESTART. -/
theorem advanceBy_ends (n : Nat) : ∀ {s : State}, (∀ r, s.mgmt.restart = some r → r.next.left ≤ n) →
    (advanceBy n s).noRestart := by
  induction n with
  | zero =>
    intro s h
    cases hr : s.mgmt.restart with
    | none => exact hr
    | some r =>
      have := h r hr
      cases hn : r.next <;> simp [hn, RestartStage.left] at this
  | succ n ih =>
    intro s h
    refine ih fun q hq => ?_
    cases hr : s.mgmt.restart with
    | none => simp [advanceRestart, hr] at hq
    | some r =>
      simp only [advanceRestart, hr] at hq
      have h1 := restartStage_restart (s := s) r
      have h2 := h r hr
      rw [hq] at h1
      simp only [Option.map_some] at h1
      cases hn : r.next <;> rw [hn] at h1 h2 <;> simp [RestartStage.succ] at h1 <;> rw [h1.2] <;>
        simp [RestartStage.left] at h2 ⊢ <;> omega

theorem endRestart_ends (s : State) : (endRestart s).noRestart := advanceBy_ends 8 fun r _ => by
  cases r.next <;> simp [RestartStage.left]

theorem endRestart_none (h : s.noRestart) : endRestart s = s := advanceBy_none 8 h

theorem advanceBy_succ (n : Nat) : ∀ s : State, advanceBy (n + 1) s = advanceRestart (advanceBy n s) := by
  induction n with
  | zero => exact fun _ => rfl
  | succ n ih => exact fun s => ih (advanceRestart s)

/-- Ending a RESTART after one more stage comes to the same. -/
theorem endRestart_advance (s : State) : endRestart (advanceRestart s) = endRestart s :=
  (advanceBy_succ 8 s).trans (advanceRestart_none (endRestart_ends s))

/-- Without a RESTART under way a request is taken at once (R170). -/
theorem takeRequest_none (c : Instr) (h : s.noRestart) : takeRequest c s = take c s := by
  rw [takeRequest, endRestart_none h]

theorem takeRequest_advance (c : Instr) (s : State) : takeRequest c (advanceRestart s) = takeRequest c s := by
  rw [takeRequest, endRestart_advance, takeRequest]

end Sys2Proof.Machine
end

