-- ==== Sys2Proof/Laws/Replies.lean ====
section
/-! SUPPORT. How a request is answered, said once: dropped, or its places claimed, its body run, its replies appended. -/

namespace Sys2Proof.Machine

set_option Elab.async false

open Sys2Proof

variable (c : Instr) (kind : Byte) (r : Req) (s : State)

/-- `n` places of the ordinary lane claimed. -/
def State.claimed (s : State) (n : Nat) : State := { s with ring := { s.ring with claimed := s.ring.claimed + n } }

@[simp] theorem State.claimed_ramp (n : Nat) : (s.claimed n).ramp = s.ramp := rfl
@[simp] theorem State.claimed_chip (n : Nat) : (s.claimed n).chip = s.chip := rfl
@[simp] theorem State.claimed_straps (n : Nat) : (s.claimed n).straps = s.straps := rfl
@[simp] theorem State.claimed_table (n : Nat) : (s.claimed n).table = s.table := rfl
@[simp] theorem State.claimed_mgmt (n : Nat) : (s.claimed n).mgmt = s.mgmt := rfl
@[simp] theorem State.claimed_handed (n : Nat) : (s.claimed n).handed = s.handed := rfl
@[simp] theorem State.claimed_pending (n : Nat) : (s.claimed n).pending = s.pending := rfl
@[simp] theorem State.claimed_portA (n : Nat) : (s.claimed n).portA = s.portA := rfl
@[simp] theorem State.claimed_sections (n : Nat) : (s.claimed n).sections = s.sections := rfl
@[simp] theorem State.claimed_sec (n : Nat) (k : Sec) : (s.claimed n).sec k = s.sec k := rfl
@[simp] theorem State.claimed_active (n : Nat) (k : Sec) : (s.claimed n).active k = s.active k := rfl

theorem claim_of_room {n : Nat} (h : s.roomFor n) : claim n s = some (s.claimed n) := by
  unfold claim State.roomFor at *; rw [if_pos h]; rfl

theorem claim_of_full {n : Nat} (h : ¬ s.roomFor n) : claim n s = none := by
  unfold claim; exact if_neg h

theorem roomFor_take (n : Nat) : (take c s).roomFor n ↔ s.roomFor n := by simp [State.roomFor]

/-- A broadcast request that takes no capture is ignored (R171). -/
theorem serve_broadcast {body : State → State × Answer} (hn : s.noRestart) (h : r.broadcast = true) :
    serve c kind r body s = take c s := by simp [serve, takeRequest_none c hn, h]

/-- A request that finds no room for its replies is dropped (R172). -/
theorem answerAll_full {n : Nat} {body : State → State × List Answer} (h : ¬ s.roomFor n) :
    answerAll kind r n body s = s := by simp [answerAll, claim_of_full s h]

theorem answerAll_room {n : Nat} {body : State → State × List Answer} (h : s.roomFor n) :
    answerAll kind r n body s = placeReplies kind r (body (s.claimed n)).2 (body (s.claimed n)).1 := by
  simp only [answerAll, claim_of_room s h]

theorem serve_full {body : State → State × Answer} (hn : s.noRestart) (h : ¬ s.roomFor 1) :
    serve c kind r body s = take c s := by
  unfold serve
  rw [takeRequest_none c hn]
  dsimp only
  split
  · rfl
  · exact answerAll_full _ _ _ (by rwa [roomFor_take])

/-- A request with one reply: its body runs with the place claimed, and the reply fills it (R172, R173). -/
theorem serve_room {body : State → State × Answer} (hn : s.noRestart) (hb : r.broadcast = false) (h : s.roomFor 1) :
    serve c kind r body s =
      fill (replyFrame kind r (body ((take c s).claimed 1)).2) (body ((take c s).claimed 1)).1 := by
  unfold serve
  rw [takeRequest_none c hn]
  simp only [hb, Bool.false_eq_true, if_false]
  rw [answerAll_room _ _ _ (by rwa [roomFor_take])]
  rfl

/-- A place claimed and filled is a frame appended. -/
theorem fill_claimed (f : OrdinaryFrame) : fill f (s.claimed 1) = s.withFrame f := by
  simp [fill, State.claimed, State.withFrame]

/-- A request that leaves the places claimed: the reply is appended to what its body does. -/
theorem serve_eq {body : State → State × Answer} {t : State} {st : Status} {n : Nat} {d : ReplyData}
    (hn : s.noRestart) (hb : r.broadcast = false) (h : s.roomFor 1)
    (he : body ((take c s).claimed 1) = (t.claimed 1, { status := st, field := n, data := d })) :
    serve c kind r body s = t.withReply kind r st n d := by
  rw [serve_room c kind r s hn hb h, he]
  exact fill_claimed t _

/-- Replies in claimed places are appended in order. -/
theorem placeReplies_claimed : ∀ (as : List Answer) (s : State),
    placeReplies kind r as (s.claimed as.length) = { s with ring := { s.ring with
      ordinary := s.ring.ordinary ++ as.map (replyFrame kind r) } } := by
  intro as
  induction as with
  | nil => intro s; simp [placeReplies, State.claimed]
  | cons a as ih =>
    intro s
    have h : fill (replyFrame kind r a) (s.claimed (as.length + 1)) =
        ({ s with ring := { s.ring with ordinary := s.ring.ordinary ++ [replyFrame kind r a] } } : State).claimed
          as.length := by
      simp [fill, State.claimed]
    have h2 : placeReplies kind r (a :: as) (s.claimed (as.length + 1)) =
        placeReplies kind r as (fill (replyFrame kind r a) (s.claimed (as.length + 1))) := rfl
    rw [List.length_cons, h2, h, ih]
    simp

/-- A section's changes commute with claimed places. -/
theorem State.claimed_modSec (n : Nat) (k : Sec) (f : Section → Section) :
    (s.claimed n).modSec k f = (s.modSec k f).claimed n := rfl

end Sys2Proof.Machine
end

