-- ==== Sys2Proof/Laws/Wire.lean ====
section
/-! SUPPORT. How numbers lie in bytes and are read back, and what a request's payload check does with a payload of the
wrong length or with a section number out of range. -/

namespace Sys2Proof.Machine

set_option Elab.async false

open Sys2Proof

/-! ## Numbers in bytes (R185) -/

theorem beNat_foldl (bs : List Byte) :
    ∀ a, bs.foldl (fun n b => n * 256 + b.toNat) a = a * 256 ^ bs.length + beNat bs := by
  induction bs with
  | nil => intro a; simp [beNat]
  | cons b bs ih =>
    intro a
    simp only [List.foldl_cons, beNat, List.length_cons]
    rw [ih, ih (0 * 256 + b.toNat), Nat.pow_succ, Nat.add_mul, Nat.zero_mul, Nat.zero_add, Nat.mul_assoc,
      Nat.mul_comm 256, Nat.add_assoc]

/-- A number that fits its bytes is read back from them. -/
theorem beNat_toBe : ∀ n v, v < 256 ^ n → beNat (toBe n v) = v
  | 0, v, h => by
    have : v = 0 := by simpa using h
    subst this; rfl
  | n + 1, v, h => by
    simp only [toBe, beNat, List.foldl_cons]
    rw [beNat_foldl, toBe_length, beNat_toBe n _ (Nat.mod_lt _ (Nat.pow_pos (by omega)))]
    have hd : v / 256 ^ n < 256 := by
      rw [Nat.div_lt_iff_lt_mul (Nat.pow_pos (by omega))]; rw [Nat.pow_succ] at h; omega
    simp only [BitVec.toNat_ofNat]
    rw [Nat.mod_eq_of_lt (by omega : v / 256 ^ n < 2 ^ 8)]
    have := Nat.div_add_mod v (256 ^ n)
    rw [Nat.zero_mul, Nat.zero_add, Nat.mul_comm]; exact this

theorem toBe_two (v : Nat) (h : v ≤ 65535) : ∃ a b, toBe 2 v = [a, b] ∧ beNat [a, b] = v := by
  refine ⟨BitVec.ofNat 8 (v / 256), BitVec.ofNat 8 (v % 256), ?_, ?_⟩
  · simp [toBe]
  · simp [beNat]; omega

theorem readId_toBe (v : Nat) (h : v ≤ 65535) : readId (toBe 2 v) = some v := by
  obtain ⟨a, b, h1, h2⟩ := toBe_two v h
  rw [h1]; simp [readId, h2]

/-- A field at the front of its bytes. -/
theorem fieldAt_zero (n v : Nat) (rest : List Byte) (h : v < 256 ^ n) : fieldAt (toBe n v ++ rest) 0 n = v := by
  unfold fieldAt
  rw [List.drop_zero, List.take_left' (toBe_length n v), beNat_toBe n v h]

/-- A field behind another. -/
theorem fieldAt_skip (n v : Nat) (rest : List Byte) (off m : Nat) :
    fieldAt (toBe n v ++ rest) (n + off) m = fieldAt rest off m := by
  unfold fieldAt
  rw [← List.drop_drop, List.drop_left' (toBe_length n v)]

/-- Checks that all hold name no field. -/
theorem firstBad_of {l : List (Nat × Bool)} (h : ∀ c ∈ l, c.2 = true) : firstBad l = none := by
  induction l with
  | nil => rfl
  | cons c l ih =>
    obtain ⟨n, b⟩ := c
    have : b = true := h (n, b) (by simp)
    subst this
    exact ih fun c hc => h c (by simp [hc])

/-! ## Sections and classes by number -/

theorem secOf_val (k : Sec) : secOf k.val = some k := by unfold secOf; rw [dif_pos k.isLt]

theorem secOf_none {n : Nat} (h : 8 ≤ n) : secOf n = none := by unfold secOf; rw [dif_neg (by omega)]

theorem toNat_secByte (k : Sec) : (BitVec.ofNat 8 k.val).toNat = k.val := by have := k.isLt; simp; omega

theorem secOf_byte (k : Sec) : secOf (BitVec.ofNat 8 k.val).toNat = some k := by rw [toNat_secByte, secOf_val]

theorem clsOf_val (c : Fin 4) : clsOf c.val = some c := by unfold clsOf; rw [dif_pos c.isLt]

/-! ## Payload checks -/

variable {p : List Byte} {r : Req} {k : Sec} {s : State}

theorem onEmpty_bad (h : p ≠ []) (body : State → State × Answer) : onEmpty p body s = (s, refuse .badRequest) := by
  simp [onEmpty, h]

theorem onSection_bad (h : p.length ≠ 1) (body : Sec → State → State × Answer) :
    onSection p body s = (s, refuse .badRequest) := by
  unfold onSection; split
  · simp at h
  · rfl

theorem onSection_high {b : Byte} (h : 8 ≤ b.toNat) (body : Sec → State → State × Answer) :
    onSection [b] body s = (s, refuse .badSection) := by
  simp [onSection, secOf_none h]

theorem onSection_of (hp : p = [BitVec.ofNat 8 k.val]) (body : Sec → State → State × Answer) :
    onSection p body s = body k s := by
  simp only [onSection, hp, secOf_byte]

theorem onPosition_of {pos : Byte} (hp : p = [BitVec.ofNat 8 k.val, pos]) (body : Sec → State → State × Answer) :
    onPosition p pos body s = body k s := by
  simp only [onPosition, hp, if_true, onSection, secOf_byte]

theorem readId_none (h : p.length ≠ 2) : readId p = none := by
  unfold readId; split
  · simp at h
  · rfl

/-! ## Conditions -/

theorem guarded_none {cs : List (Bool × Status)} (h : firstRefusal cs = none) (act : State → State) :
    guarded cs act s = (act s, ok .empty) := by
  simp [guarded, h]

theorem guarded_some {cs : List (Bool × Status)} {st : Status} (h : firstRefusal cs = some st) (act : State → State) :
    guarded cs act s = (s, refuse st) := by
  simp [guarded, h]

end Sys2Proof.Machine
end

