-- ==== Sys2Proof/Laws/Sequences.lean ====
section
/-! SUPPORT. The equations of the shared operations that the claims' states are built from: placed commands, the state
notices of a section, a pass by what it finds, lowering and denying several trucks. -/

namespace Sys2Proof.Machine

set_option Elab.async false

open Sys2Proof

variable {s : State} {k : Sec} {p : SectionParams}

/-! ## Commands and timers -/

@[simp] theorem placePriority_sec (f : PriorityFrame) (s : State) (j : Sec) : (placePriority f s).sec j = s.sec j := rfl

@[simp] theorem placePriority_active (f : PriorityFrame) (s : State) (j : Sec) :
    (placePriority f s).active j = s.active j := rfl

/-- Placing a command and changing a section may change places. -/
theorem placePriority_modSec (f : PriorityFrame) (s : State) (k : Sec) (g : Section → Section) :
    (placePriority f s).modSec k g = placePriority f (s.modSec k g) := rfl

theorem modSec_congr {f g : Section → Section} (h : f (s.sec k) = g (s.sec k)) : s.modSec k f = s.modSec k g := by
  unfold State.modSec; unfold State.sec at h; rw [h]

theorem modSec_keeps_active (s : State) (k j : Sec) (f : Section → Section) (h : ∀ x, (f x).copies = x.copies) :
    (s.modSec k f).active j = s.active j :=
  State.modSec_active s j k (h _)

theorem startTimer_eq (h : s.active k = some p) (f : SectionParams → Nat) : s.startTimer k f = some (f p) := by
  simp [State.startTimer, h]

theorem placeCommand_eq {c : BreakerCmd} (h : s.active k = some p) :
    placeCommand k c s = placePriority (.command k p.frontendAddr c) s := by
  unfold placeCommand; rw [h]

theorem commandOpen_eq (h : s.active k = some p) :
    commandOpen k s = placePriority (.command k p.frontendAddr .openCmd) (s.modSec k fun x => { x with
      seq := { x.seq with expectation := .opened, breakerTimer := some p.breakerMs } }) := by
  unfold commandOpen
  rw [startTimer_eq h, placeCommand_eq (p := p) (by simpa using h)]; rfl

theorem commandClose_eq (h : s.active k = some p) :
    commandClose k s = placePriority (.command k p.frontendAddr .closeCmd) (s.modSec k fun x => { x with
      seq := { x.seq with expectation := .closed, breakerTimer := some p.breakerMs } }) := by
  unfold commandClose
  rw [startTimer_eq h, placeCommand_eq (p := p) (by simpa using h)]; rfl

/-! ## State notices -/

theorem budgetOf_off (h : (s.sec k).adm.view ≠ .live) : s.budgetOf k = 0 := by
  unfold State.budgetOf budget; rw [if_pos (.inl h)]

theorem recompute_eq (h : (s.sec k).adm.view ≠ .live) :
    recompute k s = s.modSec k fun x => { x with adm := { x.adm with bEff := 0 } } := by
  unfold recompute; rw [budgetOf_off h]; rfl

theorem restartWatchdog_eq (h : s.active k = some p) (he : p.enabled = true) :
    restartWatchdog k s = s.modSec k fun x => { x with meas := { x.meas with watchdog := some p.measMs } } := by
  unfold restartWatchdog; simp [State.isEnabled, h, he, startTimer_eq h]; rfl

/-- The admission unit's notice of a change that neither leaves nor enters LIVE nor enters OFF. -/
theorem admNotice_eq {new : SecState} {c : NoticeCause} (h1 : c = .plain → (s.sec k).adm.view ≠ .live)
    (h2 : new ≠ .live) (h3 : c = .plain → new ≠ .off) :
    admNotice k new c s = s.modSec k fun x => { x with adm := { x.adm with view := new, bEff := 0 } } := by
  unfold admNotice
  have e : recompute k (s.modAdm k fun a => { a with view := new }) =
      s.modSec k fun x => { x with adm := { x.adm with view := new, bEff := 0 } } := by
    rw [recompute_eq (by simpa using h2)]; unfold State.modAdm; rw [State.modSec_modSec]; rfl
  dsimp only
  rw [e]
  split
  · rename_i hc
    rw [if_neg (h3 hc), if_neg (fun x => h1 hc x.1)]
  · rfl

/-- The protection unit's notice of a change that does not leave LIVE. -/
theorem protNotice_eq {new : SecState} (h : (s.sec k).prot.view ≠ .live ∨ new = .live) :
    protNotice k new s = s.modSec k fun x => { x with prot :=
      if new = .testing then { x.prot with view := new, history := [], sustained := 0, last := none }
      else { x.prot with view := new } } := by
  unfold protNotice
  dsimp only
  rw [if_neg]
  · split
    · unfold State.modProt; rw [State.modSec_modSec]; rfl
    · rfl
  · rintro ⟨a, b, _⟩; rcases h with h | h
    · exact h a
    · exact b h

theorem denyQueue_nil {reason : DenyReason} (hq : (s.sec k).adm.queue = []) :
    denyQueue k reason s = s.modSec k fun x => { x with adm := { x.adm with stall := false } } := by
  unfold denyQueue
  dsimp only
  rw [hq, List.map_nil, List.foldl_nil]
  unfold State.modAdm
  apply modSec_congr
  simp [hq]

/-- The notices of an entry to OFF, from a state other than LIVE and with nothing queued. -/
theorem notifyOff_eq (hq : (s.sec k).adm.queue = []) (h1 : (s.sec k).prot.view ≠ .live)
    (h2 : (s.sec k).adm.view ≠ .live) :
    notifyState k .off .plain .byNotice s = s.modSec k fun x => { x with
      prot := { x.prot with view := .off }, adm := { x.adm with view := .off, bEff := 0, stall := false } } := by
  unfold notifyState
  dsimp only
  unfold measNotice admNotice
  dsimp only
  have e : recompute k (s.modAdm k fun a => { a with view := .off }) =
      s.modSec k fun x => { x with adm := { x.adm with view := .off, bEff := 0 } } := by
    rw [recompute_eq (by simp)]; unfold State.modAdm; rw [State.modSec_modSec]; rfl
  rw [e, if_pos rfl, if_pos rfl, if_neg (fun x => h2 x.1), denyQueue_nil (by simp [hq]),
    protNotice_eq (by left; simpa using h1)]
  simp only [State.modSec_modSec]
  apply modSec_congr
  simp [Function.comp]

/-- Handover entries lost on leaving LIVE: none where the queue is empty. -/
theorem dropHandovers_nil (hq : (s.sec k).adm.queue = []) : dropHandovers k s = s := by
  unfold dropHandovers
  simp only [hq, List.filter_nil, List.map_nil, lowerEach]
  apply State.ext_sec
  · intro j
    simp only [State.modAdm_sec]
    split
    · rename_i h; subst h
      cases hx : s.sec j with | mk c m a q e d => cases d; simp_all
    · rfl
  · rfl

/-! ## Passes -/

theorem runJobs_nil (n : Nat) (s : State) : runJobs n [] s = s := by cases n <;> rfl

/-- A job that leaves no other is the whole of its settlement. -/
theorem settle_one {j : Job} {s1 : State} (h : runJob j s = (s1, [])) : settle [j] s = s1 := by
  unfold settle
  rw [List.length_singleton, Nat.add_comm]
  simp only [runJobs, h, List.append_nil, runJobs_nil]

theorem settle_nil (s : State) : settle [] s = s := by
  unfold settle; exact runJobs_nil _ _

theorem runPass_eq {s1 : State} (h : pass k s = (s1, [])) : runPass k s = s1 :=
  settle_one (by simp [runJob, h])

theorem passLoop_nil {n : Nat} (h : (s.sec k).adm.queue = []) : passLoop n k s = (s, []) := by
  cases n with
  | zero => rfl
  | succ n => simp only [passLoop, h]

/-- The head does not fit the budget: the pass stops (R135). -/
theorem passLoop_over {n : Nat} {e : QueueEntry} {es : List QueueEntry} (h : (s.sec k).adm.queue = e :: es)
    (hb : (s.sec k).adm.bEff < s.reserved k + e.amount) : passLoop n k s = (s, []) := by
  cases n with
  | zero => rfl
  | succ n => simp only [passLoop, h]; rw [if_neg (by omega)]

/-- The head fits the budget and finds no place: the section stalls (R135). -/
theorem passLoop_full {n : Nat} {e : QueueEntry} {es : List QueueEntry} (h : (s.sec k).adm.queue = e :: es)
    (hb : s.reserved k + e.amount ≤ (s.sec k).adm.bEff) (hp : hasPlace s = false) :
    passLoop (n + 1) k s = (s.modAdm k fun a => { a with stall := true }, []) := by
  simp only [passLoop, h]; rw [if_pos hb, if_neg (by simp [hp])]

/-- The head is granted, and the pass goes on (R135). -/
theorem passLoop_grant {n : Nat} {e : QueueEntry} {es : List QueueEntry} (h : (s.sec k).adm.queue = e :: es)
    (hb : s.reserved k + e.amount ≤ (s.sec k).adm.bEff) (hp : hasPlace s = true) :
    passLoop (n + 1) k s =
      ((passLoop n k (grantHead k e s).1).1, (grantHead k e s).2 ++ (passLoop n k (grantHead k e s).1).2) := by
  simp only [passLoop, h]; rw [if_pos hb, if_pos hp]

/-- A pass on a section without a queue clears its stall mark. -/
theorem pass_nil (h : (s.sec k).adm.queue = []) : pass k s = (s.modAdm k fun a => { a with stall := false }, []) := by
  unfold pass; exact passLoop_nil (by simpa using h)

theorem runPass_nil (h : (s.sec k).adm.queue = []) : runPass k s = s.modAdm k fun a => { a with stall := false } :=
  runPass_eq (pass_nil h)

theorem modAdm_reserved (s : State) (j k : Sec) (f : Adm → Adm) (h : ∀ a, (f a).holders = a.holders) :
    (s.modAdm k f).reserved j = s.reserved j := by
  have : (s.modAdm k f).reservedOf = s.reservedOf := rfl
  simp only [State.reserved, State.modAdm_sec]
  split <;> simp_all

/-! ## Lowering -/

theorem placeLower_eq (t : Nat) (reason : LowerReason) (k : Sec) (s : State) :
    placeLower t reason k s =
      { s with ring := { s.ring with priority := (placeLower t reason k s).ring.priority } } := by
  unfold placeLower; split <;> rfl

theorem placeLower_truck (t u : Nat) (reason : LowerReason) (k : Sec) (s : State) :
    (placeLower t reason k s).truck u = s.truck u := by
  unfold placeLower; split <;> rfl

/-- A truck that is not in HANDOVER is lowered by itself: no pass follows, and only its record and the priority lane
change (R144). -/
theorem lowerCore_plain {t : Nat} {reason : LowerReason} (h : s.pantoOf t ≠ some .handover) :
    (lowerCore t reason s).2 = [] ∧
    (lowerCore t reason s).1 = { s with
      table := { s.table with trucks := (lowerCore t reason s).1.table.trucks }
      ring := { s.ring with priority := (lowerCore t reason s).1.ring.priority } } ∧
    Lowered [t] reason s (lowerCore t reason s).1 := by
  unfold lowerCore Lowered
  cases ht : s.truck t with
  | none =>
    refine ⟨rfl, rfl, fun i => ?_⟩
    by_cases hi : i = t
    · subst hi; simp [ht]
    · simp [hi]
  | some r =>
    have hne : r.panto ≠ .handover := fun e => h (by simp [State.pantoOf, ht, e])
    dsimp only
    split
    · rename_i hc
      simp only
      refine ⟨rfl, ?_, fun i => ?_⟩
      · rw [placeLower_eq]; rfl
      · have hc2 : r.panto = .granted ∨ r.panto = .raised := by
          cases hp : r.panto <;> simp_all [Panto.canLower]
        rw [placeLower_truck, State.modTruck_truck _ _ _ _ (by intro; rfl)]
        cases hti : s.truck i with
        | none => rfl
        | some x =>
          by_cases hi : i = t
          · subst hi
            have : x = r := by rw [ht] at hti; exact (Option.some.inj hti).symm
            subst this
            simp [hc2, Truck.lowered]
          · simp [hi]
    · rename_i hc
      refine ⟨rfl, rfl, fun i => ?_⟩
      by_cases hi : i = t
      · subst hi; rw [ht]
        have : ¬ (r.panto = .granted ∨ r.panto = .raised) := by
          rintro (e | e) <;> simp [e, Panto.canLower] at hc
        simp [this]
      · simp [hi]

theorem lowerEach_plain (reason : LowerReason) : ∀ (ts : List Nat) (s : State), (∀ u, s.pantoOf u ≠ some .handover) →
    (lowerEach reason ts s).2 = [] ∧
    (lowerEach reason ts s).1 = { s with
      table := { s.table with trucks := (lowerEach reason ts s).1.table.trucks }
      ring := { s.ring with priority := (lowerEach reason ts s).1.ring.priority } } ∧
    Lowered ts reason s (lowerEach reason ts s).1 := by
  intro ts
  induction ts with
  | nil => intro s _; exact ⟨rfl, rfl, fun i => by simp [lowerEach]⟩
  | cons t ts ih =>
    intro s h
    obtain ⟨c1, c2, c3⟩ := lowerCore_plain (reason := reason) (h t)
    have h' : ∀ u, (lowerCore t reason s).1.pantoOf u ≠ some .handover := by
      intro u
      unfold State.pantoOf; rw [c3]
      have := h u
      unfold State.pantoOf at this
      cases hu : s.truck u with
      | none => simp
      | some x =>
        rw [hu] at this
        simp at this ⊢
        split
        · simp [Truck.lowered]
        · exact this
    obtain ⟨i1, i2, i3⟩ := ih _ h'
    simp only [lowerEach]
    refine ⟨by rw [c1, i1]; rfl, ?_, ?_⟩
    · rw [i2, c2]
    · intro i
      rw [i3, c3, Option.map_map]
      congr 1
      funext x
      simp only [Function.comp]
      have hcl : ∀ y, (lowerCore t reason s).1.classOf y = s.classOf y := by intro y; rw [c2]; rfl
      by_cases hi : i = t
      · subst hi
        by_cases hx : x.panto = .granted ∨ x.panto = .raised
        · simp [hx, Truck.lowered]
        · simp [hx]
      · simp [hi, hcl]

/-- Without a truck in HANDOVER a lowering of several is no more than each one's (log 13). -/
theorem lowerAll_plain {ts : List Nat} {reason : LowerReason} (h : ∀ u, s.pantoOf u ≠ some .handover) :
    lowerAll ts reason s = (lowerEach reason ts s).1 := by
  unfold lowerAll
  show runPasses (lowerEach reason ts s).2 _ = _
  rw [(lowerEach_plain reason ts s h).1]
  exact settle_nil _

/-! ## Denying -/

theorem offer_eq (f : OrdinaryFrame) (s : State) : offer f s = s.offered f := by
  unfold offer State.offered hasPlace
  by_cases h : s.ring.ordinary.length + s.ring.claimed < 16
  · rw [if_pos (by simpa using h), if_pos h]; rfl
  · rw [if_neg (by simpa using h), if_neg h]

theorem offerDeny_eq {t : Nat} {reason : DenyReason} (h : s.active k = some p) :
    offerDeny t reason k s = s.offered (.deny t p.readerAddr reason) := by
  unfold offerDeny; simp [State.reader, h, offer_eq]

theorem offerWait_eq {t n : Nat} (h : s.active k = some p) :
    offerWait t n k s = s.offered (.wait t p.readerAddr n) := by
  unfold offerWait; simp [State.reader, h, offer_eq]

theorem offerDeny_appends (t : Nat) (reason : DenyReason) (k : Sec) (s : State) :
    ∃ l, offerDeny t reason k s = { s with ring := { s.ring with ordinary := s.ring.ordinary ++ l } } ∧
      ∀ f ∈ l, ∃ dest, f = .deny t dest reason := by
  unfold offerDeny; split
  · exact ⟨[], by simp, by simp⟩
  · rename_i d _
    unfold offer; split
    · exact ⟨[.deny t d reason], rfl, by simp⟩
    · exact ⟨[], by simp, by simp⟩

/-- Queued trucks denied one after another: each becomes IDLE, and only DENYs for them join the ordinary lane. -/
theorem denyEach (reason : DenyReason) : ∀ (ts : List Nat) (s : State), ts.Nodup →
    (∀ t ∈ ts, ∃ x, s.truck t = some x ∧ x.panto = .queued ∧ x.mark = .none) →
    ∃ u, ts.foldl (fun s t => denyQueued reason t s) s = u ∧
      (∃ l, u = { s with
          table := { s.table with trucks := u.table.trucks }
          ring := { s.ring with ordinary := s.ring.ordinary ++ l } } ∧
        ∀ f ∈ l, ∃ i dest, f = .deny i dest reason ∧ i ∈ ts) ∧
      ∀ i, u.truck i = (s.truck i).map fun x => if i ∈ ts then x.toIdle else x := by
  intro ts
  induction ts with
  | nil => intro s _ _; exact ⟨s, rfl, ⟨[], by simp, by simp⟩, fun i => by simp⟩
  | cons t ts ih =>
    intro s hn h
    obtain ⟨x, hx, hp, hm⟩ := h t (by simp)
    rw [List.nodup_cons] at hn
    have e : denyQueued reason t s = offerDeny t reason x.sec (s.modTruck t Truck.toIdle) := by
      unfold denyQueued becomeIdle
      simp [hx, hp, hm]
    obtain ⟨l1, o1, o2⟩ := offerDeny_appends t reason x.sec (s.modTruck t Truck.toIdle)
    have htr : ∀ i, (denyQueued reason t s).truck i = (s.truck i).map fun x => if i = t then x.toIdle else x := by
      intro i; rw [e, o1]
      exact State.modTruck_truck _ _ _ _ (by intro; rfl)
    obtain ⟨u, hu, ⟨l, hl, hf⟩, hi⟩ := ih (denyQueued reason t s) hn.2 (by
      intro t' ht'
      obtain ⟨x', hx', h2⟩ := h t' (by simp [ht'])
      refine ⟨x', ?_, h2⟩
      rw [htr, hx']
      have : t' ≠ t := fun e => hn.1 (e ▸ ht')
      simp [this])
    refine ⟨u, hu, ⟨l1 ++ l, ?_, ?_⟩, ?_⟩
    · rw [hl, e, o1]; simp
    · intro f hff
      rcases List.mem_append.mp hff with hff | hff
      · obtain ⟨d, hd⟩ := o2 f hff; exact ⟨t, d, hd, by simp⟩
      · obtain ⟨i, d, h1, h2⟩ := hf f hff; exact ⟨i, d, h1, by simp [h2]⟩
    · intro i
      rw [hi, htr, Option.map_map]
      congr 1; funext y
      simp only [Function.comp]
      by_cases hit : i = t
      · subst hit; simp [hn.1]
      · simp [hit]

end Sys2Proof.Machine
end

