-- ==== Sys2Proof/Laws/Releases.lean ====
section
/-! SUPPORT. What a truck's leaving does, said once for each operation: an entry taken from a queue, a reservation given
back with what an emptied holder list ends, a record made IDLE, and one truck lowered. -/

namespace Sys2Proof.Machine

set_option Elab.async false

open Sys2Proof

variable {s : State} {k : Sec} {p : SectionParams} {id : Nat}

/-! ## Passes that find the head waiting -/

theorem pass_waits (h : s.headWaits k (s.sec k).adm.holders (s.sec k).adm.queue) :
    pass k s = (s.modAdm k fun a => { a with stall := false }, []) := by
  cases hq : (s.sec k).adm.queue with
  | nil => exact pass_nil hq
  | cons e es =>
    have hb := h e es hq
    unfold pass
    refine passLoop_over (e := e) (es := es) (by simpa using hq) ?_
    have hr : (s.modAdm k fun a => { a with stall := false }).reserved k = s.reserved k :=
      modAdm_reserved s k k _ fun _ => rfl
    rw [hr]
    simpa [State.reserved] using hb

theorem runPass_waits (h : s.headWaits k (s.sec k).adm.holders (s.sec k).adm.queue) :
    runPass k s = s.modAdm k fun a => { a with stall := false } := runPass_eq (pass_waits h)

/-- A pass begins by clearing the stall mark, so it does not read it (R135). -/
theorem runPass_congr {t : State} (h : (s.modAdm k fun a => { a with stall := false }) =
    t.modAdm k fun a => { a with stall := false }) : runPass k s = runPass k t := by
  have hq : ∀ j, (s.sec j).adm.queue = (t.sec j).adm.queue := fun j => by
    have := congrArg (fun u => (u.sec j).adm.queue) h
    simp only [State.modAdm_sec] at this
    split at this
    · subst_vars; exact this
    · exact this
  have hp : pass k s = pass k t := by unfold pass; rw [h, hq]
  rw [runPass_split, runPass_split, hp]

/-- A truck's entry leaves a queue, and the pass this starts runs (R133, R135). -/
theorem dropEntry_stall (k : Sec) (id : Nat) (s : State) :
    ((dropEntry k id s).modAdm k fun a => { a with stall := false }) =
      (s.dequeued k id).modAdm k fun a => { a with stall := false } := by
  unfold dropEntry State.dequeued State.modAdm
  rw [State.modSec_modSec, State.modSec_modSec]
  rfl

theorem leaveQueue_eq (k : Sec) (id : Nat) (s : State) : leaveQueue k id s = s.unqueued k id :=
  runPass_congr (dropEntry_stall k id s)

/-! ## A record made IDLE -/

theorem hasTruck_of {r : Truck} (h : s.truck id = some r) : s.hasTruck id = true := by
  unfold State.truck at h; unfold State.hasTruck
  rw [List.any_eq_true]
  exact ⟨r, List.mem_of_find?_eq_some h, by simpa using List.find?_some h⟩

theorem filter_modTruck (l : List Truck) (f : Truck → Truck) (hf : ∀ r, (f r).id = r.id) :
    ((l.map fun r => if r.id = id then f r else r).filter fun r => decide (r.id ≠ id)) =
      l.filter fun r => decide (r.id ≠ id) := by
  induction l with
  | nil => rfl
  | cons r l ih =>
    rw [List.map_cons, List.filter_cons, List.filter_cons, ih]
    by_cases h : r.id = id
    · simp [h, hf]
    · simp [h]

/-- A truck without a record has none to change. -/
theorem modTruck_absent {f : Truck → Truck} (h : s.truck id = none) : s.modTruck id f = s := by
  have hm : (s.table.trucks.map fun r => if r.id = id then f r else r) = s.table.trucks := by
    conv => rhs; rw [← List.map_id s.table.trucks]
    refine List.map_congr_left fun r hr => ?_
    have := List.find?_eq_none.mp h r hr
    rw [if_neg (by simpa using this)]
    rfl
  unfold State.modTruck
  rw [hm]

/-- A truck that becomes IDLE stays in the table, unless its record is marked (R126, R130). -/
theorem becomeIdle_eq (id : Nat) (s : State) : becomeIdle id s = s.madeIdle id := by
  unfold becomeIdle State.madeIdle
  dsimp only
  cases h : s.truck id with
  | none => simp only [Option.any_none, Bool.false_eq_true, if_false]; exact modTruck_absent h
  | some r =>
    by_cases hm : r.mark = .none
    · simp only [hm, Option.any_some, ne_eq, not_true_eq_false, decide_false, Bool.false_eq_true, if_false, if_true]
      rfl
    · simp only [hm, Option.any_some, ne_eq, not_false_eq_true, decide_true, if_true, if_false]
      have hh : (s.modTruck id Truck.toIdle).hasTruck id = true := by
        apply hasTruck_of (r := Truck.toIdle r)
        rw [State.modTruck_truck _ _ _ _ (by intro; rfl), h]
        simp
      unfold removeRecord State.forget
      rw [if_pos hh, h, if_neg nofun]
      unfold State.modTruck
      dsimp only
      rw [filter_modTruck (id := id) s.table.trucks Truck.toIdle (fun _ => rfl)]

/-! ## What an emptied holder list ends -/

/-- A section in DRAINING opens and goes to OFF (R103). -/
theorem drainEnd_eq (ha : s.active k = some p) (ht : s.told k) (hd : (s.sec k).seq.state = .draining)
    (hq : (s.sec k).adm.queue = []) (hs : (s.sec k).adm.stall = false) : drainEnd k s = s.drained k p := by
  have hp : (s.sec k).prot.view = .draining := ht.1.trans hd
  have hv : (s.sec k).adm.view = .draining := ht.2.trans hd
  unfold drainEnd State.drained
  rw [commandOpen_eq (p := p) (by simpa using ha), notifyOff_eq (by simpa using hq) (by simp [hp]) (by simp [hv]),
    placePriority_modSec]
  congr 1
  unfold State.modSeq
  simp only [State.modSec_modSec]
  apply modSec_congr
  simp [Function.comp, hs]

/-- A section leaves TRIPPED for a new line test (R100). -/
theorem leaveTripped_eq (ha : s.active k = some p) (ht : s.told k) (hd : (s.sec k).seq.state = .tripped) :
    leaveTripped k s = s.retested k p := by
  have hp : (s.sec k).prot.view = .tripped := ht.1.trans hd
  have hv : (s.sec k).adm.view = .tripped := ht.2.trans hd
  have hw : ∀ u : State, u.active k = some p → restartWatchdog k u = u.modSec k fun x => { x with
      meas := { x.meas with watchdog := if p.enabled then some p.measMs else x.meas.watchdog } } := by
    intro u hu
    cases he : p.enabled with
    | true => rw [restartWatchdog_eq hu he]; simp
    | false =>
      unfold restartWatchdog
      rw [if_neg (by simp [State.isEnabled, hu, he])]
      refine State.ext_sec (fun j => ?_) rfl
      rw [State.modSec_sec]
      split
      · subst_vars; rfl
      · rfl
  have hact : ∀ {u : State} {f : Section → Section}, u.active k = some p → (∀ x, (f x).copies = x.copies) →
      (u.modSec k f).active k = some p := fun hu hf => by rw [modSec_keeps_active _ _ _ _ hf]; exact hu
  unfold leaveTripped enterTesting notifyState measNotice setWatch State.modSeq State.modAcc State.modMeas
  dsimp only
  simp only [State.modSec_modSec, Function.comp_def]
  rw [hw]
  · rw [State.modSec_modSec, admNotice_eq (by intro _; simp [hv]) (by decide) (by intro _; decide), State.modSec_modSec,
      protNotice_eq (by left; simp [hp]), State.modSec_modSec]
    unfold commandTest
    rw [placeCommand_eq (p := p), startTimer_eq (p := p), placePriority_modSec, State.modSec_modSec]
    · rfl
    · rw [placePriority_active]; exact hact ha fun _ => rfl
    · exact hact ha fun _ => rfl
  · exact hact ha fun _ => rfl

/-- The judgement of a reclose wait (R99, R100): it ends where the holder list is empty and the heat allows it; otherwise
it is marked pending, with a heat watch where the heat does not allow it. -/
theorem judgeReclose_eq (ha : s.active k = some p) (ht : s.told k) (hd : (s.sec k).seq.state = .tripped) :
    judgeReclose k s =
      if (s.sec k).adm.holders = [] ∧ ((s.sec k).seq.heatRequired = true → (s.sec k).cool p) then s.retested k p
      else s.modSec k fun x => { x with
        seq := { x.seq with reclosePending := true }
        acc := { x.acc with heatWatch :=
          if x.seq.heatRequired = true → (s.sec k).cool p then x.acc.heatWatch else true } } := by
  have hh : s.heatAllows k = decide ((s.sec k).seq.heatRequired = true → (s.sec k).cool p) := by
    unfold State.heatAllows
    rw [ha]
    cases (s.sec k).seq.heatRequired <;> simp [derateClearAt, heatLevel, Section.cool] <;> rfl
  unfold judgeReclose
  rw [hh, leaveTripped_eq ha ht hd]
  simp only [decide_eq_true_eq]
  split
  · rfl
  · split
    · rename_i h
      refine modSec_congr ?_
      dsimp only
      rw [if_pos h]
    · rename_i h
      unfold setWatch State.modAcc State.modSeq
      rw [State.modSec_modSec]
      refine modSec_congr ?_
      dsimp only [Function.comp]
      rw [if_neg h]

/-- The notice of an emptied holder list ends a drain, or a reclose wait that the heat allows to end (R99, R100, R103). -/
theorem holdersEmptied_eq (h : s.Releases k p) (he : (s.sec k).adm.holders = [])
    (hs : (s.sec k).seq.state = .draining → (s.sec k).adm.stall = false) : holdersEmptied k s = s.emptied k p := by
  obtain ⟨ha, ht, hq⟩ := h
  unfold holdersEmptied State.emptied
  dsimp only
  split
  · rename_i hd
    exact drainEnd_eq ha ht hd (hq hd) (hs hd)
  · unfold rejudge
    split
    · rename_i hc
      rw [judgeReclose_eq ha ht hc.1]
      by_cases hh : (s.sec k).seq.heatRequired = true → (s.sec k).cool p
      · rw [if_pos ⟨he, hh⟩, if_pos hh]
      · rw [if_neg (fun h => hh h.2), if_neg hh]
        refine modSec_congr ?_
        dsimp only
        rw [if_neg hh, ← hc.2]
    · rfl

/-! ## Releases -/

/-- A pass leaves the section state each admission unit was told. -/
theorem grantHead_view (j k : Sec) (e : QueueEntry) (s : State) :
    ((grantHead k e s).1.sec j).adm.view = (s.sec j).adm.view := by
  have ha : ∀ (u : State) (i : Sec) (f : Adm → Adm), (∀ a, (f a).view = a.view) →
      ((u.modAdm i f).sec j).adm.view = (u.sec j).adm.view := by
    intro u i f hf
    rw [State.modAdm_sec]
    split
    · subst_vars; exact hf _
    · rfl
  have hg : ∀ (u : State) (f : OrdinaryFrame), ((placeGrant f u).sec j).adm.view = (u.sec j).adm.view := by
    intro u f
    simp only [State.sec, placeGrant_sections]
  have ht : ∀ (u : State) (t : Nat) (f : Truck → Truck), ((u.modTruck t f).sec j).adm.view = (u.sec j).adm.view :=
    fun _ _ _ => rfl
  unfold grantHead
  split
  · exact ha _ _ _ fun _ => rfl
  · split
    · unfold grantOrdinary
      dsimp only
      split
      all_goals (try rw [hg]); rw [ha, ht]
      all_goals first | exact ha _ _ _ fun _ => rfl | exact fun _ => rfl
    · unfold grantHandover
      dsimp only
      split <;> split
      all_goals (try rw [hg]); rw [ht, ha]
      all_goals first
        | exact fun _ => rfl
        | exact ha _ _ _ fun _ => rfl
        | exact (ha (dropEntry k e.truck s) _ (fun a => { a with holders := a.holders.filter (· ≠ e.truck) })
            fun _ => rfl).trans (ha _ _ _ fun _ => rfl)

theorem passLoop_view (j k : Sec) (n : Nat) : ∀ s : State,
    ((passLoop n k s).1.sec j).adm.view = (s.sec j).adm.view := by
  induction n with
  | zero => exact fun _ => rfl
  | succ n ih =>
    intro s
    unfold passLoop
    split
    · rfl
    · split
      · split
        · exact (ih _).trans (grantHead_view j k _ s)
        · simp only [State.modAdm_sec]; split <;> (try subst_vars) <;> rfl
      · rfl

theorem pass_view (j k : Sec) (s : State) : ((pass k s).1.sec j).adm.view = (s.sec j).adm.view := by
  unfold pass
  rw [passLoop_view]
  simp only [State.modAdm_sec]; split <;> (try subst_vars) <;> rfl

/-- What a release rests on is there also after the pass it starts. -/
theorem State.Releases.pass (h : s.Releases k p) (j : Sec) : (pass j s).1.Releases k p := by
  have hl := Local.pass s j
  refine ⟨(hl.active k).trans h.active, ⟨?_, ?_⟩, fun hd => ?_⟩
  · rw [hl.prot k id, hl.seq k id]; exact h.told.1
  · rw [pass_view, hl.seq k id]; exact h.told.2
  · rw [hl.seq k id] at hd
    exact List.eq_nil_of_length_eq_zero (Nat.eq_zero_of_le_zero
      (by have := (pass_measure j s).1.le k; rwa [h.drained hd] at this))

/-- A truck's reservation is given back: the entry, the pass, what the emptied holder list ends, and the releases that the
pass left (R99, R100, R103, R134, R138). -/
theorem release_eq (h : s.Releases k p) : release k id s = s.released k p id := by
  have hd : (dropHolder k id s).Releases k p := by
    unfold dropHolder State.modAdm
    obtain ⟨ha, ht, hq⟩ := h
    refine ⟨(State.modSec_active s k k rfl).trans ha, ?_, ?_⟩
    · unfold State.told; simp only [State.modSec_sec, if_true]; exact ht
    · simp only [State.modSec_sec, if_true]; exact hq
  have he : ∀ u : State, u.Releases k p → (u.sec k).adm.stall = false ∨ (u.sec k).seq.state ≠ .draining →
      notifyIfEmpty k u = if (u.sec k).adm.holders = [] then u.emptied k p else u := by
    intro u hu hs
    unfold notifyIfEmpty
    split
    · rename_i hh
      exact holdersEmptied_eq hu hh fun hdr => hs.resolve_right fun hn => hn hdr
    · rfl
  have hs : ((pass k (dropHolder k id s)).1.sec k).adm.stall = false ∨
      ((pass k (dropHolder k id s)).1.sec k).seq.state ≠ .draining := by
    by_cases hdr : ((dropHolder k id s).sec k).seq.state = .draining
    · left; rw [pass_nil (hd.drained hdr)]; simp
    · right; rw [(Local.pass (dropHolder k id s) k).seq k not_false]; exact hdr
  unfold release
  rw [settle_cons]
  show settle ((pass k (dropHolder k id s)).2.map .release) (notifyIfEmpty k (pass k (dropHolder k id s)).1) = _
  rw [he _ (hd.pass k) hs]
  rfl

/-- A truck that holds a reservation on section `k` gives it back and becomes IDLE (R126, R130, R134). -/
theorem releaseToIdle_eq (h : s.Releases k p) : releaseToIdle id (some k) s = (s.released k p id).madeIdle id := by
  unfold releaseToIdle
  dsimp only
  rw [release_eq h, becomeIdle_eq]

/-! ## One truck lowered -/

theorem find_of_nodup {l : List Truck} (hu : (l.map (·.id)).Nodup) {x : Truck} (hm : x ∈ l) :
    l.find? (fun r => r.id == x.id) = some x := by
  induction l with
  | nil => cases hm
  | cons r l ih =>
    rw [List.find?_cons]
    rw [List.map_cons, List.nodup_cons] at hu
    rcases List.mem_cons.mp hm with rfl | hm
    · simp
    · have : r.id ≠ x.id := fun e => hu.1 (e ▸ List.mem_map_of_mem hm)
      rw [show (r.id == x.id) = false from by simpa using this]
      exact ih hu.2 hm

/-- The queue that holds a truck's entry is the one it is looked for in (R130). -/
theorem entrySec_of (h : s.entryAt k id) : s.entrySec id = some k := by
  obtain ⟨⟨e, he, hi⟩, hn⟩ := h
  have hk : ((s.sec k).adm.queue.any fun e => e.truck == id) = true := List.any_eq_true.mpr ⟨e, he, by simpa using hi⟩
  have hj : ∀ j, ((s.sec j).adm.queue.any fun e => e.truck == id) = true → j = k := by
    intro j hj
    obtain ⟨x, hx, hxi⟩ := List.any_eq_true.mp hj
    exact Decidable.byContradiction fun c => hn j c x hx (by simpa using hxi)
  unfold State.entrySec
  cases hf : allSecs.find? fun k => (s.sec k).adm.queue.any fun e => e.truck == id with
  | none =>
    exfalso
    rw [List.find?_eq_none] at hf
    exact hf k ((by decide : ∀ k : Sec, k ∈ allSecs) k) hk
  | some j => rw [hj j (by simpa using List.find?_some hf)]

/-- Records have distinct ids: changing one truck is a matter of its own record. -/
theorem modTruck_congr {r : Truck} {f g : Truck → Truck} (hu : (s.table.trucks.map (·.id)).Nodup)
    (hr : s.truck id = some r) (h : f r = g r) : s.modTruck id f = s.modTruck id g := by
  have hx : ∀ x ∈ s.table.trucks, x.id = id → x = r := by
    intro x hm hi
    have := find_of_nodup hu hm
    rw [hi] at this
    exact Option.some.inj (this.symm.trans hr)
  unfold State.modTruck
  have : (s.table.trucks.map fun x => if x.id = id then f x else x) =
      s.table.trucks.map fun x => if x.id = id then g x else x :=
    List.map_congr_left fun x hm => by
      by_cases hi : x.id = id
      · rw [if_pos hi, if_pos hi, hx x hm hi, h]
      · rw [if_neg hi, if_neg hi]
  rw [this]

/-- A change of a record that keeps its reservation keeps every reservation. -/
theorem reservedOf_modTruck (s : State) (f : Truck → Truck) (hi : ∀ r, (f r).id = r.id)
    (h : ∀ r, (f r).reserved = r.reserved) (t : Nat) : (s.modTruck id f).reservedOf t = s.reservedOf t := by
  unfold State.reservedOf
  rw [State.modTruck_truck _ _ _ _ hi]
  cases s.truck t with
  | none => rfl
  | some r =>
    simp only [Option.map_some]
    split
    · exact h r
    · rfl

/-- A GRANTED or RAISED truck is lowered: its record, its window, and LOWER to the reader of its section (R131, R144). -/
theorem lower_eq {r : Truck} {reason : LowerReason} (hu : (s.table.trucks.map (·.id)).Nodup) (hr : s.truck id = some r)
    (hp : r.panto = .granted ∨ r.panto = .raised) (ha : s.active r.sec = some p) :
    lower id reason s = placePriority (.lower id p.readerAddr reason)
      (s.modTruck id fun x => x.lowered reason (s.classOf r).lowerMs) := by
  have hc : r.panto.canLower = true := by rcases hp with e | e <;> simp [e, Panto.canLower]
  have hn : r.panto ≠ .handover := by rcases hp with e | e <;> simp [e]
  have hcore : lowerCore id reason s = (placePriority (.lower id p.readerAddr reason)
      (s.modTruck id fun x => x.lowered reason (s.classOf r).lowerMs), []) := by
    unfold lowerCore
    rw [hr]
    dsimp only
    rw [if_pos hc, if_neg hn]
    dsimp only
    rw [modTruck_congr (g := fun x => x.lowered reason (s.classOf r).lowerMs) hu hr rfl]
    unfold placeLower State.reader
    rw [show (s.modTruck id fun x => x.lowered reason (s.classOf r).lowerMs).active r.sec = some p from ha]
    rfl
  unfold lower
  rw [hcore]
  exact settle_nil _

/-- A truck in HANDOVER loses its entry and is lowered, and the pass this starts runs (R133, R144, R147). -/
theorem lower_handover_eq {r : Truck} {reason : LowerReason} (hu : (s.table.trucks.map (·.id)).Nodup)
    (hr : s.truck id = some r) (hp : r.panto = .handover) (ha : s.active r.sec = some p) (he : s.entryAt r.sec id) :
    lower id reason s = runPass r.sec (placePriority (.lower id p.readerAddr reason)
      ((s.dequeued r.sec id).modTruck id fun x => x.lowered reason (s.classOf r).lowerMs)) := by
  have hent : s.entrySec id = some r.sec := entrySec_of he
  have hcore : lowerCore id reason s = (placePriority (.lower id p.readerAddr reason)
      ((dropEntry r.sec id s).modTruck id fun x => x.lowered reason (s.classOf r).lowerMs), [r.sec]) := by
    unfold lowerCore
    rw [hr]
    dsimp only
    rw [if_pos (by simp [hp, Panto.canLower]), if_pos hp, hent]
    dsimp only
    rw [modTruck_congr (s := dropEntry r.sec id s) (g := fun x => x.lowered reason (s.classOf r).lowerMs) hu hr rfl]
    unfold placeLower State.reader
    have hd : (dropEntry r.sec id s).active r.sec = some p := (State.modSec_active s r.sec r.sec rfl).trans ha
    rw [show ((dropEntry r.sec id s).modTruck id fun x => x.lowered reason (s.classOf r).lowerMs).active r.sec = some p
      from hd]
    rfl
  have hm : ∀ u : State, ((placePriority (.lower id p.readerAddr reason)
      (u.modTruck id fun x => x.lowered reason (s.classOf r).lowerMs)).modAdm r.sec fun a => { a with stall := false }) =
      placePriority (.lower id p.readerAddr reason) ((u.modAdm r.sec fun a => { a with stall := false }).modTruck id
        fun x => x.lowered reason (s.classOf r).lowerMs) := fun _ => rfl
  unfold lower
  rw [hcore]
  refine runPass_congr ?_
  rw [hm, hm, dropEntry_stall]

end Sys2Proof.Machine
end

