-- ==== Sys2Proof/Tests/Slice0.lean ====
section
/-! SUPPORT. Tests of single steps, with results taken from the manual's worked examples or worked by hand from its
rules; and for every obligation with hypotheses a witness that meets them. -/

namespace Sys2Proof.Tests

-- One theorem after another: each `decide +kernel` waits for all that stands before it, in a thread of its own.
set_option Elab.async false

open Sys2Proof Sys2Proof.Machine Host

/-! ## Builders -/

/-- The section record of the worked sequences (chapters 2 to 5). -/
def params : SectionParams :=
  { enabled := true, frontendAddr := 17, readerAddr := 40, nextUphill := none, bidirectional := false
    limitAmps := 9000, contAmps := 4000, tauShift := 12, derateLevel := 20, tripLevel := 28, derateShare := 4
    instAmps := 12000, riseAmps := 800, riseFloor := 2000, riseFilter := .f1of1, sustainAmps := 9000
    sustainSamples := 500, vmin := 18000, vhyst := 1000, testMs := 200, testPass := 20000, testMaxAmps := 400
    breakerMs := 150, recloseMs := 5000, stableMs := 30000, autoReclose := true, maxAttempts := 2, measMs := 5
    badRun := 3, offsetLimit := 40 }

def base : State := State.powerOn { addr := 1, supaddr := 2, rate := 0, estopHigh := true }

/-- Section `k` in a state, its notices taken, with its breaker and its expectation at `pos`. -/
def set (s : State) (k : Sec) (p : SectionParams) (st : SecState) (pos : Position) : State :=
  s.modSec k fun x => { x with
    copies := { pending := some p, active := some p, prior := none }
    seq := { x.seq with state := st, expectation := pos, lastFeedback := pos }
    prot := { x.prot with view := st }
    adm := { x.adm with view := st, bEff := if st = .live then p.limitAmps else 0 } }

def off2 : State := set base 2 params .off .opened
def live2 : State := set base 2 params .live .closed
def maint2 : State := set base 2 params .maint .opened
def lock2 : State := set base 2 params .lockout .opened

/-- Section 2 in OFF, calibrated. -/
def ready2 : State := off2.modMeas 2 fun m => { m with offsetValid := true }

/-- The class of the handover example (chapter 7). -/
def cls1 : ClassRecord :=
  { defined := true, demandMin := 1000, demandMax := 4000, grantMs := 3000, handoverMs := 2000, lowerMs := 8000
    overdrawPct := 20 }

/-- A truck record of class 1, IDLE. -/
def idle (id : Nat) (k : Sec) : Truck :=
  { id := id, cls := 1, sec := k, silence := some 10000, mark := .none, panto := .idle, hold := none, reserved := 0
    demand := none, window := none, overCount := 0, lowerReason := none }

def raised (id : Nat) (k : Sec) (amps : Nat) : Truck := { idle id k with panto := .raised, hold := some k, reserved := amps }
def granted (id : Nat) (k : Sec) (amps : Nat) : Truck :=
  { raised id k amps with panto := .granted, window := some { kind := .grant, left := 3000 } }
def lowering (id : Nat) (k : Sec) (amps : Nat) : Truck := (raised id k amps).lowered .trip 8000
def queued (id : Nat) (k : Sec) (amps : Nat) : Truck := { idle id k with panto := .queued, demand := some amps }

/-- Truck records, with class 1 defined; holders and queue entries are entered by section. -/
def withTrucks (s : State) (l : List Truck) : State :=
  let s1 := { s with table := { s.table with classes := s.table.classes.set 1 cls1, trucks := l } }
  l.foldl (fun u r => match r.panto with
    | .idle => u
    | .queued => u.modAdm r.sec fun a => { a with
        queue := a.queue ++ [{ truck := r.id, kind := .ordinary, amount := r.demand.getD 0 }] }
    | .handover => (u.modAdm r.sec fun a => { a with
        queue := a.queue ++ [{ truck := r.id, kind := .handover, amount := r.reserved }] }).modAdm (r.hold.getD 0) fun a =>
        { a with holders := a.holders ++ [r.id] }
    | .granted | .raised | .lowering => u.modAdm (r.hold.getD 0) fun a => { a with holders := a.holders ++ [r.id] }) s1

def full (s : State) : State := { s with ring := { s.ring with ordinary := List.replicate 16 .attention } }

def req (p : List Byte) : Req := { tag := 9, broadcast := false, payload := p }
def broadcast (p : List Byte) : Req := { req p with broadcast := true }

/-- T19 in HANDOVER from section 2 to section 3. -/
def crossing : Truck :=
  { raised 19 2 2600 with sec := 3, panto := .handover, window := some { kind := .handover, left := 0 } }

/-- A check of the next state; false of a fault or a refusal. -/
def after (c : Instr) (s : State) (check : State → Bool) : Bool :=
  match exec c s with
  | .next t => check t
  | _ => false

/-- The last reply placed. -/
def replied (t : State) (kind : Byte) (status : Status) (field : Nat) (data : ReplyData) : Bool :=
  t.ring.ordinary.getLast? == some (.reply { tag := 9, kind := kind, answer := {
    status := status, field := field, data := data } })

def word (v : Nat) : List Byte := toBe 2 v

/-! ## Well-formedness refuses what no sender brings -/

def someTrip : TripRequest :=
  { reason := .rise, cause := none, seq := some 202, iCorr := some 6300, vAvg := some 23800, heat := 612400 }

theorem test_wf_payload : (Instr.measurementFrame 0 (List.replicate 65 0)).wellFormed = false := by decide +kernel
theorem test_wf_frame : (Instr.frameReceived [1, 2, 3, 4, 5, 65]).wellFormed = false := by decide
theorem test_wf_short_frame : (Instr.frameReceived [1, 2, 3]).wellFormed = false := by decide
theorem test_wf_sync : (Instr.frameAbandoned (.sync 56)).wellFormed = false := by decide
theorem test_wf_length : (Instr.frameAbandoned (.length 64)).wellFormed = false := by decide
theorem test_wf_truck : (Instr.grantWindowExpiry 65535).wellFormed = false := by decide
theorem test_wf_trip_reason : (Instr.tripRequest 0 { someTrip with reason := .lineTest }).wellFormed = false := by decide
theorem test_wf_trip_cause :
    (Instr.tripRequest 0 { someTrip with cause := some .badRun }).wellFormed = false := by decide
theorem test_wf_trip_range : (Instr.tripRequest 0 { someTrip with seq := some 256 }).wellFormed = false := by decide
theorem test_wf_answer : (Instr.tripAnswer 0 someTrip (.acted .live)).wellFormed = false := by decide
theorem test_wf_results : (Instr.readResults (req [255])).wellFormed = false := by decide
theorem test_wf_results_all : (Instr.readResultsAll (req [7])).wellFormed = false := by decide
theorem test_wf_breaker_close : (Instr.maintBreakerClose (req [2, 0])).wellFormed = false := by decide
theorem test_wf_breaker_open : (Instr.maintBreakerOpen (req [2, 1])).wellFormed = false := by decide
theorem test_wf_accepts : (Instr.tripAnswer 0 someTrip (.acted .tripped)).wellFormed = true := by decide

/-- The table gives no row any bits (98_reader.md), so no word spells a command. -/
theorem test_no_word : decodeTableWord 16 0x1234 = none := rfl

/-! ## The ring -/

/-- The check value of the CRC with generator 0x1021 from all ones, over the digits 1 to 9 (R159). -/
theorem test_crc : crc16 [0x31, 0x32, 0x33, 0x34, 0x35, 0x36, 0x37, 0x38, 0x39] = 0x29B1 := by decide +kernel

/-- A frame of another node goes on with its hop count one lower (R163). -/
theorem test_frame_forwarded :
    after (.frameReceived (withCrc [7, 5, 3, 0x10, 0, 0])) base (fun t =>
      t.ring.forward == [{ dest := 7, src := 5, hops := 2, kind := 0x10, tag := 0, payload := [] }]) = true := by
  decide +kernel

/-- A measurement frame from 17 reaches the section whose front-end answers there (R13, R162). -/
theorem test_frame_delivered :
    after (.frameReceived (withCrc [1, 17, 3, 0x10, 0, 7, 1, 2, 3, 4, 5, 0, 0])) off2 (fun t =>
      t.handed == [.measurementFrame 2 [1, 2, 3, 4, 5, 0, 0]]) = true := by
  decide +kernel

/-- A break in a frame counts one error and leaves the receiver in sync (R157, R160). -/
theorem test_frame_abandoned :
    after (.frameAbandoned .breakArrived) base (fun t => t.ring.errors == 1 && t.ring.rx.phase == .sync 1 0) = true := by
  decide +kernel

/-- A part on an idle ring, 13 bit times into a low period that cuts a frame off in its second byte, with a rising edge to
come. -/
def broken : State :=
  { base with portA := [true], ring := { base.ring with rx := { level := false, low := 104, phase := .byte 56 [7] 40 0 [true] } } }

/-- The rising edge at Port A ends the break: the frame is abandoned with one error, and the receiver is in sync (R157). -/
theorem test_break_heard :
    (match step broken with
      | .next t => t.ring.errors == 1 && t.ring.rx == { level := true, low := 0, phase := .sync 1 0 } && t.portA == []
      | _ => false) = true := by
  decide +kernel

/-- The arbiter example's lanes: run count 4 takes the ordinary frame although forwarded frames wait (chapter 8). -/
theorem test_fifth_is_ordinary :
    after .transmissionEnd { base with ring := { base.ring with
        forward := [{ dest := 9, src := 8, hops := 1, kind := 0x10, tag := 0, payload := [] }]
        ordinary := [.attention], runCount := 4 } } (fun t =>
      t.ring.ordinary == [] && t.ring.forward.length == 1 && t.ring.runCount == 0) = true := by
  decide +kernel

/-! ## Measurement and accounting -/

/-- The stretch of frames' state (chapter 2, section 4 of the example as section 2). -/
def stretch : State :=
  live2.modMeas 2 fun m => { m with
    lastSeq := some 249, iPrev := some 3000, offset := 20, offsetValid := true
    currents := List.replicate 8 3000, voltages := List.replicate 8 24000, watchdog := some 5 }

/-- Frame 1 of the stretch: i_corr 3400, window sum 24400. -/
theorem test_measure_frame_1 :
    after (.measurementFrame 2 ([250] ++ word 3420 ++ word 24000 ++ [1, 0])) stretch (fun t =>
      (t.sec 2).meas.iPrev == some 3400 && (t.sec 2).meas.currents.sum == 24400) = true := by
  decide +kernel

/-- The worked power figure: i_corr 5200 at 24800 adds 128,960,000 and one sample (chapter 3). -/
theorem test_measure_energy :
    after (.measurementFrame 2 ([50] ++ word 5200 ++ word 24800 ++ [1, 0])) live2 (fun t =>
      (t.sec 2).acc.books.energy == 128960000 && (t.sec 2).acc.books.count == 1 &&
      (t.sec 2).acc.books.peakSeq == some 50) = true := by
  decide +kernel

/-- The worked heat figure: H 398,000 at i_avg 5000 becomes 398,103 (chapter 3). -/
theorem test_heat : nextHeat 398000 5000 params = 398103 := by decide +kernel

/-- A watchdog expiry in OFF raises a SENSOR_FAULT notice with cause WATCHDOG (R22, R23). -/
theorem test_watchdog :
    after (.sensorWatchdogExpiry 2) (off2.modMeas 2 fun m => { m with watchdog := some 5 }) (fun t =>
      t.mgmt.notices.map (·.data) == [.sensorFault (.watchdog none)]) = true := by
  decide +kernel

/-! ## Protection and the sequencer -/

/-- The inrush without an allowance: a rise of 1900 from 3000 to 4900 trips under 1of1 (chapter 4). -/
theorem test_rise_trips :
    after (.measurementFrame 2 ([101] ++ word 4900 ++ word 23800 ++ [1, 0]))
      (live2.modMeas 2 fun m => { m with lastSeq := some 100, iPrev := some 3000 }) (fun t =>
      match t.handed with
      | [.tripRequest 2 r] => r.reason == .rise && r.iCorr == some 4900 && r.seq == some 101
      | _ => false) = true := by
  decide +kernel

/-- The inrush of a GRANTED truck of 1800 A: its allowance carries the same step (chapter 4). -/
theorem test_allowance_carries :
    after (.measurementFrame 2 ([101] ++ word 4900 ++ word 23800 ++ [1, 0]))
      (withTrucks (live2.modMeas 2 fun m => { m with lastSeq := some 100, iPrev := some 3000 }) [granted 21 2 1800])
      (fun t => t.handed == [] && (t.sec 2).prot.history == [false]) = true := by
  decide +kernel

/-- Step 1 of the energise sequence: TESTING, test timer 200, TEST placed (chapter 5). -/
theorem test_energize :
    after (.energize (req [2])) ready2 (fun t =>
      (t.sec 2).seq.state == .testing && (t.sec 2).seq.testTimer == some 200 &&
      t.ring.priority == [.command 2 17 .testCmd] && replied t 0x51 .ok 0 .empty) = true := by
  decide +kernel

/-- Step 2: the line shows 24,600 and the section closes its breaker (chapter 5). -/
theorem test_line_passes :
    after (.testTimerExpiry 2) ((set base 2 params .testing .opened).modSec 2 fun x => { x with
      seq := { x.seq with testTimer := some 0 }, meas := { x.meas with voltages := List.replicate 8 24600 } }) (fun t =>
      (t.sec 2).seq.state == .closing && (t.sec 2).seq.expectation == .closed &&
      (t.sec 2).seq.breakerTimer == some 150 && t.ring.priority == [.command 2 17 .closeCmd]) = true := by
  decide +kernel

/-- Step 9: the line shows 8,200, the test fails, and the notice carries the figures (chapter 5). -/
theorem test_line_fails :
    after (.testTimerExpiry 2) ((set base 2 params .testing .opened).modSec 2 fun x => { x with
      seq := { x.seq with testTimer := some 0, attempts := 1 }
      meas := { x.meas with voltages := List.replicate 8 8200 } }) (fun t =>
      (t.sec 2).seq.state == .tripped && (t.sec 2).seq.attempts == 2 &&
      t.mgmt.notices.map (·.data) == [.lineTestFail 8200 20000 2]) = true := by
  decide +kernel

/-- Step 4: a RISE trip in LIVE opens the breaker, waits 5000 ms and lowers T8 and T15 (chapter 5). -/
theorem test_trip :
    after (.tripRequest 2 someTrip) (withTrucks live2 [raised 8 2 3000, raised 15 2 2500]) (fun t =>
      (t.sec 2).seq.state == .tripped && (t.sec 2).seq.attempts == 1 && (t.sec 2).seq.recloseTimer == some 5000 &&
      t.ring.priority == [.command 2 17 .openCmd, .lower 8 40 .trip, .lower 15 40 .trip]) = true := by
  decide +kernel

/-- Step 11: a third attempt locks the section out (chapter 5). -/
theorem test_trip_locks_out :
    after (.tripRequest 2 { someTrip with reason := .testOvercurrent })
      ((set base 2 params .testing .opened).modSeq 2 fun q => { q with attempts := 2 }) (fun t =>
      (t.sec 2).seq.state == .lockout && (t.sec 2).seq.attempts == 3 &&
      t.mgmt.notices.map (·.data) == [.lockout .testOvercurrent 3]) = true := by
  decide +kernel

/-- The answer fills the trip record and raises the TRIP notice (chapter 4). -/
theorem test_trip_answer :
    after (.tripAnswer 2 someTrip (.acted .tripped)) (set base 2 params .tripped .opened) (fun t =>
      (t.sec 2).prot.record == some { reason := .rise, iCorr := some 6300, vAvg := some 23800, seq := some 202
                                      heat := 612400, more := false } &&
      t.mgmt.notices.map (·.data) == [.trip .rise (some 202) none]) = true := by
  decide +kernel

/-- Step 3: a frame that reports the breaker closed makes CLOSING LIVE with the stable timer at 30000 (chapter 5). -/
theorem test_closes :
    after (.measurementFrame 2 ([1] ++ word 0 ++ word 24600 ++ [1, 0]))
      ((set base 2 params .closing .closed).modSec 2 fun x => { x with
        seq := { x.seq with lastFeedback := .opened, breakerTimer := some 150 }
        meas := { x.meas with voltages := List.replicate 8 24600 } }) (fun t =>
      (t.sec 2).seq.state == .live && (t.sec 2).seq.stableTimer == some 30000 && (t.sec 2).adm.bEff == 9000) = true := by
  decide +kernel

/-- The breaker that will not open: LOCKOUT, backup trip, two notices (chapter 5). -/
theorem test_breaker_stuck :
    after (.breakerTimerExpiry 2) ((set base 2 params .tripped .opened).modSeq 2 fun q => { q with
        lastFeedback := .closed, breakerTimer := some 0 }) (fun t =>
      (t.sec 2).seq.state == .lockout && t.chip.backupTrip && t.mgmt.notices.map (·.data) ==
        [.backupTrip 2, .breakerFail .timeout .opened .closed .tripped]) = true := by
  decide +kernel

/-- Step 7: the reclose expiry with a holder left waits (chapter 5). -/
theorem test_reclose_waits :
    after (.recloseTimerExpiry 2) (withTrucks ((set base 2 params .tripped .opened).modSeq 2 fun q => { q with
        recloseTimer := some 0 }) [lowering 15 2 2500]) (fun t =>
      (t.sec 2).seq.state == .tripped && (t.sec 2).seq.reclosePending) = true := by
  decide +kernel

/-- The stable timer's expiry in LIVE sets attempts to 0 (R95). -/
theorem test_stable :
    after (.stableTimerExpiry 2) (live2.modSeq 2 fun q => { q with attempts := 2, stableTimer := some 0 }) (fun t =>
      (t.sec 2).seq.attempts == 0) = true := by
  decide +kernel

/-- A low level starts the filter with 2 ms (R107). -/
theorem test_estop_input :
    after (.estopInputChange false) live2 (fun t => t.chip.filter == some { candidate := false, left := 2 }) = true := by
  decide +kernel

/-- The falling edge: OPEN, LOWER with reason ESTOP, and the queued truck denied (chapter 8, step 5). -/
theorem test_falling_edge :
    after .estopFilterExpiry { (withTrucks live2 [raised 8 2 3000, queued 22 2 2000]) with
      chip := { base.chip with filter := some { candidate := false, left := 0 } } } (fun t =>
      (t.sec 2).seq.state == .off && t.chip.fellSeen &&
      t.ring.priority == [.command 2 17 .openCmd, .lower 8 40 .estop] &&
      t.ring.ordinary.contains (.deny 22 40 .estop)) = true := by
  decide +kernel

theorem test_deenergize :
    after (.deenergize (req [2])) (withTrucks live2 [raised 8 2 3000]) (fun t =>
      (t.sec 2).seq.state == .draining && t.ring.priority == [.lower 8 40 .drain]) = true := by decide +kernel

theorem test_reset_lockout :
    after (.resetLockout (req [2])) (withTrucks (lock2.modSeq 2 fun q => { q with attempts := 3 }) [queued 22 2 2000])
      (fun t => (t.sec 2).seq.state == .off && (t.sec 2).seq.attempts == 0 && (t.sec 2).adm.queue == [] &&
        t.ring.ordinary.contains (.deny 22 40 .sectionOff)) = true := by decide +kernel

theorem test_calibrate :
    after (.calibrate (req [2])) off2 (fun t => (t.sec 2).meas.cal == some { sum := 0, count := 0 }) = true := by
  decide +kernel

/-- The sixteenth sample completes the run: −248 divided by 16 is −15, truncated toward zero (chapter 2). -/
theorem test_calibration_completes :
    after (.measurementFrame 2 ([9] ++ word (65536 - 13) ++ word 24000 ++ [0, 0]))
      (off2.modMeas 2 fun m => { m with cal := some { sum := -235, count := 15 } }) (fun t =>
      (t.sec 2).meas.offset == -15 && (t.sec 2).meas.offsetValid && (t.sec 2).meas.cal == none) = true := by
  decide +kernel

theorem test_maint_enter :
    after (.maintEnter (req [2])) off2 (fun t =>
      (t.sec 2).seq.state == .maint && (t.sec 2).meas.watchdog == some 5 && t.ring.priority == []) = true := by
  decide +kernel

theorem test_maint_close :
    after (.maintBreakerClose (req [2, 1])) maint2 (fun t =>
      (t.sec 2).seq.expectation == .closed && t.ring.priority == [.command 2 17 .closeCmd]) = true := by decide +kernel

theorem test_maint_open :
    after (.maintBreakerOpen (req [2, 0])) (set base 2 params .maint .closed) (fun t =>
      (t.sec 2).seq.expectation == .opened && t.ring.priority == [.command 2 17 .openCmd]) = true := by decide +kernel

theorem test_maint_test :
    after (.maintTest (req [2])) maint2 (fun t => t.ring.priority == [.command 2 17 .testCmd]) = true := by decide +kernel

theorem test_maint_exit :
    after (.maintExit (req [2])) maint2 (fun t =>
      (t.sec 2).seq.state == .off && (t.sec 2).seq.lastOff == some .maintExit &&
      t.ring.priority == [.command 2 17 .openCmd]) = true := by decide +kernel

/-! ## Trucks and admission -/

/-- The fleet of the truck example, with T50 of the undefined class 3 (chapter 6). -/
def ramp2 : State :=
  let s := withTrucks live2 [raised 12 2 3000, raised 7 2 2500]
  { s with table := { s.table with generation := 41, fleet := [{ id := 7, cls := 1 }, { id := 12, cls := 1 },
    { id := 19, cls := 1 }, { id := 50, cls := 3 }] } }

/-- Step 1 of the truck example: T50 is denied and no record is made (chapter 6). -/
theorem test_arrive_denied :
    after (.arrive 2 (word 50)) ramp2 (fun t =>
      t.ring.ordinary == [.deny 50 40 .notAuthorized] && t.table.trucks.length == 2) = true := by decide +kernel

/-- Step 3: T19's record is made last and the generation rises (chapter 6). -/
theorem test_arrive_made :
    after (.arrive 2 (word 19)) ramp2 (fun t =>
      t.table.trucks.map (·.id) == [12, 7, 19] && t.table.generation == 42) = true := by decide +kernel

/-- Step 6: T12 is lowered with reason EVICT and marked (chapter 6). -/
theorem test_evict :
    after (.evictTruck (req (word 12))) ramp2 (fun t =>
      t.ring.priority == [.lower 12 40 .evict] && (t.truck 12).any fun r => r.mark == .evict && r.panto == .lowering)
      = true := by decide +kernel

theorem test_depart :
    after (.depart 2 (word 19)) (withTrucks live2 [idle 19 2]) (fun t =>
      t.table.trucks == [] && t.table.generation == 1) = true := by decide +kernel

/-- Step 5: a silent IDLE truck's record is removed (chapter 6). -/
theorem test_silence :
    after (.silenceTimerExpiry 19) (withTrucks live2 [idle 19 2]) (fun t => t.table.trucks == []) = true := by
  decide +kernel

/-- Step 1 of the handover example's arithmetic: 5500 and 2800 make 8300, at most 9000; granted (chapter 7). -/
theorem test_raise_granted :
    after (.raiseReq 2 (word 31 ++ word 2800)) (withTrucks live2 [raised 12 2 3000, raised 7 2 2500, idle 31 2]) (fun t =>
      t.ring.ordinary == [.grant 31 40 2 2800 3000] && (t.sec 2).adm.holders == [12, 7, 31]) = true := by decide +kernel

/-- 8300 and 2000 make 10300, above 9000: the truck waits at position 1 (chapter 7). -/
theorem test_raise_waits :
    after (.raiseReq 2 (word 44 ++ word 2000)) (withTrucks live2 [raised 12 2 5500, granted 31 2 2800, idle 44 2]) (fun t =>
      t.ring.ordinary == [.wait 44 40 1] && (t.sec 2).adm.stall == false) = true := by decide +kernel

/-- Step 4: the report that makes T31 RAISED is not judged for overdraw (chapter 7). -/
theorem test_report_up :
    after (.state 2 (word 31 ++ [1] ++ word 9900)) (withTrucks live2 [granted 31 2 2800]) (fun t =>
      (t.truck 31).any fun r => r.panto == .raised && r.overCount == 0 && r.window == none) = true := by decide +kernel

/-- Step 6: an IDLE truck that reports up is answered LOWER NOT_GRANTED (chapter 7). -/
theorem test_report_idle :
    after (.state 2 (word 19 ++ [1] ++ word 0)) (withTrucks live2 [idle 19 2]) (fun t =>
      t.ring.priority == [.lower 19 40 .notGranted]) = true := by decide +kernel

/-- Step 5: the grant window's expiry releases T19 and grants T44 (chapter 7). -/
theorem test_grant_window :
    after (.grantWindowExpiry 19) (withTrucks live2 [raised 7 2 5300, granted 19 2 2600, queued 44 2 2000]) (fun t =>
      (t.sec 2).adm.holders == [7, 44] && t.ring.ordinary.contains (.deny 19 40 .grantExpired) &&
      t.ring.ordinary.contains (.grant 44 40 2 2000 3000)) = true := by decide +kernel

theorem test_handover_window :
    after (.handoverWindowExpiry 19) (withTrucks (set live2 3 params .live .closed) [{ raised 19 2 2600 with
      sec := 3, panto := .handover, window := some { kind := .handover, left := 0 } }]) (fun t =>
      t.ring.priority == [.lower 19 40 .handoverLate] && (t.sec 3).adm.queue == [] && (t.sec 2).adm.holders == [19])
      = true := by decide +kernel

theorem test_lower_window :
    after (.lowerWindowExpiry 15) (withTrucks live2 [lowering 15 2 2500]) (fun t =>
      (t.sec 2).adm.holders == [] && t.mgmt.notices.map (·.data) == [.pantoUnconfirmed 15 (some .trip)]) = true := by
  decide +kernel

/-! ## Requests -/

theorem test_power_on :
    after (.powerOnReset { addr := 5, supaddr := 6, rate := 3, estopHigh := false }) ramp2 (fun t =>
      t == State.powerOn { addr := 5, supaddr := 6, rate := 3, estopHigh := false }) = true := by decide +kernel

theorem test_status :
    after (.getStatus (req [])) ramp2 (fun t => match t.ring.ordinary with
      | [.reply { answer := { data := .status d, .. }, .. }] => d.trucks == 2 && d.generation == 41 && d.fleet == 4
      | _ => false) = true := by decide +kernel

theorem test_clear_power_up : after (.clearPowerUp (req [])) base (fun t => !t.mgmt.powerUp) = true := by decide +kernel

/-- A check of the state that `n` steps leave. -/
def afterSteps (n : Nat) (s : State) (check : State → Bool) : Bool :=
  match s.steps n with
  | .next t => check t
  | _ => false

theorem test_restart :
    after (.restart (req [])) ramp2 (fun t => afterSteps 8 t fun u =>
      u.table.trucks == [] && u.table.generation == 42 && u.table.fleet.length == 4 && (u.sec 2).seq.state == .off &&
      replied u 0x42 .ok 0 (.restart [2] 2)) = true := by decide +kernel

/-- A falling edge between the first and the fifth stage of a RESTART takes no section to OFF and lowers with reason
ESTOP; the fifth stage's LOWER RESTART replaces the unsent LOWER in place (R179). -/
theorem test_restart_meets_edge :
    let s := { ramp2 with chip := { base.chip with filter := some { candidate := false, left := 0 } } }
    after (.restart (req [])) s (fun t => afterSteps 1 t fun u => after .estopFilterExpiry u fun v =>
      v.ring.priority == [.command 2 17 .openCmd, .lower 12 40 .estop, .lower 7 40 .estop] &&
      (v.sec 2).seq.lastOff == some .restart && v.mgmt.notices.map (·.data) == [.estop []] &&
      afterSteps 4 v fun w =>
        w.ring.priority == [.command 2 17 .openCmd, .lower 12 40 .restart, .lower 7 40 .restart]) = true := by
  decide +kernel

/-- Step 5 of the stuck breaker: CLEAR_BACKUP is refused while the feedback is closed (chapter 5). -/
theorem test_clear_backup : after (.clearBackup (req [])) live2 (fun t => replied t 0x43 .badState 0 .empty) = true := by
  decide +kernel

theorem test_write_ramp :
    after (.writeRamp (req (word 999 ++ [64, 2]))) base (fun t => replied t 0x44 .badValue 1 .empty) = true := by
  decide +kernel

theorem test_read_ramp :
    after (.readRamp (req [])) base (fun t => replied t 0x45 .ok 0 (.ramp {
      silenceMs := 10000, hopInit := 16, broadcastCapture := true })) = true := by decide +kernel

/-- trip_level must exceed the derate_level carried (R3). -/
theorem test_write_section :
    after (.writeSection (req (2 :: { params with tripLevel := 20 }.bytes))) base (fun t =>
      replied t 0x46 .badValue 10 .empty && (t.sec 2).copies.pending == none) = true := by decide +kernel

theorem test_read_section :
    after (.readSection (req [2, 2])) live2 (fun t => replied t 0x47 .notFound 0 .empty) = true := by decide +kernel

theorem test_read_section_state :
    after (.readSectionState (req [2])) live2 (fun t => t.ring.ordinary.length == 5) = true := by decide +kernel

theorem test_write_fleet :
    after (.writeFleet (req ([2] ++ word 9 ++ [1] ++ word 7 ++ [0]))) base (fun t =>
      t.table.fleet == [{ id := 7, cls := 0 }, { id := 9, cls := 1 }]) = true := by decide +kernel

theorem test_remove_fleet :
    after (.removeFleet (req (word 50))) ramp2 (fun t => t.table.fleet.map (·.id) == [7, 12, 19]) = true := by
  decide +kernel

theorem test_read_fleet :
    after (.readFleet (req (word 13))) ramp2 (fun t => replied t 0x4B .ok 0
      (.fleet 4 [{ id := 19, cls := 1 }, { id := 50, cls := 3 }] none)) = true := by decide +kernel

/-- A class that a truck carries cannot be withdrawn (R117). -/
theorem test_write_class :
    after (.writeClass (req ([1, 0] ++ List.replicate 11 0))) ramp2 (fun t => replied t 0x4C .badState 0 .empty)
      = true := by decide +kernel

theorem test_read_class :
    after (.readClass (req [1])) ramp2 (fun t => replied t 0x4D .ok 0 (.cls cls1 2)) = true := by decide +kernel

/-- Step 1 of the captures: number 7 after 6, figures kept, accumulators begun with max_h at H (chapter 3). -/
theorem test_capture_clear :
    after (.captureClear (req [])) { (live2.modAcc 2 fun a => { a with
        heat := 398000, books := { a.books with energy := 5000000000, peak := 6100 }
        result := { a.result with captureNo := 6 } }) with ring := { base.ring with errors := 2 } } (fun t =>
      (t.sec 2).acc.result.captureNo == 7 && (t.sec 2).acc.result.books.energy == 5000000000 &&
      (t.sec 2).acc.books.energy == 0 && (t.sec 2).acc.books.maxH == 398000 && t.ring.errors == 0 &&
      replied t 0x4E .ok 0 (.capture .clear 2 [])) = true := by decide +kernel

/-- Steps 3 and 4 of the limit change: reader 40 as before, limit 6000, T14 lowered with reason LIMIT (chapter 1). -/
theorem test_capture_keep :
    after (.captureKeep (req [])) ((withTrucks live2 [raised 5 2 3000, raised 9 2 2500, raised 14 2 2000]).modSec 2
      fun x => { x with copies := { x.copies with pending := some { params with limitAmps := 6000 } } }) (fun t =>
      t.ring.priority == [.lower 14 40 .limit] && (t.sec 2).adm.bEff == 6000 && (t.sec 2).copies.prior == some params)
      = true := by decide +kernel

theorem test_read_results :
    after (.readResults (req [2])) live2 (fun t => replied t 0x50 .ok 0 (.results 1 1 2 ResultRecord.none)) = true := by
  decide +kernel

theorem test_read_results_all :
    after (.readResultsAll (req [255])) (set live2 5 params .off .opened) (fun t =>
      t.ring.ordinary.length == 2 && replied t 0x50 .ok 0 (.results 2 2 5 ResultRecord.none)) = true := by decide +kernel

theorem test_read_trucks :
    after (.readTrucks (req [24])) ramp2 (fun t => replied t 0x59 .badRequest 0 .empty) = true := by decide +kernel

def threeNotices : List Notice :=
  raiseIn none (.estop [2, 4]) (raiseIn (some 2) (.derate 655360 8) (raiseIn (some 4) (.trip .rise (some 17) none) []))

/-- Step 5 of the run of notices: ESTOP first, two remain (chapter 9). -/
theorem test_next_event :
    after (.nextEvent (req [])) { live2 with mgmt := { base.mgmt with notices := threeNotices } } (fun t =>
      replied t 0x5B .ok 0 (.event (some { key := none, occurrences := 1, data := .estop [2, 4] }) 2)) = true := by
  decide +kernel

/-! ## Witnesses: for every obligation with hypotheses, states and operands that meet them, clause by clause -/

def runs (o : Outcome State Fault Refusal) : Bool := match o with | .next _ => true | _ => false

theorem runs_next {o : Outcome State Fault Refusal} (h : runs o = true) : ∃ t, o = .next t := by
  cases o with
  | next t => exact ⟨t, rfl⟩
  | _ => cases h

theorem forall8 {P : Sec → Prop} (h0 : P 0) (h1 : P 1) (h2 : P 2) (h3 : P 3) (h4 : P 4) (h5 : P 5) (h6 : P 6)
    (h7 : P 7) : ∀ k, P k
  | 0 => h0 | 1 => h1 | 2 => h2 | 3 => h3 | 4 => h4 | 5 => h5 | 6 => h6 | 7 => h7

theorem option_all {α : Type} {P : α → Prop} {o : Option α} (h : ∀ p ∈ o.toList, P p) : ∀ p, o = some p → P p := by
  rintro p rfl
  exact h p (by simp)

/-- The ranges of R3 as one check. -/
def inRanges (own : Sec) (p : SectionParams) : Bool :=
  [(1, 254, p.frontendAddr), (1, 254, p.readerAddr), (100, 20000, p.limitAmps), (100, 20000, p.contAmps),
   (8, 20, p.tauShift), (17, 62, p.derateLevel), (p.derateLevel + 1, 63, p.tripLevel), (1, 8, p.derateShare),
   (1000, 32767, p.instAmps), (50, 32767, p.riseAmps), (0, 32767, p.riseFloor), (100, 32767, p.sustainAmps),
   (1, 4096, p.sustainSamples), (0, 65535, p.vmin), (0, 5000, p.vhyst), (10, 2000, p.testMs), (0, 65535, p.testPass),
   (10, 32767, p.testMaxAmps), (20, 1000, p.breakerMs), (100, 60000, p.recloseMs), (1000, 600000, p.stableMs),
   (0, 7, p.maxAttempts), (2, 100, p.measMs), (1, 16, p.badRun), (0, 2000, p.offsetLimit)].all
    (fun x : Nat × Nat × Nat => x.1 ≤ x.2.2 && x.2.2 ≤ x.2.1) && p.nextUphill != some own

theorem params_ok {own : Sec} {p : SectionParams} (h : inRanges own p = true) : p.Ok own := by
  simp [inRanges] at h
  unfold SectionParams.Ok
  simp [h]

theorem table_ok {t : TruckTable} (h : (t.fleet.map (·.id)).Pairwise (· < ·) ∧ t.fleet.length ≤ 64 ∧
    (t.trucks.map (·.id)).Nodup ∧ t.trucks.length ≤ 24 ∧ t.generation < 256 ∧
    ∀ r ∈ t.trucks, t.classes[r.cls].defined = true) : t.Ok :=
  ⟨h.1, h.2.1, h.2.2.1, h.2.2.2.1, h.2.2.2.2.1, h.2.2.2.2.2⟩

theorem lane_bounded {l : List PriorityFrame} (h : (l.Pairwise fun f g => f.sameKey g = false) ∧
    (l.filter (·.isLower)).length ≤ 24) : LaneBounded l := ⟨h.1, h.2⟩

theorem notices_ok {l : List Notice} (h : (l.Pairwise fun m n => m.rank < n.rank) ∧
    (∀ n ∈ l, 1 ≤ n.occurrences ∧ n.occurrences ≤ 255) ∧ ∀ n ∈ l, n.key = none ↔ n.data.priority ≤ 2) : NoticesOk l :=
  ⟨h.1, h.2.1, h.2.2⟩

theorem no_handover {s : State} (h : ∀ r ∈ s.table.trucks, r.panto ≠ .handover) (i : Nat) :
    s.pantoOf i ≠ some .handover := by
  intro e
  unfold State.pantoOf State.truck at e
  cases hf : s.table.trucks.find? (fun r => r.id == i) with
  | none => rw [hf] at e; cases e
  | some r =>
    rw [hf] at e
    exact h r (List.mem_of_find?_eq_some hf) (by simpa using e)

theorem candidate_any {s : State} {a : SectionParams → Nat} {src : Byte} {k : Sec} :
    s.candidate a src k ↔ (s.active k).any (fun p => p.enabled && a p == src.toNat) = true := by
  unfold State.candidate
  cases s.active k <;> simp

theorem fresh_of {x : Section} {seq : Byte} (h : x.meas.lastSeq.all (fun l => l < 256 && l != seq.toNat) = true) :
    x.fresh seq := by
  intro l hl
  rw [hl] at h
  simpa using h

/-- The items of R130 as one check. -/
def itemsFit (r : Truck) : Bool :=
  match r.panto with
  | .idle => r.hold == none && r.reserved == 0 && r.demand == none && r.window == none
  | .queued => r.hold == none && r.reserved == 0 && r.demand != none && r.window == none
  | .granted => r.hold == some r.sec && r.demand == none && r.window.map Window.kind == some .grant
  | .raised => r.hold == some r.sec && r.demand == none && r.window == none
  | .handover => r.hold != none && r.hold != some r.sec && r.demand == none && r.window.map Window.kind == some .handover
  | .lowering => r.hold != none && r.demand == none && r.window.map Window.kind == some .lower

theorem items_of {r : Truck} (h : itemsFit r = true) : r.ItemsOk := by
  revert h
  unfold itemsFit Truck.ItemsOk Truck.windowIs
  cases r.panto <;> simp +contextual

/-- What a queue entry stands for, as one check. -/
def entryFits (s : State) (k : Sec) (e : QueueEntry) : Bool :=
  (s.truck e.truck).any fun r => r.sec == k && (match e.kind with
    | .ordinary => r.panto == .queued && r.demand == some e.amount
    | .handover => r.panto == .handover && r.reserved == e.amount)

theorem entry_of {s : State} {k : Sec} {e : QueueEntry} (h : entryFits s k e = true) : e.Ok s k := by
  unfold entryFits at h
  cases hr : s.truck e.truck with
  | none => rw [hr] at h; cases h
  | some r =>
    rw [hr] at h
    refine ⟨r, hr, ?_⟩
    revert h
    cases e.kind <;> simp +contextual

theorem head_waits {s : State} {k : Sec} {holders : List Nat} {queue : List QueueEntry} (h : queue.head?.all
    (fun e => (s.sec k).adm.bEff < (holders.map s.reservedOf).sum + e.amount) = true) : s.headWaits k holders queue := by
  rintro e rest rfl
  simpa using h

/-- A release on section `k`, from facts that a kernel can compute. -/
theorem releases {s : State} {k : Sec} {p : SectionParams} (h : s.active k = some p ∧ s.told k ∧
    ((s.sec k).seq.state = .draining → (s.sec k).adm.queue = [])) : s.Releases k p := ⟨h.1, h.2.1, h.2.2⟩

/-! ### The block as a whole -/

/-- A state with a watchdog at its last millisecond, a silence timer running and a frame on the line. -/
def waiting : State :=
  { (withTrucks (live2.modMeas 2 fun m => { m with watchdog := some 1 }) [raised 8 2 3000]) with
    ring := { base.ring with line := some { dest := 2, src := 1, hops := 16, kind := 0x71, tag := 0, body := .plain [1] } } }

theorem witness_EmptyQueueStep :
    (base.noRestart ∧ { base with handed := [.tripRequest 2 someTrip] }.pending = [] ∧ broken.noRestart) ∧
    (let s := waiting.modMeas 2 fun m => { m with watchdog := some 0 };
      s.pending = [] ∧ s.noRestart ∧ s.handed = [] ∧ s.expired = some (.sensorWatchdogExpiry 2)) ∧
    (let s := { base with ring := { base.ring with ordinary := [.attention] } };
      s.pending = [] ∧ s.noRestart ∧ s.handed = [] ∧ s.expired = none ∧ s.ring.line = none ∧ s.addressed 1) ∧
    (waiting.noRestart ∧ waiting.pending = [] ∧ waiting.handed = [] ∧ waiting.expired = none ∧ waiting.ring.line ≠ none ∧
      waiting.portA = []) ∧
    (broken.pending = [] ∧ broken.handed = [] ∧ broken.expired = none ∧ broken.ring.priority = [] ∧
      broken.ring.forward = [] ∧ broken.ring.ordinary = [] ∧ broken.portA = true :: []) ∧
    (broken.ring.rx.tick true).2 = some (.frameAbandoned .breakArrived) ∧ (broken.ring.rx.tick false).2 = none := by
  decide +kernel

/-- Every bound of the ring reached. -/
def fullRing : State :=
  { base with
    pending := [.frameAbandoned .framing]
    ring := { base.ring with
      errors := 65535, runCount := 4, ordinary := List.replicate 15 .attention, claimed := 1
      forward := List.replicate 8 {
        dest := 9, src := 8, hops := 1, kind := 0x10, tag := 0, payload := List.replicate 64 7 }
      line := some { dest := 9, src := 1, hops := 16, kind := 0x10, tag := 0, body := .plain (List.replicate 64 7) } } }

theorem witness_StepKeepsRingBounded : (∃ t, step fullRing = .next t) ∧ fullRing.ring.Bounded :=
  ⟨runs_next (by decide +kernel), ⟨by decide, by decide, by decide, by decide, by decide +kernel, by
    intro f h
    cases h
    decide +kernel⟩⟩

/-- Trucks, a fleet, a command and a LOWER in the lane, and a departure waiting. -/
def busy : State :=
  { ramp2 with
    pending := [.depart 2 (word 12)]
    ring := { base.ring with priority := [.command 2 17 .openCmd, .lower 8 40 .trip] } }

theorem witness_StepKeepsLaneAndTable :
    (∃ t, step busy = .next t) ∧ LaneBounded busy.ring.priority ∧ busy.table.Ok :=
  ⟨runs_next (by decide +kernel), lane_bounded (by decide), table_ok (by decide +kernel)⟩

def noticed : State := { live2 with mgmt := { base.mgmt with notices := threeNotices }, pending := [.nextEvent (req [])] }

theorem witness_StepKeepsNotices : (∃ t, step noticed = .next t) ∧ NoticesOk noticed.mgmt.notices :=
  ⟨runs_next (by decide +kernel), notices_ok (by decide +kernel)⟩

theorem option_fits {α : Type} {f : α → Bool} {o : Option α} (h : o.all f = true) : ∀ x, o = some x → f x = true := by
  rintro x rfl
  exact h

/-- The ranges of R35 as one check. -/
def booksFit (b : Books) : Bool :=
  -energyMax ≤ b.energy && b.energy ≤ energyMax && b.count ≤ max32 && b.peak ≤ 32767 && b.peakSeq.all (· ≤ 255) &&
  b.minV.all (· ≤ 65535) && b.maxH ≤ max32 && b.longestRun ≤ 4096 && b.missed ≤ 65535 && b.trips ≤ 255

theorem books_of {b : Books} (h : booksFit b = true) : b.Ok := by
  simp only [booksFit, Bool.and_eq_true, decide_eq_true_eq] at h
  obtain ⟨⟨⟨⟨⟨⟨⟨⟨⟨e1, e2⟩, c⟩, p⟩, q⟩, v⟩, m⟩, r⟩, d⟩, n⟩ := h
  exact ⟨⟨e1, e2⟩, c, p, fun x hx => of_decide_eq_true (option_fits q x hx),
    fun x hx => of_decide_eq_true (option_fits v x hx), m, r, d, n⟩

/-- The ranges of R16 as one check. -/
def measFits (m : Meas) : Bool :=
  m.lastSeq.all (· ≤ 255) && m.offset.natAbs ≤ 2000 && (m.offsetValid || m.offset == 0) && m.currents.length == 8 &&
  m.voltages.length == 8 && m.currents.all (·.natAbs ≤ 32767) && m.voltages.all (· ≤ 65535) &&
  m.iPrev.all (·.natAbs ≤ 32767) && m.badRun ≤ 16 &&
  m.cal.all fun c => c.count ≤ 15 && decide (c.sum.natAbs ≤ 32767 * c.count)

theorem meas_of {m : Meas} (h : measFits m = true) : m.Ok := by
  simp only [measFits, Bool.and_eq_true, decide_eq_true_eq, List.all_eq_true, beq_iff_eq, Bool.or_eq_true] at h
  obtain ⟨⟨⟨⟨⟨⟨⟨⟨⟨q, o⟩, v⟩, c⟩, w⟩, i⟩, u⟩, p⟩, b⟩, r⟩ := h
  exact ⟨fun x hx => of_decide_eq_true (option_fits q x hx), o, fun hv => v.resolve_left (by simp [hv]), c, w, i, u,
    fun x hx => of_decide_eq_true (option_fits p x hx), b, fun x hx => by simpa [CalRun.Ok] using option_fits r x hx⟩

/-- The figures of a section as one check. -/
def figuresFit (x : Section) : Bool :=
  measFits x.meas && (x.meas.watchdog == none || x.copies.active.any (·.enabled)) && booksFit x.acc.books &&
  booksFit x.acc.result.books && x.acc.result.captureNo < 65536 && x.acc.heat ≤ max32 && x.prot.history.length ≤ 5 &&
  x.prot.sustained ≤ 4096 && x.prot.sustained ≤ x.copies.active.elim 0 (·.sustainSamples) &&
  x.prot.last.all fun l => l.seq ≤ 255 && l.iCorr.natAbs ≤ 32767 && l.vAvg ≤ 65535

theorem figures_of {x : Section} (h : figuresFit x = true) : x.Figures := by
  simp only [figuresFit, Bool.and_eq_true, decide_eq_true_eq, beq_iff_eq, Bool.or_eq_true] at h
  obtain ⟨⟨⟨⟨⟨⟨⟨⟨⟨m, w⟩, b⟩, r⟩, c⟩, e⟩, y⟩, s⟩, n⟩, l⟩ := h
  exact ⟨meas_of m, w.resolve_left, books_of b, books_of r, c, e, y, s, n, fun x hx => by
    simpa [LastSample.Ok, and_assoc] using option_fits l x hx⟩

/-- Soundness of a state, from facts that a kernel can compute. -/
theorem sound_of {s : State} (ramp : (1000 ≤ s.ramp.silenceMs ∧ s.ramp.silenceMs ≤ 60000) ∧ 1 ≤ s.ramp.hopInit ∧
      s.ramp.hopInit ≤ 63)
    (copies : ∀ k, (∀ p ∈ (s.sec k).copies.pending.toList, inRanges k p = true) ∧
      (∀ p ∈ (s.sec k).copies.active.toList, inRanges k p = true) ∧
      (∀ p ∈ (s.sec k).copies.prior.toList, inRanges k p = true) ∧
      ((s.sec k).copies.active.isSome → (s.sec k).copies.pending.isSome) ∧
      ((s.sec k).copies.prior.isSome → (s.sec k).copies.active.isSome))
    (figures : ∀ k, figuresFit (s.sec k) = true)
    (attempts : ∀ k, (s.sec k).seq.attempts ≤ 7)
    (absent : ∀ k, s.active k = none → (s.sec k).seq.state = .off ∧ (s.sec k).seq.breakerTimer = none)
    (enabled : ∀ k, inService (s.sec k).seq.state = true → s.isEnabled k = true)
    (coherent : ∀ k, (s.sec k).seq.Coherent)
    (quiet : ∀ k, dead (s.sec k).seq.state = true → ∀ f ∈ s.ring.priority, f.energises k = false) : SectionsSound s where
  ramp := ramp
  copies k := ⟨fun p h => params_ok (option_all (copies k).1 p h), fun p h => params_ok (option_all (copies k).2.1 p h),
    fun p h => params_ok (option_all (copies k).2.2.1 p h), (copies k).2.2.2.1, (copies k).2.2.2.2⟩
  figures k := figures_of (figures k)
  attempts k := .inl (attempts k)
  sequencer k := ⟨absent k, enabled k, coherent k, quiet k⟩

/-- A LIVE section, to be de-energised. -/
def sound : State := { live2 with pending := [.deenergize (req [2])] }

theorem sound_ok : SectionsSound sound :=
  sound_of (by decide) (by decide +kernel) (by decide +kernel) (by decide +kernel) (by decide +kernel)
    (by decide +kernel) (forall8 rfl rfl rfl rfl rfl rfl rfl rfl) (by decide +kernel)

theorem witness_StepKeepsSections : (∃ t, step sound = .next t) ∧ SectionsSound sound :=
  ⟨runs_next (by decide +kernel), sound_ok⟩

/-- The loop open, an OPEN unsent, and an ENERGIZE that must be refused. -/
def stopped : State :=
  { ready2 with
    chip := { base.chip with estopPin := false, estopClosed := false }
    ring := { base.ring with priority := [.command 2 17 .openCmd] }
    pending := [.energize (req [2])] }

theorem witness_StepKeepsLoopSafe : (∃ t, step stopped = .next t) ∧ SectionsSound stopped ∧ LoopSafe stopped ∧
    stopped.chip.estopClosed = false := by
  refine ⟨runs_next (by decide +kernel), ?_, fun _ => ?_, rfl⟩
  · exact sound_of (by decide) (by decide +kernel) (by decide +kernel) (by decide +kernel) (by decide +kernel)
      (by decide +kernel) (forall8 rfl rfl rfl rfl rfl rfl rfl rfl) (by decide +kernel)
  · unfold State.laneQuiet
    decide +kernel

/-- Section 2 LIVE with two holders and a queue, the handover example's truck between 2 and 3, and a report to come. -/
def admitting : State :=
  { (withTrucks (set live2 3 params .live .closed) [raised 12 2 3000, granted 31 2 2800, queued 44 2 2000, crossing]) with
    pending := [.state 2 (word 12 ++ [0] ++ word 0)] }

/-- What the admission unit keeps true of one section, as facts that a kernel can compute. -/
abbrev AdmittingFits (s : State) (k : Sec) (a : Adm) : Prop :=
  a.view = (s.sec k).seq.state ∧ a.bEff = s.budgetOf k ∧ (a.queue.map (·.truck)).Nodup ∧ a.holders.Nodup ∧
  (a.queue.Pairwise fun e f => e.kind = .ordinary → f.kind = .ordinary) ∧ (a.stall = true → a.queue ≠ []) ∧
  (s.emptying = false → a.view ≠ .live → ∀ e ∈ a.queue, e.kind = .ordinary) ∧
  (s.emptying = false → a.view = .off ∨ a.view = .draining ∨ a.view = .maint → a.queue = []) ∧
  (s.emptying = false → a.view ≠ .live → ∀ t ∈ a.holders, s.pantoOf t = some .lowering)

/-- What the admission unit keeps true of one truck. -/
abbrev TruckFits (s : State) (r : Truck) : Prop :=
  itemsFit r = true ∧ (∀ d ∈ r.demand.toList, 100 ≤ d ∧ d ≤ 8000) ∧
  (r.hold ≠ none → 100 ≤ r.reserved ∧ r.reserved ≤ 8000) ∧ r.overCount ≤ (if r.panto = .lowering then 3 else 2) ∧
  (r.panto = .queued ∨ r.panto = .handover → r.id ∈ (s.sec r.sec).adm.queue.map (·.truck)) ∧
  ∀ k, r.hold = some k → r.id ∈ (s.sec k).adm.holders

theorem admission_of {s : State} (sections : ∀ k, AdmittingFits s k (s.sec k).adm)
    (classes : ∀ c : Fin 4, s.table.classes[c] = if c = 1 then cls1 else ClassRecord.undefined)
    (trucks : ∀ r ∈ s.table.trucks, TruckFits s r)
    (entries : ∀ k, ∀ e ∈ (s.sec k).adm.queue, entryFits s k e = true)
    (held : ∀ k, ∀ t ∈ (s.sec k).adm.holders, (s.truck t).bind (·.hold) = some k) : AdmissionOk s where
  sections k := have ⟨a, b, c, d, e, f, g, i, j⟩ := sections k; ⟨a, b, c, d, e, f, g, i, j⟩
  classes c := by
    rw [classes c]
    unfold ClassRecord.Ok
    revert c
    decide
  items r hr := items_of (trucks r hr).1
  figures r hr := ⟨option_all (trucks r hr).2.1, (trucks r hr).2.2.1, (trucks r hr).2.2.2.1⟩
  entries k e he := entry_of (entries k e he)
  waiting r hr := (trucks r hr).2.2.2.2.1
  held k t ht := Option.bind_eq_some_iff.mp (held k t ht)
  holding r hr := (trucks r hr).2.2.2.2.2

/-- The RESTART that `req []` starts, about to take a stage. -/
def restarting (next : RestartStage) (s : State) : State :=
  { s with
    ring := { s.ring with claimed := 1 }
    mgmt := { s.mgmt with restart := some { tag := 9, next := next, takenOff := [], removed := 0 } } }

theorem not_restarting {s : State} (h : s.noRestart ∧ s.ring.claimed = 0) : RestartOk s :=
  ⟨by rw [h.1]; exact h.2, fun r hr => absurd (h.1.symm.trans hr) (by simp),
    fun r hr => absurd (h.1.symm.trans hr) (by simp)⟩

theorem witness_StepKeepsAdmission :
    (∃ t, step admitting = .next t) ∧ SectionsSound admitting ∧ admitting.table.Ok ∧ RestartOk admitting ∧
    AdmissionOk admitting := by
  refine ⟨runs_next (by decide +kernel), ?_, table_ok (by decide +kernel), not_restarting (by decide +kernel),
    admission_of (by decide +kernel) (by decide +kernel) (by decide +kernel) (by decide +kernel) (by decide +kernel)⟩
  · exact sound_of (by decide) (by decide +kernel) (by decide +kernel) (by decide +kernel) (by decide +kernel)
      (by decide +kernel) (forall8 rfl rfl rfl rfl rfl rfl rfl rfl) (by decide +kernel)

/-- A falling edge to come between two stages. -/
def between : State := { restarting .measurement off2 with pending := [.estopFilterExpiry] }

theorem witness_StepKeepsRestart : (∃ t, step between = .next t) ∧ RestartOk between := by
  refine ⟨runs_next (by decide +kernel), by decide, fun r h => ?_, fun r _ _ => by decide +kernel⟩
  obtain rfl := Option.some.inj h
  exact .nil

/-! ### The wire -/

def frame (dest src : Byte) (hops kind : Byte) (payload : List Byte) : Frame :=
  { dest := dest, src := src, hops := hops, kind := kind, tag := 0, payload := payload }

theorem witness_FrameBytesReadBack :
    (frame 0 255 255 0x70 []).payload.length ≤ 64 ∧ (frame 9 8 0 0x10 (List.replicate 64 255)).payload.length ≤ 64 := by
  decide +kernel

theorem witness_LineCarriesFrames :
    wholeFrame (frame 1 17 3 0x10 []).bytes = true ∧
    wholeFrame (frame 1 17 3 0x10 (List.replicate 64 0)).bytes = true ∧
    (broken.ring.rx.level = false ∧ 104 ≤ broken.ring.rx.low ∧ broken.ring.rx.phase.phase = .bytes) ∧
    (Rx.powerOn.phase = .seeking ∧ Rx.powerOn.low + 103 < 104) := by decide +kernel

theorem witness_ParameterRecordReadBack :
    params.Ok 2 ∧ SectionParams.Ok 0 { params with
      nextUphill := some 7, limitAmps := 20000, derateLevel := 62, tripLevel := 63, stableMs := 600000
      offsetLimit := 2000 } :=
  ⟨params_ok (by decide +kernel), params_ok (by decide +kernel)⟩

/-! ### The ring -/

theorem witness_FrameJudged_faulty :
    ([] : List Byte).length < 6 ∧ ([1, 2, 3, 4, 5] : List Byte).length < 6 ∧
    (headerLength [1, 2, 3, 4, 5, 65] = some 65) ∧
    (headerLength [1, 2, 3, 4, 5, 0, 7] = some 0 ∧ ([1, 2, 3, 4, 5, 0, 7] : List Byte).length < 6 + 0 + 2) ∧
    (headerLength [1, 2, 3, 4, 5, 0, 0, 0] = some 0 ∧
      ([0, 0] : List Byte) ≠ crcBytes [1, 2, 3, 4, 5, 0]) ∧
    (AbandonCause.sync 48).real = true ∧ (AbandonCause.sync 64).real = true ∧ (AbandonCause.length 65).real = true ∧
    (AbandonCause.length 255).real = true ∧ AbandonCause.framing.real = true ∧ AbandonCause.breakArrived.real = true ∧
    AbandonCause.silence.real = true := by decide +kernel

theorem witness_FrameJudged_good :
    base.addressed 1 ∧ (frame 9 1 4 0x10 []).src = 1 ∧
    (∀ f ∈ [frame 9 8 0 0x10 [], frame 254 0 1 0x10 [7], frame 0 2 255 0x5B (List.replicate 64 0)],
      f.payload.length ≤ 64 ∧ f.src ≠ 1 ∧ f.dest ≠ 1 ∧ f.dest ≠ 255) ∧
    (∀ kind ∈ [(0x3F : Byte), 0x5C, 0x10], (frame 255 8 4 kind []).dest = 255 ∧
      ¬ (0x40 ≤ kind.toNat ∧ kind.toNat ≤ 0x5B)) ∧
    (∀ kind ∈ [(0x00 : Byte), 0x24, 0x3F, 0x5C, 0x70, 0x71], kind ∉ ([0x10, 0x20, 0x21, 0x22, 0x23] : List Byte) ∧
      ¬ (0x40 ≤ kind.toNat ∧ kind.toNat ≤ 0x5B)) ∧
    ¬ fullRing.ring.forward.length < 8 ∧ fullRing.addressed 1 := by decide +kernel

/-- Sections 2 and 5 share a front-end and a reader; section 0 has both, but is not enabled. -/
def shared : State := set (set off2 5 params .off .opened) 0 { params with enabled := false } .off .opened

theorem witness_SectionFrameDelivered :
    shared.addressed 1 ∧ shared.lowestCandidate (·.frontendAddr) 17 2 ∧ shared.lowestCandidate (·.readerAddr) 40 2 ∧
    (∀ k, ¬ shared.candidate (·.frontendAddr) 18 k) ∧ (∀ k, ¬ shared.candidate (·.readerAddr) 17 k) := by
  simp only [State.lowestCandidate, candidate_any]
  decide +kernel

theorem witness_RequestDelivered :
    base.addressed 1 ∧ base.straps.supaddr = 2 ∧ (base.handed.filter isRequest).length < 2 ∧
    ((frame 1 2 3 0x40 []).dest = 1 ∧ (frame 1 2 3 0x40 []).src ≠ 1) ∧
    ((frame 255 2 0 0x4E []).dest = 255 ∧ (frame 255 2 1 0x4F []).hops = 1) ∧
    (¬ fullRing.ring.forward.length < 8 ∧ (fullRing.handed.filter isRequest).length < 2) ∧
    ¬ (({ base with handed := [.getStatus (req []), .readRamp (req [])] } : State).handed.filter isRequest).length < 2 ∧
    (restarting .ring base).mgmt.restart.isSome = true ∧ base.mgmt.restart.isSome = false ∧
    (frame 1 2 3 0x50 [255]).payload = [255] ∧ (frame 1 2 3 0x50 [7]).payload ≠ [255] ∧
    ((frame 1 2 3 0x56 [2, 1]).payload.length = 2 ∧ (frame 1 2 3 0x56 [2, 1]).payload[1]? = some 1) ∧
    (frame 1 2 3 0x56 [2, 0]).payload[1]? ≠ some 1 ∧
    (0x5B, Instr.nextEvent) ∈ requestRows := by
  refine ⟨by decide, by decide, by decide, by decide, by decide, by decide +kernel, by decide +kernel, by decide, by decide,
    by decide, by decide, by decide, by decide, ?_⟩
  simp [requestRows]

def lanes (p : List PriorityFrame) (f : List Frame) (o : List OrdinaryFrame) (run : Nat) : State :=
  { live2 with ring := { base.ring with priority := p, forward := f, ordinary := o, runCount := run } }

theorem witness_ArbiterChooses :
    let f := frame 9 8 1 0x10 []
    (lanes [.command 2 17 .openCmd] [f] [.attention] 4).addressed 1 ∧
    ((lanes [] [f] [] 4).ring.ordinary = [] ∧ (lanes [] [f] [.attention] 3).ring.runCount < 4) ∧
    (4 ≤ (lanes [] [f] [.attention] 4).ring.runCount ∧ (lanes [] [] [.attention] 0).ring.forward = [] ∧
      ∀ k, ((lanes [] [] [.attention] 0).sec k).adm.stall = false) ∧
    (lanes [] [] [] 0).ring.priority = [] := by decide +kernel

/-- Section 2 stalled for want of a place, with T44 at the head of its queue and exactly its budget left. -/
def stalled : State :=
  { ((withTrucks live2 [raised 12 2 7000, queued 44 2 2000]).modAdm 2 fun a => { a with stall := true }) with
    ring := { base.ring with ordinary := List.replicate 16 .attention } }

theorem witness_FreedPlaceGrants :
    (4 ≤ (lanes [] [frame 9 8 1 0x10 []] [.attention] 4).ring.runCount ∧
      (lanes [] [frame 9 8 1 0x10 []] [.attention] 4).addressed 1) ∧
    stalled.addressed 1 ∧ stalled.ring.priority = [] ∧ stalled.ring.forward = [] ∧
    stalled.ring.ordinary = .attention :: List.replicate 15 .attention ∧
    stalled.ring.ordinary.length + stalled.ring.claimed ≤ 16 ∧ stalled.active 2 = some params ∧
    (stalled.sec 2).adm.queue = [{ truck := 44, kind := .ordinary, amount := 2000 }] ∧
    (stalled.sec 2).adm.stall = true ∧ (∀ j, j ≠ 2 → (stalled.sec j).adm.stall = false) ∧
    stalled.truck 44 = some (queued 44 2 2000) ∧ (queued 44 2 2000).demand = some 2000 ∧
    stalled.reserved 2 + 2000 ≤ (stalled.sec 2).adm.bEff := by decide +kernel

/-- A queue of a handover entry and three ordinary ones at section 3, with room in the lane for two grants, or more. -/
def queueing (used : Nat) : State :=
  { (withTrucks (set live2 3 params .live .closed) [raised 7 3 3000, crossing, queued 44 3 2000, queued 45 3 1400,
      queued 46 3 1000]) with ring := { base.ring with ordinary := List.replicate used .attention } }

theorem witness_PassGrantsInOrder :
    (∀ used ∈ [0, 14, 16], let s := queueing used
      s.active 3 = some params ∧ s.ring.ordinary.length + s.ring.claimed ≤ 16 ∧
      s.reserved 3 = 3000 ∧ (s.sec 3).adm.bEff = 9000 ∧ ((s.sec 3).adm.queue.map (·.truck)).Nodup ∧
      (s.sec 3).adm.queue.map (·.amount) = [2600, 2000, 1400, 1000] ∧ s.roomFor 1 = (used ≠ 16 : Bool) ∧
      (∀ t ∈ (s.sec 3).adm.holders, t = 7 ∧ s.truck 7 = some (raised 7 3 3000) ∧ (raised 7 3 3000).hold = some 3)) ∧
    (∀ s ∈ [withTrucks live2 [raised 12 2 7000, queued 44 2 2001]], s.headWaits 2 (s.sec 2).adm.holders (s.sec 2).adm.queue) ∧
    (queueing 0).table.Ok ∧ (∀ r ∈ (queueing 0).table.trucks, r.ItemsOk) ∧
    ∀ e ∈ ((queueing 0).sec 3).adm.queue, e.Ok (queueing 0) 3 :=
  ⟨by decide +kernel, fun s hs => head_waits (by revert s; decide +kernel), table_ok (by decide +kernel), fun r hr => items_of ((by decide +kernel :
    ∀ r ∈ (queueing 0).table.trucks, itemsFit r = true) r hr), fun e he => entry_of ((by decide +kernel :
    ∀ e ∈ ((queueing 0).sec 3).adm.queue, entryFits (queueing 0) 3 e = true) e he)⟩

/-! ### Requests -/

theorem witness_RequestIgnoredOrDropped :
    (broadcast [2]).broadcast = true ∧ (req []).broadcast = false ∧ base.noRestart ∧ (full base).noRestart ∧
    ¬ (full base).roomFor 1 ∧ ∀ next ∈ [RestartStage.sequencer, .table, .reply], ¬ (restarting next ramp2).noRestart ∧
      runs (step { (restarting next ramp2) with pending := [] }) = true := by decide +kernel

theorem witness_BadPayloadRefused :
    (base.noRestart ∧ base.roomFor 1) ∧ (req [0]).payload ≠ [] ∧ (req []).payload.length ≠ 1 ∧ (req [0, 0]).payload.length ≠ 1 ∧
    (∀ b ∈ [(8 : Byte), 254], 8 ≤ b.toNat ∧ b ≠ 255) ∧ (req [255]).payload = [255] ∧ (req [0]).payload.length ≠ 2 ∧
    (req [0, 0, 0]).payload.length ≠ 2 ∧ (∀ n ∈ [4, 49, 13, 1, 2], (req []).payload.length ≠ n) ∧
    ((req [2, 2]).payload = [2, 2] ∧ 2 ≤ (2 : Byte).toNat ∧ ¬ 2 ≤ (1 : Byte).toNat) ∧
    ((req [8, 1]).payload = [8, 1] ∧ (req [8, 0]).payload = [8, 0] ∧ 8 ≤ (8 : Byte).toNat) := by decide +kernel

theorem witness_StatusAndRampServed :
    (req []).broadcast = false ∧ (ramp2.noRestart ∧ ramp2.roomFor 1) ∧ (req []).payload = [] ∧ (req [0]).payload ≠ [] ∧
    ∀ row ∈ [(1000, 1, (0 : Byte)), (60000, 63, 1), (999, 1, 1), (60001, 63, 0), (1000, 0, 2), (1000, 64, 0), (1000, 1, 2)],
      row.1 ≤ 65535 ∧ row.2.1 ≤ 255 ∧ (req (word row.1 ++ [BitVec.ofNat 8 row.2.1, row.2.2])).payload =
        toBe 2 row.1 ++ toBe 1 row.2.1 ++ [row.2.2] := by decide +kernel

/-- Section 2 with its three copies. -/
def copied : State := live2.modSec 2 fun x => { x with copies := { x.copies with prior := some { params with vmin := 1 } } }

theorem witness_SectionRead :
    (copied.noRestart ∧ copied.roomFor 1) ∧ (8 ≤ (8 : Byte).toNat) ∧ ((2 : Byte).toNat = (2 : Sec).val) ∧ (2 < (3 : Byte).toNat) ∧
    (copied.sec 2).copies.pending = some params ∧ (copied.sec 2).copies.active = some params ∧
    (copied.sec 2).copies.prior = some { params with vmin := 1 } ∧ (live2.sec 2).copies.prior = none := by decide +kernel

theorem witness_TablesRead :
    (ramp2.noRestart ∧ ramp2.roomFor 1) ∧ (req (word 12)).payload = toBe 2 12 ∧
    ramp2.table.fleet = [{ id := 7, cls := 1 }] ++ [{ id := 12, cls := 1 }, { id := 19, cls := 1 }, { id := 50, cls := 3 }] ∧
    (∀ e ∈ [({ id := 7, cls := 1 } : FleetEntry)], e.id < 12) ∧
    (∀ e ∈ [({ id := 12, cls := 1 } : FleetEntry), { id := 19, cls := 1 }, { id := 50, cls := 3 }], 12 ≤ e.id) ∧
    (req [3]).payload = [BitVec.ofNat 8 (3 : Fin 4).val] ∧ 4 ≤ (4 : Byte).toNat ∧ 24 ≤ (24 : Byte).toNat ∧
    (23 : Byte).toNat ≤ 23 ∧ (req []).payload.length ≠ 2 ∧ (req []).payload.length ≠ 1 := by decide +kernel

/-- Sections 2 and 5 enabled; the lane with exactly two places, and with one. -/
def two25 (used : Nat) : State :=
  { set live2 5 params .off .opened with ring := { base.ring with ordinary := List.replicate used .attention } }

/-- A result record with every figure of its books at the end of its range. -/
def fullRecord : ResultRecord :=
  { captureNo := 65535, kind := .limited, fellSeen := true, roseSeen := false
    books := { energy := -energyMax, count := max32, peak := 32767, peakSeq := some 255, minV := none, maxH := max32
               longestRun := 4096, missed := 65535, trips := 255, overflow := true } }

theorem witness_ResultsRead :
    (req [7]).payload = [BitVec.ofNat 8 (7 : Sec).val] ∧ (base.noRestart ∧ base.roomFor 1) ∧ (req [255]).payload = [255] ∧
    ([2, 5] : List Sec).Pairwise (· < ·) ∧ (∀ k : Sec, k ∈ [(2 : Sec), 5] ↔ (two25 14).isEnabled k = true) ∧
    ((two25 14).noRestart ∧ (two25 14).roomFor 2) ∧ ¬ (two25 15).roomFor 2 ∧
    (∀ k : Sec, k ∈ ([] : List Sec) ↔ base.isEnabled k = true) ∧ fullRecord.captureNo < 65536 ∧ fullRecord.books.Ok :=
  ⟨by decide +kernel, by decide +kernel, by decide +kernel, by decide +kernel, by decide +kernel, by decide +kernel,
    by decide +kernel, by decide +kernel, by decide, books_of (by decide +kernel)⟩

/-- The bytes of a result record: its overflow and fell flags, and an energy below 0 in two's complement (Table 10-7). -/
theorem test_result_bytes :
    ((ReplyData.results 1 2 5 fullRecord).bytes.take 15) =
      [1, 2, 5, 255, 255, 3, 13, 0x80, 0, 0, 0, 0, 0, 0, 1] := by
  decide +kernel

theorem witness_SectionStateRead :
    (req [2]).payload = [BitVec.ofNat 8 (2 : Sec).val] ∧ (two25 11).noRestart ∧ (two25 11).roomFor 5 ∧ ¬ (two25 12).roomFor 5 := by
  decide +kernel

/-- The thirty values of `params`, with some of them changed. -/
def values (changed : List (Nat × Nat)) (n : Nat) : Nat :=
  match changed.find? fun c => c.1 == n with
  | some c => c.2
  | none => [0, 1, 17, 40, 255, 0, 9000, 4000, 12, 20, 28, 4, 12000, 800, 2000, 0, 9000, 500, 18000, 1000, 200, 20000, 400,
      150, 5000, 30000, 1, 2, 5, 3, 40].getD n 0

/-- Every field at both ends of its range, and at the values next outside where its bytes can carry them. -/
theorem witness_SectionWritten :
    (base.noRestart ∧ base.roomFor 1) ∧ (2 : Byte).toNat = (2 : Sec).val ∧ 8 ≤ (8 : Byte).toNat ∧
    (∀ n ∈ List.range' 1 30, values [] n < 256 ^ fieldSize n ∧ fieldInRange 2 (values []) n = true) ∧
    recordOf (values []) = params ∧
    (∀ c ∈ [(1, 0), (2, 1), (2, 254), (3, 1), (3, 254), (4, 0), (4, 1), (4, 7), (5, 1), (6, 100), (6, 20000), (7, 100),
        (7, 20000), (8, 8), (8, 20), (9, 17), (9, 27), (10, 21), (10, 63), (11, 1), (11, 8), (12, 1000), (12, 32767),
        (13, 50), (13, 32767), (14, 0), (14, 32767), (15, 3), (16, 100), (16, 32767), (17, 1), (17, 4096), (18, 0),
        (18, 65535), (19, 0), (19, 5000), (20, 10), (20, 2000), (21, 0), (21, 65535), (22, 10), (22, 32767), (23, 20),
        (23, 1000), (24, 100), (24, 60000), (25, 1000), (25, 600000), (26, 0), (27, 0), (27, 7), (28, 2), (28, 100),
        (29, 1), (29, 16), (30, 0), (30, 2000)],
      c.2 < 256 ^ fieldSize c.1 ∧ fieldInRange 2 (values [c]) c.1 = true) ∧
    (∀ c ∈ [(1, 2), (2, 0), (2, 255), (3, 0), (3, 255), (4, 2), (4, 8), (4, 254), (5, 2), (6, 99), (6, 20001), (7, 99),
        (7, 20001), (8, 7), (8, 21), (9, 16), (9, 63), (10, 20), (10, 64), (11, 0), (11, 9), (12, 999), (12, 32768),
        (13, 49), (13, 32768), (14, 32768), (15, 4), (16, 99), (16, 32768), (17, 0), (17, 4097), (19, 5001), (20, 9),
        (20, 2001), (22, 9), (22, 32768), (23, 19), (23, 1001), (24, 99), (24, 60001), (25, 999), (25, 600001), (26, 2),
        (27, 8), (28, 1), (28, 101), (29, 0), (29, 17), (30, 2001)],
      c.2 < 256 ^ fieldSize c.1 ∧ fieldInRange 2 (values [c]) c.1 = false ∧
      ∀ m ∈ List.range' 1 30, m < c.1 → fieldInRange 2 (values [c]) m = true) := by decide +kernel

def entries (ids : List Nat) : List FleetEntry := ids.map fun i => { id := i, cls := 0 }

/-- A fleet table of 63 entries. -/
def fleet63 : State := { base with table := { base.table with fleet := entries ((List.range 63).map (· + 1)) } }

theorem witness_FleetWritten :
    (ramp2.noRestart ∧ ramp2.roomFor 1 ∧ (∀ id ∈ [0, 65535, 1, 65534, 50, 19], (req (word id)).payload = toBe 2 id) ∧
      (∀ id ∈ [1, 65534], ∀ e ∈ ramp2.table.fleet, e.id ≠ id) ∧
      (∃ e ∈ ramp2.table.fleet, e.id = 50) ∧ ramp2.truck 50 = none) ∧
    (fleet63.noRestart ∧ fleet63.roomFor 1) ∧ fleet63.table.Ok ∧
    (∀ es ∈ [entries [64], entries [64, 65], entries [1, 65534]], es ≠ [] ∧ es.length ≤ 8 ∧
      (∀ e ∈ es, 1 ≤ e.id ∧ e.id ≤ 65534) ∧ (es.map (·.id)).Nodup) ∧
    64 < ((entries [64, 65]).filter fun e => !fleet63.table.fleet.any fun x => x.id == e.id).length + 63 ∧
    (∀ p ∈ [(0 : Byte) :: ([] : List Byte), 9 :: List.replicate 27 0, 1 :: List.replicate 4 0],
      (p.headD 0).toNat = 0 ∨ 8 < (p.headD 0).toNat ∨ (p.drop 1).length ≠ 3 * (p.headD 0).toNat) ∧
    ∀ e ∈ [(0, 0), (65535, 3), (9, 4), (9, 0)],
      let es : List (Nat × Nat) := [(9, 1), e]
      es = [(9, 1)] ++ e :: [] ∧ e.1 ≤ 65535 ∧ e.2 ≤ 255 ∧
      ¬ (1 ≤ e.1 ∧ e.1 ≤ 65534 ∧ e.2 ≤ 3 ∧ e.1 ∉ [((9, 1) : Nat × Nat)].map (·.1)) ∧
      (1 ≤ 9 ∧ 9 ≤ 65534 ∧ 1 ≤ 3 ∧ 9 ∉ ([] : List (Nat × Nat)).map (·.1)) :=
  ⟨by decide +kernel, by decide, table_ok (by decide +kernel), by decide +kernel⟩

theorem witness_ClassWritten :
    (ramp2.noRestart ∧ ramp2.roomFor 1) ∧ (req []).payload.length ≠ 13 ∧
    (req (4 :: List.replicate 12 0)).payload = 4 :: List.replicate 12 0 ∧ 4 ≤ (4 : Byte).toNat ∧
    (req ([3, 1] ++ word 100 ++ word 100 ++ word 200 ++ word 100 ++ word 200 ++ [100])).payload =
      [BitVec.ofNat 8 (3 : Fin 4).val, 1] ++ toBe 2 100 ++ toBe 2 100 ++ toBe 2 200 ++ toBe 2 100 ++ toBe 2 200 ++
        toBe 1 100 := by decide +kernel

theorem witness_FlagsAndNoticesTaken :
    (live2.noRestart ∧ live2.roomFor 1) ∧ (req []).payload = [] ∧ (req [0]).payload ≠ [] ∧
    (∀ k, off2.isEnabled k = true → (off2.sec k).seq.lastFeedback = .opened) ∧
    (∃ k, live2.isEnabled k = true ∧ (live2.sec k).seq.lastFeedback = .closed) ∧
    (noticed.noRestart ∧ noticed.roomFor 1) ∧ noticed.mgmt.notices ≠ [] ∧ base.mgmt.notices = [] := by decide +kernel

/-! ### Section control -/

/-- Section 2 with one thing about it changed. -/
def ready (f : Section → Section) : State := ready2.modSec 2 f

/-- A frame that reports the breaker closed ends a run, and its notice carries the frame's seq (R32, log 11). -/
theorem test_calibration_aborted :
    after (.measurementFrame 2 ([9] ++ word 0 ++ word 24000 ++ [1, 0]))
      ((off2.modMeas 2 fun m => { m with cal := some { sum := 40, count := 15 } }).modSeq 2 fun q => { q with
        lastFeedback := .closed }) (fun t =>
      (t.sec 2).meas.cal == none && !(t.sec 2).meas.offsetValid &&
      t.mgmt.notices.map (·.data) == [.sensorFault (.calAbort (some 9))]) = true := by decide +kernel

theorem witness_CalibrationStarted :
    (let s := off2.modMeas 2 fun m => { m with cal := some { sum := 0, count := 0 } };
      (s.sec 2).meas.cal = some { sum := 0, count := 0 } ∧ (s.active 2).isSome = true ∧ (s.sec 2).meas.lastSeq = none ∧
      ∀ g ∈ [(0 : Byte), 1], g.toNat ≤ 1) ∧
    (off2.noRestart ∧ off2.roomFor 1) ∧ (req []).payload.length ≠ 1 ∧ (req [8]).payload = [8] ∧ 8 ≤ (8 : Byte).toNat ∧
    (req [2]).payload = [BitVec.ofNat 8 (2 : Sec).val] ∧ off2.active 2 = some params ∧ off2.isEnabled 2 = true ∧
    (off2.sec 2).seq.state = .off ∧ (off2.sec 2).meas.cal = none ∧ (off2.sec 2).seq.expectation = .opened ∧
    (off2.sec 2).seq.lastFeedback = .opened := by decide +kernel

theorem witness_Energized :
    (ready2.noRestart ∧ ready2.roomFor 1) ∧ (req [2]).payload = [BitVec.ofNat 8 (2 : Sec).val] ∧ base.active 2 = none ∧
    ready2.active 2 = some params ∧ ready2.told 2 ∧ params.enabled = true ∧ (ready2.sec 2).seq.state = .off ∧
    (ready2.sec 2).meas.cal = none ∧ (ready2.sec 2).meas.offsetValid = true ∧ ready2.chip.estopClosed = true ∧
    (ready2.sec 2).seq.lastFeedback = .opened ∧
    (live2.told 2 ∧ (live2.sec 2).seq.state ≠ .off) ∧ (off2.told 2 ∧ (off2.sec 2).meas.offsetValid = false) := by
  decide +kernel

/-- A draining candidate: LIVE with two holders, one RAISED and one LOWERING. -/
def held2 : State := withTrucks live2 [raised 8 2 3000, lowering 15 2 2500]

/-- A queue is ready where each of its trucks is found so. -/
theorem queue_ready {s : State} {k : Sec} (once : ((s.sec k).adm.queue.map (·.truck)).Nodup)
    (ready : ∀ e ∈ (s.sec k).adm.queue, e.kind = .ordinary ∧ (s.truck e.truck).any (fun x =>
      x.panto == .queued && x.sec == k && x.mark == .none) = true) : s.QueueReady k := by
  refine ⟨once, fun e he => ⟨(ready e he).1, ?_⟩⟩
  have h := (ready e he).2
  cases hr : s.truck e.truck with
  | none => rw [hr] at h; cases h
  | some x =>
    rw [hr] at h
    exact ⟨x, rfl, by simpa [and_assoc] using h⟩

/-- Section 2 in a state with two trucks in its queue, the lane with `free` places. -/
def crowdedQueue (st : SecState) (free : Nat) : State :=
  { (withTrucks (set base 2 params st .opened) [queued 22 2 2000, queued 23 2 1000]) with
    ring := { base.ring with ordinary := List.replicate (16 - free) .attention } }

/-- With place for both DENYs, and for one beside the reply. -/
theorem witness_Deenergized :
    (req [2]).payload = [BitVec.ofNat 8 (2 : Sec).val] ∧
    (∀ st ∈ [SecState.off, .testing, .closing, .live, .draining, .tripped, .lockout, .maint], ∀ free ∈ [2, 16],
      let s := crowdedQueue st free
      s.noRestart ∧ s.roomFor 1 ∧ s.active 2 = some params ∧ s.told 2 ∧ (s.sec 2).seq.state = st ∧
      (s.sec 2).adm.holders = [] ∧ s.QueueReady 2) ∧
    (held2.noRestart ∧ held2.told 2 ∧ (held2.sec 2).seq.state = .live ∧ (held2.sec 2).adm.holders ≠ [] ∧
      (held2.sec 2).adm.queue = [] ∧ 8 ∈ (held2.sec 2).adm.holders ∧ held2.truck 8 = some (raised 8 2 3000)) ∧
    ∀ u, held2.pantoOf u ≠ some .handover := by
  refine ⟨by decide, fun st hst free hf => ⟨?_, ?_, ?_, ?_, ?_, ?_, queue_ready ?_ ?_⟩, by decide +kernel,
    no_handover (by decide +kernel)⟩ <;> revert st free <;> decide +kernel

def lockQueue : State := withTrucks lock2 [queued 22 2 2000, queued 23 2 1000]

theorem witness_LockoutReset :
    (req [2]).payload = [BitVec.ofNat 8 (2 : Sec).val] ∧ (lockQueue.noRestart ∧ lockQueue.roomFor 1) ∧ (off2.sec 2).seq.state ≠ .lockout ∧
    (lockQueue.sec 2).seq.state = .lockout ∧ lockQueue.told 2 ∧
    (∀ e ∈ (lockQueue.sec 2).adm.queue, ∃ x, lockQueue.truck e.truck = some x ∧ x.panto = .queued ∧ x.mark = .none) ∧
    ((lockQueue.sec 2).adm.queue.map (·.truck)).Nodup ∧ lockQueue.active 2 = some params ∧
    (∀ e ∈ (lockQueue.sec 2).adm.queue, (lockQueue.truck e.truck).all fun x => x.sec = 2) := by
  refine ⟨by decide, by decide +kernel, by decide +kernel, by decide +kernel, by decide +kernel, ?_, by decide +kernel,
    by decide +kernel, by decide +kernel⟩
  have h : (lockQueue.sec 2).adm.queue = [{ truck := 22, kind := .ordinary, amount := 2000 },
      { truck := 23, kind := .ordinary, amount := 1000 }] := by decide +kernel
  rw [h]
  intro e he
  simp only [List.mem_cons, List.not_mem_nil, or_false] at he
  rcases he with rfl | rfl
  · exact ⟨queued 22 2 2000, by decide +kernel⟩
  · exact ⟨queued 23 2 1000, by decide +kernel⟩

theorem witness_MaintenanceServed :
    (∀ p ∈ [[(2 : Byte)], [2, 1], [2, 0]], (req p).broadcast = false ∧ (req p).payload = p) ∧
    (base.active 2 = none ∧ base.noRestart ∧ base.roomFor 1) ∧
    (off2.noRestart ∧ off2.roomFor 1 ∧ off2.active 2 = some params ∧ off2.told 2 ∧ (off2.sec 2).meas.cal = none ∧
      (off2.sec 2).seq.lastFeedback = .opened ∧ (off2.sec 2).seq.state ≠ .maint) ∧
    (maint2.noRestart ∧ maint2.roomFor 1 ∧ (maint2.sec 2).seq.state = .maint ∧ maint2.active 2 = some params ∧ maint2.told 2 ∧
      (maint2.sec 2).adm.queue = [] ∧ maint2.chip.estopClosed = true ∧ (maint2.sec 2).seq.expectation = .opened) := by
  decide +kernel

/-! ### Captures, activation, RESTART -/

/-- A LIVE section whose pending copy moves its reader: held. -/
def held : State :=
  live2.modSec 2 fun x => { x with copies := { x.copies with pending := some { params with readerAddr := 41 } } }

theorem witness_CaptureWritesRecords :
    (req []).payload = [] ∧ (held.noRestart ∧ held.roomFor 1) ∧ ([2] : List Sec).Pairwise (· < ·) ∧
    (∀ k ∈ ([2] : List Sec), (held.sec k).copies.structural ∧ serving (held.sec k).seq.state) ∧
    (∀ k, k ∉ ([2] : List Sec) → (held.sec k).copies.settled) ∧ (broadcast []).broadcast = true ∧
    held.ramp.broadcastCapture = true :=
  ⟨rfl, by decide +kernel, by decide, by decide +kernel, by decide +kernel, rfl, rfl⟩

/-- A section's pending copy. -/
def pending (s : State) (p : SectionParams) : State :=
  s.modSec 2 fun x => { x with copies := { x.copies with pending := some p } }

/-- Section 2's limit 1 A higher, which lets its queue's head in; section 5 newly written; and section 6 LIVE with its
reader moved, and so held. -/
def several : State :=
  (((withTrucks (set live2 6 params .live .closed) [raised 12 2 7000, queued 44 2 2001]).modSec 5 fun x =>
    { x with copies := { x.copies with pending := some params } }).modSec 6 fun x =>
    { x with copies := { x.copies with pending := some { params with readerAddr := 41 } } }).modSec 2 fun x =>
    { x with copies := { x.copies with pending := some { params with limitAmps := 9001 } } }

theorem witness_PendingActivated :
    (∀ s ∈ [several, { several with ring := { base.ring with ordinary := List.replicate 15 .attention } }],
      s.noRestart ∧ s.roomFor 1 ∧ s.ramp.broadcastCapture = true) ∧
    ((req []).broadcast = false ∧ (broadcast []).broadcast = true ∧ (broadcast []).payload = [] ∧ (req []).payload = []) := by
  decide +kernel

/-- A broadcast capture activates two sections, grants the queue's head and holds the third (R8, R50, R132). -/
theorem test_broadcast_activates :
    after (.captureKeep (broadcast [])) several (fun t =>
      t.active 2 == some { params with limitAmps := 9001 } && t.active 5 == some params && t.active 6 == some params &&
      t.pantoOf 44 == some .granted && t.ring.ordinary == [.grant 44 40 2 2001 3000]) = true := by
  decide +kernel

/-- Steps 3 and 4 of the limit change (chapter 1), with T15 in LOWERING between them. -/
def limited : State :=
  pending (withTrucks live2 [raised 5 2 3000, raised 9 2 2500, lowering 15 2 1500, granted 14 2 2000]) { params with limitAmps := 6000 }

theorem witness_LimitRevokesNewest :
    (req []).payload = [] ∧ (limited.noRestart ∧ limited.roomFor 1) ∧ (∀ j, j ≠ 2 → (limited.sec j).copies.settled) ∧
    limited.active 2 = some params ∧ 6000 < params.limitAmps ∧
    (limited.sec 2).copies.pending = some { params with limitAmps := 6000 } ∧ (limited.sec 2).adm.view = .live ∧
    (limited.sec 2).prot.undervolt = false ∧ (limited.sec 2).adm.bEff = limited.budgetOf 2 ∧
    (∀ i ∈ (limited.sec 2).adm.holders,
      limited.pantoOf i = some .granted ∨ limited.pantoOf i = some .raised ∨ limited.pantoOf i = some .lowering) ∧
    limited.ramp.broadcastCapture = true ∧
    ∀ i, limited.pantoOf i ≠ some .handover :=
  ⟨rfl, by decide +kernel, by decide +kernel, by decide +kernel, by decide, by decide +kernel, by decide +kernel,
    by decide +kernel, by decide +kernel, by decide +kernel, by decide +kernel, no_handover (by decide +kernel)⟩

theorem witness_Restarted :
    (req []).payload = [] ∧ (ramp2.noRestart ∧ ramp2.roomFor 1 ∧ ramp2.pending = []) ∧ (∀ k, ramp2.told k) ∧
    serving (ramp2.sec 2).seq.state ∧ ramp2.active 2 = some params ∧ ramp2.table.trucks ≠ [] ∧ base.table.trucks = [] ∧
    (∀ k, base.told k) ∧ ramp2.truck 12 = some (raised 12 2 3000) ∧ ramp2.table.Ok :=
  ⟨rfl, by decide +kernel, by decide +kernel, by decide +kernel, by decide +kernel, by decide +kernel, by decide +kernel,
    by decide +kernel, by decide +kernel, table_ok (by decide +kernel)⟩

/-- A RESTART at each stage, with a LOWER ESTOP unsent for a truck that still holds. -/
def staged (next : RestartStage) : State :=
  let s := restarting next ramp2
  { s with ring := { s.ring with priority := [.command 2 17 .closeCmd, .lower 12 40 .estop] } }

theorem witness_RestartStages :
    (∀ next ∈ [RestartStage.sequencer, .measurement, .protection, .accounting, .table, .ring, .management, .reply],
      (staged next).pending = [] ∧ (staged next).mgmt.restart.map (·.next) = some next ∧ 1 ≤ (staged next).ring.claimed ∧
      (∀ k, (staged next).told k)) ∧
    ((staged .table).truck 12 = some (raised 12 2 3000) ∧ (staged .table).active 2 = some params ∧
      (staged .table).ring.priority = [.command 2 17 .closeCmd] ++ .lower 12 40 .estop :: [] ∧
      ∀ f ∈ (staged .table).ring.priority, f = .command 2 17 .closeCmd ∨ f = .lower 12 40 .estop) ∧
    (staged .table).table.Ok :=
  ⟨by decide +kernel, by decide +kernel, table_ok (by decide +kernel)⟩

/-! ### Offered frames and notices -/

/-- 24 LOWERs, the oldest for a truck without a record. -/
def lowers : List PriorityFrame := (List.range 24).map fun i => .lower (i + 100) 40 .trip

theorem witness_LanePlacement :
    LaneBounded [.command 2 17 .testCmd] ∧
    ([PriorityFrame.command 2 17 .testCmd] = [] ++ .command 2 17 .testCmd :: [] ∧
      (PriorityFrame.command 2 17 .openCmd).sameKey (.command 2 17 .testCmd) = true) ∧
    (∀ g ∈ [PriorityFrame.command 2 17 .testCmd], (PriorityFrame.lower 8 40 .trip).sameKey g = false) ∧
    ((lowers.drop 1).filter (·.isLower)).length < 24 ∧ LaneBounded lowers ∧
    (PriorityFrame.lower 8 40 .trip).isLower = true ∧ (lowers.filter (·.isLower)).length = 24 ∧
    lowers = [] ++ .lower 100 40 .trip :: lowers.drop 1 ∧
    (∀ g ∈ lowers, (PriorityFrame.lower 8 40 .trip).sameKey g = false) ∧ base.truck 100 = none :=
  ⟨lane_bounded (by decide), by decide, by decide, by decide +kernel, lane_bounded (by decide +kernel), rfl,
    by decide +kernel, by decide +kernel, by decide +kernel, rfl⟩

/-- A notice at 255 occurrences, and places before and after it; and the empty list. -/
theorem witness_NoticeRaised :
    let n : Notice := { key := some 2, occurrences := 255, data := .derate 1 2 }
    NoticesOk [n] ∧ NoticesOk [] ∧ (∀ d ∈ [NoticeData.estop [], .backupTrip 2], d.priority ≤ 2) ∧
    (∀ d ∈ [NoticeData.derate 5 6, .undervolt 3 4], ¬ d.priority ≤ 2) ∧
    (n.key = some 2 ∧ n.data.priority = (NoticeData.derate 5 6).priority) ∧
    ((NoticeData.estop []).priority < n.data.priority ∧ n.data.priority < (NoticeData.undervolt 3 4).priority) ∧
    (n.data.priority = (NoticeData.derate 5 6).priority ∧ keyIndex n.key < keyIndex (some 3)) ∧
    (1 ≤ base.straps.supaddr.toNat ∧ base.straps.supaddr.toNat ≤ 254) :=
  ⟨notices_ok (by decide), notices_ok (by decide), by decide, by decide, by decide, by decide, by decide, by decide⟩

/-! ### Measurement frames -/

/-- Section 2 in a state with its last sample number 249 and a run of two bad frames. -/
def second (st : SecState) (pos : Position) : State :=
  (set base 2 params st pos).modMeas 2 fun m => { m with lastSeq := some 249, badRun := 2 }

theorem at_rest (st : SecState) (pos : Position) : ((second st pos).sec 2).AtRest pos :=
  ⟨by cases st <;> cases pos <;> decide +kernel, by cases st <;> cases pos <;> decide +kernel⟩

/-- Two more ways to be at rest: a closing breaker with its time left, and one that stood elsewhere before. -/
theorem test_at_rest :
    (((set base 2 params .closing .closed).modSeq 2 fun q => { q with
      lastFeedback := .opened, breakerTimer := some 1 }).sec 2).AtRest .opened ∧
    (((set base 2 params .lockout .opened).modSeq 2 fun q => { q with lastFeedback := .closed }).sec 2).AtRest .closed :=
  ⟨⟨by decide +kernel, by decide +kernel⟩, ⟨by decide +kernel, by decide +kernel⟩⟩

theorem witness_FrameWithoutSample :
    ([] : List Byte).length ≠ 7 ∧ (List.replicate 8 (0 : Byte)).length ≠ 7 ∧ 2 ≤ (2 : Byte).toNat ∧
    ((second .off .opened).sec 2).meas.lastSeq = some (249 : Byte).toNat ∧
    (second .off .opened).active 2 = some params ∧ ((second .off .opened).sec 2).AtRest .opened ∧
    ((second .off .opened).sec 2).fresh 250 ∧ ¬ energisedState ((second .off .opened).sec 2).seq.state ∧
    (second .live .closed).active 2 = some params ∧ ((second .live .closed).sec 2).AtRest .closed ∧
    ((second .live .closed).sec 2).fresh 248 ∧ energisedState ((second .live .closed).sec 2).seq.state ∧
    params.badRun ≤ min 16 (2 + 1) ∧ (off2.sec 2).AtRest .opened ∧ (off2.sec 2).fresh 0 ∧
    params.badRun > min 16 ((off2.sec 2).meas.badRun + 1) :=
  ⟨by decide, by decide, by decide, by decide +kernel, by decide +kernel, at_rest _ _, fresh_of (by decide +kernel),
    by decide +kernel, by decide +kernel, at_rest _ _, fresh_of (by decide +kernel), by decide +kernel, by decide,
    ⟨by decide +kernel, by decide +kernel⟩, fresh_of (by decide +kernel), by decide +kernel⟩

theorem witness_GoodSampleMeasured :
    ∀ st ∈ [SecState.off, .lockout, .tripped], (second st .opened).active 2 = some params ∧ (second st .opened).told 2 ∧
    (((second st .opened).sec 2).seq.state = .off ∨ ((second st .opened).sec 2).seq.state = .lockout ∨
      ((second st .opened).sec 2).seq.state = .tripped) ∧
    ((second st .opened).sec 2).adm.bEff = 0 ∧
    (∀ heat, ¬ (((second st .opened).sec 2).heard params 255 .opened).waitEnds params heat) ∧
    ((second st .opened).sec 2).AtRest .opened ∧ ((second st .opened).sec 2).fresh 255 := by
  intro st hst
  refine ⟨?_, ?_, ?_, ?_, fun heat h => ?_, at_rest _ _, ?_⟩
  · revert st; decide +kernel
  · revert st; decide +kernel
  · revert st; decide +kernel
  · revert st; decide +kernel
  · have e : ((((second st .opened).sec 2).heard params 255 .opened).seq.reclosePending) = false := by
      clear h; revert st; decide +kernel
    exact absurd (h.2.1.symm.trans e) (by decide)
  · apply fresh_of; revert st; decide +kernel

/-- Section 2 in a reclose wait: hot by its derate flag, or with a heat watch; `heat` before the sample. -/
def cooling (heat : Nat) (derate watch : Bool) : State :=
  (set base 2 params .tripped .opened).modSec 2 fun x => { x with
    meas := { x.meas with lastSeq := some 249 }
    seq := { x.seq with reclosePending := true, heatRequired := true }
    acc := { x.acc with heat := heat, derate := derate, heatWatch := watch } }

/-- The heat falls to the last value below the threshold 622592, which ends the wait, or to the threshold, which does not. -/
theorem witness_SampleEndsWait :
    ∀ row ∈ [(true, false), (false, true), (true, true)], let s := cooling 622743 row.1 row.2
      s.active 2 = some params ∧ s.told 2 ∧ (s.sec 2).adm.bEff = 0 ∧ (s.sec 2).AtRest .opened ∧ (s.sec 2).fresh 250 ∧
      (s.sec 2).meas.cal = none ∧ ((s.sec 2).heard params 250 .opened).heated params 0 = 622591 ∧
      ((s.sec 2).heard params 250 .opened).waitEnds params 622591 ∧
      ((cooling 622744 row.1 row.2).sec 2).heated params 0 = 622592 ∧
      ¬ ((s.sec 2).heard params 250 .opened).waitEnds params 622592 := by
  intro row hrow
  refine ⟨?_, ?_, ?_, ⟨?_, ?_⟩, fresh_of ?_, ?_⟩ <;> revert row <;> decide +kernel

/-- In LIVE the trace of the inrush: 4900 after 3000 is a rise; 12000 is instantaneous; 620 in TESTING overcurrent. -/
theorem witness_SampleJudged :
    (∀ row ∈ [(SecState.testing, Position.opened), (.closing, .closed), (.live, .closed), (.draining, .closed),
        (.maint, .opened)], let s := second row.1 row.2
      s.active 2 = some params ∧ s.told 2 ∧ energisedState (s.sec 2).seq.state ∧ (s.sec 2).meas.cal = none ∧
      (s.sec 2).adm.bEff = s.budgetOf 2) ∧
    (let s := (withTrucks (second .live .closed) [queued 44 2 2000]).modSec 2 fun x => { x with
        prot := { x.prot with undervolt := true }, adm := { x.adm with bEff := 0 } };
      s.active 2 = some params ∧ s.told 2 ∧ (s.sec 2).meas.cal = none ∧ (s.sec 2).adm.queue ≠ [] ∧
      (s.sec 2).adm.bEff = s.budgetOf 2) ∧
    (∀ st pos, ((second st pos).sec 2).AtRest pos) ∧ ((second .live .closed).sec 2).fresh 250 ∧
    params.instAmps ≤ (12000 : Int).natAbs ∧ (11999 : Int).natAbs < params.instAmps ∧
    params.testMaxAmps ≤ (400 : Int).natAbs ∧ ¬ params.testMaxAmps ≤ (399 : Int).natAbs :=
  ⟨by decide +kernel, by decide +kernel, at_rest, fresh_of (by decide +kernel), by decide, by decide, by decide, by decide⟩

/-! ### Breaker, timers and trips -/

/-- Section 2 with a change of its sequencer. -/
def seq2 (st : SecState) (pos : Position) (f : Seq → Seq) : State := (set base 2 params st pos).modSeq 2 f

/-- A LIVE section with a GRANTED, a RAISED and a LOWERING holder. -/
def held3 : State := withTrucks live2 [granted 5 2 1000, raised 8 2 3000, lowering 15 2 2500]

theorem witness_FeedbackJudged :
    (let q := ((seq2 .tripped .opened fun q => { q with breakerTimer := some 150 }).sec 2).seq;
      Position.opened = q.expectation ∧ q.breakerTimer ≠ none ∧ q.state ≠ .closing) ∧
    (let s := seq2 .closing .closed fun q => { q with breakerTimer := some 1, lastFeedback := .opened };
      Position.closed = (s.sec 2).seq.expectation ∧ (s.sec 2).seq.breakerTimer ≠ none ∧ (s.sec 2).seq.state = .closing ∧
      s.active 2 = some params ∧ s.told 2 ∧ (s.sec 2).prot.undervolt = false ∧ (s.sec 2).adm.queue = [] ∧
      ((withTrucks s [queued 44 2 2000]).sec 2).adm.queue ≠ []) ∧
    ((live2.sec 2).seq.expectation = .closed ∧ (live2.sec 2).seq.breakerTimer = none) ∧
    (let q := ((seq2 .tripped .opened fun q => { q with breakerTimer := some 1 }).sec 2).seq;
      Position.closed ≠ q.expectation ∧ q.breakerTimer ≠ none) ∧
    (let q := ((seq2 .lockout .opened fun q => { q with lastFeedback := .closed }).sec 2).seq;
      Position.closed ≠ q.expectation ∧ q.breakerTimer = none ∧ Position.closed = q.lastFeedback) ∧
    (∀ s ∈ [live2, held3], Position.opened ≠ (s.sec 2).seq.expectation ∧ (s.sec 2).seq.breakerTimer = none ∧
      Position.opened ≠ (s.sec 2).seq.lastFeedback ∧ s.active 2 = some params ∧ s.told 2) ∧
    ((live2.sec 2).adm.holders = [] ∧ (live2.sec 2).adm.queue = []) ∧ held3.noHandover ∧
    (∀ g ∈ [(0 : Byte), 1], g.toNat ≤ 1) ∧ ((held3.active 2).isSome ∧ (held3.sec 2).fresh 0) ∧
    (live2.sec 2).meas.cal = none :=
  ⟨by decide +kernel, by decide +kernel, by decide +kernel, by decide +kernel, by decide +kernel, by decide +kernel,
    by decide +kernel, ⟨no_handover (by decide +kernel), by decide +kernel⟩, by decide,
    ⟨by decide +kernel, fresh_of (by decide +kernel)⟩, by decide +kernel⟩

theorem witness_BreakerTimerExpires :
    (live2.sec 2).seq.breakerTimer = none ∧
    (let q := ((seq2 .tripped .opened fun q => { q with breakerTimer := some 0 }).sec 2).seq;
      q.breakerTimer ≠ none ∧ q.lastFeedback = q.expectation ∧ q.state ≠ .closing) ∧
    (let s := seq2 .closing .closed fun q => { q with breakerTimer := some 0 };
      (s.sec 2).seq.breakerTimer ≠ none ∧ s.active 2 = some params ∧ s.told 2 ∧ (s.sec 2).adm.queue = [] ∧
      (s.sec 2).seq.state = .closing ∧ (s.sec 2).seq.lastFeedback = .closed ∧ (s.sec 2).seq.expectation = .closed ∧
      (s.sec 2).prot.undervolt = false) ∧
    (∀ row ∈ [(SecState.tripped, Position.opened, Position.closed), (.closing, .closed, .opened)],
      let s := seq2 row.1 row.2.1 fun q => { q with breakerTimer := some 0, lastFeedback := row.2.2 }
      (s.sec 2).seq.breakerTimer ≠ none ∧ s.active 2 = some params ∧ s.told 2 ∧ (s.sec 2).adm.queue = [] ∧
      (s.sec 2).adm.holders = [] ∧ (s.sec 2).seq.lastFeedback ≠ (s.sec 2).seq.expectation) ∧
    (let s := held3.modSeq 2 fun q => { q with breakerTimer := some 0, lastFeedback := .opened };
      (s.sec 2).seq.breakerTimer ≠ none ∧ s.active 2 = some params ∧ s.told 2 ∧
      (s.sec 2).seq.lastFeedback ≠ (s.sec 2).seq.expectation ∧ (s.sec 2).adm.holders = [5, 8, 15]) ∧
    (held3.modSeq 2 fun q => { q with breakerTimer := some 0, lastFeedback := .opened }).noHandover :=
  ⟨by decide +kernel, by decide +kernel, by decide +kernel, by decide +kernel, by decide +kernel,
    no_handover (by decide +kernel), by decide +kernel⟩

/-- The heat at the derate-clear threshold of `params`, 19 levels (chapter 3), is not cool; one less is. -/
theorem witness_SectionTimersExpire :
    let trip (heat : Nat) (required : Bool) (l : List Truck) : State := (withTrucks (seq2 .tripped .opened fun q => { q with
      recloseTimer := some 0, stableTimer := some 0, heatRequired := required }) l).modSec 2 fun x => { x with
      acc := { x.acc with heat := heat }, meas := { x.meas with watchdog := some 0 } }
    ((off2.sec 2).meas.watchdog = none ∧ (off2.sec 2).seq.recloseTimer = none ∧ (off2.sec 2).seq.stableTimer = none) ∧
    (((second .live .closed).modMeas 2 fun m => { m with watchdog := some 0 }).sec 2).meas.watchdog ≠ none ∧
    (∀ s ∈ [trip 622591 true [], trip 622592 true [], trip 622592 false [], trip 0 false [lowering 15 2 2500]],
      (s.sec 2).meas.watchdog ≠ none ∧ ¬ energisedState (s.sec 2).seq.state ∧ (s.sec 2).seq.recloseTimer ≠ none ∧
      (s.sec 2).seq.state = .tripped ∧ s.active 2 = some params ∧ params.enabled = true ∧ s.told 2 ∧
      (s.sec 2).seq.stableTimer ≠ none) ∧
    622591 < (params.derateLevel - 1) * 2 ^ (params.tauShift + 3) ∧
    ¬ 622592 < (params.derateLevel - 1) * 2 ^ (params.tauShift + 3) ∧
    ((trip 0 false [lowering 15 2 2500]).sec 2).adm.holders ≠ [] := by decide +kernel

theorem witness_TestTimerExpires :
    let line (v : Nat) : State := withTrucks ((seq2 .testing .opened fun q =>
      { q with testTimer := some 0, attempts := 2 }).modMeas 2 fun m => { m with voltages := List.replicate 8 v })
      [lowering 15 2 2500]
    (off2.active 2 = some params ∧ (off2.sec 2).seq.testTimer = none) ∧
    (∀ v ∈ [20000, 19999], (line v).active 2 = some params ∧ ((line v).sec 2).seq.testTimer ≠ none ∧
      ((line v).sec 2).seq.state = .testing ∧ (line v).told 2 ∧ ((line v).sec 2).adm.holders = [15] ∧
      ∀ i ∈ ((line v).sec 2).adm.holders, (line v).pantoOf i = some .lowering) ∧
    params.testPass ≤ ((line 20000).sec 2).meas.voltages.sum / 8 ∧
    ((line 19999).sec 2).meas.voltages.sum / 8 < params.testPass := by decide +kernel

theorem witness_TripRequestTaken :
    (∀ st ∈ [SecState.off, .tripped, .lockout], (st = .off ∨ st = .tripped ∨ st = .lockout) ∧
      ((set base 2 params st .opened).sec 2).adm.view ≠ .live ∧ ((set base 2 params st .opened).sec 2).adm.bEff = 0) ∧
    (∀ st ∈ [SecState.off, .tripped, .lockout], ((set base 2 params st .opened).sec 2).seq.state = st) ∧
    (∀ row ∈ [(SecState.testing, Position.opened), (.closing, .closed), (.live, .closed), (.draining, .closed),
        (.maint, .closed)], let s := withTrucks (set base 2 params row.1 row.2) [raised 8 2 3000, lowering 15 2 2500]
      s.active 2 = some params ∧ s.told 2 ∧ energisedState (s.sec 2).seq.state ∧ (s.sec 2).adm.queue = [] ∧
      8 ∈ (s.sec 2).adm.holders ∧ s.truck 8 = some (raised 8 2 3000)) ∧
    held2.noHandover :=
  ⟨by decide +kernel, by decide +kernel, by decide +kernel, no_handover (by decide +kernel), by decide +kernel⟩

/-! ### The loop -/

def filtering (candidate closed : Bool) (s : State) : State :=
  { s with chip := { s.chip with estopClosed := closed, filter := some { candidate := candidate, left := 0 } } }

/-- A LIVE section with a holder of each kind and a queued truck, the loop about to fall. -/
def falling : State := filtering false true (withTrucks live2 [raised 8 2 3000, lowering 15 2 2500, queued 22 2 2000])

theorem truck_mem {s : State} {i : Nat} {y : Truck} (h : s.truck i = some y) : y ∈ s.table.trucks :=
  List.mem_of_find?_eq_some h

theorem witness_EstopLoopJudged :
    (base.chip.filter = none ∧ (filtering true true base).chip.filter = some { candidate := true, left := 0 } ∧
      (filtering true false base).chip.filter = some { candidate := true, left := 0 } ∧
      (filtering true false base).chip.estopClosed = false ∧ base.chip.estopPin = true) ∧
    falling.chip.filter = some { candidate := false, left := 0 } ∧ falling.chip.estopClosed = true ∧
    (∀ k, falling.told k) ∧ falling.noHandover ∧
    (∀ i y, falling.truck i = some y → y.panto = .queued → y.mark = .none) ∧
    (∀ k, ∀ e ∈ (falling.sec k).adm.queue, k = 2 ∧ e.truck = 22 ∧ falling.active 2 = some params) ∧
    falling.truck 22 = some (queued 22 2 2000) ∧
    (([0, 1, 2, 3, 4, 5, 6, 7] : List Sec).flatMap fun k => (falling.sec k).adm.queue.map (·.truck)).Nodup ∧
    falling.truck 8 = some (raised 8 2 3000) ∧ 8 ∈ (falling.sec 2).adm.holders :=
  ⟨by decide +kernel, by decide +kernel, by decide +kernel, by decide +kernel,
    ⟨no_handover (by decide +kernel), by decide +kernel⟩, fun i y h => (by decide +kernel : ∀ y ∈ falling.table.trucks, y.panto = .queued → y.mark = .none) y (truck_mem h),
    by decide +kernel, by decide +kernel, by decide +kernel, by decide +kernel, by decide +kernel⟩

/-! ### Trucks -/

/-- 24 records. -/
def crowded : State := { ramp2 with table := { ramp2.table with trucks := (List.range 24).map fun i => idle (i + 100) 2 } }

/-- A RAISED truck on section 2, an IDLE one and a LOWERING one, with section 3 LIVE but not uphill of 2. -/
def neighbours : State := withTrucks (set live2 3 params .live .closed) [raised 8 2 3000, idle 19 2, lowering 15 2 2500]

/-- Trucks to move to section 5. Section 2 has no budget left, and 2000 A when T31's are given back: exactly what the
queue's head T44 asks for. T19 hands over from 2 to 3, where T46 waits behind it. -/
def moving : State :=
  withTrucks (set (set live2 3 params .live .closed) 5 params .live .closed)
    [raised 12 2 4400, granted 31 2 2000, crossing, queued 44 2 2000, queued 45 2 1000, queued 46 3 2000]

/-- The release of T31's reservation grants T44, whose GRANT comes before T31's DENY (R134, R135, R145; log 30). -/
theorem test_release_grants :
    after (.arrive 5 (word 31)) moving (fun t =>
      (t.sec 2).adm.holders == [12, 19, 44] && t.ring.ordinary == [.grant 44 40 2 2000 3000, .deny 31 40 .moved]) = true := by
  decide +kernel

/-- A handover entry that leaves the queue lets the ordinary one behind it in (R133, R135, R147). -/
theorem test_dequeue_grants :
    after (.handoverWindowExpiry 19) moving (fun t =>
      t.pantoOf 46 == some .granted && (t.sec 3).adm.holders == [46] && t.pantoOf 19 == some .lowering) = true := by
  decide +kernel

theorem witness_Arrives :
    (ramp2.active 2 = some params ∧ ramp2.table.Ok ∧ crowded.table.Ok ∧ neighbours.table.Ok) ∧
    ([] : List Byte).length ≠ 2 ∧
    (ramp2.truck 50 = none ∧ ∀ e ∈ ramp2.table.fleet, e.id = 50 → ramp2.table.classes[e.cls].defined = false) ∧
    (ramp2.truck 65535 = none ∧ ∀ e ∈ ramp2.table.fleet, e.id ≠ 65535) ∧
    (ramp2.truck 19 = none ∧ ∃ e ∈ ramp2.table.fleet, e.id = 19 ∧ ramp2.table.classes[e.cls].defined = true) ∧
    (crowded.truck 19 = none ∧ crowded.table.trucks.length = 24) ∧
    (ramp2.truck 12 = some (raised 12 2 3000) ∧ (raised 12 2 3000).sec = 2) ∧
    (neighbours.active 3 = some params ∧ neighbours.truck 19 = some (idle 19 2) ∧
      neighbours.truck 15 = some (lowering 15 2 2500) ∧ neighbours.truck 8 = some (raised 8 2 3000) ∧
      (raised 8 2 3000).sec ≠ 3) ∧
    (moving.active 5 = some params ∧ moving.table.Ok ∧
      moving.truck 44 = some (queued 44 2 2000) ∧ moving.truck 31 = some (granted 31 2 2000) ∧
      moving.truck 19 = some crossing ∧ crossing.sec ≠ 5 ∧ moving.Releases 2 params ∧ moving.entryAt 3 19) ∧
    ∀ q, neighbours.active (raised 8 2 3000).sec = some q → q.nextUphill = some 3 → (neighbours.sec 3).adm.view ≠ .live := by
  refine ⟨⟨by decide +kernel, table_ok (by decide +kernel), table_ok (by decide +kernel), table_ok (by decide +kernel)⟩,
    by decide, by decide +kernel, by decide +kernel, by decide +kernel, by decide +kernel, by decide +kernel,
    by decide +kernel, ⟨by decide +kernel, table_ok (by decide +kernel), by decide +kernel, by decide +kernel,
      by decide +kernel, by decide, releases (by decide +kernel), by decide +kernel, by decide +kernel⟩, ?_⟩
  have h : neighbours.active (raised 8 2 3000).sec = some params := by decide +kernel
  intro q hq hu
  rw [h] at hq
  cases hq
  cases hu

/-- T19 RAISED on section 2, section 3 uphill of it and LIVE with `amps` reserved and further trucks there. -/
def handover (amps : Nat) (others : List Truck) : State :=
  withTrucks (set (set base 2 { params with nextUphill := some 3 } .live .closed) 3 params .live .closed)
    ([raised 19 2 2600, raised 7 3 amps] ++ others)

/-- T20 in HANDOVER from section 2 to section 3. -/
def ahead : Truck := { crossing with id := 20 }

/-- With exactly the budget and with 1 A less, with an ordinary entry behind that waits, and behind another handover. -/
theorem witness_HandoverGranted :
    (∀ row ∈ [(6400, ([] : List Truck)), (6401, []), (6400, [queued 44 3 1000]), (6400, [ahead, queued 44 3 1000])],
      let s := handover row.1 row.2
      s.truck 19 = some (raised 19 2 2600) ∧ s.active 2 = some { params with nextUphill := some 3 } ∧
      s.active 3 = some params ∧ (s.sec 3).adm.view = .live ∧ (s.sec 2).seq.state = .live ∧
      (s.sec 3).adm.bEff = 9000 ∧ s.reserved 3 = row.1) ∧
    ((handover 6400 []).sec 3).adm.queue = [] ++ [] ∧
    ((handover 6400 [queued 44 3 1000]).sec 3).adm.queue = [] ++ [{ truck := 44, kind := .ordinary, amount := 1000 }] ∧
    ((handover 6400 [ahead, queued 44 3 1000]).sec 3).adm.queue =
      [{ truck := 20, kind := .handover, amount := 2600 }] ++ [{ truck := 44, kind := .ordinary, amount := 1000 }] ∧
    (6400 + 2600 ≤ 9000 ∧ 9000 < 6401 + 2600 ∧ 9000 < 6400 + 2600 + 1000) ∧ (handover 6400 []).roomFor 1 ∧
    ¬ (full (handover 6400 [])).roomFor 1 ∧ (handover 6400 []).table.Ok ∧ (handover 6401 []).table.Ok ∧
    (handover 6400 [queued 44 3 1000]).table.Ok ∧ (handover 6400 [ahead, queued 44 3 1000]).table.Ok :=
  ⟨by decide +kernel, by decide +kernel, by decide +kernel, by decide +kernel, by decide, by decide +kernel,
    by decide +kernel, table_ok (by decide +kernel), table_ok (by decide +kernel), table_ok (by decide +kernel),
    table_ok (by decide +kernel)⟩

/-- T19 between two LIVE sections, with holders beside it on the one and an ordinary entry behind it at the other. -/
def bridge : State :=
  withTrucks (set live2 3 params .live .closed) [raised 12 2 3000, granted 31 2 2800, crossing, queued 45 3 1000]

/-- The states in which its crossing ends: a breaker timer of either section run out, the loop falling, a limit 1 A too low. -/
def bridges : List State :=
  [bridge, bridge.modSeq 2 fun q => { q with breakerTimer := some 0, lastFeedback := .opened },
   bridge.modSeq 3 fun q => { q with breakerTimer := some 0, lastFeedback := .opened }, filtering false true bridge,
   pending bridge { params with limitAmps := 8399 }]

theorem bridges_ok : ∀ s ∈ bridges, s.table.Ok ∧ AdmissionOk s := fun s hs =>
  ⟨table_ok (by revert s; decide +kernel), admission_of (by revert s; decide +kernel) (by revert s; decide +kernel)
    (by revert s; decide +kernel) (by revert s; decide +kernel) (by revert s; decide +kernel)⟩

theorem witness_HandoversLowered :
    (∀ s ∈ bridges, s.table.Ok ∧ AdmissionOk s) ∧
    (∀ s ∈ bridges, s.truck 19 = some crossing ∧ s.active 3 = some params ∧ s.noRestart ∧ s.roomFor 3 ∧
      (∀ k ∈ [(2 : Sec), 3], (s.sec k).seq.state = .live) ∧
      (s.sec 3).adm.queue = [{ truck := 19, kind := .handover, amount := crossing.reserved },
        { truck := 45, kind := .ordinary, amount := 1000 }] ∧ s.reserved 3 + 1000 ≤ (s.sec 3).adm.bEff ∧
      (s.sec 2).adm.holders = [12, 31] ++ 19 :: [] ∧ s.counted ([12, 31] ++ [19]) = 8400) ∧
    (crossing.panto = .handover ∧ crossing.hold = some 2 ∧ crossing.sec = 3) ∧
    (∀ k ∈ [(2 : Sec), 3], (bridge.sec k).seq.expectation ≠ .opened ∧ (bridge.sec k).seq.breakerTimer = none ∧
      (bridge.sec k).seq.lastFeedback ≠ .opened) ∧
    ((pending bridge { params with limitAmps := 8399 }).active 2 = some params ∧ 8399 ≠ params.limitAmps ∧
      (∀ m, m ≠ 2 → ((pending bridge { params with limitAmps := 8399 }).sec m).copies.settled)) ∧
    (∀ r ∈ bridge.table.trucks, r.id ≠ 19 → r.panto ≠ .handover) :=
  ⟨bridges_ok, by decide +kernel, by decide, by decide +kernel, by decide +kernel, by decide +kernel⟩

/-- A truck in each state on section 2. -/
def leaving (r : Truck) : State := withTrucks live2 [r]

theorem witness_TruckLetGo :
    (req (word 19)).payload = toBe 2 19 ∧ (req (word 65535)).payload = toBe 2 65535 ∧ (live2.noRestart ∧ live2.roomFor 1) ∧
    ([] : List Byte).length ≠ 2 ∧
    (live2.truck 65535 = none ∧ live2.active 2 = some params) ∧
    ((leaving { idle 19 2 with silence := none }).truck 19 = some { idle 19 2 with silence := none }) ∧
    (∀ r ∈ [idle 19 2, queued 19 2 2000, granted 19 2 2000, raised 19 2 2000, { raised 19 2 2000 with mark := .evict },
        lowering 19 2 2000], (leaving r).truck 19 = some r ∧ r.silence ≠ none ∧ (leaving r).active r.sec = some params ∧ (leaving r).noRestart) ∧
    ((leaving (queued 19 2 2000)).sec 2).adm.queue = [{ truck := 19, kind := .ordinary, amount := 2000 }] ∧
    (moving.truck 44 = some (queued 44 2 2000) ∧ moving.table.Ok ∧ moving.noRestart ∧ moving.roomFor 1) ∧
    (moving.truck 19 = some crossing ∧ moving.active crossing.sec = some params ∧ moving.entryAt 3 19) ∧
    (ramp2.noRestart ∧ ramp2.truck 12 = some (raised 12 2 3000) ∧ ∃ e ∈ ramp2.table.fleet, e.id = 12) ∧
    ∀ r ∈ [idle 19 2, queued 19 2 2000, granted 19 2 2000, lowering 19 2 2000], (leaving r).table.Ok := by
  refine ⟨by decide, by decide, by decide +kernel, by decide, by decide +kernel, by decide +kernel, by decide +kernel,
    by decide +kernel, ⟨by decide +kernel, table_ok (by decide +kernel), by decide +kernel, by decide +kernel⟩,
    ⟨by decide +kernel, by decide +kernel, ⟨by decide +kernel, by decide +kernel⟩⟩, by decide +kernel, fun r hr => table_ok ?_⟩
  revert r
  decide +kernel

/-- Section 2 in a state, with the trucks given. -/
def asking (st : SecState) (l : List Truck) : State := withTrucks (set base 2 params st .closed) l

theorem witness_RaiseRequested :
    (([] : List Byte).length ≠ 4 ∧ live2.truck 44 = none ∧ live2.active 2 = some params) ∧
    (∀ r ∈ [granted 44 2 1000, raised 44 2 1000, lowering 44 2 1000],
      (asking .live [r]).truck 44 = some r ∧ r.panto ≠ .idle ∧ r.panto ≠ .queued) ∧
    ((asking .live [idle 44 5]).truck 44 = some (idle 44 5) ∧ (idle 44 5).sec ≠ 2) ∧
    (∀ st ∈ [SecState.off, .lockout, .maint, .draining, .testing, .closing, .live, .tripped],
      (asking st [idle 44 2]).truck 44 = some (idle 44 2) ∧ ((asking st [idle 44 2]).sec 2).adm.view = st ∧
      ((asking st [idle 44 2]).sec 2).adm.queue = []) ∧
    (let s := asking .live [raised 12 2 8000, idle 44 2];
      s.reserved 2 + 1000 ≤ (s.sec 2).adm.bEff ∧ s.roomFor 1 ∧ ¬ (full s).roomFor 1 ∧
      (full s).reserved 2 + 1000 ≤ ((full s).sec 2).adm.bEff) ∧
    (let s := asking .live [raised 12 2 8001, idle 44 2];
      (s.sec 2).adm.bEff < s.reserved 2 + 1000) ∧
    (let s := asking .live [queued 31 2 8000, queued 44 2 2000, queued 45 2 1000];
      s.truck 44 = some (queued 44 2 2000) ∧ (s.sec 2).adm.queue = [{ truck := 31, kind := .ordinary, amount := 8000 }] ++
        { truck := 44, kind := .ordinary, amount := 2000 } :: [{ truck := 45, kind := .ordinary, amount := 1000 }]) ∧
    (let s := asking .live [raised 12 2 8000, queued 31 2 1001, idle 44 2];
      (s.sec 2).adm.queue ≠ [] ∧ (∀ e ∈ (s.sec 2).adm.queue, e.truck ≠ 44) ∧ s.truck 44 = some (idle 44 2) ∧
      s.headWaits 2 (s.sec 2).adm.holders (s.sec 2).adm.queue) ∧
    (asking .live [raised 12 2 8000, idle 44 2]).table.Ok :=
  ⟨by decide +kernel, by decide +kernel, by decide +kernel, by decide +kernel, by decide +kernel, by decide +kernel,
    by decide +kernel, ⟨by decide +kernel, by decide +kernel, by decide +kernel, head_waits (by decide +kernel)⟩,
    table_ok (by decide +kernel)⟩

/-- T19's lowering is the last on section 2, which is in some state, a reclose pending, its heat at `heat`. -/
def last (st : SecState) (heat : Nat) : State :=
  (withTrucks (set base 2 params st .opened) [lowering 19 2 2000]).modSec 2 fun x => { x with
    seq := { x.seq with reclosePending := decide (st = .tripped), heatRequired := true }, acc := { x.acc with heat := heat } }

def lasts : List SecState := [.off, .testing, .closing, .live, .draining, .tripped, .lockout]

/-- A tolerance of 20 percent above 2500 A is 3000 A: 3000 is no overdraw, 3001 is one. -/
theorem witness_TruckReports :
    (([] : List Byte).length ≠ 5 ∧ ∃ b ∈ ([0, 19, 2, 0, 0] : List Byte)[2]?, 2 ≤ b.toNat) ∧
    (live2.truck 19 = none ∧ live2.active 2 = some params) ∧
    (∀ r ∈ [idle 19 2, queued 19 2 2000, granted 19 2 2000, lowering 19 2 2000, raised 19 2 2500,
        { raised 19 2 2500 with overCount := 2 }], (leaving r).truck 19 = some r ∧ (leaving r).active r.sec = some params) ∧
    (¬ 3000 * 100 > 2500 * (100 + cls1.overdrawPct) ∧ 3001 * 100 > 2500 * (100 + cls1.overdrawPct)) ∧
    (∀ r ∈ [granted 19 2 2000, raised 19 2 2500, lowering 19 2 2000], r.hold = some 2 ∧ r.mark = .none ∧
      (leaving r).active 2 = some params ∧ ((leaving r).sec 2).adm.queue = [] ∧ ((leaving r).sec 2).seq.state = .live) ∧
    (∀ st ∈ lasts, (last st 622591).truck 19 = some (lowering 19 2 2000) ∧ (last st 622591).Releases 2 params ∧
      ((last st 622591).sec 2).adm.holders.filter (· ≠ 19) = []) ∧
    (((last .tripped 622591).sec 2).seq.reclosePending = true ∧ ((last .tripped 622591).sec 2).cool params ∧
      ¬ ((last .tripped 622592).sec 2).cool params ∧ (last .tripped 622592).Releases 2 params) ∧
    ((leaving { lowering 19 2 2000 with mark := .depart }).truck 19 = some { lowering 19 2 2000 with mark := .depart }) ∧
    (moving.truck 19 = some crossing ∧ crossing.hold = some 2 ∧ moving.Releases 2 params ∧ (2 : Sec) ≠ crossing.sec ∧
      moving.entryAt 3 19 ∧ moving.table.Ok ∧ moving.truck 31 = some (granted 31 2 2000)) ∧
    ∀ r ∈ [idle 19 2, raised 19 2 2500], (leaving r).table.Ok := by
  refine ⟨by decide, by decide +kernel, by decide +kernel, by decide, by decide +kernel,
    fun st hst => ⟨?_, releases ?_, ?_⟩, ⟨by decide +kernel, by decide +kernel, by decide +kernel,
      releases (by decide +kernel)⟩, by decide +kernel,
    ⟨by decide +kernel, by decide +kernel, releases (by decide +kernel), by decide,
      ⟨by decide +kernel, by decide +kernel⟩, table_ok (by decide +kernel), by decide +kernel⟩, fun r hr => table_ok ?_⟩
  · revert st; decide +kernel
  · revert st; decide +kernel
  · revert st; decide +kernel
  revert r
  decide +kernel

theorem witness_WindowsExpire :
    ((leaving (raised 19 2 2000)).truck 19 = some (raised 19 2 2000) ∧ (raised 19 2 2000).window = none) ∧
    (∀ r ∈ [granted 19 2 2000, lowering 19 2 2000, { granted 19 2 2000 with mark := .evict }],
      (leaving r).truck 19 = some r ∧ r.hold = some 2 ∧ (leaving r).active r.sec = some params ∧
      (leaving r).Releases 2 params) ∧
    ((granted 19 2 2000).window = some { kind := .grant, left := 3000 } ∧
      (lowering 19 2 2000).window = some { kind := .lower, left := 8000 }) ∧
    (∀ st ∈ lasts, (last st 622591).truck 19 = some (lowering 19 2 2000) ∧ (last st 622591).Releases 2 params) ∧
    (moving.truck 31 = some (granted 31 2 2000) ∧ moving.Releases 2 params ∧
      moving.truck 19 = some crossing ∧ moving.active crossing.sec = some params ∧
      crossing.window = some { kind := .handover, left := 0 } ∧ crossing.panto = .handover ∧ moving.entryAt 3 19) ∧
    (leaving (granted 19 2 2000)).table.Ok ∧ moving.table.Ok := by
  refine ⟨by decide +kernel, fun r hr => ⟨?_, ?_, ?_, releases ?_⟩, by decide +kernel, fun st hst => ⟨?_, releases ?_⟩,
    ⟨by decide +kernel, releases (by decide +kernel), by decide +kernel, by decide +kernel, by decide, by decide,
      ⟨by decide +kernel, by decide +kernel⟩⟩, table_ok (by decide +kernel), table_ok (by decide +kernel)⟩
  · revert r; decide +kernel
  · revert r; decide +kernel
  · revert r; decide +kernel
  · revert r; decide +kernel
  · revert st; decide +kernel
  · revert st; decide +kernel

end Sys2Proof.Tests
end

section
/-! What every step keeps of the parameter store and the sections: every elementary change keeps `SectionsSound`, and a
step is a run of elementary changes, but for the power-on reset and the opening of the E-stop loop. -/

namespace Sys2Proof.Machine

open Sys2Proof Host

variable {s t : State}

/-! ## The priority lane -/

/-- What stands in the lane after a placement stood there before, or is the frame placed. -/
theorem mem_placeIn {known : Nat → Bool} {lane : List PriorityFrame} {f g : PriorityFrame}
    (h : g ∈ placeIn known lane f) : g ∈ lane ∨ g = f := by
  unfold placeIn at h
  split at h
  · obtain ⟨x, hx, rfl⟩ := List.mem_map.mp h
    split
    · exact .inr rfl
    · exact .inl hx
  · split at h <;> rcases List.mem_append.mp h with h | h
    · exact .inl (List.mem_of_mem_eraseP h)
    · exact .inr (List.mem_singleton.mp h)
    · exact .inl h
    · exact .inr (List.mem_singleton.mp h)

/-- A breaker command that is placed is the only frame of its key in the lane (R164). -/
theorem mem_placeIn_command {known : Nat → Bool} {lane : List PriorityFrame} {k : Sec} {dest : Nat} {c : BreakerCmd}
    {g : PriorityFrame} (h : g ∈ placeIn known lane (.command k dest c))
    (hg : PriorityFrame.sameKey (.command k dest c) g = true) : g = .command k dest c := by
  unfold placeIn at h
  split at h
  · obtain ⟨x, -, rfl⟩ := List.mem_map.mp h
    split at hg <;> simp_all
  · rename_i hn
    simp only [PriorityFrame.isLower, Bool.false_and, Bool.false_eq_true, if_false] at h
    rcases List.mem_append.mp h with h | h
    · exact absurd (List.any_eq_true.mpr ⟨g, h, hg⟩) hn
    · exact List.mem_singleton.mp h

theorem PriorityFrame.energises_command (j k : Sec) (dest : Nat) (c : BreakerCmd) :
    (PriorityFrame.command k dest c).energises j = (decide (c ≠ .openCmd) && k == j) := by
  cases c <;> simp [PriorityFrame.energises]

/-- A frame that could energise a section has the key of that section's commands. -/
theorem PriorityFrame.sameKey_of_energises {k : Sec} {dest : Nat} {c : BreakerCmd} {g : PriorityFrame}
    (h : g.energises k = true) : PriorityFrame.sameKey (.command k dest c) g = true := by
  cases g with
  | lower => cases h
  | command k' d c' =>
    rw [energises_command] at h
    simp_all [PriorityFrame.sameKey]

/-- A placement that puts no energising frame for `k` in the lane leaves the lane quiet. -/
theorem laneQuiet_placePriority {f : PriorityFrame} {k : Sec} (h : s.laneQuiet k) (hf : f.energises k = false) :
    (placePriority f s).laneQuiet k := fun g hg => by
  rcases mem_placeIn hg with hg | rfl
  · exact h g hg
  · exact hf

/-- A lane with fewer frames is as quiet. -/
theorem laneQuiet_of_sublist {k : Sec} (h : s.laneQuiet k) (hl : t.ring.priority.Sublist s.ring.priority) :
    t.laneQuiet k := fun f hf => h f (hl.subset hf)

/-- An OPEN leaves no TEST or CLOSE of its section in the lane (R164). -/
theorem laneQuiet_open (k : Sec) (dest : Nat) : (placePriority (.command k dest .openCmd) s).laneQuiet k := fun g hg => by
  cases hk : g.energises k with
  | false => rfl
  | true =>
    rw [mem_placeIn_command hg (PriorityFrame.sameKey_of_energises hk), PriorityFrame.energises_command] at hk
    simp at hk

/-- A command of another section, and an OPEN of its own, leave the lane quiet for a section. -/
theorem laneQuiet_placeOpt {j k : Sec} {c : Option BreakerCmd} (h : s.laneQuiet j)
    (hc : j = k → c = none ∨ c = some .openCmd) : (placeOpt k c s).laneQuiet j := by
  unfold placeOpt placeCommand
  split
  · exact h
  · split
    · exact h
    · refine laneQuiet_placePriority h ?_
      rw [PriorityFrame.energises_command]
      by_cases hj : j = k
      · rcases hc hj with hc | hc <;> simp_all
      · simp [Ne.symm hj]

/-! ## The sequencers -/

/-- What a section's sequencer keeps rests on its own items, its active copy and the lane. -/
theorem SequencerOk.congr {k : Sec} (h : SequencerOk s k) (hs : (t.sec k).seq = (s.sec k).seq)
    (ha : t.active k = s.active k) (hl : s.laneQuiet k → t.laneQuiet k) : SequencerOk t k where
  absent := by rw [ha, hs]; exact h.absent
  enabled := by rw [State.isEnabled, ha, hs]; exact h.enabled
  coherent := by rw [hs]; exact h.coherent
  quiet := by rw [hs]; exact fun hd => hl (h.quiet hd)

/-- A change that touches neither sections nor the lane. -/
theorem SequencerOk.of_sections {k : Sec} (h : SequencerOk s k) (hs : t.sections = s.sections)
    (hl : t.ring.priority.Sublist s.ring.priority) : SequencerOk t k := by
  have hk : t.sec k = s.sec k := by simp only [State.sec, hs]
  exact h.congr (by rw [hk]) (by simp only [State.active, hk]) fun hq => laneQuiet_of_sublist hq hl

/-- In a state in which no TEST or CLOSE may wait for its section, a sequencer's change leaves none in the lane. -/
theorem SeqChange.laneQuiet {V : Prop} {k : Sec} {q : Seq} {c : Option BreakerCmd} (h : SeqChange V s k q c)
    (hs : SequencerOk s k) (hd : dead q.state = true) : (placeOpt k c (s.modSeq k fun _ => q)).laneQuiet k := by
  have hc : c = none ∨ c = some .openCmd := by
    match c with
    | none => exact .inl rfl
    | some .openCmd => exact .inr rfl
    | some .testCmd => rcases h.command (.inl rfl) with e | e | ⟨e, -⟩ <;> simp [e, dead] at hd
    | some .closeCmd => rcases h.command (.inr rfl) with e | e | ⟨e, -⟩ <;> simp [e, dead] at hd
  by_cases hold : dead (s.sec k).seq.state = true
  · exact laneQuiet_placeOpt (s := s.modSeq k fun _ => q) (hs.quiet hold) fun _ => hc
  · obtain rfl := (h.quiet hd).resolve_left hold
    simp only [placeOpt, placeCommand, State.modSeq_active]
    split
    · rename_i ha
      rw [(hs.absent ha).1] at hold
      exact absurd rfl hold
    · exact laneQuiet_open k _

/-- A sequencer's change, with the command it places, keeps every section's sequencer in order. -/
theorem SeqChange.sequencerOk {V : Prop} {k : Sec} {q : Seq} {c : Option BreakerCmd} (h : SeqChange V s k q c) (v : V)
    (hs : ∀ j, SequencerOk s j) (j : Sec) : SequencerOk (placeOpt k c (s.modSeq k fun _ => q)) j := by
  have ha : (placeOpt k c (s.modSeq k fun _ => q)).active j = s.active j := by
    simp only [State.active, placeOpt_sec]
    exact State.modSeq_active s j k _
  by_cases hj : j = k
  · subst hj
    have hq : ((placeOpt j c (s.modSeq j fun _ => q)).sec j).seq = q := by simp
    refine ⟨fun hn => ?_, fun he => ?_, ?_, fun hd => ?_⟩
    · rw [ha] at hn
      rw [hq]
      obtain ⟨h1, h2⟩ := (hs j).absent hn
      exact h.absent v hn h1 h2
    · rw [hq] at he
      rw [State.isEnabled, ha]
      exact (h.enabled he).elim (hs j).enabled id
    · rw [hq]; exact h.coherent (hs j).coherent
    · rw [hq] at hd
      exact h.laneQuiet (hs j) hd
  · refine (hs j).congr (by simp [hj]) ha fun hl => laneQuiet_placeOpt hl fun e => absurd e hj

/-- An elementary change keeps every section's sequencer in order. -/
theorem Change.sequencerOk {V A : Prop} (h : Change V A s t) (v : V) (hs : ∀ j, SequencerOk s j) (j : Sec) :
    SequencerOk t j := by
  cases h with
  | figures k x hq hc =>
    refine (hs j).congr ?_ ?_ id
    · simp only [State.modSec_sec]; split <;> simp_all
    · exact State.modSec_active s j k hc
  | stored k c hc =>
    refine (hs j).congr ?_ ?_ id
    · simp only [State.modSec_sec]; split <;> simp_all
    · simp only [State.active, State.modSec_sec]; split <;> simp_all
  | activated k x new _ hq hact _ _ hen =>
    by_cases hj : j = k
    · subst hj
      have hx : (s.modSec j fun _ => x).sec j = x := by simp
      have ha : (s.modSec j fun _ => x).active j = some new := by simp only [State.active, hx, hact]
      refine ⟨fun hn => absurd hn (by simp [ha]), fun he => ?_, ?_, fun hd => ?_⟩
      · rw [hx, hq] at he
        simpa [State.isEnabled, ha] using hen he ((hs j).enabled he)
      · rw [hx, hq]; exact (hs j).coherent
      · rw [hx, hq] at hd; exact (hs j).quiet hd
    · have hx : (s.modSec k fun _ => x).sec j = s.sec j := by simp [hj]
      exact (hs j).congr (by rw [hx]) (by simp only [State.active, hx]) id
  | seq k q c hc => exact hc.sequencerOk v hs j
  | ring r hp _ => exact (hs j).of_sections rfl hp
  | lower t dest reason _ => exact (hs j).congr rfl rfl fun hl => laneQuiet_placePriority hl rfl
  | tick =>
    have hj := hs j
    have ha : s.tick.active j = s.active j := by simp [State.active, Section.tick]
    have hq : (s.tick.sec j).seq = (s.sec j).seq.tick := by simp [Section.tick]
    refine ⟨fun hn => ?_, ?_, ?_, ?_⟩
    · obtain ⟨h1, h2⟩ := hj.absent (ha ▸ hn)
      rw [hq]
      exact ⟨h1, by simp [Seq.tick, Timer.tick, h2]⟩
    · rw [State.isEnabled, ha, hq]; exact hj.enabled
    · rw [hq]; exact hj.coherent
    · rw [hq]; exact hj.quiet
  | notice | notices | table | chip | rest => exact (hs j).of_sections rfl (List.Sublist.refl _)

/-! ## Copies and attempts -/

theorem Change.copiesOk {V A : Prop} (h : Change V A s t) (hs : ∀ k, (s.sec k).copies.Ok k) (j : Sec) :
    (t.sec j).copies.Ok j := by
  cases h with
  | figures k x _ hc =>
    simp only [State.modSec_sec]; split
    · rename_i e; subst e; rw [hc]; exact hs j
    · exact hs j
  | stored k c _ hc =>
    simp only [State.modSec_sec]; split
    · rename_i e; subst e; exact hc (hs j)
    · exact hs j
  | activated k x new _ _ _ hc =>
    simp only [State.modSec_sec]; split
    · rename_i e; subst e; exact hc (hs j)
    · exact hs j
  | seq k q c =>
    simp only [placeOpt_sec, State.modSeq_sec]; split
    · rename_i e; subst e; exact hs j
    · exact hs j
  | tick => rw [State.tick_sec]; exact hs j
  | ring | lower | notice | notices | table | chip | rest => exact hs j

theorem Change.attemptsOk {V A : Prop} (h : Change V A s t) (v : V) (hs : ∀ k, (s.sec k).seq.AttemptsOk) (j : Sec) :
    (t.sec j).seq.AttemptsOk := by
  cases h with
  | figures k x hq =>
    simp only [State.modSec_sec]; split
    · rename_i e; subst e; rw [hq]; exact hs j
    · exact hs j
  | stored k c =>
    simp only [State.modSec_sec]; split
    · rename_i e; subst e; exact hs j
    · exact hs j
  | activated k x new _ hq =>
    simp only [State.modSec_sec]; split
    · rename_i e; subst e; rw [hq]; exact hs j
    · exact hs j
  | seq k q c hc =>
    simp only [placeOpt_sec, State.modSeq_sec]; split
    · rename_i e; subst e; exact hc.attempts v (hs j)
    · exact hs j
  | tick => rw [State.tick_sec]; exact hs j
  | ring | lower | notice | notices | table | chip | rest => exact hs j

theorem Change.rampOk {V A : Prop} (h : Change V A s t) (hs : s.ramp.Ok) : t.ramp.Ok := by
  cases h with
  | seq k q c =>
    have : (placeOpt k c (s.modSeq k fun _ => q)).ramp = s.ramp := by
      unfold placeOpt placeCommand; split
      · rfl
      · split <;> rfl
    rwa [this]
  | rest ramp handed powerUp restart hr => exact hr hs
  | figures | stored | activated | ring | lower | notice | notices | table | chip | tick => exact hs

/-! ## Every step -/

/-- An elementary change keeps the sections sound. -/
theorem Change.sound {V A : Prop} (v : V) (h : Change V A s t) (hs : SectionsSound s) : SectionsSound t where
  ramp := h.rampOk hs.ramp
  copies := h.copiesOk hs.copies
  figures := h.figuresKept v hs.figures
  attempts := h.attemptsOk v hs.attempts
  sequencer := h.sequencerOk v hs.sequencer

/-- A run of elementary changes keeps the sections sound. -/
theorem Changes.sound {V A : Prop} (h : Changes V A s t) (v : V) : SectionsSound s → SectionsSound t :=
  h.induct (P := SectionsSound) fun _ _ hc => hc.sound v

/-- Soundness rests on the ramp record, the sections and the priority lane alone. -/
theorem SectionsSound.of_sections (h : SectionsSound s) (hr : t.ramp = s.ramp) (hs : t.sections = s.sections)
    (hl : t.ring.priority = s.ring.priority) : SectionsSound t := by
  have hk : ∀ k, t.sec k = s.sec k := fun k => by simp only [State.sec, hs]
  exact ⟨hr ▸ h.ramp, fun k => hk k ▸ h.copies k, fun k => hk k ▸ h.figures k, fun k => hk k ▸ h.attempts k,
    fun k => (h.sequencer k).of_sections hs (hl ▸ List.Sublist.refl _)⟩

/-- A record in range bounds the figures that rest on it. -/
theorem SectionParams.Ok.bounded {own : Sec} {p : SectionParams} (h : p.Ok own) : p.Bounded := by
  unfold SectionParams.Ok at h
  unfold SectionParams.Bounded
  omega

/-- Sound sections give all that a command's changes rest on. -/
theorem SectionsSound.known (h : SectionsSound s) : s.Known :=
  ⟨fun k _ hp => ((h.copies k).active _ hp).bounded, fun k ha _ => ((h.sequencer k).absent ha).2, h.figures⟩

/-- A section at power-on has figures within their ranges. -/
theorem Section.powerOn_figures : Section.powerOn.Figures := by
  have hb : Books.zero.Ok := by constructor <;> simp [Books.zero, energyMax]
  refine ⟨?_, nofun, hb, hb, by decide, by decide, by decide, by decide, by decide, nofun⟩
  constructor <;> simp [Section.powerOn]

/-- The power-on state is sound at any pin levels. -/
theorem State.powerOn_sound (pins : Pins) : SectionsSound (State.powerOn pins) := by
  have hk : ∀ k, (State.powerOn pins).sec k = Section.powerOn := fun k => by simp [State.powerOn]
  have hl : (State.powerOn pins).ring.priority = [] := rfl
  refine ⟨by simp [State.powerOn, RampRecord.Ok], fun k => ?_, fun k => ?_, fun k => ?_, fun k => ?_⟩
  · rw [hk]; constructor <;> simp [Section.powerOn]
  · rw [hk]; exact Section.powerOn_figures
  · rw [hk]; exact .inl (by decide)
  · refine ⟨fun _ => ?_, ?_, ?_, fun _ f hf => ?_⟩
    · rw [hk]; exact ⟨rfl, rfl⟩
    · rw [hk]; nofun
    · rw [hk]; rfl
    · rw [hl] at hf; cases hf

/-- The falling edge of the E-stop loop keeps the sections sound. -/
theorem fallingEdge_sound (hs : SectionsSound s) : SectionsSound (fallingEdge s) :=
  ((Changes.refl s).fallingEdge (V := True) (A := True)).sound trivial hs

/-- The power-on reset and the E-stop filter's expiry are the commands that stand apart. -/
theorem apart_cases {c : Instr} (h : apart c = true) : (∃ pins, c = .powerOnReset pins) ∨ c = .estopFilterExpiry := by
  unfold apart at h
  split at h
  · exact .inl ⟨_, rfl⟩
  · exact .inr rfl
  · cases h

/-- Every command keeps the sections sound. -/
theorem exec_sound {c : Instr} (h : exec c s = .next t) (hs : SectionsSound s) : SectionsSound t := by
  cases hc : apart c with
  | false => exact (exec_changes hc h).sound hs.known hs
  | true =>
    rcases apart_cases hc with ⟨pins, rfl⟩ | rfl
    · cases h
      exact (State.powerOn_sound pins).of_sections rfl rfl rfl
    · rcases exec_estop_changes (V := True) (A := True) h with h | ⟨-, ht⟩
      · exact h.sound trivial hs
      · rw [ht]
        exact fallingEdge_sound (hs.of_sections rfl rfl rfl)

end Sys2Proof.Machine

open Sys2Proof Sys2Proof.Machine in
/-- Settles O8: a step is a command, a stage of a RESTART, a level heard or a millisecond, and each keeps the sections
sound. -/
theorem stepKeepsSections : Obligations.StepKeepsSections := by
  intro s t h hs
  unfold step at h
  split at h
  · exact exec_sound h (hs.of_sections rfl rfl rfl)
  · unfold idle at h
    split at h
    · cases h
      exact ((Changes.refl s).advanceRestart (V := True) (A := True)).sound trivial hs
    · split at h
      · exact exec_sound h hs
      · split at h
        · exact (hear_changes (V := True) (A := True) h).sound trivial (hs.of_sections rfl rfl rfl)
        · cases h
          exact (Change.tick (V := True) (A := True) s).sound trivial hs

end

section
/-! The section parameter record field by field (R3, R4, R189): the store reads thirty numbers out of 48 bytes, names the
first that lies out of its range, and otherwise has the record they stand for. -/

namespace Sys2Proof.Machine

open Sys2Proof

/-! ## The thirty fields in their bytes -/

/-- The numbers of the thirty fields, in order (R3). -/
def fieldNumbers : List Nat := List.range' 1 30

/-- The first byte of field `n` in the record's 48 (R189, Table 10-6). -/
def fieldOffset (n : Nat) : Nat := ((List.range' 1 (n - 1)).map fieldSize).sum

/-- The bytes that carry the number `v n` in each field `n` (R189). -/
def carried (v : Nat → Nat) : List Byte := fieldNumbers.flatMap fun n => toBe (fieldSize n) (v n)

/-- The numbers that the bytes carry. -/
def fieldsOf (b : List Byte) (n : Nat) : Nat := fieldAt b (fieldOffset n) (fieldSize n)

/-- Each field with whether it lies within its range. -/
def fieldChecks (own : Sec) (v : Nat → Nat) : List (Nat × Bool) := fieldNumbers.map fun n => (n, fieldInRange own v n)

theorem mem_fieldNumbers {n : Nat} : n ∈ fieldNumbers ↔ 1 ≤ n ∧ n ≤ 30 := by
  simp only [fieldNumbers, List.mem_range'_1]; omega

theorem fieldNumbers_eq : fieldNumbers = [1, 2, 3, 4, 5, 6, 7, 8, 9, 10, 11, 12, 13, 14, 15, 16, 17, 18, 19, 20, 21, 22,
    23, 24, 25, 26, 27, 28, 29, 30] := rfl

/-- What holds of every field, field by field. -/
theorem forall_fieldNumbers {P : Nat → Prop} : (∀ n ∈ fieldNumbers, P n) ↔
    P 1 ∧ P 2 ∧ P 3 ∧ P 4 ∧ P 5 ∧ P 6 ∧ P 7 ∧ P 8 ∧ P 9 ∧ P 10 ∧ P 11 ∧ P 12 ∧ P 13 ∧ P 14 ∧ P 15 ∧ P 16 ∧
    P 17 ∧ P 18 ∧ P 19 ∧ P 20 ∧ P 21 ∧ P 22 ∧ P 23 ∧ P 24 ∧ P 25 ∧ P 26 ∧ P 27 ∧ P 28 ∧ P 29 ∧ P 30 := by
  simp only [fieldNumbers_eq, List.forall_mem_cons, List.not_mem_nil, false_implies, implies_true, and_true]

theorem length_flatMap_toBe (v size : Nat → Nat) (l : List Nat) :
    (l.flatMap fun n => toBe (size n) (v n)).length = (l.map size).sum := by
  simp [List.length_flatMap, toBe_length]

theorem carried_length (v : Nat → Nat) : (carried v).length = 48 := by
  rw [carried, length_flatMap_toBe]; rfl

/-- Bytes in front of a field are skipped. -/
theorem fieldAt_append (l rest : List Byte) (m : Nat) : fieldAt (l ++ rest) l.length m = fieldAt rest 0 m := by
  simp [fieldAt]

/-- A number that fits its field is read back from the bytes that carry it. -/
theorem fieldsOf_carried {v : Nat → Nat} {n : Nat} (hn : n ∈ fieldNumbers) (hv : v n < 256 ^ fieldSize n) :
    fieldsOf (carried v) n = v n := by
  obtain ⟨h1, h30⟩ := mem_fieldNumbers.mp hn
  have hsplit : fieldNumbers = List.range' 1 (n - 1) ++ n :: List.range' (n + 1) (30 - n) := by
    have h := List.range'_append_1 (s := 1) (m := n - 1) (n := 30 - n + 1)
    rw [show n - 1 + (30 - n + 1) = 30 by omega, show 1 + (n - 1) = n by omega, List.range'_succ] at h
    exact h.symm
  rw [fieldsOf, carried, hsplit, List.flatMap_append, List.flatMap_cons, fieldOffset,
    ← length_flatMap_toBe v fieldSize, fieldAt_append, fieldAt_zero _ _ _ hv]

/-! ## The checks -/

theorem yesNo_isSome (n : Nat) : (yesNo n).isSome = decide (0 ≤ n ∧ n ≤ 1) := by
  unfold yesNo
  split
  · simp_all
  · split
    · simp_all
    · simp; omega

theorem yesNo_getD (n : Nat) : (yesNo n).getD false = (n == 1) := by
  unfold yesNo
  split
  · simp_all
  · split <;> simp_all

theorem riseFilterOf_isSome : ∀ n : Nat, (riseFilterOf n).isSome = decide (0 ≤ n ∧ n ≤ 3)
  | 0 | 1 | 2 | 3 => rfl
  | n + 4 => by
    have hhigh : riseFilterOf (n + 4) = none := by
      rw [riseFilterOf, if_neg (by omega), if_neg (by omega), if_neg (by omega), if_neg (by omega)]
    rw [hhigh, decide_eq_false (by omega)]
    rfl

/-- A section number that fits is the section it names. -/
theorem secOf_lt {n : Nat} (h : n < 8) : secOf n = some (Fin.ofNat 8 n) := by
  unfold secOf
  rw [dif_pos h]
  exact congrArg some (Fin.ext (Nat.mod_eq_of_lt h).symm)

/-- next_uphill is none, or a section other than the record's own (R3). -/
theorem nextUphillOf_eq (own : Sec) (n : Nat) : nextUphillOf own n =
    if n = 255 ∨ (n ≤ 7 ∧ n ≠ own.val) then some (if n = 255 then none else some (Fin.ofNat 8 n)) else none := by
  unfold nextUphillOf
  by_cases h255 : n = 255
  · simp [h255]
  · by_cases h8 : n < 8
    · have hown : Fin.ofNat 8 n = own ↔ n = own.val := by
        rw [Fin.ext_iff]; simp [Nat.mod_eq_of_lt h8]
      simp only [h255, if_false, secOf_lt h8, hown, false_or]
      by_cases hn : n = own.val
      · simp [hn]
      · simp [hn, show n ≤ 7 by omega]
    · simp [h255, secOf_none (show 8 ≤ n by omega)]; omega

theorem nextUphillOf_isSome (own : Sec) (n : Nat) :
    (nextUphillOf own n).isSome = (n == 255 || (decide (0 ≤ n ∧ n ≤ 7) && n != own.val)) := by
  rw [nextUphillOf_eq, Bool.eq_iff_iff]
  split <;> rename_i h <;> simpa using h

theorem nextUphillOf_getD {own : Sec} {v : Nat → Nat} (h : fieldInRange own v 4 = true) :
    (nextUphillOf own (v 4)).getD none = (recordOf v).nextUphill := by
  have h4 : v 4 = 255 ∨ (v 4 ≤ 7 ∧ v 4 ≠ own.val) := by simpa [fieldInRange] using h
  rw [nextUphillOf_eq, if_pos h4]
  rfl

theorem riseFilterOf_getD {own : Sec} {v : Nat → Nat} (h : fieldInRange own v 15 = true) :
    (riseFilterOf (v 15)).getD .f1of1 = (recordOf v).riseFilter := by
  have h3 : v 15 ≤ 3 := by simpa [fieldInRange] using h
  simp only [recordOf, riseFilterOf]
  match v 15, h3 with
  | 0, _ | 1, _ | 2, _ | 3, _ => rfl

theorem inRange_eq (lo hi n : Nat) : inRange lo hi n = decide (lo ≤ n ∧ n ≤ hi) := by simp [inRange]

/-- A field passes exactly when no check names it. -/
theorem fieldInRange_of_firstBad {own : Sec} {v : Nat → Nat} (h : firstBad (fieldChecks own v) = none) {n : Nat}
    (hn : n ∈ fieldNumbers) : fieldInRange own v n = true :=
  firstBad_none h _ (List.mem_map_of_mem hn)

/-- Two records judged by the same checks, and equal where these pass. -/
theorem judged_congr {l l' : List (Nat × Bool)} {p q : SectionParams} (hl : l = l') (hp : firstBad l' = none → p = q) :
    (match firstBad l with | some n => Except.error n | none => .ok p) =
      match firstBad l' with | some n => Except.error n | none => .ok q := by
  subst hl
  cases h : firstBad l with
  | some n => rfl
  | none => rw [hp h]

/-- The checks of a record read from bytes are those of the numbers they carry, and a record that passes is the one
these numbers stand for (R3, R4). -/
theorem readParams_eq (own : Sec) (b : List Byte) : readParams own b =
    match firstBad (fieldChecks own (fieldsOf b)) with
    | some n => .error n
    | none => .ok (recordOf (fieldsOf b)) := by
  refine judged_congr ?_ fun h => ?_
  · simp only [yesNo_isSome, riseFilterOf_isSome, nextUphillOf_isSome, inRange_eq]
    rfl
  · have hnext : (nextUphillOf own (fieldAt b 3 1)).getD none = (recordOf (fieldsOf b)).nextUphill :=
      nextUphillOf_getD (fieldInRange_of_firstBad h (by decide))
    have hrise : (riseFilterOf (fieldAt b 19 1)).getD .f1of1 = (recordOf (fieldsOf b)).riseFilter :=
      riseFilterOf_getD (own := own) (fieldInRange_of_firstBad h (by decide))
    simp only [yesNo_getD, hnext, hrise]
    rfl

/-- Records are judged and read alike where their thirty numbers agree. -/
theorem fieldInRange_congr {own : Sec} {v w : Nat → Nat} (h : ∀ n ∈ fieldNumbers, v n = w n) {n : Nat}
    (hn : n ∈ fieldNumbers) : fieldInRange own v n = fieldInRange own w n := by
  simp (disch := decide) only [fieldInRange, h n hn, h 9]

theorem recordOf_congr {v w : Nat → Nat} (h : ∀ n ∈ fieldNumbers, v n = w n) : recordOf v = recordOf w := by
  simp (disch := decide) only [recordOf, h]

/-- The store reads the numbers that a record's bytes carry (R3, R4, R189). -/
theorem readParams_carried (own : Sec) {v : Nat → Nat} (hv : ∀ n ∈ fieldNumbers, v n < 256 ^ fieldSize n) :
    readParams own (carried v) =
      match firstBad (fieldChecks own v) with
      | some n => .error n
      | none => .ok (recordOf v) := by
  have h : ∀ n ∈ fieldNumbers, fieldsOf (carried v) n = v n := fun n hn => fieldsOf_carried hn (hv n hn)
  have hc : fieldChecks own (fieldsOf (carried v)) = fieldChecks own v :=
    List.map_congr_left fun n hn => by rw [fieldInRange_congr h hn]
  rw [readParams_eq, hc, recordOf_congr h]

/-! ## A record in its bytes -/

/-- The number each field of a record carries (R185, R189). -/
def SectionParams.coded (p : SectionParams) : Nat → Nat
  | 1 => p.enabled.toNat
  | 2 => p.frontendAddr
  | 3 => p.readerAddr
  | 4 => uphillCode p.nextUphill
  | 5 => p.bidirectional.toNat
  | 6 => p.limitAmps
  | 7 => p.contAmps
  | 8 => p.tauShift
  | 9 => p.derateLevel
  | 10 => p.tripLevel
  | 11 => p.derateShare
  | 12 => p.instAmps
  | 13 => p.riseAmps
  | 14 => p.riseFloor
  | 15 => p.riseFilter.code
  | 16 => p.sustainAmps
  | 17 => p.sustainSamples
  | 18 => p.vmin
  | 19 => p.vhyst
  | 20 => p.testMs
  | 21 => p.testPass
  | 22 => p.testMaxAmps
  | 23 => p.breakerMs
  | 24 => p.recloseMs
  | 25 => p.stableMs
  | 26 => p.autoReclose.toNat
  | 27 => p.maxAttempts
  | 28 => p.measMs
  | 29 => p.badRun
  | 30 => p.offsetLimit
  | _ => 0

theorem toBe_toNat (b : Bool) : toBe 1 b.toNat = [yesNoByte b] := by cases b <;> rfl

/-- The record's bytes carry its numbers. -/
theorem SectionParams.bytes_eq (p : SectionParams) : p.bytes = carried p.coded := by
  unfold SectionParams.bytes
  simp [carried, fieldNumbers_eq, fieldSize, SectionParams.coded, toBe_toNat]

/-- The record that its numbers stand for. -/
theorem SectionParams.recordOf_coded (p : SectionParams) : recordOf p.coded = p := by
  have hbool : ∀ b : Bool, (b.toNat == 1) = b := by decide
  have hnext : (if uphillCode p.nextUphill = 255 then none else some (Fin.ofNat 8 (uphillCode p.nextUphill))) =
      p.nextUphill := by
    cases p.nextUphill with
    | none => rfl
    | some k => revert k; decide
  have hrise : ∀ f : RiseFilter, (if f.code = 0 then .f1of1 else if f.code = 1 then .f2of2 else
      if f.code = 2 then .f2of3 else .f3of5) = f := by intro f; cases f <;> rfl
  simp only [recordOf, SectionParams.coded, hbool, hnext, hrise]

theorem SectionParams.Ok.inRange_nextUphill {own : Sec} {p : SectionParams} (h : p.Ok own) :
    fieldInRange own p.coded 4 = true := by
  obtain ⟨-, -, h4, -⟩ := h
  have hcode : ∀ own k : Sec, k ≠ own →
      (uphillCode (some k) == 255 || (decide (0 ≤ uphillCode (some k) ∧ uphillCode (some k) ≤ 7) &&
        uphillCode (some k) != own.val)) = true := by decide
  simp only [fieldInRange, SectionParams.coded]
  cases hp : p.nextUphill with
  | none => rfl
  | some k => exact hcode own k fun e => h4 (by rw [hp, e])

theorem SectionParams.Ok.inRange {own : Sec} {p : SectionParams} (h : p.Ok own) {n : Nat} (hn : n ∈ fieldNumbers) :
    fieldInRange own p.coded n = true := by
  have hbool : ∀ b : Bool, b.toNat ≤ 1 := by decide
  have hrise : ∀ f : RiseFilter, f.code ≤ 3 := by intro f; cases f <;> decide
  have hnext := h.inRange_nextUphill
  have hother : ∀ n ∈ fieldNumbers, n ≠ 4 → fieldInRange own p.coded n = true := by
    unfold SectionParams.Ok at h
    rw [forall_fieldNumbers]
    simp [fieldInRange, SectionParams.coded, hbool, hrise, h]
  exact if h4 : n = 4 then h4 ▸ hnext else hother n hn h4

/-- A number within its field's range fits the field's bytes. -/
theorem lt_of_fieldInRange {own : Sec} {v : Nat → Nat} {n : Nat} (hn : n ∈ fieldNumbers)
    (h : fieldInRange own v n = true) : v n < 256 ^ fieldSize n := by
  revert h
  refine (forall_fieldNumbers (P := fun n => fieldInRange own v n = true → v n < 256 ^ fieldSize n)).mpr ?_ n hn
  and_intros <;> intro h <;> simp [fieldInRange, fieldSize] at h ⊢ <;> omega

theorem fieldChecks_none {own : Sec} {v : Nat → Nat} (h : ∀ n ∈ fieldNumbers, fieldInRange own v n = true) :
    firstBad (fieldChecks own v) = none := by
  refine firstBad_of fun c hc => ?_
  obtain ⟨n, hn, rfl⟩ := List.mem_map.mp hc
  exact h n hn

/-- In a list of rising numbers the first that fails is the one the checks name. -/
theorem firstBad_rising {f : Nat → Bool} {n : Nat} (hbad : f n = false) {l : List Nat} (hl : l.Pairwise (· < ·))
    (hn : n ∈ l) (hlt : ∀ m ∈ l, m < n → f m = true) : firstBad (l.map fun m => (m, f m)) = some n := by
  induction l with
  | nil => cases hn
  | cons m l ih =>
    obtain ⟨hm, hl⟩ := List.pairwise_cons.mp hl
    rcases List.mem_cons.mp hn with rfl | hn
    · simp [firstBad, hbad]
    · simp only [List.map_cons, hlt m (List.mem_cons_self ..) (hm n hn), firstBad]
      exact ih hl hn fun j hj => hlt j (List.mem_cons_of_mem _ hj)

end Sys2Proof.Machine
end

section
/-! Reading and writing a section's record (R4 to R6, R189). -/

namespace Sys2Proof.Machine

open Sys2Proof Host

variable {s : State} {b : Byte} {k : Sec}

/-! ## WRITE_SECTION -/

/-- WRITE_SECTION's payload: the section's byte in front of the thirty fields (R186). -/
theorem sectionByte (b : Byte) (l : List Byte) : fieldAt (b :: l) 0 1 = b.toNat := by simp [fieldAt, beNat]

theorem payload_length (b : Byte) (v : Nat → Nat) : (b :: carried v).length = 49 := by simp [carried_length]

theorem writeSectionBody_badSection (h : 8 ≤ b.toNat) (v : Nat → Nat) :
    writeSectionBody (b :: carried v) s = (s, refuse .badSection) := by
  simp only [writeSectionBody, payload_length, sectionByte, if_true, secOf_none h]

/-- The first field out of range is named, and nothing changes (R4). -/
theorem writeSectionBody_badValue {v : Nat → Nat} {n : Nat} (hb : b.toNat = k.val)
    (hv : ∀ n ∈ fieldNumbers, v n < 256 ^ fieldSize n) (hn : n ∈ fieldNumbers) (hbad : fieldInRange k v n = false)
    (hlt : ∀ m ∈ fieldNumbers, m < n → fieldInRange k v m = true) :
    writeSectionBody (b :: carried v) s = (s, badValue n) := by
  have hfirst : firstBad (fieldChecks k v) = some n := firstBad_rising hbad List.pairwise_lt_range' hn hlt
  have hread : readParams k (carried v) = .error n := by rw [readParams_carried k hv, hfirst]
  simp only [writeSectionBody, payload_length, sectionByte, if_true, hb, secOf_val, List.drop_succ_cons, List.drop_zero,
    hread]

/-- A record in range replaces the pending copy (R5). -/
theorem writeSectionBody_ok {v : Nat → Nat} (hb : b.toNat = k.val) (hv : ∀ n ∈ fieldNumbers, v n < 256 ^ fieldSize n)
    (hok : ∀ n ∈ fieldNumbers, fieldInRange k v n = true) : writeSectionBody (b :: carried v) s =
      (s.modSec k fun x => { x with copies := { x.copies with pending := some (recordOf v) } }, ok .empty) := by
  have hread : readParams k (carried v) = .ok (recordOf v) := by rw [readParams_carried k hv, fieldChecks_none hok]
  simp only [writeSectionBody, payload_length, sectionByte, if_true, hb, secOf_val, List.drop_succ_cons, List.drop_zero,
    hread]

/-! ## READ_SECTION -/

/-- The copy that a selector of 0, 1 or 2 names (R186). -/
theorem copyAt_of_mem {c : Copies} {row : Nat × Option SectionParams}
    (h : row ∈ [(0, c.pending), (1, c.active), (2, c.prior)]) : copyAt c row.1 = some row.2 := by
  simp only [List.mem_cons, List.not_mem_nil, or_false] at h
  rcases h with rfl | rfl | rfl <;> rfl

theorem copyAt_high {c : Copies} {n : Nat} (h : 2 < n) : copyAt c n = none := by
  simp [copyAt, show n ≠ 0 by omega, show n ≠ 1 by omega, show n ≠ 2 by omega]

/-- READ_SECTION of a section that exists is answered by what its selector names (R6, R186). -/
theorem readSectionAnswer_badSelector {sel : Byte} (hb : b.toNat = k.val)
    (h : copyAt (s.sec k).copies sel.toNat = none) : readSectionAnswer [b, sel] s = refuse .badRequest := by
  simp only [readSectionAnswer, hb, secOf_val, h]

theorem readSectionAnswer_absent {sel : Byte} (hb : b.toNat = k.val)
    (h : copyAt (s.sec k).copies sel.toNat = some none) : readSectionAnswer [b, sel] s = refuse .notFound := by
  simp only [readSectionAnswer, hb, secOf_val, h]

theorem readSectionAnswer_present {sel : Byte} {p : SectionParams} (hb : b.toNat = k.val)
    (h : copyAt (s.sec k).copies sel.toNat = some (some p)) :
    readSectionAnswer [b, sel] s = ok (.copyOf k sel.toNat p) := by
  simp only [readSectionAnswer, hb, secOf_val, h]

/-- A number that a byte holds is carried in that byte. -/
theorem toBe_one {b : Byte} {n : Nat} (h : b.toNat = n) : toBe 1 n = [b] := by
  subst h
  simp [toBe]

end Sys2Proof.Machine

open Sys2Proof Sys2Proof.Machine

/-- Settles O14: the bytes of a record carry its thirty numbers, which all lie in range. -/
theorem parameterRecordReadBack : Obligations.ParameterRecordReadBack := by
  intro k p h
  have hok : ∀ n ∈ fieldNumbers, fieldInRange k p.coded n = true := fun n hn => h.inRange hn
  refine ⟨p.bytes_length, ?_⟩
  rw [p.bytes_eq, readParams_carried k fun n hn => lt_of_fieldInRange hn (hok n hn), fieldChecks_none hok,
    p.recordOf_coded]

/-- Settles O28: the section's number is judged first, then the thirty fields in order. -/
theorem sectionWritten : Obligations.SectionWritten := by
  intro s r b v hn hb hroom hv fields hp t
  have hv' : ∀ n ∈ fieldNumbers, v n < 256 ^ fieldSize n := fun n h =>
    hv n (mem_fieldNumbers.mp h).1 (mem_fieldNumbers.mp h).2
  have hserve : ∀ {u : State} {st : Status} {n : Nat} {d : ReplyData},
      writeSectionBody (b :: carried v) (t.claimed 1) = (u.claimed 1, { status := st, field := n, data := d }) →
      exec (.writeSection r) s = .next (u.withReply 0x46 r st n d) := fun h =>
    congrArg _ (serve_eq _ _ r s hn hb hroom (hp ▸ h))
  refine ⟨fun h8 => hserve (writeSectionBody_badSection h8 v), fun k hk => ⟨fun n hn hbad hlt => ?_, fun hok => ?_⟩⟩
  · exact hserve (writeSectionBody_badValue hk hv' hn hbad hlt)
  · exact hserve (writeSectionBody_ok hk hv' hok)

/-- Settles O24: the section's number is judged first, then the selector, then whether the copy is present. -/
theorem sectionRead : Obligations.SectionRead := by
  intro s r b sel hn hb hp hroom
  have hserve : ∀ {st : Status} {d : ReplyData},
      readSectionAnswer [b, sel] ((take (.readSection r) s).claimed 1) = { status := st, field := 0, data := d } →
      exec (.readSection r) s = .next ((take (.readSection r) s).withReply 0x47 r st 0 d) := fun h =>
    congrArg _ (serve_eq _ _ r s hn hb hroom (hp ▸ congrArg (Prod.mk _) h))
  have hcopies : ∀ k, (((take (.readSection r) s).claimed 1).sec k).copies = (s.sec k).copies := fun k => by simp
  refine ⟨fun h8 => hserve (by rw [readSectionAnswer, secOf_none h8]; rfl), fun k hk => ⟨fun hsel => hserve ?_, ?_⟩⟩
  · exact readSectionAnswer_badSelector hk (copyAt_high hsel)
  · intro row hrow hsel
    have hcopy : copyAt (((take (.readSection r) s).claimed 1).sec k).copies sel.toNat = some row.2 := by
      rw [hcopies, hsel]; exact copyAt_of_mem hrow
    refine ⟨fun hnone => hserve ?_, fun p hsome => ⟨hserve ?_, ?_⟩⟩
    · exact readSectionAnswer_absent hk (hnone ▸ hcopy)
    · rw [readSectionAnswer_present hk (hsome ▸ hcopy), hsel]; rfl
    · show toBe 1 k.val ++ toBe 1 row.1 ++ p.bytes = _
      rw [toBe_one hk, toBe_one hsel, List.append_assoc, List.singleton_append, List.singleton_append]

end

section
/-! A good frame read from its bytes, and the section it is delivered to (R13, R14, R158, R161, R162). -/

namespace Sys2Proof.Machine

open Sys2Proof Host

variable {s : State} {f : Frame} {own : Byte}

/-! ## The bytes of a frame -/

/-- The bytes of a frame are read as that frame (R158, R159, R185). -/
theorem readFrame_bytes (h : f.payload.length ≤ 64) : readFrame f.bytes = .good f := by
  have hlen : (BitVec.ofNat 8 f.payload.length).toNat = f.payload.length := by
    rw [BitVec.toNat_ofNat]; omega
  have hcrc : (crcBytes f.covered).length = 2 := rfl
  have hcovered : f.covered.length = 6 + f.payload.length := by simp [Frame.covered]; omega
  have hbytes : f.bytes = f.dest :: f.src :: f.hops :: f.kind :: f.tag :: BitVec.ofNat 8 f.payload.length ::
      (f.payload ++ crcBytes f.covered) := rfl
  have htake : f.bytes.take (6 + f.payload.length) = f.covered := List.take_left' hcovered
  rw [hbytes] at htake ⊢
  simp only [readFrame, hlen, htake, List.take_left, List.drop_left, List.length_append, hcrc, Nat.lt_irrefl, if_false,
    if_neg (Nat.not_lt.mpr h), List.take_of_length_le (Nat.le_of_eq hcrc), if_true]

/-! ## The decision -/

theorem ownAddr_eq (h : s.addressed own) : s.ownAddr = some own := by
  obtain ⟨rfl, h1, h254⟩ := h
  simp [State.ownAddr, isNode, h1, h254]

/-- A good frame of another node with the part's address goes to the dispatcher (R161). -/
theorem frameReceived_own (ha : s.addressed own) (hp : f.payload.length ≤ 64) (hs : f.src ≠ own) (hd : f.dest = own) :
    frameReceived f.bytes s = dispatch f s.seeking := by
  have hown : s.seeking.ownAddr = some own := ownAddr_eq ha
  have hdec : decideFrame (some own) f = { consume := true, forward := false } := by
    simp [decideFrame, hs, hd]
  rw [frameReceived, readFrame_bytes hp]
  show decided f s.seeking = _
  simp [decided, hown, hdec]

/-! ## The section (R13, R14) -/

theorem candidate_iff {address : SectionParams → Nat} {src : Byte} {k : Sec} : s.candidate address src k ↔
    ((s.active k).any fun p => p.enabled && address p == src.toNat) = true := by
  simp [State.candidate, Option.any_eq_true]

theorem matching_none {address : SectionParams → Nat} {src : Byte} (h : ∀ k, ¬ s.candidate address src k) :
    s.matching address src = none := by
  refine List.find?_eq_none.mpr fun k _ => ?_
  rw [← candidate_iff]
  exact h k

/-- The match is the lowest-numbered candidate. -/
theorem matching_some {address : SectionParams → Nat} {src : Byte} {k : Sec} (h : s.lowestCandidate address src k) :
    s.matching address src = some k := by
  obtain ⟨hk, hlow⟩ := h
  have hsorted : allSecs.Pairwise (· < ·) := by decide
  have hmem : ∀ j : Sec, j ∈ allSecs := by decide
  obtain ⟨as, bs, hsplit⟩ := List.append_of_mem (hmem k)
  refine List.find?_eq_some_iff_append.mpr ⟨candidate_iff.mp hk, as, bs, hsplit, fun j hj => ?_⟩
  rw [hsplit] at hsorted
  have hlt := (List.pairwise_append.mp hsorted).2.2 j hj k (List.mem_cons_self ..)
  rw [Bool.not_eq_true', ← Bool.not_eq_true, ← candidate_iff]
  exact hlow j hlt

/-- The rows of the frames from front-ends and readers: kind, command, and the address that is matched (R186). -/
def deliveryRows : List (Byte × (Sec → List Byte → Instr) × (SectionParams → Nat)) :=
  [(0x10, .measurementFrame, (·.frontendAddr)), (0x20, .arrive, (·.readerAddr)), (0x21, .depart, (·.readerAddr)),
    (0x22, .raiseReq, (·.readerAddr)), (0x23, .state, (·.readerAddr))]

/-- A frame of these kinds is no request. -/
theorem requestCommand_low {kind : Byte} (h : kind.toNat < 0x40) (r : Req) : requestCommand kind r = none :=
  if_neg (Nat.not_le.mpr h)

/-- A measurement frame is routed by its front-end (R13). -/
theorem route_measurement (hk : f.kind = 0x10) (hd : f.dest ≠ 255) :
    route s f = (s.matching (·.frontendAddr) f.src).map fun k => .measurementFrame k f.payload := by
  have hlow : f.kind.toNat < 0x40 := by rw [hk]; decide
  simp only [route, requestCommand_low hlow, hd, decide_false, Bool.false_eq_true, if_false]
  rw [if_pos hk]

/-- A truck frame is routed by its reader (R14). -/
theorem route_truck {c : Sec → List Byte → Instr} (hk : f.kind.toNat < 0x40) (h10 : f.kind ≠ 0x10) (hd : f.dest ≠ 255)
    (hc : ∀ k, truckCommand f.kind k f.payload = some (c k f.payload)) :
    route s f = (s.matching (·.readerAddr) f.src).map fun k => c k f.payload := by
  simp only [route, requestCommand_low hk, hd, h10, decide_false, Bool.false_eq_true, if_false, hc]
  cases s.matching (·.readerAddr) f.src <;> rfl

/-- A frame of a row is routed as the row's command for the section matched (R13, R14, R162). -/
theorem route_row {row : Byte × (Sec → List Byte → Instr) × (SectionParams → Nat)} (hrow : row ∈ deliveryRows)
    (hk : f.kind = row.1) (hd : f.dest ≠ 255) :
    route s f = (s.matching row.2.2 f.src).map fun k => row.2.1 k f.payload := by
  simp only [deliveryRows, List.mem_cons, List.not_mem_nil, or_false] at hrow
  rcases hrow with rfl | hrow
  · exact route_measurement hk hd
  · rcases hrow with rfl | rfl | rfl | rfl <;>
      exact route_truck (by rw [hk]; decide) (by rw [hk]; decide) hd fun k => by rw [hk]; rfl

/-- The command of a row is no request. -/
theorem isRequest_row {row : Byte × (Sec → List Byte → Instr) × (SectionParams → Nat)} (hrow : row ∈ deliveryRows)
    (k : Sec) (p : List Byte) : isRequest (row.2.1 k p) = false := by
  simp only [deliveryRows, List.mem_cons, List.not_mem_nil, or_false] at hrow
  rcases hrow with rfl | rfl | rfl | rfl | rfl <;> rfl

end Sys2Proof.Machine

open Sys2Proof Sys2Proof.Machine

/-- Settles O16: a good frame of the part's is routed by its row to the section matched, which is the lowest-numbered
candidate. -/
theorem sectionFrameDelivered : Obligations.SectionFrameDelivered := by
  intro s own f ha hp hs hd row hrow hk
  have hbroadcast : f.dest ≠ 255 := by
    rintro h
    have : own.toNat = 255 := by rw [← hd, h]; rfl
    obtain ⟨-, -, h254⟩ := ha
    omega
  have hroute := route_row (s := s.seeking) hrow hk hbroadcast
  have hexec : exec (.frameReceived f.bytes) s = .next (dispatch f s.seeking) :=
    congrArg _ (frameReceived_own ha hp hs hd)
  refine ⟨fun k hlow => ?_, fun hnone => ?_⟩
  · rw [matching_some (s := s.seeking) hlow] at hroute
    rw [hexec, dispatch, hroute]
    simp [isRequest_row hrow, hand]
    rfl
  · rw [matching_none (s := s.seeking) hnone] at hroute
    rw [hexec, dispatch, hroute]
    rfl

end

section
/-! The power-on state, item by item. -/

namespace Sys2Proof.Machine

open Sys2Proof

@[simp] theorem State.powerOn_sec (pins : Pins) (k : Sec) : (State.powerOn pins).sec k = Section.powerOn := by
  simp [State.powerOn]

@[simp] theorem State.powerOn_class (pins : Pins) (c : Fin 4) :
    (State.powerOn pins).table.classes[c] = ClassRecord.undefined := by
  simp [State.powerOn]

end Sys2Proof.Machine

open Sys2Proof Sys2Proof.Machine

/-- Settles O3: POWER_ON_RESET puts the power-on state in place and leaves what waits outside. -/
theorem powerOnValues : Obligations.PowerOnValues := by
  intro pins s
  refine ⟨{ State.powerOn pins with pending := s.pending, portA := s.portA }, rfl, rfl, rfl, rfl, rfl, rfl, rfl, rfl, rfl,
    rfl, rfl, rfl, State.powerOn_class pins, fun k => ?_⟩
  have hk : ({ State.powerOn pins with pending := s.pending, portA := s.portA } : State).sec k = Section.powerOn :=
    State.powerOn_sec pins k
  rw [hk]
  exact ⟨rfl, rfl, rfl, rfl, rfl, rfl, rfl, rfl, rfl, rfl⟩

end

section
/-! A capture's stages (R47 to R49) and its activation, section by section (R8 to R12), each as the claims say it. -/

namespace Sys2Proof.Machine

open Sys2Proof Host

variable {s : State} {j k : Sec}

/-! ## The result records -/

theorem foldl_modSec_rest (f : Section → Section) (l : List Sec) : ∀ s : State,
    l.foldl (fun s k => s.modSec k f) s = { s with sections := (l.foldl (fun s k => s.modSec k f) s).sections } := by
  induction l with
  | nil => exact fun _ => rfl
  | cons k l ih => intro s; rw [List.foldl_cons, ih]; rfl

theorem foldl_modSec_sec (f : Section → Section) {l : List Sec} (hl : l.Nodup) (j : Sec) : ∀ s : State,
    (l.foldl (fun s k => s.modSec k f) s).sec j = if j ∈ l then f (s.sec j) else s.sec j := by
  induction l with
  | nil => intro s; rw [if_neg List.not_mem_nil]; rfl
  | cons k l ih =>
    intro s
    obtain ⟨hk, hl'⟩ := List.nodup_cons.mp hl
    rw [List.foldl_cons, ih hl', State.modSec_sec]
    by_cases hj : j = k
    · subst hj
      rw [if_neg hk, if_pos rfl, if_pos (List.mem_cons_self ..)]
    · simp only [hj, if_false, List.mem_cons, false_or]

/-- A change of every section in turn is a change of all of them at once. -/
theorem foldl_modSec (f : Section → Section) (s : State) :
    allSecs.foldl (fun s k => s.modSec k f) s = { s with sections := s.sections.map f } := by
  refine State.ext_sec (fun j => ?_) (foldl_modSec_rest f allSecs s)
  rw [foldl_modSec_sec f (by decide), if_pos ((by decide : ∀ j : Sec, j ∈ allSecs) j)]
  simp only [State.sec, Fin.getElem_fin, Vector.getElem_map]

/-- The kind of a capture. -/
def kindOf (clear : Bool) : CaptureKind := if clear then .clear else .keep

theorem captureAt_eq (clear fell rose : Bool) (a : Acc) :
    captureAt (kindOf clear) fell rose a = a.captured clear fell rose := by
  cases clear <;> rfl

/-- A capture is its first three stages, and then the activation (R48, R49). -/
theorem capture_eq (clear : Bool) (s : State) : capture (kindOf clear) s =
    ((activateAll (s.afterCapture clear)).1,
      ok (.capture (kindOf clear) s.ring.errors (activateAll (s.afterCapture clear)).2)) := by
  have hall : captureAll (kindOf clear) s.chip.fellSeen s.chip.roseSeen
      { s with chip := { s.chip with fellSeen := false, roseSeen := false } } =
      { s with
        chip := { s.chip with fellSeen := false, roseSeen := false }
        sections := s.sections.map fun x => { x with
          acc := x.acc.captured clear s.chip.fellSeen s.chip.roseSeen } } := by
    simp only [captureAll, State.modAcc, captureAt_eq]
    exact foldl_modSec _ _
  simp only [capture, hall]
  cases clear <;> rfl

@[simp] theorem State.afterCapture_sec (clear : Bool) : (s.afterCapture clear).sec k =
    { s.sec k with acc := (s.sec k).acc.captured clear s.chip.fellSeen s.chip.roseSeen } := by
  simp [State.afterCapture, State.sec]

/-! ## Whether a section is held, or activated -/

/-- A structural field changes as the claims say it (R8). -/
theorem changesStructure_eq (c : Copies) (new : SectionParams) (h : c.pending = some new) :
    changesStructure c.active new = c.structural := by
  unfold Copies.structural changesStructure changes
  rw [h]
  cases c.active with
  | none => rfl
  | some o => simp [bne, Bool.beq_eq_decide_eq, Option.all_some]

theorem inService_iff (st : SecState) : inService st = decide (serving st) := by cases st <;> rfl

/-- A section is held exactly where its waiting copy changes a structural field in service (R8). -/
theorem holdsBack_eq {new : SectionParams} (hp : (s.sec k).copies.pending = some new) (hne : s.active k ≠ some new) :
    s.holdsBack k = (changesStructure (s.active k) new && inService (s.sec k).seq.state) := by
  have hne' : (s.sec k).copies.pending ≠ (s.sec k).copies.active := fun e => hne (e.symm.trans hp)
  rw [inService_iff]
  simp [State.holdsBack, State.active, changesStructure_eq _ _ hp, hne']

theorem holdsBack_settled (h : (s.sec k).copies.settled) : s.holdsBack k = false := by
  rcases h with h | h
  · simp [State.holdsBack, Copies.structural, h]
  · simp [State.holdsBack, h]

/-- Where nothing waits, nothing is activated (R8). -/
theorem activated_settled (h : (s.sec k).copies.settled) : s.activated k = s := by
  unfold State.activated
  dsimp only
  split
  · rfl
  · rename_i new hp
    rcases h with h | h
    · rw [h] at hp; cases hp
    · exact if_pos (.inl (h ▸ hp))

theorem activated_held (h : s.holdsBack k = true) : s.activated k = s := by
  unfold State.activated
  dsimp only
  split
  · rfl
  · exact if_pos (.inr h)

/-! ## One section activated -/

theorem changes_eq {α : Type} [DecidableEq α] (old : Option SectionParams) (new : SectionParams) (f : SectionParams → α) :
    changes old new f = old.all fun o => f o != f new := by
  unfold changes
  congr 1
  funext o
  simp [bne, Bool.beq_eq_decide_eq]

/-- The measurement unit's part of an activation, figure by figure (R10). -/
theorem measActivated_eq (old : Option SectionParams) (new : SectionParams) (m : Meas) : measActivated old new m =
    let on : Bool := new.enabled && !old.any (·.enabled)
    let ended : Bool := !new.enabled && old.any (·.enabled)
    let moved : Bool := old.all fun o => o.frontendAddr != new.frontendAddr
    { m with
      watchdog := if on then some new.measMs else if ended then none else m.watchdog
      cal := if ended || moved then none else m.cal
      offset := if moved then 0 else m.offset
      offsetValid := if moved then false else m.offsetValid
      lastSeq := if moved then none else m.lastSeq } := by
  rw [measActivated, changes_eq]
  cases old.any (·.enabled) <;> cases new.enabled <;> cases old.all fun o => o.frontendAddr != new.frontendAddr <;> rfl

/-- The protection unit's part of an activation (R12, R79). -/
theorem protActivated_eq (old : Option SectionParams) (new : SectionParams) (q : Prot) : protActivated old new q =
    { q with sustained :=
      if (old.all fun o => o.sustainSamples != new.sustainSamples) && decide (new.sustainSamples ≤ q.sustained) then
        new.sustainSamples - 1 else q.sustained } := by
  rw [protActivated, changes_eq]
  split <;> rfl

/-- The part of an activation that comes before the budget: the copies moved, and what measurement and protection make of
their notices (R9, R10, R12). -/
def Section.moved (x : Section) (new : SectionParams) : Section :=
  { x with
    copies := { x.copies with active := some new, prior := x.copies.active }
    meas := measActivated x.copies.active new x.meas
    prot := protActivated x.copies.active new x.prot }

/-- An activation is that part and the budget anew (R11, R132). -/
theorem Section.activated_eq {x : Section} {new : SectionParams} (hp : x.copies.pending = some new) :
    x.activated new = { x.moved new with adm := { x.adm with bEff := x.rebudgeted new } } := by
  simp only [Section.activated, Section.moved, measActivated_eq, protActivated_eq, hp]

theorem relimited_eq (x : Section) (new : SectionParams) : x.relimited new =
    (changes x.copies.active new (·.limitAmps) || changes x.copies.active new (·.derateShare)) := by
  rw [changes_eq, changes_eq, Section.relimited]
  cases x.copies.active <;> rfl

/-- The budget the sources give once the copies have moved (R132). -/
theorem budgetOf_moved {new : SectionParams} (hr : (s.sec k).relimited new = true) :
    (s.modSec k fun x => x.moved new).budgetOf k = (s.sec k).rebudgeted new := by
  have hactive : (s.modSec k fun x => x.moved new).active k = some new := by simp [State.active, Section.moved]
  have hprot : ((s.sec k).moved new).prot.undervolt = (s.sec k).prot.undervolt := by
    simp [Section.moved, protActivated_eq]
  have hadm : ((s.sec k).moved new).adm = (s.sec k).adm := rfl
  have hacc : ((s.sec k).moved new).acc = (s.sec k).acc := rfl
  simp only [State.budgetOf, budget, hactive, State.modSec_sec, if_true, hprot, hadm, hacc, Section.rebudgeted, hr,
    Bool.true_eq_false, if_false]

/-- The state with the copies moved and the budget computed anew, where the limit or share changes, is that of the
activated section. -/
theorem recompute_moved {new : SectionParams} (hp : (s.sec k).copies.pending = some new)
    (hr : (s.sec k).relimited new = true) :
    recompute k (s.modSec k fun x => x.moved new) = s.modSec k fun x => x.activated new := by
  rw [recompute, budgetOf_moved hr, State.modAdm, State.modSec_modSec]
  exact modSec_congr (Section.activated_eq hp).symm

/-- Without a change of limit or share the budget stands. -/
theorem modSec_moved {new : SectionParams} (hp : (s.sec k).copies.pending = some new)
    (hr : (s.sec k).relimited new = false) :
    (s.modSec k fun x => x.moved new) = s.modSec k fun x => x.activated new := by
  refine modSec_congr ?_
  rw [Section.activated_eq hp, Section.rebudgeted, if_pos hr]
  rfl

/-! ## The revocation (R152) -/

/-- Holders within the limit are all spared. -/
theorem excess_of_le {amps : Nat → Nat} {limit : Nat} {l : List Nat} (h : (l.map amps).sum ≤ limit) :
    excess amps limit l = [] := by
  cases l with
  | nil => rfl
  | cons t older => exact if_neg (Nat.not_lt.mpr h)

theorem lowerAll_nil (reason : LowerReason) (s : State) : lowerAll [] reason s = s := settle_nil s

/-- Lowering the newest holders above the limit, where there are any (R152). -/
theorem lowerAll_overLimit (limit : Nat) (s : State) :
    lowerAll (s.overLimit k limit) .limit s =
      if limit < s.counted (s.sec k).adm.holders then lowerAll (s.overLimit k limit) .limit s else s := by
  split
  · rfl
  · rename_i h
    have hsum : ((s.standing k).reverse.map s.reservedOf).sum = s.counted (s.sec k).adm.holders := by
      rw [List.map_reverse, List.sum_reverse]
      simp [State.standing, State.counted, bne, Bool.beq_eq_decide_eq]
    rw [State.overLimit, excess_of_le (hsum ▸ Nat.not_lt.mp h), lowerAll_nil]

/-- The notices of a changed limit or share once the copies have moved: the revocation, and a pass where the budget rose
(R11, R132, R152). -/
theorem limitNotice_moved {new : SectionParams} (hp : (s.sec k).copies.pending = some new)
    (hr : (s.sec k).relimited new = true) : limitNotice k (s.modSec k fun x => x.moved new) =
      let moved := s.modSec k fun x => x.activated new
      let spared := lowerAll (moved.overLimit k new.limitAmps) .limit moved
      if (s.sec k).adm.bEff < (s.sec k).rebudgeted new then runPass k spared else spared := by
  have hactive : (s.modSec k fun x => x.moved new).active k = some new := by simp [State.active, Section.moved]
  have hold : ((s.modSec k fun x => x.moved new).sec k).adm.bEff = (s.sec k).adm.bEff := by simp [Section.moved]
  have hnew : ((s.modSec k fun x => x.activated new).sec k).adm.bEff = (s.sec k).rebudgeted new := by
    simp [Section.activated]
  simp only [limitNotice, recompute_moved hp hr, hactive, hold, hnew]

/-- One section at a capture's activation, as the store decides it (R8 to R12, R79, R132, R152). -/
theorem activate_eq {new : SectionParams} (hp : (s.sec k).copies.pending = some new) : activate k new s =
    let x := s.sec k
    let moved := s.modSec k fun x => x.activated new
    let spared := if x.relimited new = true ∧ new.limitAmps < s.counted x.adm.holders then
      lowerAll (moved.overLimit k new.limitAmps) .limit moved else moved
    if x.adm.bEff < x.rebudgeted new then runPass k spared else spared := by
  have hmoved : activate k new s =
      if (s.sec k).relimited new = true then limitNotice k (s.modSec k fun x => x.moved new)
      else s.modSec k fun x => x.moved new := by
    rw [relimited_eq]; rfl
  rw [hmoved]
  by_cases hr : (s.sec k).relimited new = true
  · have hcounted : (s.modSec k fun x => x.activated new).counted (s.sec k).adm.holders =
        s.counted (s.sec k).adm.holders := rfl
    have hholders : ((s.modSec k fun x => x.activated new).sec k).adm.holders = (s.sec k).adm.holders := by
      simp [Section.activated]
    have hspared := lowerAll_overLimit (k := k) new.limitAmps (s.modSec k fun x => x.activated new)
    rw [hholders, hcounted] at hspared
    rw [if_pos hr, limitNotice_moved hp hr]
    simp only [hr, true_and, ← hspared]
  · have hr' : (s.sec k).relimited new = false := by simpa using hr
    have hsame : (s.sec k).rebudgeted new = (s.sec k).adm.bEff := if_pos hr'
    simp only [hr', Bool.false_eq_true, if_false, false_and, hsame, Nat.lt_irrefl]
    exact modSec_moved hp hr'

/-- What the store does at one section: the claims' activation, and the section in the held list where it is held (R8). -/
theorem activateAt_eq (k : Sec) (s : State) :
    activateAt k s = (s.activated k, bif s.holdsBack k then [k] else []) := by
  cases hp : (s.sec k).copies.pending with
  | none =>
    have hset : (s.sec k).copies.settled := .inl hp
    simp [activateAt, hp, activated_settled hset, holdsBack_settled hset]
  | some new =>
    by_cases ha : s.active k = some new
    · have hset : (s.sec k).copies.settled := .inr (hp.trans ha.symm)
      simp [activateAt, hp, ha, activated_settled hset, holdsBack_settled hset]
    · by_cases hb : s.holdsBack k = true
      · have hb' := hb
        rw [holdsBack_eq hp ha] at hb'
        simp [activateAt, hp, ha, activated_held hb, hb, hb']
      · have hb' := hb
        rw [holdsBack_eq hp ha] at hb'
        have ha' : (s.sec k).copies.active ≠ some new := ha
        simp only [activateAt, hp, ha, if_false, hb', State.activated, ha', hb, activate_eq hp]
        rfl

/-! ## All sections in turn -/

/-- The sections that a run over these sections in turn holds. -/
def heldAlong : State → List Sec → List Sec
  | _, [] => []
  | s, k :: ks => (bif s.holdsBack k then [k] else []) ++ heldAlong (s.activated k) ks

theorem foldl_activateAt (l : List Sec) : ∀ (s : State) (held : List Sec),
    l.foldl (fun (x : State × List Sec) k => ((activateAt k x.1).1, x.2 ++ (activateAt k x.1).2)) (s, held) =
      (l.foldl State.activated s, held ++ heldAlong s l) := by
  induction l with
  | nil => intro s held; simp [heldAlong]
  | cons k l ih =>
    intro s held
    show l.foldl _ ((activateAt k s).1, held ++ (activateAt k s).2) = _
    rw [ih, activateAt_eq, List.append_assoc]
    rfl

theorem heldAlong_append (l : List Sec) (k : Sec) : ∀ s : State,
    heldAlong s (l ++ [k]) = heldAlong s l ++ bif (l.foldl State.activated s).holdsBack k then [k] else [] := by
  induction l with
  | nil => intro s; simp [heldAlong]
  | cons j l ih => intro s; simp only [List.cons_append, heldAlong, ih, List.foldl_cons, List.append_assoc]

theorem filter_single {α : Type} (p : α → Bool) (a : α) : [a].filter p = bif p a then [a] else [] := by
  rw [List.filter_cons, List.filter_nil]
  cases p a <;> rfl

/-- A section is held on what the ones before it left. -/
theorem heldAlong_take (s : State) : ∀ n ≤ 8, heldAlong s (allSecs.take n) =
    (allSecs.take n).filter fun k => (s.activatedTo k.val).holdsBack k := by
  intro n
  induction n with
  | zero => intro _; rfl
  | succ n ih =>
    intro hn
    have htake : allSecs.take (n + 1) = allSecs.take n ++ [⟨n, hn⟩] :=
      (by decide : ∀ k : Sec, allSecs.take (k.val + 1) = allSecs.take k.val ++ [k]) ⟨n, hn⟩
    rw [htake, heldAlong_append, ih (Nat.le_of_succ_le hn), List.filter_append, filter_single]
    rfl

/-- The sections that a capture's activation holds (R8). -/
def State.heldList (s : State) : List Sec :=
  ([0, 1, 2, 3, 4, 5, 6, 7] : List Sec).filter fun k => (s.activatedTo k.val).holdsBack k

/-- The activation of a capture: the sections in ascending order, each on what the ones before it left (R8). -/
theorem activateAll_eq (s : State) : activateAll s = (s.activatedTo 8, s.heldList) :=
  (foldl_activateAt allSecs s []).trans (congrArg (Prod.mk _) (heldAlong_take s 8 (Nat.le_refl 8)))

/-! ## Capture requests -/

/-- What an activation leaves of the ring: the claimed places stand (R165). -/
theorem Aside.claimed {t : State} (h : Aside s t) : t.ring.claimed = s.ring.claimed := by rw [h.ring]

/-- An activation is a lowering and a pass on the state as it is, or on that with the section's items changed. -/
theorem activated_aside (s : State) (k : Sec) :
    Aside s (s.activated k) ∨ ∃ new, (s.sec k).copies.pending = some new ∧
      Aside (s.modSec k fun x => x.activated new) (s.activated k) := by
  unfold State.activated
  dsimp only
  split
  · exact .inl (Local.refl s)
  · rename_i new hp
    split
    · exact .inl (Local.refl s)
    · refine .inr ⟨new, hp, ?_⟩
      have hspared : ∀ c : Prop, [Decidable c] → Aside (s.modSec k fun x => x.activated new)
          (if c then lowerAll ((s.modSec k fun x => x.activated new).overLimit k new.limitAmps) .limit
            (s.modSec k fun x => x.activated new) else s.modSec k fun x => x.activated new) := by
        intro c _
        split
        · exact Aside.lowerAll _ _ _
        · exact Local.refl _
      split
      · exact Aside.trans (hspared _) (Aside.runPass k _)
      · exact hspared _

/-- An activation leaves the places claimed, and the copies of every other section. -/
theorem activated_claimed (s : State) (k : Sec) : (s.activated k).ring.claimed = s.ring.claimed := by
  rcases activated_aside s k with h | ⟨new, -, h⟩ <;> exact h.claimed

theorem activated_copies (s : State) (h : j ≠ k) : ((s.activated k).sec j).copies = (s.sec j).copies := by
  rcases activated_aside s k with ha | ⟨new, -, ha⟩
  · exact ha.copies j
  · rw [ha.copies j]; simp [h]

theorem foldl_activated_claimed (l : List Sec) : ∀ s : State,
    (l.foldl State.activated s).ring.claimed = s.ring.claimed := by
  induction l with
  | nil => exact fun _ => rfl
  | cons k l ih => exact fun s => (ih _).trans (activated_claimed s k)

theorem foldl_activated_copies (l : List Sec) : ∀ s : State, j ∉ l →
    ((l.foldl State.activated s).sec j).copies = (s.sec j).copies := by
  induction l with
  | nil => exact fun _ _ => rfl
  | cons k l ih =>
    intro s hj
    exact (ih _ (List.not_mem_of_not_mem_cons hj)).trans (activated_copies s (List.ne_of_not_mem_cons hj))

/-- The copies of a section are its own until its turn comes. -/
theorem activatedTo_copies (s : State) (k : Sec) : ((s.activatedTo k.val).sec k).copies = (s.sec k).copies :=
  foldl_activated_copies _ s ((by decide : ∀ k : Sec, k ∉ allSecs.take k.val) k)

/-- A claimed place given up. -/
def State.unclaimed (s : State) : State := { s with ring := { s.ring with claimed := s.ring.claimed - 1 } }

/-- A reply placed in a claimed place. -/
theorem fill_reply {u : State} (h : u.ring.claimed ≠ 0) (kind : Byte) (r : Req) (a : Answer) :
    fill (replyFrame kind r a) u = u.unclaimed.withReply kind r a.status a.field a.data := by
  rw [fill, if_neg h]
  rfl

/-- The kind byte of a capture request (R186). -/
def captureByte (clear : Bool) : Byte := if clear then 0x4E else 0x4F

/-- Both capture requests are served alike (R48, R49). -/
theorem exec_capture (clear : Bool) (r : Req) (s : State) : exec (captureOf clear r) s =
    .next (serveCapture (captureOf clear r) (captureByte clear) (kindOf clear) r s) := by
  cases clear <;> rfl

/-- The state after a capture of what `s` is: the records written, and the sections activated. -/
def State.capturedAll (s : State) (clear : Bool) : State := (s.afterCapture clear).activatedTo 8

theorem claimed_afterCapture (n : Nat) (clear : Bool) :
    (s.claimed n).afterCapture clear = (s.afterCapture clear).claimed n := rfl

/-- A capture request without payload is the capture and the activation (R48, R49, R186). -/
theorem onEmpty_capture {p : List Byte} (hp : p = []) (clear : Bool) (s : State) :
    onEmpty p (capture (kindOf clear)) s =
      (s.capturedAll clear, ok (.capture (kindOf clear) s.ring.errors (s.afterCapture clear).heldList)) := by
  rw [onEmpty, if_pos hp, capture_eq, activateAll_eq, State.capturedAll]

theorem capturedAll_claimed (s : State) (clear : Bool) : (s.capturedAll clear).ring.claimed = s.ring.claimed := by
  rw [State.capturedAll, State.activatedTo, foldl_activated_claimed]
  rfl

/-- A broadcast capture is carried out with no reply, or ignored (R50, R171). -/
theorem exec_capture_broadcast {clear : Bool} {r : Req} (hn : s.noRestart) (hp : r.payload = [])
    (hb : r.broadcast = true) : exec (captureOf clear r) s = .next (
      if s.ramp.broadcastCapture then (take (captureOf clear r) s).capturedAll clear
      else take (captureOf clear r) s) := by
  rw [exec_capture, serveCapture, if_pos hb, takeRequest_none _ hn]
  simp only [take_ramp, hp, List.isEmpty_nil, Bool.and_true, capture_eq, activateAll_eq, State.capturedAll]

/-- An addressed capture is carried out with its reply's place claimed, which its reply then fills (R48 to R50, R173). -/
theorem exec_capture_addressed {clear : Bool} {r : Req} (hn : s.noRestart) (hp : r.payload = [])
    (hb : r.broadcast = false) (hroom : s.roomFor 1) : exec (captureOf clear r) s = .next
      ((((take (captureOf clear r) s).claimed 1).capturedAll clear).unclaimed.withReply (captureByte clear) r .ok 0
        (.capture (kindOf clear) s.ring.errors
          (((take (captureOf clear r) s).claimed 1).afterCapture clear).heldList)) := by
  generalize hc : captureOf clear r = c
  have herrors : ((take c s).claimed 1).ring.errors = s.ring.errors := by simp [State.claimed]
  have hclaimed : (((take c s).claimed 1).capturedAll clear).ring.claimed ≠ 0 := by
    rw [capturedAll_claimed]; exact Nat.succ_ne_zero _
  rw [← hc, exec_capture, serveCapture, if_neg (by simp [hb]), serve_room _ _ _ _ hn hb hroom, onEmpty_capture hp, hc,
    fill_reply hclaimed, herrors, ok]

theorem unclaimed_claimed (s : State) : (s.claimed 1).unclaimed = s := rfl

/-! ## Captures that activate nothing -/

/-- A structural change waits: the copies differ. -/
theorem structural_waits {c : Copies} (h : c.structural = true) : c.pending ≠ c.active := by
  intro e
  rw [Copies.structural, e] at h
  cases hc : c.active <;> simp [hc] at h

theorem holdsBack_structural (h : (s.sec k).copies.structural = true) (hs : serving (s.sec k).seq.state) :
    s.holdsBack k = true := by
  simp [State.holdsBack, structural_waits h, h, hs]

/-- Where each section of a list has nothing waiting or is held, a run over them leaves the state as it is. -/
theorem foldl_activated_idle {l : List Sec} (h : ∀ k ∈ l, s.holdsBack k = true ∨ (s.sec k).copies.settled) :
    l.foldl State.activated s = s := by
  induction l with
  | nil => rfl
  | cons k l ih =>
    have hk : s.activated k = s := (h k (List.mem_cons_self ..)).elim activated_held activated_settled
    rw [List.foldl_cons, hk, ih fun j hj => h j (List.mem_cons_of_mem _ hj)]

theorem activatedTo_idle (h : ∀ k, s.holdsBack k = true ∨ (s.sec k).copies.settled) (n : Nat) : s.activatedTo n = s := by
  rw [State.activatedTo, foldl_activated_idle fun k _ => h k]

/-- Two rising lists of the same sections are the same list. -/
theorem eq_of_rising {l m : List Sec} (hl : l.Pairwise (· < ·)) (hm : m.Pairwise (· < ·)) (h : ∀ k, k ∈ l ↔ k ∈ m) :
    l = m := by
  have hnodup : ∀ {l : List Sec}, l.Pairwise (· < ·) → l.Nodup := fun hl => hl.imp fun hlt => Fin.ne_of_lt hlt
  exact ((List.perm_ext_iff_of_nodup (hnodup hl) (hnodup hm)).mpr h).eq_of_pairwise
    (fun a b _ _ hab hba => absurd (Fin.lt_trans hab hba) (Fin.lt_irrefl a)) hl hm

/-- The held list names the sections held, in ascending order (R8). -/
theorem heldList_idle {held : List Sec} (hsorted : held.Pairwise (· < ·)) (hheld : ∀ k ∈ held, s.holdsBack k = true)
    (hset : ∀ k, k ∉ held → (s.sec k).copies.settled) : s.heldList = held := by
  have hidle : ∀ k, s.holdsBack k = true ∨ (s.sec k).copies.settled := fun k =>
    (Decidable.em (k ∈ held)).imp (hheld k) (hset k)
  have hmem : ∀ k : Sec, k ∈ ([0, 1, 2, 3, 4, 5, 6, 7] : List Sec) := by decide
  simp only [State.heldList, activatedTo_idle hidle]
  have hrising : ([0, 1, 2, 3, 4, 5, 6, 7] : List Sec).Pairwise (· < ·) := by decide
  refine eq_of_rising (hrising.filter _) hsorted fun k => ⟨fun hk => Decidable.byContradiction fun hn => ?_, fun hk => List.mem_filter.mpr ⟨hmem k, hheld k hk⟩⟩
  have hback := (List.mem_filter.mp hk).2
  rw [holdsBack_settled (hset k hn)] at hback
  cases hback

/-- What a capture finds of the copies and the sequencers is what stood before it. -/
theorem afterCapture_copies (c : Instr) (clear : Bool) (k : Sec) :
    ((((take c s).afterCapture clear).sec k).copies = (s.sec k).copies) ∧
      (((take c s).afterCapture clear).sec k).seq = (s.sec k).seq := by simp

end Sys2Proof.Machine

open Sys2Proof Sys2Proof.Machine

/-- Settles O37: where every waiting copy is held the activation changes nothing, and a capture is its first stages. -/
theorem captureWritesRecords : Obligations.CaptureWritesRecords := by
  intro s r clear held hn hp hsorted hheld hset c
  have hheld' : ∀ k ∈ held, ((take c s).afterCapture clear).holdsBack k = true := fun k hk => by
    obtain ⟨hcopies, hseq⟩ := afterCapture_copies (s := s) c clear k
    exact holdsBack_structural (by rw [hcopies]; exact (hheld k hk).1) (by rw [hseq]; exact (hheld k hk).2)
  have hset' : ∀ k, k ∉ held → (((take c s).afterCapture clear).sec k).copies.settled := fun k hk => by
    rw [(afterCapture_copies (s := s) c clear k).1]; exact hset k hk
  have hidle : ∀ k, ((take c s).afterCapture clear).holdsBack k = true ∨
      (((take c s).afterCapture clear).sec k).copies.settled := fun k =>
    (Decidable.em (k ∈ held)).imp (hheld' k) (hset' k)
  refine ⟨fun hb hroom => ?_, fun hb => ?_⟩
  · have hlist : (((take c s).afterCapture clear).claimed 1).heldList = held := heldList_idle hsorted hheld' hset'
    have hidle' : ∀ k, (((take c s).afterCapture clear).claimed 1).holdsBack k = true ∨
        ((((take c s).afterCapture clear).claimed 1).sec k).copies.settled := hidle
    have hall := activatedTo_idle hidle' 8
    rw [exec_capture_addressed hn hp hb hroom, State.capturedAll, claimed_afterCapture, hlist, hall, unclaimed_claimed]
    rfl
  · rw [exec_capture_broadcast hn hp hb, State.capturedAll, activatedTo_idle hidle]

/-- Settles O38: the store's run over the eight sections is the claims' activation of each in turn. -/
theorem pendingActivated : Obligations.PendingActivated := by
  intro s r clear hn hp c captured claimed
  refine ⟨fun hb hroom => ?_, fun hb hyes => ?_⟩
  · have hclaimed : ((take (captureOf clear r) s).afterCapture clear).claimed 1 = claimed := rfl
    dsimp only [c]
    rw [exec_capture_addressed hn hp hb hroom, State.capturedAll, State.heldList, claimed_afterCapture, hclaimed]
    rfl
  · dsimp only [c, captured]
    rw [exec_capture_broadcast hn hp hb, if_pos hyes, State.capturedAll]

end

section
/-! A lowered limit (R152): which holders are lowered, that their LOWERs wait in the lane, and what else stands. -/

namespace Sys2Proof.Machine

open Sys2Proof Host

variable {s : State} {k : Sec}

/-! ## LOWERs in the priority lane -/

/-- A placed frame stands in the lane (R164). -/
theorem mem_placeIn_self (known : Nat → Bool) (lane : List PriorityFrame) (f : PriorityFrame) :
    f ∈ placeIn known lane f := by
  unfold placeIn
  split
  · rename_i h
    obtain ⟨g, hg, hkey⟩ := List.any_eq_true.mp h
    exact List.mem_map.mpr ⟨g, hg, if_pos hkey⟩
  · split <;> exact List.mem_append_right _ (List.mem_singleton_self f)

/-- A frame of another key that is not stale stays in the lane (R164). -/
theorem mem_placeIn_of_mem {known : Nat → Bool} {lane : List PriorityFrame} {f g : PriorityFrame} (hg : g ∈ lane)
    (hkey : f.sameKey g = false) (hstale : g.isStale known = false) : g ∈ placeIn known lane f := by
  unfold placeIn
  split
  · exact List.mem_map.mpr ⟨g, hg, if_neg (by simp [hkey])⟩
  · split
    · exact List.mem_append_left _ ((List.mem_eraseP_of_neg (by simp [hstale])).mpr hg)
    · exact List.mem_append_left _ hg

/-- Lowering leaves no truck in HANDOVER where none was. -/
theorem Lowered.noHandover {ids : List Nat} {reason : LowerReason} {u : State} (h : Lowered ids reason s u)
    (hs : ∀ i, s.pantoOf i ≠ some .handover) (i : Nat) : u.pantoOf i ≠ some .handover := by
  have hi := hs i
  unfold State.pantoOf at hi ⊢
  rw [h i]
  cases hx : s.truck i with
  | none => simp
  | some x =>
    rw [hx] at hi
    simp only [Option.map_some]
    split
    · simp [Truck.lowered]
    · exact hi

/-- A truck in LOWERING stays so. -/
theorem Lowered.lowering {ids : List Nat} {reason : LowerReason} {u : State} (h : Lowered ids reason s u) {i : Nat}
    (hi : s.pantoOf i = some .lowering) : u.pantoOf i = some .lowering := by
  unfold State.pantoOf at hi ⊢
  rw [h i]
  obtain ⟨x, hx, hp⟩ := Option.map_eq_some_iff.mp hi
  simp [hx, hp]

/-- The LOWER of a truck that is LOWERING outlasts the lowering of another truck. -/
theorem lowerCore_keeps_sent {t i dest : Nat} {r reason : LowerReason} (ht : s.pantoOf t ≠ some .handover)
    (hi : s.pantoOf i = some .lowering) (hf : .lower i dest r ∈ s.ring.priority) :
    .lower i dest r ∈ (lowerCore t reason s).1.ring.priority := by
  obtain ⟨y, hy, hlow⟩ := Option.map_eq_some_iff.mp hi
  unfold lowerCore
  split
  · exact hf
  · rename_i x hx
    split
    · rename_i hc
      have hne : t ≠ i := by
        rintro rfl
        obtain rfl : x = y := Option.some.inj (hx.symm.trans hy)
        rw [hlow] at hc
        cases hc
      have hplain : x.panto ≠ .handover := fun e => ht (by simp [State.pantoOf, hx, e])
      simp only [if_neg hplain]
      unfold placeLower
      split
      · exact hf
      · refine mem_placeIn_of_mem hf (by simpa [PriorityFrame.sameKey] using hne) ?_
        have hknown := (modTruck_hasTruck s t i (f := fun x => { x with
          panto := .lowering, window := some { kind := .lower, left := (s.classOf x).lowerMs }
          lowerReason := some reason }) fun _ => rfl).trans (hasTruck_of_truck hy)
        simp [PriorityFrame.isStale, hknown]
    · exact hf

/-- A truck that is GRANTED or RAISED is sent its LOWER, to the reader of its section (R131, R144). -/
theorem lowerCore_sent {i : Nat} {x : Truck} {p : SectionParams} (reason : LowerReason) (hx : s.truck i = some x)
    (hp : x.panto = .granted ∨ x.panto = .raised) (ha : s.active x.sec = some p) :
    .lower i p.readerAddr reason ∈ (lowerCore i reason s).1.ring.priority := by
  have hc : x.panto.canLower = true := by rcases hp with e | e <;> rw [e] <;> rfl
  have hne : x.panto ≠ .handover := by rcases hp with e | e <;> rw [e] <;> nofun
  simp only [lowerCore, hx, hc, if_true, if_neg hne, placeLower, State.reader, State.modTruck_active, ha, Option.map_some]
  exact mem_placeIn_self _ _ _

theorem lowerEach_keeps_sent {i dest : Nat} {r : LowerReason} (reason : LowerReason) (ts : List Nat) : ∀ {s : State},
    (∀ u, s.pantoOf u ≠ some .handover) → s.pantoOf i = some .lowering → .lower i dest r ∈ s.ring.priority →
    .lower i dest r ∈ (lowerEach reason ts s).1.ring.priority := by
  induction ts with
  | nil => exact fun _ _ hf => hf
  | cons t ts ih =>
    intro s hs hi hf
    obtain ⟨-, -, hlow⟩ := lowerCore_plain (reason := reason) (hs t)
    exact ih (hlow.noHandover hs) (hlow.lowering hi) (lowerCore_keeps_sent (hs t) hi hf)

/-- Without a truck in HANDOVER, each truck of a lowering of several that was GRANTED or RAISED is sent its LOWER. -/
theorem lowerEach_sent (reason : LowerReason) (ts : List Nat) : ∀ {s : State}, (∀ u, s.pantoOf u ≠ some .handover) →
    LowersSent ts reason s (lowerEach reason ts s).1 := by
  induction ts with
  | nil => intro s _ i x p hi; cases hi
  | cons t ts ih =>
    intro s hs i x p hi hx hp ha
    obtain ⟨-, hrest, hlow⟩ := lowerCore_plain (reason := reason) (hs t)
    have hsafe := hlow.noHandover hs
    by_cases hit : i = t
    · subst hit
      have hnow : (lowerCore i reason s).1.pantoOf i = some .lowering := by
        simp [State.pantoOf, hlow i, hx, hp, Truck.lowered]
      exact lowerEach_keeps_sent reason ts hsafe hnow (lowerCore_sent reason hx hp ha)
    · have hx' : (lowerCore t reason s).1.truck i = some x := by simp [hlow i, hx, hit]
      have ha' : (lowerCore t reason s).1.active x.sec = some p := by rw [hrest]; exact ha
      exact ih hsafe i x p ((List.mem_cons.mp hi).resolve_left hit) hx' hp ha'

/-! ## The holders above the limit (R152) -/

/-- From the newest holder on, those are lowered without whom the rest come to at most the limit, and no more. -/
theorem excess_spec (amps : Nat → Nat) (limit : Nat) (l : List Nat) : ∃ kept, l = excess amps limit l ++ kept ∧
    (kept.map amps).sum ≤ limit ∧
    ∀ newer t, excess amps limit l = newer ++ [t] → limit < amps t + (kept.map amps).sum := by
  induction l with
  | nil => exact ⟨[], rfl, Nat.zero_le _, fun newer t h => by simp [excess] at h⟩
  | cons t older ih =>
    obtain ⟨kept, hsplit, hfits, hlast⟩ := ih
    by_cases hover : limit < ((t :: older).map amps).sum
    · have hcons : excess amps limit (t :: older) = t :: excess amps limit older := if_pos hover
      rw [hcons]
      refine ⟨kept, by rw [List.cons_append, ← hsplit], hfits, fun newer i h => ?_⟩
      cases newer with
      | nil =>
        obtain ⟨rfl, hnil⟩ := List.cons.inj h
        rw [hnil] at hsplit
        rw [hsplit] at hover
        simpa using hover
      | cons _ newer => exact hlast newer i (List.cons.inj h).2
    · have hnil : excess amps limit (t :: older) = [] := if_neg hover
      rw [hnil]
      exact ⟨t :: older, rfl, Nat.not_lt.mp hover, fun newer i h => by simp at h⟩

/-- A holder above the limit is one that stands: not LOWERING, so GRANTED or RAISED. -/
theorem standing_of_over {limit i : Nat} (hi : i ∈ s.overLimit k limit) :
    i ∈ (s.sec k).adm.holders ∧ s.pantoOf i ≠ some .lowering := by
  obtain ⟨kept, hsplit, -, -⟩ := excess_spec s.reservedOf limit (s.standing k).reverse
  have hmem : i ∈ (s.standing k).reverse := hsplit ▸ List.mem_append_left _ hi
  simpa [State.standing] using hmem

/-! ## A lowered limit activated -/

/-- The record with another limit_amps. -/
def SectionParams.withLimit (p : SectionParams) (limit : Nat) : SectionParams := { p with limitAmps := limit }

@[simp] theorem SectionParams.withLimit_limitAmps (p : SectionParams) (limit : Nat) :
    (p.withLimit limit).limitAmps = limit := rfl

@[simp] theorem SectionParams.withLimit_derateShare (p : SectionParams) (limit : Nat) :
    (p.withLimit limit).derateShare = p.derateShare := rfl

/-- A capture finds one copy that waits: that of the LIVE section `k`, which lowers its limit and nothing else; and no
truck is in HANDOVER (R152). -/
structure State.Relimits (s : State) (k : Sec) (old : SectionParams) (limit : Nat) : Prop where
  settled : ∀ j, j ≠ k → (s.sec j).copies.settled
  active : (s.sec k).copies.active = some old
  lower : limit < old.limitAmps
  pending : (s.sec k).copies.pending = some (old.withLimit limit)
  live : (s.sec k).adm.view = .live
  steady : (s.sec k).prot.undervolt = false
  budget : (s.sec k).adm.bEff = s.budgetOf k
  plain : ∀ i, s.pantoOf i ≠ some .handover

/-- The section with the lower limit in force. -/
def State.relimitedAt (s : State) (k : Sec) (old : SectionParams) (limit : Nat) : State :=
  s.modSec k fun x => x.activated (old.withLimit limit)

/-- The lower limit in force, and the holders it no longer covers lowered. -/
def State.revoked (s : State) (k : Sec) (old : SectionParams) (limit : Nat) : State :=
  (lowerEach .limit (s.overLimit k limit) (s.relimitedAt k old limit)).1

/-- An activation of a lower limit changes the copies and the budget, and nothing else of its section (R9 to R12). -/
theorem activated_relimit {x : Section} {old : SectionParams} (limit : Nat) (h : x.copies.active = some old) :
    x.activated (old.withLimit limit) = { x with
      copies := { pending := some (old.withLimit limit), active := some (old.withLimit limit)
                  prior := some old }
      adm := { x.adm with bEff := x.rebudgeted (old.withLimit limit) } } := by
  cases he : old.enabled <;> simp [Section.activated, SectionParams.withLimit, h, he]

variable {old : SectionParams} {limit : Nat}

theorem relimitedAt_sec (h : (s.sec k).copies.active = some old) (j : Sec) : (s.relimitedAt k old limit).sec j =
    if j = k then { s.sec k with
      copies := { pending := some (old.withLimit limit), active := some (old.withLimit limit)
                  prior := some old }
      adm := { (s.sec k).adm with bEff := (s.sec k).rebudgeted (old.withLimit limit) } }
    else s.sec j := by
  rw [State.relimitedAt, State.modSec_sec, activated_relimit limit h]

/-- Every reader of an active copy stands where it stood. -/
theorem relimitedAt_reader (h : (s.sec k).copies.active = some old) (j : Sec) {p : SectionParams}
    (hp : s.active j = some p) : ∃ q, (s.relimitedAt k old limit).active j = some q ∧ q.readerAddr = p.readerAddr := by
  simp only [State.active, relimitedAt_sec h] at hp ⊢
  split
  · subst_vars
    obtain rfl : old = p := Option.some.inj (h.symm.trans hp)
    exact ⟨_, rfl, rfl⟩
  · exact ⟨p, hp, rfl⟩

theorem relimited_relimit {x : Section} (h : x.copies.active = some old) (hlow : limit < old.limitAmps) :
    x.relimited (old.withLimit limit) = true := by
  simp [Section.relimited, SectionParams.withLimit, h]; omega

theorem relimitedAt_holders (h : (s.sec k).copies.active = some old) :
    ((s.relimitedAt k old limit).sec k).adm.holders = (s.sec k).adm.holders := by
  rw [relimitedAt_sec h, if_pos rfl]

theorem rebudgeted_relimit {x : Section} (h : x.copies.active = some old) (hlow : limit < old.limitAmps)
    (hlive : x.adm.view = .live) (hsteady : x.prot.undervolt = false) :
    x.rebudgeted (old.withLimit limit) =
      if x.acc.derate then limit * old.derateShare / 8 else limit := by
  have hr : x.relimited (old.withLimit limit) = true := relimited_relimit h hlow
  simp [Section.rebudgeted, hr, hlive, hsteady]

namespace State.Relimits

variable (h : s.Relimits k old limit)
include h

theorem notHeld : s.holdsBack k = false := by
  simp [State.holdsBack, Copies.structural, SectionParams.withLimit, h.pending, h.active]

/-- The budget does not rise. -/
theorem noRise : ¬ (s.sec k).adm.bEff < (s.sec k).rebudgeted (old.withLimit limit) := by
  have hbudget : s.budgetOf k = if (s.sec k).acc.derate then old.limitAmps * old.derateShare / 8 else old.limitAmps := by
    simp [State.budgetOf, Machine.budget, State.active, h.live, h.steady, h.active]
  rw [h.budget, hbudget, rebudgeted_relimit h.active h.lower h.live h.steady]
  have hshare : limit * old.derateShare / 8 ≤ old.limitAmps * old.derateShare / 8 :=
    Nat.div_le_div_right (Nat.mul_le_mul_right _ (Nat.le_of_lt h.lower))
  have := h.lower
  split <;> omega

theorem overLimit_relimitedAt : (s.relimitedAt k old limit).overLimit k limit = s.overLimit k limit := by
  unfold State.overLimit State.standing
  rw [relimitedAt_holders h.active]
  rfl

/-- The activation of the section lowers the holders above the limit, and starts no pass (R11, R152). -/
theorem activated : s.activated k = s.revoked k old limit := by
  have hne : (s.sec k).copies.active ≠ some (old.withLimit limit) := by
    rw [h.active]
    intro e
    have hlimit : old.limitAmps = limit := congrArg SectionParams.limitAmps (Option.some.inj e)
    exact absurd h.lower (by omega)
  have hr := relimited_relimit h.active h.lower
  have hplain : lowerAll (s.overLimit k limit) .limit (s.relimitedAt k old limit) = s.revoked k old limit :=
    lowerAll_plain h.plain
  have hspared := lowerAll_overLimit (k := k) limit (s.relimitedAt k old limit)
  rw [h.overLimit_relimitedAt, hplain, relimitedAt_holders h.active] at hspared
  unfold State.activated
  simp only [h.pending, hne, h.notHeld, Bool.false_eq_true, or_self, if_false, hr, true_and, if_neg h.noRise]
  rw [hspared, ← hplain, ← h.overLimit_relimitedAt]
  rfl

/-- The whole activation is that of the one section. -/
theorem activatedTo : s.activatedTo 8 = s.revoked k old limit := by
  obtain ⟨as, bs, hsplit⟩ := List.append_of_mem ((by decide : ∀ j : Sec, j ∈ allSecs) k)
  have hnodup : (as ++ k :: bs).Nodup := hsplit ▸ (by decide : allSecs.Nodup)
  have has : ∀ j ∈ as, j ≠ k := by
    rintro j hj rfl
    exact (List.nodup_append.mp hnodup).2.2 j hj j (List.mem_cons_self ..) rfl
  have hbs : ∀ j ∈ bs, j ≠ k := by
    rintro j hj rfl
    exact (List.nodup_cons.mp (List.nodup_append.mp hnodup).2.1).1 hj
  have hafter : ∀ j ∈ bs, ((s.activated k).sec j).copies.settled := fun j hj => by
    rw [activated_copies s (hbs j hj)]
    exact h.settled j (hbs j hj)
  have hfold : s.activatedTo 8 = allSecs.foldl State.activated s := by
    rw [State.activatedTo]; congr 1
  rw [hfold, hsplit, List.foldl_append, foldl_activated_idle fun j hj => .inr (h.settled j (has j hj)),
    List.foldl_cons, foldl_activated_idle fun j hj => .inr (hafter j hj), h.activated]

/-- No section is held. -/
theorem heldList : s.heldList = [] := by
  refine List.filter_eq_nil_iff.mpr fun j _ => ?_
  have hcopies := activatedTo_copies s j
  rw [Bool.not_eq_true]
  by_cases hj : j = k
  · subst hj
    simp [State.holdsBack, Copies.structural, SectionParams.withLimit, hcopies, h.pending, h.active]
  · exact holdsBack_settled (by rw [hcopies]; exact h.settled j hj)

/-- The revocation changes truck records and the priority lane alone, and lowers the holders above the limit (R144). -/
theorem revoked_plain : s.revoked k old limit = { s.relimitedAt k old limit with
      table := { s.table with trucks := (s.revoked k old limit).table.trucks }
      ring := { s.ring with priority := (s.revoked k old limit).ring.priority } } ∧
    Lowered (s.overLimit k limit) .limit s (s.revoked k old limit) ∧
    LowersSent (s.overLimit k limit) .limit (s.relimitedAt k old limit) (s.revoked k old limit) := by
  obtain ⟨-, hrest, hlow⟩ := lowerEach_plain .limit (s.overLimit k limit) (s.relimitedAt k old limit) h.plain
  exact ⟨hrest, hlow, lowerEach_sent .limit _ h.plain⟩

theorem revoked_ring : (s.revoked k old limit).ring =
    { s.ring with priority := (s.revoked k old limit).ring.priority } := congrArg State.ring h.revoked_plain.1

/-- A capture's first stages, and a place claimed, leave what a lowered limit rests on. -/
theorem captured (c : Instr) (clear : Bool) (n : Nat) :
    (((take c s).afterCapture clear).claimed n).Relimits k old limit where
  settled j hj := by simpa using h.settled j hj
  active := by simpa using h.active
  lower := h.lower
  pending := by simpa using h.pending
  live := by simpa using h.live
  steady := by simpa using h.steady
  budget := by simpa [State.budgetOf, State.active, Acc.captured] using h.budget
  plain i := by simpa [State.pantoOf, State.truck, State.afterCapture] using h.plain i

end State.Relimits


theorem State.claimed_zero (s : State) : s.claimed 0 = s := rfl

/-- The places claimed are `n`. -/
def State.withClaimed (s : State) (n : Nat) : State := { s with ring := { s.ring with claimed := n } }

theorem withClaimed_self {n : Nat} (h : s.ring.claimed = n) : s.withClaimed n = s := by subst h; rfl

theorem unclaimed_eq {n : Nat} (h : s.ring.claimed = n + 1) : s.unclaimed = s.withClaimed n := by
  rw [State.unclaimed, h]; rfl

/-- What a capture leaves that lowers the limit of section `k`: of an addressed one, without its reply, for which a place
was claimed meanwhile. -/
def State.limitCaptured (s : State) (r : Req) (clear : Bool) (k : Sec) (old : SectionParams) (limit : Nat) : State :=
  ((((take (captureOf clear r) s).afterCapture clear).claimed (!r.broadcast).toNat).revoked k old limit).withClaimed
    s.ring.claimed

/-- A capture that finds such a copy, addressed or broadcast, holds no section (R50, R171). -/
theorem State.Relimits.exec_capture (h : s.Relimits k old limit) {r : Req} {clear : Bool} (hn : s.noRestart)
    (hp : r.payload = []) (hroom : r.broadcast = false → s.roomFor 1)
    (hyes : r.broadcast = true → s.ramp.broadcastCapture = true) : exec (captureOf clear r) s =
      .next (if r.broadcast then s.limitCaptured r clear k old limit
        else (s.limitCaptured r clear k old limit).withReply (captureByte clear) r .ok 0
          (.capture (kindOf clear) s.ring.errors [])) := by
  have hclaimed : ∀ n, ((((take (captureOf clear r) s).afterCapture clear).claimed n).revoked k old limit).ring.claimed =
      s.ring.claimed + n := fun n => by
    rw [(h.captured (captureOf clear r) clear n).revoked_ring]
    simp [State.claimed, State.afterCapture]
  cases hb : r.broadcast with
  | true =>
    have hall := (h.captured (captureOf clear r) clear 0).activatedTo
    rw [State.claimed_zero] at hall
    rw [exec_capture_broadcast hn hp hb, if_pos (hyes hb), State.capturedAll, hall, if_pos rfl, State.limitCaptured, hb]
    exact congrArg _ (withClaimed_self (hclaimed 0)).symm
  | false =>
    have hone := h.captured (captureOf clear r) clear 1
    rw [exec_capture_addressed hn hp hb (hroom hb), State.capturedAll, claimed_afterCapture, hone.activatedTo,
      hone.heldList, unclaimed_eq (hclaimed 1), if_neg Bool.false_ne_true, State.limitCaptured, hb]
    rfl

/-! ## What the capture leaves -/

/-- A capture's first stages, and a place claimed, leave the truck records and who stands above a limit. -/
theorem captured_truck (c : Instr) (clear : Bool) (n i : Nat) :
    (((take c s).afterCapture clear).claimed n).truck i = s.truck i := by
  simp [State.truck, State.afterCapture]

theorem captured_overLimit (c : Instr) (clear : Bool) (n : Nat) :
    (((take c s).afterCapture clear).claimed n).overLimit k limit = s.overLimit k limit := by
  simp [State.overLimit, State.standing, State.reservedOf, State.pantoOf, captured_truck]

theorem captured_active (c : Instr) (clear : Bool) (n : Nat) (j : Sec) :
    (((take c s).afterCapture clear).claimed n).active j = s.active j := by
  simp [State.active]

section
variable (h : s.Relimits k old limit) (r : Req) (clear : Bool)
include h

/-- Beside truck records and the priority lane, the state is that with the records written and the limit in force. -/
theorem State.Relimits.limitCaptured_eq : s.limitCaptured r clear k old limit =
    { ((take (captureOf clear r) s).afterCapture clear).relimitedAt k old limit with
      table := { s.table with trucks := (s.limitCaptured r clear k old limit).table.trucks }
      ring := { s.ring with
        priority := (s.limitCaptured r clear k old limit).ring.priority
        errors := if clear then 0 else s.ring.errors } } := by
  have hrest := (h.captured (captureOf clear r) clear (!r.broadcast).toNat).revoked_plain.1
  have htable : ((take (captureOf clear r) s).afterCapture clear).table = s.table := take_table s _
  have hring : ((take (captureOf clear r) s).afterCapture clear).ring =
      { s.ring with errors := if clear then 0 else s.ring.errors } := by simp [State.afterCapture]
  unfold State.limitCaptured
  generalize (((take (captureOf clear r) s).afterCapture clear).claimed (!r.broadcast).toNat).revoked k old limit = v
    at hrest ⊢
  refine (congrArg (·.withClaimed s.ring.claimed) hrest).trans ?_
  show ({ ((take (captureOf clear r) s).afterCapture clear).relimitedAt k old limit with
      table := { ((take (captureOf clear r) s).afterCapture clear).table with trucks := v.table.trucks }
      ring := { ((take (captureOf clear r) s).afterCapture clear).ring with
        priority := v.ring.priority, claimed := s.ring.claimed } } : State) = _
  rw [htable, hring]
  rfl

/-- The holders above the limit are lowered, and no other truck changes. -/
theorem State.Relimits.limitCaptured_lowered :
    Lowered (s.overLimit k limit) .limit s (s.limitCaptured r clear k old limit) := fun i => by
  have hlow := (h.captured (captureOf clear r) clear (!r.broadcast).toNat).revoked_plain.2.1 i
  rw [captured_overLimit, captured_truck] at hlow
  refine hlow.trans ?_
  simp [State.classOf, State.afterCapture]

/-- The LOWERs wait in the lane. -/
theorem State.Relimits.limitCaptured_sent :
    LowersSent (s.overLimit k limit) .limit s (s.limitCaptured r clear k old limit) := by
  intro i x p hi hx hp ha
  have hb := h.captured (captureOf clear r) clear (!r.broadcast).toNat
  have hsent := hb.revoked_plain.2.2
  rw [captured_overLimit] at hsent
  rw [← captured_active (captureOf clear r) clear (!r.broadcast).toNat] at ha
  obtain ⟨q, hq, hreader⟩ := relimitedAt_reader (limit := limit) hb.active x.sec ha
  rw [← hreader]
  exact hsent i x q hi ((captured_truck (captureOf clear r) clear (!r.broadcast).toNat i).trans hx) hp hq

/-- The section with the records written and the limit in force. -/
theorem State.Relimits.limitCaptured_sec (j : Sec) : (s.limitCaptured r clear k old limit).sec j =
    let x : Section := { s.sec j with acc := (s.sec j).acc.captured clear s.chip.fellSeen s.chip.roseSeen }
    if j = k then { x with
      copies := { pending := some (old.withLimit limit), active := some (old.withLimit limit), prior := some old }
      adm := { x.adm with bEff := if (s.sec k).acc.derate then limit * old.derateShare / 8 else limit } }
    else x := by
  have hactive : (((take (captureOf clear r) s).afterCapture clear).sec k).copies.active = some old := by
    simpa using h.active
  rw [h.limitCaptured_eq r clear]
  show (((take (captureOf clear r) s).afterCapture clear).relimitedAt k old limit).sec j = _
  rw [relimitedAt_sec hactive, rebudgeted_relimit hactive h.lower (by simpa using h.live) (by simpa using h.steady)]
  by_cases hj : j = k
  · subst hj; simp [Acc.captured]
  · simp [hj]

end

end Sys2Proof.Machine

open Sys2Proof Sys2Proof.Machine

/-- Settles O39: the activation of the lower limit lowers the newest of the standing holders, as `excess` picks them. -/
theorem limitRevokesNewest : Obligations.LimitRevokesNewest := by
  intro s r clear k old limit hn hp hroom hyes hset hact hlow hpend hlive hsteady hbudget hholders hplain amps new
  have h : s.Relimits k old limit := ⟨hset, hact, hlow, hpend, hlive, hsteady, hbudget, hplain⟩
  obtain ⟨kept, hsplit, hfits, hlast⟩ := excess_spec s.reservedOf limit (s.standing k).reverse
  have hkept : amps kept.reverse = (kept.map s.reservedOf).sum := by
    simp only [amps, List.map_reverse, List.sum_reverse]
  have hraised : ∀ i x, i ∈ s.overLimit k limit → s.truck i = some x → x.panto = .granted ∨ x.panto = .raised := by
    intro i x hi hx
    obtain ⟨hheld, hne⟩ := standing_of_over hi
    have hholds := hholders i hheld
    simp only [State.pantoOf, hx, Option.map_some, ne_eq, Option.some.injEq] at hne hholds
    exact hholds.imp_right fun e => e.resolve_right hne
  refine ⟨s.limitCaptured r clear k old limit, kept.reverse, (s.overLimit k limit).reverse,
    h.exec_capture hn hp hroom hyes, ?_, ?_, ?_, ?_, ?_, ?_, ?_, ?_, ?_, ?_, ?_⟩
  · rw [← List.reverse_append]
    exact List.reverse_eq_iff.mp hsplit
  · rw [hkept]; exact hfits
  · intro i rest hfirst
    have := hlast rest.reverse i (List.reverse_eq_cons_iff.mp hfirst)
    simp only [amps, List.map_append, List.sum_append] at hkept ⊢
    rw [hkept]
    simpa [Nat.add_comm] using this
  · intro i
    rw [h.limitCaptured_lowered r clear i]
    cases hx : s.truck i with
    | none => rfl
    | some x =>
      by_cases hi : i ∈ s.overLimit k limit
      · simp [hi, hraised i x hi hx, Truck.lowered]
      · simp [hi]
  · intro i x p hi
    exact h.limitCaptured_sent r clear i x p (List.mem_reverse.mp hi)
  · rw [h.limitCaptured_sec, if_pos rfl]
  · rw [h.limitCaptured_sec, if_pos rfl]; rfl
  · intro j
    rw [h.limitCaptured_sec]
    by_cases hj : j = k
    · subst hj; simp
    · simp [hj]
  · rw [h.limitCaptured_eq]
  · rw [h.limitCaptured_eq]; exact take_mgmt s _
  · rw [h.limitCaptured_eq]; exact take_ramp s _

end

section
/-! What a request refuses for its payload alone: its length, its section number, its position byte (R53, R91, R173 to
R175, R186). -/

namespace Sys2Proof.Machine

open Sys2Proof Host

/-- The payload of a request for one section is refused with `st`: a wrong length with BAD_REQUEST, and a section number
above 7 with BAD_SECTION (R15, R91). -/
inductive SectionRefused : List Byte → Status → Prop
  | length {p : List Byte} (h : p.length ≠ 1) : SectionRefused p .badRequest
  | number {b : Byte} (h : 8 ≤ b.toNat) : SectionRefused [b] .badSection

variable {s : State} {r : Req} {p : List Byte} {st : Status}

/-! ## The payload checks -/

theorem onSection_refused (h : SectionRefused p st) (body : Sec → State → State × Answer) (s : State) :
    onSection p body s = (s, refuse st) := by
  cases h with
  | length h => exact onSection_bad h body
  | number h => exact onSection_high h body

theorem resultAnswers_refused (h : SectionRefused p st) (hall : p ≠ [255]) (s : State) :
    resultAnswers p s = [refuse st] := by
  unfold resultAnswers
  cases h with
  | length h =>
    split
    · exact absurd rfl h
    · rfl
  | number h => simp only [secOf_none h, if_neg fun e => hall (congrArg (fun b => [b]) e)]

theorem onPosition_length {pos : Byte} (h : p.length ≠ 2) (body : Sec → State → State × Answer) :
    onPosition p pos body s = (s, refuse .badRequest) := by
  unfold onPosition
  split
  · exact absurd rfl h
  · rfl

theorem onPosition_other {b p pos : Byte} (h : p ≠ pos) (body : Sec → State → State × Answer) :
    onPosition [b, p] pos body s = (s, refuse .badRequest) := by
  rw [onPosition, if_neg h]

theorem onPosition_high {b pos : Byte} (h : 8 ≤ b.toNat) (body : Sec → State → State × Answer) :
    onPosition [b, pos] pos body s = (s, refuse .badSection) := by
  rw [onPosition, if_pos rfl, onSection_high h]

theorem readClassAnswer_length (h : p.length ≠ 1) : readClassAnswer p s = refuse .badRequest := by
  unfold readClassAnswer
  split
  · exact absurd rfl h
  · rfl

theorem readTrucksAnswer_length (h : p.length ≠ 1) : readTrucksAnswer p s = refuse .badRequest := by
  unfold readTrucksAnswer
  split
  · exact absurd rfl h
  · rfl

theorem readSectionAnswer_length (h : p.length ≠ 2) : readSectionAnswer p s = refuse .badRequest := by
  unfold readSectionAnswer
  split
  · exact absurd rfl h
  · rfl

/-! ## The requests that are not served by one body -/

/-- An addressed capture is served like the other requests (R50). -/
theorem serveCapture_addressed (hb : r.broadcast = false) (c : Instr) (kindByte : Byte) (kind : CaptureKind) :
    serveCapture c kindByte kind r s = serve c kindByte r (onEmpty r.payload (capture kind)) s := by
  rw [serveCapture, if_neg (by simp [hb])]

/-- A RESTART with a payload only answers (R174, R178). -/
theorem startRestart_refused (hp : r.payload ≠ []) :
    startRestart r s = serve (.restart r) 0x42 r (fun u => (u, refuse .badRequest)) s := by
  cases hclaim : claim 1 (takeRequest (.restart r) s) with
  | none => simp only [startRestart, serve, answerAll, hclaim]
  | some t => simp only [startRestart, serve, answerAll, hclaim, if_neg hp]

/-- READ_SECTION_STATE is refused with one reply in place of its five (R172). -/
theorem serveSectionState_refused (h : SectionRefused r.payload st) :
    serveSectionState r s = serve (.readSectionState r) 0x48 r (fun u => (u, refuse st)) s := by
  unfold serveSectionState serve
  generalize r.payload = p at h
  cases h with
  | length h =>
    split
    · rfl
    · split
      · exact absurd rfl h
      · rfl
  | number h => simp only [secOf_none h]

/-- READ_RESULTS is refused with one reply (R53). -/
theorem serveResults_refused (c : Instr) (h : SectionRefused r.payload st) (hall : r.payload ≠ [255]) :
    serveResults c r s = serve c 0x50 r (fun u => (u, refuse st)) s := by
  simp only [serveResults, serve, resultAnswers_refused h hall, List.length_singleton]

/-! ## The rows -/

section
variable (hn : s.noRestart) (hb : r.broadcast = false) (hroom : s.roomFor 1)
include hn hb hroom

/-- A request whose body refuses changes nothing beside the reply (R173). -/
theorem exec_refused {c : Instr} {kind : Byte} {body : State → State × Answer}
    (he : exec c s = .next (serve c kind r body s)) (hbody : ∀ u, body u = (u, refuse st)) :
    exec c s = .next ((take c s).withReply kind r st 0 .empty) :=
  he.trans (congrArg _ (serve_eq c kind r s hn hb hroom (hbody _)))

theorem emptyRow_refused (hp : r.payload ≠ []) : ∀ row ∈ emptyRows,
    exec (row.2 r) s = .next ((take (row.2 r) s).withReply row.1 r .badRequest 0 .empty) := by
  have hserve : ∀ {c : Instr} {kind : Byte} {body : State → State × Answer},
      exec c s = .next (serve c kind r (onEmpty r.payload body) s) →
      exec c s = .next ((take c s).withReply kind r .badRequest 0 .empty) :=
    fun he => exec_refused hn hb hroom he fun _ => onEmpty_bad hp _
  have hrestart : exec (.restart r) s = .next (serve (.restart r) 0x42 r (fun u => (u, refuse .badRequest)) s) :=
    congrArg _ (startRestart_refused hp)
  simp only [emptyRows, List.forall_mem_cons, List.not_mem_nil, false_implies, implies_true, and_true]
  exact ⟨hserve rfl, hserve rfl, exec_refused hn hb hroom hrestart fun _ => rfl, hserve rfl, hserve rfl,
    hserve (congrArg _ (serveCapture_addressed hb ..)), hserve (congrArg _ (serveCapture_addressed hb ..)), hserve rfl⟩

theorem sectionRow_refused (h : SectionRefused r.payload st) : ∀ row ∈ sectionRows,
    exec (row.2 r) s = .next ((take (row.2 r) s).withReply row.1 r st 0 .empty) := by
  have hserve : ∀ {c : Instr} {kind : Byte} {body : Sec → State → State × Answer},
      exec c s = .next (serve c kind r (onSection r.payload body) s) →
      exec c s = .next ((take c s).withReply kind r st 0 .empty) :=
    fun he => exec_refused hn hb hroom he fun _ => onSection_refused h _ _
  have hstate : exec (.readSectionState r) s =
      .next (serve (.readSectionState r) 0x48 r (fun u => (u, refuse st)) s) :=
    congrArg _ (serveSectionState_refused h)
  simp only [sectionRows, List.forall_mem_cons, List.not_mem_nil, false_implies, implies_true, and_true]
  exact ⟨exec_refused hn hb hroom hstate fun _ => rfl, hserve rfl, hserve rfl, hserve rfl, hserve rfl, hserve rfl,
    hserve rfl, hserve rfl⟩

/-- With READ_RESULTS, whose selector 255 is not a refusal (R54). -/
theorem sectionRow_results_refused (h : SectionRefused r.payload st) (hall : r.payload ≠ [255]) :
    ∀ row ∈ sectionRows ++ [(0x50, Instr.readResults)],
      exec (row.2 r) s = .next ((take (row.2 r) s).withReply row.1 r st 0 .empty) := by
  have hresults : exec (.readResults r) s = .next (serve (.readResults r) 0x50 r (fun u => (u, refuse st)) s) :=
    congrArg _ (serveResults_refused _ h hall)
  refine List.forall_mem_append.mpr ⟨sectionRow_refused hn hb hroom h, List.forall_mem_singleton.mpr ?_⟩
  exact exec_refused hn hb hroom hresults fun _ => rfl

/-- The requests whose payload has two bytes: an identifier, or a section and a selector (R186). -/
theorem pairRow_refused (h : r.payload.length ≠ 2) :
    ∀ row ∈ ([(0x4A, .removeFleet), (0x4B, .readFleet), (0x5A, .evictTruck), (0x47, .readSection)] :
      List (Byte × (Req → Instr))),
      exec (row.2 r) s = .next ((take (row.2 r) s).withReply row.1 r .badRequest 0 .empty) := by
  simp only [List.forall_mem_cons, List.not_mem_nil, false_implies, implies_true, and_true]
  and_intros <;> refine exec_refused hn hb hroom rfl fun u => ?_
  · rw [removeFleetBody, readId_none h]
  · rw [reads, readFleetAnswer, readId_none h]
  · rw [evictBody, readId_none h]
  · rw [reads, readSectionAnswer_length h]

/-- The requests whose payload has another length (R186). -/
theorem sizedRow_refused :
    ∀ row ∈ ([(0x44, .writeRamp, 4), (0x46, .writeSection, 49), (0x4C, .writeClass, 13), (0x4D, .readClass, 1),
        (0x59, .readTrucks, 1), (0x56, .maintBreakerClose, 2), (0x56, .maintBreakerOpen, 2)] :
        List (Byte × (Req → Instr) × Nat)), r.payload.length ≠ row.2.2 →
      exec (row.2.1 r) s = .next ((take (row.2.1 r) s).withReply row.1 r .badRequest 0 .empty) := by
  simp only [List.forall_mem_cons, List.not_mem_nil, false_implies, implies_true, and_true]
  and_intros <;> refine fun h => exec_refused hn hb hroom rfl fun u => ?_
  · rw [writeRampBody, readRampFields, if_neg h]
  · rw [writeSectionBody, if_neg h]
  · rw [writeClassBody, readClassHead, if_neg h]
  · rw [reads, readClassAnswer_length h]
  · rw [reads, readTrucksAnswer_length h]
  · exact onPosition_length h _
  · exact onPosition_length h _

/-- MAINT_BREAKER: the position byte is judged before the section (R91, log 26). -/
theorem positionRow_refused :
    ∀ row ∈ ([(.maintBreakerOpen, 0), (.maintBreakerClose, 1)] : List ((Req → Instr) × Byte)), ∀ b p : Byte,
      r.payload = [b, p] →
      (2 ≤ p.toNat → exec (row.1 r) s = .next ((take (row.1 r) s).withReply 0x56 r .badRequest 0 .empty)) ∧
      (p = row.2 → 8 ≤ b.toNat →
        exec (row.1 r) s = .next ((take (row.1 r) s).withReply 0x56 r .badSection 0 .empty)) := by
  have hserve : ∀ {c : Instr} {pos : Byte} {body : Sec → State → State × Answer},
      exec c s = .next (serve c 0x56 r (onPosition r.payload pos body) s) → pos.toNat < 2 → ∀ b p : Byte,
      r.payload = [b, p] →
      (2 ≤ p.toNat → exec c s = .next ((take c s).withReply 0x56 r .badRequest 0 .empty)) ∧
      (p = pos → 8 ≤ b.toNat → exec c s = .next ((take c s).withReply 0x56 r .badSection 0 .empty)) := by
    intro c pos body he hpos b p hp
    rw [hp] at he
    refine ⟨fun h2 => exec_refused hn hb hroom he fun u => onPosition_other ?_ _, fun hpp h8 => ?_⟩
    · rintro rfl; omega
    · subst hpp
      exact exec_refused hn hb hroom he fun u => onPosition_high h8 _
  simp only [List.forall_mem_cons, List.not_mem_nil, false_implies, implies_true, and_true]
  exact ⟨hserve rfl (by decide), hserve rfl (by decide)⟩

end

end Sys2Proof.Machine

open Sys2Proof Sys2Proof.Machine

/-- Settles O22: every row's body refuses such a payload, and a body that refuses leaves only its reply. -/
theorem badPayloadRefused : Obligations.BadPayloadRefused := by
  intro s r hn hb hroom
  refine ⟨fun row hrow hp => emptyRow_refused hn hb hroom hp row hrow, fun row hrow hlen => ?_,
    fun row hrow b hp h8 hall => ?_, fun row hrow hp => ?_,
    fun row hrow hlen => pairRow_refused hn hb hroom hlen row hrow,
    sizedRow_refused hn hb hroom, positionRow_refused hn hb hroom⟩
  · exact sectionRow_results_refused hn hb hroom (.length hlen) (fun e => hlen (congrArg List.length e)) row hrow
  · exact sectionRow_results_refused hn hb hroom (hp ▸ .number h8) (by simpa [hp] using hall) row hrow
  · exact sectionRow_refused hn hb hroom (hp ▸ .number (by decide)) row hrow

end

section
/-! The captured results in their replies: a record's bytes, and the replies to READ_RESULTS (R53, R54, R172, R190). -/

namespace Sys2Proof.Machine

open Sys2Proof Host

/-! ## Numbers one behind another in bytes -/

/-- Numbers one behind another in the bytes given to each (R185). -/
def laid (l : List (Nat × Nat)) : List Byte := l.flatMap fun f => toBe f.1 f.2

/-- The place, size and number of each where the first stands at `off`. -/
def placesFrom : Nat → List (Nat × Nat) → List (Nat × Nat × Nat)
  | _, [] => []
  | off, f :: l => (off, f.1, f.2) :: placesFrom (off + f.1) l

theorem laid_length (l : List (Nat × Nat)) : (laid l).length = (l.map (·.1)).sum := by
  simp [laid, List.length_flatMap, toBe_length]

/-- Each number that fits its bytes is read back from its place. -/
theorem fieldAt_laid {l : List (Nat × Nat)} : ∀ {front : List Byte}, (∀ f ∈ l, f.2 < 256 ^ f.1) →
    ∀ f ∈ placesFrom front.length l, fieldAt (front ++ laid l) f.1 f.2.1 = f.2.2 := by
  induction l with
  | nil => nofun
  | cons g l ih =>
    intro front hfit
    obtain ⟨hg, hl⟩ := List.forall_mem_cons.mp hfit
    have hsplit : laid (g :: l) = toBe g.1 g.2 ++ laid l := List.flatMap_cons
    have hfront : front.length + g.1 = (front ++ toBe g.1 g.2).length := by rw [List.length_append, toBe_length]
    refine List.forall_mem_cons.mpr ⟨?_, ?_⟩
    · rw [hsplit, fieldAt_append, fieldAt_zero _ _ _ hg]
    · rw [hsplit, ← List.append_assoc, hfront]
      exact ih hl

/-- Places behind bytes in front are reckoned from these. -/
theorem placesFrom_add (l : List (Nat × Nat)) (n off : Nat) :
    placesFrom (n + off) l = (placesFrom off l).map fun f => (n + f.1, f.2) := by
  induction l generalizing off with
  | nil => rfl
  | cons f l ih => rw [placesFrom, placesFrom, List.map_cons, Nat.add_assoc, ih]

/-! ## A result record in its bytes (R190, Table 10-7) -/

/-- The figures of a result record with their sizes, in the order of Table 10-7. -/
def ResultRecord.figures (x : ResultRecord) : List (Nat × Nat) :=
  [(2, x.captureNo), (1, x.kind.code), (1, x.marks), (8, (x.books.energy % 2 ^ 64).toNat), (4, x.books.count),
   (2, x.books.peak), (1, x.books.peakSeq.getD 0), (2, x.books.minV.getD 0), (4, x.books.maxH),
   (2, x.books.longestRun), (2, x.books.missed), (1, x.books.trips)]

theorem ResultRecord.bytes_eq (x : ResultRecord) : x.bytes = laid x.figures := by
  simp [ResultRecord.bytes, ResultRecord.figures, laid, toBeSigned]

theorem bit_le (b : Bool) (i : Nat) : bit b i ≤ 2 ^ i := by
  unfold bit
  split
  · exact Nat.le_refl _
  · exact Nat.zero_le _

theorem ResultRecord.marks_lt (x : ResultRecord) : x.marks < 256 := by
  have h0 := bit_le x.books.peakSeq.isSome 0
  have h1 := bit_le x.books.minV.isSome 1
  have h2 := bit_le x.books.overflow 2
  have h3 := bit_le x.fellSeen 3
  have h4 := bit_le x.roseSeen 4
  unfold ResultRecord.marks
  omega

theorem CaptureKind.code_lt (c : CaptureKind) : c.code < 256 := by cases c <;> decide

/-- An absent figure is carried as 0. -/
theorem getD_zero_le {o : Option Nat} {n : Nat} (h : ∀ v, o = some v → v ≤ n) : o.getD 0 ≤ n := by
  cases o with
  | none => exact Nat.zero_le n
  | some v => exact h v rfl

/-- Every figure of a record within its ranges fits its bytes (R35, R190). -/
theorem ResultRecord.figures_fit {x : ResultRecord} (h : x.books.Ok) (hno : x.captureNo < 65536) :
    ∀ f ∈ x.figures, f.2 < 256 ^ f.1 := by
  have hkind := x.kind.code_lt
  have hmarks := x.marks_lt
  have hseq := getD_zero_le h.peakSeq
  have hminV := getD_zero_le h.minV
  have hcount := h.count
  have hmaxH := h.maxH
  obtain ⟨-, -, hpeak, -, -, -, hrun, hmissed, htrips⟩ := h
  simp only [max32] at hcount hmaxH
  simp only [ResultRecord.figures, List.forall_mem_cons, List.not_mem_nil, false_implies, implies_true, and_true]
  omega

/-- The reply data of one record: position, size and section, and the record's figures behind them (R190). -/
theorem results_bytes (pos size : Nat) (k : Sec) (x : ResultRecord) : (ReplyData.results pos size k x).bytes =
    [BitVec.ofNat 8 pos, BitVec.ofNat 8 size, BitVec.ofNat 8 k.val] ++ laid x.figures := by
  rw [ReplyData.bytes, x.bytes_eq]
  simp [toBe]

/-- Each figure of the record stands at its place behind the three bytes. -/
theorem fieldAt_results (pos size : Nat) (k : Sec) {x : ResultRecord} (h : x.books.Ok) (hno : x.captureNo < 65536) :
    ∀ f ∈ placesFrom 0 x.figures, fieldAt (ReplyData.results pos size k x).bytes (3 + f.1) f.2.1 = f.2.2 := by
  intro f hf
  rw [results_bytes]
  refine fieldAt_laid (x.figures_fit h hno) (3 + f.1, f.2) ?_
  show _ ∈ placesFrom (3 + 0) x.figures
  rw [placesFrom_add]
  exact List.mem_map_of_mem hf

/-! ## The replies to READ_RESULTS -/

variable {s t : State} {r : Req} {c : Instr} {p : List Byte}

theorem resultSet_eq (s : State) (size : Nat) (ks : List Sec) (pos : Nat) : resultSet s size (pos + 1) ks =
    (ks.zipIdx pos).map fun x => ok (.results (x.2 + 1) size x.1 (s.sec x.1).acc.result) := by
  induction ks generalizing pos with
  | nil => rfl
  | cons k ks ih => rw [resultSet, ih]; rfl

/-- The answers are read from the sections alone. -/
theorem resultAnswers_congr (h : t.sections = s.sections) : resultAnswers p t = resultAnswers p s := by
  have hsec : t.sec = s.sec := by funext k; simp only [State.sec, h]
  have henabled : t.enabledSecs = s.enabledSecs := by simp only [State.enabledSecs, State.isEnabled, State.active, hsec]
  have hset : ∀ size ks, resultSet t size 1 ks = resultSet s size 1 ks := fun size ks => by
    rw [resultSet_eq, resultSet_eq, hsec]
  simp only [resultAnswers, allResults, henabled, hset, hsec]

/-- READ_RESULTS takes as many places as it has replies, which follow one another (R54, R172). -/
theorem serveResults_room (hn : s.noRestart) (hb : r.broadcast = false)
    (h : s.roomFor (resultAnswers r.payload s).length) : serveResults c r s = { take c s with ring := { s.ring with
      ordinary := s.ring.ordinary ++ (resultAnswers r.payload s).map (replyFrame 0x50 r) } } := by
  unfold serveResults
  rw [takeRequest_none c hn, if_neg (by simp [hb]), resultAnswers_congr (take_sections s c),
    answerAll_room _ _ _ (by rwa [roomFor_take]), resultAnswers_congr (t := (take c s).claimed _) (take_sections s c),
    placeReplies_claimed, take_ring]

/-- Without these places it is dropped whole (R172). -/
theorem serveResults_full (hn : s.noRestart) (hb : r.broadcast = false)
    (h : ¬ s.roomFor (resultAnswers r.payload s).length) : serveResults c r s = take c s := by
  unfold serveResults
  rw [takeRequest_none c hn, if_neg (by simp [hb]), resultAnswers_congr (take_sections s c),
    answerAll_full _ _ _ (by rwa [roomFor_take])]

/-- One reply among them is that of any other request (R173). -/
theorem serveResults_one {d : ReplyData} (hn : s.noRestart) (hb : r.broadcast = false) (hroom : s.roomFor 1)
    (h : resultAnswers r.payload s = [ok d]) : serveResults c r s = (take c s).withReply 0x50 r .ok 0 d := by
  rw [serveResults_room hn hb (by rwa [h]), h, State.withReply, State.withFrame, take_ring]
  rfl

theorem resultAnswers_one (s : State) (k : Sec) :
    resultAnswers [BitVec.ofNat 8 k.val] s = [ok (.results 1 1 k (s.sec k).acc.result)] := by
  have hne : BitVec.ofNat 8 k.val ≠ 255 := (by decide : ∀ k : Sec, BitVec.ofNat 8 k.val ≠ 255) k
  simp only [resultAnswers, if_neg hne, secOf_byte]

/-- A rising list of the enabled sections is theirs. -/
theorem enabledSecs_eq {ks : List Sec} (hks : ks.Pairwise (· < ·)) (h : ∀ k, k ∈ ks ↔ s.isEnabled k = true) :
    s.enabledSecs = ks := by
  have hrising : s.enabledSecs.Pairwise (· < ·) := (by decide : allSecs.Pairwise (· < ·)).filter _
  have hmem : ∀ k, k ∈ s.enabledSecs ↔ k ∈ ks := fun k => by
    rw [h k, State.enabledSecs, List.mem_filter, and_iff_right ((by decide : ∀ k : Sec, k ∈ allSecs) k)]
  have hperm : s.enabledSecs.Perm ks :=
    (List.perm_ext_iff_of_nodup (hrising.imp Fin.ne_of_lt) (hks.imp Fin.ne_of_lt)).mpr hmem
  exact hperm.eq_of_pairwise (fun _ _ _ _ hab hba => absurd (Fin.lt_trans hab hba) (Fin.lt_irrefl _)) hrising hks

theorem resultAnswers_none (h : s.enabledSecs = []) : resultAnswers [255] s = [ok .noResults] := by
  simp only [resultAnswers, allResults, if_true, h]

theorem resultAnswers_all (h : s.enabledSecs ≠ []) : resultAnswers [255] s = s.enabledSecs.zipIdx.map fun x =>
    ok (.results (x.2 + 1) s.enabledSecs.length x.1 (s.sec x.1).acc.result) := by
  simp only [resultAnswers, allResults, if_true, if_neg h, resultSet_eq]

theorem resultAnswers_all_length (h : s.enabledSecs ≠ []) : (resultAnswers [255] s).length = s.enabledSecs.length := by
  rw [resultAnswers_all h, List.length_map, List.length_zipIdx]

/-- READ_RESULTS ALL appends one reply for each enabled section, numbered in ascending order (R54, R190). -/
theorem serveResults_all (hn : s.noRestart) (hb : r.broadcast = false) (hp : r.payload = [255])
    (hne : s.enabledSecs ≠ []) (hroom : s.roomFor s.enabledSecs.length) : serveResults c r s =
      { take c s with ring := { s.ring with
          ordinary := s.ring.ordinary ++ s.enabledSecs.zipIdx.map fun x =>
            replyFrame 0x50 r (ok (.results (x.2 + 1) s.enabledSecs.length x.1 (s.sec x.1).acc.result)) } } := by
  rw [serveResults_room hn hb (by rwa [hp, resultAnswers_all_length hne]), hp, resultAnswers_all hne, List.map_map]
  rfl

end Sys2Proof.Machine

open Sys2Proof Sys2Proof.Machine

/-- Settles O26: the replies are the answers in claimed places, and a record's bytes are its figures one behind
another. -/
theorem resultsRead : Obligations.ResultsRead := by
  refine ⟨⟨rfl, fun pos size k x hok hno => ⟨?_, ?_, fieldAt_results pos size k hok hno⟩⟩, fun s r hn hb => ⟨?_, ?_⟩⟩
  · simp only [results_bytes, List.length_append, laid_length]; rfl
  · simp only [results_bytes]; rfl
  · intro k hp hroom
    exact congrArg _ (serveResults_one hn hb hroom (hp ▸ resultAnswers_one s k))
  · intro ks hp hrising hmem
    obtain rfl := enabledSecs_eq hrising hmem
    refine ⟨fun hnil hroom => congrArg _ (serveResults_one hn hb hroom (hp ▸ resultAnswers_none hnil)),
      fun hne hroom => congrArg Host.Outcome.next (serveResults_all hn hb hp hne hroom),
      fun hne hfull => congrArg _ (serveResults_full hn hb ?_)⟩
    rwa [hp, resultAnswers_all_length hne]

end

section
/-! Trips (R93, R96 to R98, R148, R149): the trip path, said once for the failed line test and for TRIP_REQUEST in each
energised state, and what the protection unit makes of the answer. -/

namespace Sys2Proof.Machine

open Sys2Proof Host

variable {s t : State} {k : Sec} {p : SectionParams} {reason : TripReason}

/-! ## Notices raised and other changes -/

/-- The ATTENTION that the next notice raised sends: the list is empty, the supervisor's address is a node's, and the
ordinary lane has a place (R165, R183). -/
def State.attention (s : State) : List OrdinaryFrame :=
  if (s.mgmt.notices = [] ∧ isNode s.straps.supaddr = true) ∧ s.ring.ordinary.length + s.ring.claimed < 16 then
    [.attention]
  else []

/-- A notice raised changes the notice list and the ordinary lane, and reads nothing but these, the claimed places and
the straps (R181, R183). -/
theorem raise_eq (key : Option Sec) (d : NoticeData) (s : State) : raise key d s = { s with
    mgmt := { s.mgmt with notices := raiseIn key d s.mgmt.notices }
    ring := { s.ring with ordinary := s.ring.ordinary ++ s.attention } } := by
  unfold raise State.attention
  dsimp only
  by_cases hc : s.mgmt.notices = [] ∧ isNode s.straps.supaddr = true
  · by_cases hp : s.ring.ordinary.length + s.ring.claimed < 16
    · rw [if_pos hc, offer_eq, State.offered, if_pos hp, if_pos ⟨hc, hp⟩]
      rfl
    · rw [if_pos hc, offer_eq, State.offered, if_neg hp, if_neg fun h => hp h.2, List.append_nil]
  · rw [if_neg hc, if_neg fun h => hc h.1, List.append_nil]

/-- Raising a notice and changing a section may change places. -/
theorem raise_modSec (key : Option Sec) (d : NoticeData) (s : State) (k : Sec) (f : Section → Section) :
    raise key d (s.modSec k f) = (raise key d s).modSec k f := by
  rw [raise_eq, raise_eq]
  rfl

/-- Raising a notice and placing a frame in the priority lane may change places. -/
theorem raise_placePriority (key : Option Sec) (d : NoticeData) (f : PriorityFrame) (s : State) :
    raise key d (placePriority f s) = placePriority f (raise key d s) := by
  rw [raise_eq, raise_eq]
  rfl

/-- A LOCKOUT notice raised where the trip locks the section out (R97, R98). -/
def State.lockoutRaised (s : State) (locked : Bool) (k : Sec) (reason : TripReason) (attempts : Nat) : State :=
  if locked then raise (some k) (.lockout reason attempts) s else s

section
variable (s : State) (locked : Bool) (k : Sec) (reason : TripReason) (n : Nat)

@[simp] theorem lockoutRaised_sections : (s.lockoutRaised locked k reason n).sections = s.sections := by
  unfold State.lockoutRaised; split
  · rw [raise_eq]
  · rfl

@[simp] theorem lockoutRaised_table : (s.lockoutRaised locked k reason n).table = s.table := by
  unfold State.lockoutRaised; split
  · rw [raise_eq]
  · rfl

@[simp] theorem lockoutRaised_sec (j : Sec) : (s.lockoutRaised locked k reason n).sec j = s.sec j := by
  simp only [State.sec, lockoutRaised_sections]

@[simp] theorem lockoutRaised_active (j : Sec) : (s.lockoutRaised locked k reason n).active j = s.active j := by
  simp only [State.active, lockoutRaised_sec]

theorem lockoutRaised_modSec (j : Sec) (f : Section → Section) :
    (s.modSec j f).lockoutRaised locked k reason n = (s.lockoutRaised locked k reason n).modSec j f := by
  unfold State.lockoutRaised; split
  · exact raise_modSec _ _ s j f
  · rfl

theorem lockoutRaised_placePriority (f : PriorityFrame) :
    (placePriority f s).lockoutRaised locked k reason n = placePriority f (s.lockoutRaised locked k reason n) := by
  unfold State.lockoutRaised; split
  · exact raise_placePriority _ _ f s
  · rfl

end

/-! ## The notice to the admission unit -/

/-- A section that is not LIVE, and whose units know it. -/
theorem views_ne_live (ht : s.told k) (hst : (s.sec k).seq.state ≠ .live) :
    (s.sec k).adm.view ≠ .live ∧ (s.sec k).prot.view ≠ .live :=
  ⟨ht.2 ▸ hst, ht.1 ▸ hst⟩

/-- Only handover entries are lost on leaving LIVE (R148). -/
theorem dropHandovers_ordinary (hq : ∀ e ∈ (s.sec k).adm.queue, e.kind = .ordinary) : dropHandovers k s = s := by
  have hnone : (s.sec k).adm.queue.filter (fun e => e.kind = .handover) = [] :=
    List.filter_eq_nil_iff.mpr fun e he => by simp [hq e he]
  have hall : (s.sec k).adm.queue.filter (fun e => e.kind ≠ .handover) = (s.sec k).adm.queue :=
    List.filter_eq_self.mpr fun e he => by simp [hq e he]
  unfold dropHandovers
  simp only [hnone, List.map_nil, lowerEach]
  refine State.ext_sec (fun j => ?_) rfl
  rw [State.modAdm_sec]
  split
  · rename_i hj
    subst hj
    simp only [hall, List.isEmpty_nil, Bool.and_true]
  · rfl

/-- The admission unit told that a section without handover entries is no longer energised, or never was: the budget is
0, and on OFF, with nothing queued, the stall mark is cleared (R132, R133, R148). -/
theorem admNotice_ordinary {new : SecState} (hq : ∀ e ∈ (s.sec k).adm.queue, e.kind = .ordinary) (hnew : new ≠ .live)
    (hoff : new = .off → (s.sec k).adm.queue = []) : admNotice k new .plain s = s.modSec k fun x => { x with
      adm := { x.adm with view := new, bEff := 0, stall := if new = .off then false else x.adm.stall } } := by
  have hbudget : recompute k (s.modAdm k fun a => { a with view := new }) =
      s.modSec k fun x => { x with adm := { x.adm with view := new, bEff := 0 } } := by
    rw [recompute_eq (by simpa using hnew)]
    exact State.modSec_modSec ..
  unfold admNotice
  dsimp only
  rw [hbudget, if_pos rfl, dropHandovers_ordinary (by simpa using hq), ite_self]
  split
  · rename_i h
    rw [denyQueue_nil (by simpa using hoff h), State.modSec_modSec]
    rfl
  · rfl

/-! ## The revocation (R149) -/

/-- Where every truck of a list is in LOWERING, a lowering of them changes nothing (R144). -/
theorem lowerEach_lowering (reason : LowerReason) : ∀ (ts : List Nat), (∀ i ∈ ts, s.pantoOf i = some .lowering) →
    lowerEach reason ts s = (s, []) := by
  intro ts
  induction ts with
  | nil => exact fun _ => rfl
  | cons i ts ih =>
    intro h
    obtain ⟨hi, hts⟩ := List.forall_mem_cons.mp h
    obtain ⟨x, hx, hp⟩ := Option.map_eq_some_iff.mp hi
    have hcore : lowerCore i reason s = (s, []) := by simp [lowerCore, hx, hp, Panto.canLower]
    simp only [lowerEach, hcore, ih hts, List.append_nil]

/-- Holders in LOWERING stay as they stand at a revocation (R149). -/
theorem revoke_lowering {reason : LowerReason} (h : ∀ i ∈ (s.sec k).adm.holders, s.pantoOf i = some .lowering) :
    revoke k reason s = s := by
  unfold revoke lowerAll
  rw [lowerEach_lowering reason _ h]
  exact settle_nil s

/-- A breaker command in the lane outlasts the placement of a LOWER (R164). -/
theorem command_mem_lowerCore {dest : Nat} {c : BreakerCmd} (i : Nat) (reason : LowerReason)
    (h : .command k dest c ∈ s.ring.priority) : .command k dest c ∈ (lowerCore i reason s).1.ring.priority := by
  have hplace : ∀ (j : Sec) (u : State), .command k dest c ∈ u.ring.priority →
      .command k dest c ∈ (placeLower i reason j u).ring.priority := fun j u hu => by
    unfold placeLower
    split
    · exact hu
    · exact mem_placeIn_of_mem hu rfl rfl
  unfold lowerCore
  split
  · exact h
  · split
    · refine hplace _ _ ?_
      split <;> exact h
    · exact h

theorem command_mem_lowerEach {dest : Nat} {c : BreakerCmd} (reason : LowerReason) (ts : List Nat) : ∀ {s : State},
    .command k dest c ∈ s.ring.priority → .command k dest c ∈ (lowerEach reason ts s).1.ring.priority := by
  induction ts with
  | nil => exact id
  | cons i ts ih => exact fun h => ih (command_mem_lowerCore i reason h)

theorem Revoked.sections {u : State} (h : Revoked k p s t u) : u.sections = t.sections := by
  rw [h.rest]

/-- Setting the section in both states keeps what a revocation leaves. -/
theorem Revoked.modSec {u : State} (h : Revoked k p s t u) (x : Section) :
    Revoked k p s (t.modSec k fun _ => x) (u.modSec k fun _ => x) where
  rest := by
    refine (congrArg (·.modSec k fun _ => x) h.rest).trans ?_
    rfl
  opened := h.opened
  lowered := h.lowered
  sent := h.sent

/-- The lane is what the revocation leaves of it, whatever was placed before. -/
theorem Revoked.unplaced {u : State} {f : PriorityFrame} (h : Revoked k p s (placePriority f t) u) :
    Revoked k p s t u :=
  ⟨h.rest, h.opened, h.lowered, h.sent⟩

/-- With an OPEN in the lane and no truck in HANDOVER, the revocation of a section with reason TRIP leaves what
`Revoked` says, against any state of the same trucks, holders and active copies (R84, R149). -/
theorem revoke_revoked (hh : ∀ i, t.pantoOf i ≠ some .handover) (htable : t.table = s.table)
    (hholders : (t.sec k).adm.holders = (s.sec k).adm.holders) (hactive : ∀ j, t.active j = s.active j)
    (hopen : .command k p.frontendAddr .openCmd ∈ t.ring.priority) : Revoked k p s t (revoke k .trip t) := by
  have htruck : ∀ i, t.truck i = s.truck i := fun i => by simp only [State.truck, htable]
  have hclass : ∀ x, t.classOf x = s.classOf x := fun x => by simp only [State.classOf, htable]
  have hrevoke : revoke k .trip t = (lowerEach .trip (s.sec k).adm.holders t).1 := by
    unfold revoke
    rw [lowerAll_plain hh, hholders]
  obtain ⟨-, hrest, hlow⟩ := lowerEach_plain .trip (s.sec k).adm.holders t hh
  rw [hrevoke]
  refine ⟨hrest, command_mem_lowerEach _ _ hopen, fun i => ?_, fun i x q hi hx hp ha => ?_⟩
  · simpa only [htruck, hclass] using hlow i
  · exact lowerEach_sent .trip _ hh i x q hi ((htruck i).trans hx) hp ((hactive _).trans ha)

/-! ## Where a trip takes the sequencer -/

/-- A trip of a section in this state counts an attempt (R97, R98). -/
def countsAttempt (st : SecState) : Bool := st != .draining && st != .maint

/-- The attempts once the trip is acted (R97, R98). -/
def Seq.triedAttempts (q : Seq) : Nat := if countsAttempt q.state then q.attempts + 1 else q.attempts

/-- The trip locks the section out (R97, R98). -/
def Seq.locksOut (q : Seq) (p : SectionParams) : Bool :=
  q.state == .maint || (countsAttempt q.state && (!p.autoReclose || p.maxAttempts < q.triedAttempts))

/-- The state the trip enters (R97, R98). -/
def Seq.tripEnters (q : Seq) (p : SectionParams) : SecState :=
  if q.state = .draining then .off else if q.locksOut p then .lockout else .tripped

/-- The sequencer of an energised section after a trip (R97, R98). -/
def Seq.tripped (q : Seq) (p : SectionParams) (reason : TripReason) : Seq :=
  { q with
    state := q.tripEnters p, expectation := .opened, breakerTimer := some p.breakerMs, attempts := q.triedAttempts
    testTimer := if countsAttempt q.state then none else q.testTimer
    stableTimer := if countsAttempt q.state then none else q.stableTimer
    recloseTimer := if q.tripEnters p = .tripped then some p.recloseMs else q.recloseTimer
    heatRequired := if q.tripEnters p = .tripped then decide (reason = .thermal) else q.heatRequired
    lastOff := if q.tripEnters p = .off then some .deenergize else q.lastOff }

/-- A section with its sequencer tripped, an OPEN placed and a LOCKOUT notice raised if the trip locks it out; the
holders are not yet revoked and the other units not yet told (R97, R98). -/
def State.tripOpened (s : State) (k : Sec) (p : SectionParams) (reason : TripReason) : State :=
  placePriority (.command k p.frontendAddr .openCmd)
    ((s.lockoutRaised ((s.sec k).seq.locksOut p) k reason (s.sec k).seq.triedAttempts).modSec k fun x =>
      { x with seq := x.seq.tripped p reason })

theorem tripOpened_sec (j : Sec) : (s.tripOpened k p reason).sec j =
    if j = k then { s.sec k with seq := (s.sec k).seq.tripped p reason } else s.sec j := by
  simp [State.tripOpened]

theorem tripOpened_active (j : Sec) : (s.tripOpened k p reason).active j = s.active j := by
  simp only [State.active, tripOpened_sec]
  split
  · rename_i h; rw [h]
  · rfl

theorem tripOpened_table : (s.tripOpened k p reason).table = s.table := by
  simp [State.tripOpened, placePriority]

theorem tripEnters_ne_live (q : Seq) (p : SectionParams) : q.tripEnters p ≠ .live := by
  unfold Seq.tripEnters
  split
  · nofun
  · split <;> nofun

/-- Only a section in DRAINING goes to OFF (R98). -/
theorem tripEnters_off {q : Seq} : q.tripEnters p = .off ↔ q.state = .draining := by
  unfold Seq.tripEnters
  split
  · simp_all
  · split <;> simp_all

/-- Only a section in DRAINING or MAINT is tripped without an attempt counted (R98). -/
theorem states_of_counts {q : Seq} (hc : countsAttempt q.state = true) : q.state ≠ .draining ∧ q.state ≠ .maint := by
  constructor <;> (intro h; simp [h, countsAttempt] at hc)

/-- The measurement unit does nothing on the notice of a trip (R29). -/
theorem measNotice_tripEnters (k : Sec) (q : Seq) (p : SectionParams) (s : State) :
    measNotice k (q.tripEnters p) s = s := by
  unfold Seq.tripEnters
  split
  · rfl
  · split <;> rfl

/-- The trip path's choice of LOCKOUT is that of an attempt counted (R97). -/
theorem locksOut_of_counts {q : Seq} (hc : countsAttempt q.state = true) :
    q.locksOut p = (!p.autoReclose || decide (p.maxAttempts < q.attempts + 1)) := by
  simp [Seq.locksOut, Seq.triedAttempts, hc, (states_of_counts hc).2]

theorem tripTarget_eq {q : Seq} (hc : countsAttempt q.state = true) :
    tripTarget (some p) (q.attempts + 1) = if q.locksOut p then .lockout else .tripped := by
  simp [tripTarget, locksOut_of_counts hc]

theorem tripEnters_of_counts {q : Seq} (hc : countsAttempt q.state = true) :
    q.tripEnters p = if q.locksOut p then .lockout else .tripped :=
  if_neg (states_of_counts hc).1

/-- The trip path: LOCKOUT leaves the reclose wait as it stands, TRIPPED begins one (R97). -/
theorem Seq.tripped_of_counts {q : Seq} (hc : countsAttempt q.state = true) : q.tripped p reason = { q with
    state := if q.locksOut p then .lockout else .tripped
    expectation := .opened, breakerTimer := some p.breakerMs, attempts := q.attempts + 1
    testTimer := none, stableTimer := none
    recloseTimer := if q.locksOut p then q.recloseTimer else some p.recloseMs
    heatRequired := if q.locksOut p then q.heatRequired else decide (reason = .thermal) } := by
  cases hl : q.locksOut p <;> simp [Seq.tripped, tripEnters_of_counts hc, hl, Seq.triedAttempts, hc]

theorem Seq.tripped_draining {q : Seq} (hd : q.state = .draining) : q.tripped p reason = { q with
    state := .off, expectation := .opened, breakerTimer := some p.breakerMs, lastOff := some .deenergize } := by
  simp [Seq.tripped, Seq.tripEnters, Seq.triedAttempts, countsAttempt, hd]

theorem Seq.tripped_maint {q : Seq} (hm : q.state = .maint) : q.tripped p reason = { q with
    state := .lockout, expectation := .opened, breakerTimer := some p.breakerMs } := by
  simp [Seq.tripped, Seq.tripEnters, Seq.locksOut, Seq.triedAttempts, countsAttempt, hm]

/-- The LOCKOUT notice may as well be raised last. -/
theorem tripOpened_eq : s.tripOpened k p reason =
    (placePriority (.command k p.frontendAddr .openCmd) (s.modSec k fun x =>
      { x with seq := x.seq.tripped p reason })).lockoutRaised ((s.sec k).seq.locksOut p) k reason
        (s.sec k).seq.triedAttempts := by
  rw [lockoutRaised_placePriority, lockoutRaised_modSec, State.tripOpened]

/-- The fourth step of the trip path on a section with a copy (R97). -/
theorem enterTripped_eq (ha : s.active k = some p) : enterTripped k reason s =
    if tripTarget (some p) (s.sec k).seq.attempts = .tripped then s.modSec k fun x => { x with
      seq := { x.seq with
        state := .tripped, recloseTimer := some p.recloseMs, heatRequired := decide (reason = .thermal) } }
    else raise (some k) (.lockout reason (s.sec k).seq.attempts)
      (s.modSec k fun x => { x with seq := { x.seq with state := .lockout } }) := by
  unfold enterTripped
  dsimp only
  rw [ha]
  split
  · rename_i h
    rw [if_pos h, startTimer_eq ha]
    rfl
  · rename_i h
    rw [if_neg h]
    rfl

/-- The trip path's first four steps (R97). -/
theorem enterTripped_opened (ha : s.active k = some p) (hc : countsAttempt (s.sec k).seq.state = true) :
    enterTripped k reason
      ((commandOpen k (s.modSeq k fun q => { q with testTimer := none, stableTimer := none })).modSeq k fun q =>
        { q with attempts := q.attempts + 1 }) = s.tripOpened k p reason := by
  have hn : (s.sec k).seq.triedAttempts = (s.sec k).seq.attempts + 1 := by simp [Seq.triedAttempts, hc]
  rw [enterTripped_eq (p := p) (by simpa [commandOpen] using ha), commandOpen_eq (p := p) (by simpa using ha)]
  simp only [State.modSeq, placePriority_modSec, State.modSec_modSec, placePriority_sec, State.modSec_sec, if_true,
    Function.comp_def, tripTarget_eq hc]
  cases hl : (s.sec k).seq.locksOut p with
  | false =>
    rw [if_neg Bool.false_ne_true, if_pos rfl, tripOpened_eq, hl, State.lockoutRaised, if_neg Bool.false_ne_true]
    exact congrArg _ (modSec_congr (by rw [Seq.tripped_of_counts hc, hl]; rfl))
  | true =>
    rw [if_pos rfl, if_neg nofun, tripOpened_eq, hl, State.lockoutRaised, if_pos rfl, hn]
    exact congrArg (fun u => raise _ _ (placePriority _ u)) (modSec_congr (by rw [Seq.tripped_of_counts hc, hl]; rfl))

/-- The trip path: the sequencer's part, the revocation, the notices (R97). -/
theorem tripPath_eq (ha : s.active k = some p) (hc : countsAttempt (s.sec k).seq.state = true) (told : ProtTold)
    (hsame : (revoke k .trip (s.tripOpened k p reason)).sections = (s.tripOpened k p reason).sections) :
    tripPath k reason told s =
      notifyState k ((s.sec k).seq.tripEnters p) .plain told (revoke k .trip (s.tripOpened k p reason)) := by
  have hstate : ((revoke k .trip (s.tripOpened k p reason)).sec k).seq.state = (s.sec k).seq.tripEnters p := by
    have hsec : (revoke k .trip (s.tripOpened k p reason)).sec k = (s.tripOpened k p reason).sec k :=
      congrArg (·[k]) hsame
    rw [hsec, tripOpened_sec, if_pos rfl]
    rfl
  unfold tripPath
  dsimp only
  rw [enterTripped_opened ha hc, hstate]

/-- A trip in DRAINING opens the section and takes it to OFF (R98). -/
theorem openedDraining_eq (ha : s.active k = some p) (hd : (s.sec k).seq.state = .draining) :
    commandOpen k (s.modSeq k fun q => { q with state := .off, lastOff := some .deenergize }) =
      s.tripOpened k p reason := by
  have hl : (s.sec k).seq.locksOut p = false := by simp [Seq.locksOut, countsAttempt, hd]
  rw [commandOpen_eq (p := p) (by simpa using ha), tripOpened_eq, hl, State.lockoutRaised, if_neg Bool.false_ne_true]
  simp only [State.modSeq, State.modSec_modSec]
  exact congrArg _ (modSec_congr (by rw [Seq.tripped_draining hd]; rfl))

/-- A trip in MAINT opens the section and takes it to LOCKOUT (R98). -/
theorem openedMaint_eq (ha : s.active k = some p) (hm : (s.sec k).seq.state = .maint) :
    raise (some k) (.lockout reason (s.sec k).seq.attempts)
      (commandOpen k (s.modSeq k fun q => { q with state := .lockout })) = s.tripOpened k p reason := by
  have hl : (s.sec k).seq.locksOut p = true := by simp [Seq.locksOut, hm]
  have hn : (s.sec k).seq.triedAttempts = (s.sec k).seq.attempts := by simp [Seq.triedAttempts, countsAttempt, hm]
  rw [commandOpen_eq (p := p) (by simpa using ha), tripOpened_eq, hl, State.lockoutRaised, if_pos rfl, hn]
  simp only [State.modSeq, State.modSec_modSec]
  exact congrArg (fun u => raise _ _ (placePriority _ u)) (modSec_congr (by rw [Seq.tripped_maint hm]; rfl))

/-- A trip in any energised state: the sequencer's part, the revocation, the notices (R96 to R98). -/
theorem tripByState_eq (ha : s.active k = some p) (he : energisedState (s.sec k).seq.state)
    (hsame : (revoke k .trip (s.tripOpened k p reason)).sections = (s.tripOpened k p reason).sections) :
    tripByState k reason s =
      notifyState k ((s.sec k).seq.tripEnters p) .plain .byAnswer (revoke k .trip (s.tripOpened k p reason)) := by
  have hpath : countsAttempt (s.sec k).seq.state = true → tripPath k reason .byAnswer s = _ := fun hc =>
    tripPath_eq ha hc .byAnswer hsame
  unfold tripByState
  rcases he with h | h | h | h | h <;> simp only [h]
  · exact hpath (by rw [h]; rfl)
  · exact hpath (by rw [h]; rfl)
  · exact hpath (by rw [h]; rfl)
  · rw [tripEnters_off.mpr h, ← openedDraining_eq ha h]
    rfl
  · have henters : (s.sec k).seq.tripEnters p = .lockout := by simp [Seq.tripEnters, Seq.locksOut, h]
    rw [henters, ← openedMaint_eq ha h]
    rfl

/-! ## TRIP_REQUEST (R96) -/

/-- What an acted trip makes of its section: the sequencer tripped, one trip counted and the admission unit told; the
protection unit waits for the answer (R85, R96 to R98, R132). -/
def Section.tripActed (x : Section) (p : SectionParams) (reason : TripReason) : Section :=
  { x with
    seq := x.seq.tripped p reason
    acc := { x.acc with books := { x.acc.books with trips := min 255 (x.acc.books.trips + 1) } }
    adm := { x.adm with
      view := x.seq.tripEnters p, bEff := 0, stall := if x.seq.state = .draining then false else x.adm.stall } }

/-- The state after an acted trip, but for its answer: the holders revoked and the section as its units leave it. -/
def State.tripActed (s : State) (k : Sec) (p : SectionParams) (reason : TripReason) : State :=
  (revoke k .trip (s.tripOpened k p reason)).modSec k fun _ => (s.sec k).tripActed p reason

/-- Without a truck in HANDOVER the revocation of a trip changes trucks and the priority lane alone (R97, R149). -/
theorem tripOpened_revoked (ha : s.noHandover) :
    Revoked k p s (s.tripOpened k p reason) (revoke k .trip (s.tripOpened k p reason)) := by
  refine revoke_revoked (fun i => ?_) tripOpened_table ?_ tripOpened_active (mem_placeIn_self _ _ _)
  · simpa only [State.pantoOf, State.truck, tripOpened_table] using ha.1 i
  · rw [tripOpened_sec, if_pos rfl]

/-- Without a truck in HANDOVER an acted trip changes no other section. -/
theorem tripActed_sec (hn : s.noHandover) (j : Sec) : (s.tripActed k p reason).sec j =
    if j = k then (s.sec k).tripActed p reason else s.sec j := by
  have hsec : (revoke k .trip (s.tripOpened k p reason)).sec j = (s.tripOpened k p reason).sec j :=
    congrArg (·[j]) (tripOpened_revoked hn).sections
  rw [State.tripActed, State.modSec_sec, hsec, tripOpened_sec]
  split <;> rfl

/-- The sequencer's trip, with the trip counted (R96 to R98, R149). -/
theorem tripActed_eq (ha : s.active k = some p) (hn : s.noHandover) (he : energisedState (s.sec k).seq.state)
    (hq : (s.sec k).seq.state = .draining → (s.sec k).adm.queue = []) :
    countTrip k (tripByState k reason s) = s.tripActed k p reason := by
  have hsame : (revoke k .trip (s.tripOpened k p reason)).sections = (s.tripOpened k p reason).sections :=
    (tripOpened_revoked hn).sections
  have hsec : (revoke k .trip (s.tripOpened k p reason)).sec k =
      { s.sec k with seq := (s.sec k).seq.tripped p reason } := calc
    _ = (s.tripOpened k p reason).sec k := congrArg (·[k]) hsame
    _ = _ := (tripOpened_sec k).trans (if_pos rfl)
  have hadm : ((revoke k .trip (s.tripOpened k p reason)).sec k).adm = (s.sec k).adm := by rw [hsec]
  rw [tripByState_eq ha he hsame]
  show countTrip k (admNotice k _ .plain (measNotice k ((s.sec k).seq.tripEnters p) _)) = _
  rw [measNotice_tripEnters, admNotice_ordinary (by rw [hadm]; exact hn.2 k) (tripEnters_ne_live _ p) fun h => by
    rw [hadm]; exact hq (tripEnters_off.mp h)]
  unfold countTrip State.modAcc State.tripActed
  rw [State.modSec_modSec]
  refine modSec_congr ?_
  simp only [Function.comp_def, hsec, Section.tripActed, tripEnters_off]

theorem energised_eq_true {st : SecState} (h : energisedState st) : energised st = true := by
  rcases h with h | h | h | h | h <;> rw [h] <;> rfl

theorem energised_eq_false {st : SecState} (h : st = .off ∨ st = .tripped ∨ st = .lockout) : energised st = false := by
  rcases h with h | h | h <;> rw [h] <;> rfl

/-- TRIP_REQUEST in an energised state (R96 to R98). -/
theorem takeTripRequest_acted (r : TripRequest) (ha : s.active k = some p) (hn : s.noHandover)
    (he : energisedState (s.sec k).seq.state) (hq : (s.sec k).seq.state = .draining → (s.sec k).adm.queue = []) :
    takeTripRequest k r s =
      hand (.tripAnswer k r (.acted ((s.sec k).seq.tripEnters p))) (s.tripActed k p r.reason) := by
  unfold takeTripRequest
  simp only [energised_eq_true he, if_true, tripActed_eq ha hn he hq]
  rw [tripActed_sec hn, if_pos rfl]
  rfl

/-- TRIP_REQUEST in OFF, TRIPPED or LOCKOUT (R96). -/
theorem takeTripRequest_ignored (r : TripRequest)
    (h : (s.sec k).seq.state = .off ∨ (s.sec k).seq.state = .tripped ∨ (s.sec k).seq.state = .lockout) :
    takeTripRequest k r s = hand (.tripAnswer k r .ignored) s := by
  unfold takeTripRequest
  rw [energised_eq_false h, if_neg Bool.false_ne_true]

/-- Beside trucks and the priority lane, an acted trip is its section's change and the LOCKOUT notice (R96 to R98,
R149). -/
theorem tripActed_revoked (hn : s.noHandover) : Revoked k p s
    ((s.lockoutRaised ((s.sec k).seq.locksOut p) k reason (s.sec k).seq.triedAttempts).modSec k fun x =>
      x.tripActed p reason) (s.tripActed k p reason) := by
  have hset : ((s.lockoutRaised ((s.sec k).seq.locksOut p) k reason (s.sec k).seq.triedAttempts).modSec k fun x =>
      { x with seq := x.seq.tripped p reason }).modSec k (fun _ => (s.sec k).tripActed p reason) =
      (s.lockoutRaised ((s.sec k).seq.locksOut p) k reason (s.sec k).seq.triedAttempts).modSec k fun x =>
        x.tripActed p reason := by
    rw [State.modSec_modSec]
    exact modSec_congr (by rw [lockoutRaised_sec]; rfl)
  have h := (tripOpened_revoked (k := k) (p := p) (reason := reason) hn).modSec ((s.sec k).tripActed p reason)
  rw [State.tripOpened, placePriority_modSec, hset] at h
  exact h.unplaced

theorem lowered_take {c : Instr} {ids : List Nat} {reason : LowerReason} :
    Lowered ids reason (take c s) t ↔ Lowered ids reason s t := by
  simp only [Lowered, State.truck, State.classOf, take_table]

theorem lowersSent_take {c : Instr} {ids : List Nat} {reason : LowerReason} :
    LowersSent ids reason (take c s) t ↔ LowersSent ids reason s t := by
  simp only [LowersSent, State.truck, take_table, take_active]

theorem noHandover_take {c : Instr} (h : s.noHandover) : (take c s).noHandover :=
  ⟨by simpa [State.pantoOf, State.truck] using h.1, by simpa using h.2⟩

/-! ## TRIP_ANSWER (R74, R76) -/

/-- The protection unit told of a state in which the section is not energised, where the budget is 0 before it (R58). -/
theorem protNotice_off {st : SecState} (hst : st = .off ∨ st = .tripped ∨ st = .lockout)
    (hview : (s.sec k).adm.view ≠ .live) (hbudget : (s.sec k).adm.bEff = 0) :
    protNotice k st s = s.modSec k fun x => { x with
      prot := { x.prot with view := st, undervolt := x.prot.undervolt && x.prot.view != .live } } := by
  have htesting : st ≠ .testing := by rintro rfl; simp at hst
  have hlive : st ≠ .live := by rintro rfl; simp at hst
  unfold protNotice State.modProt
  dsimp only
  rw [if_neg htesting]
  split
  · rename_i h
    rw [State.modSec_modSec, recompute_eq (by simpa using hview), State.modSec_modSec]
    refine modSec_congr ?_
    simp [← hbudget, h.1]
  · rename_i h
    refine modSec_congr ?_
    cases hu : (s.sec k).prot.undervolt <;> simp_all

/-- An acted answer (R58, R74, R76). -/
theorem takeAnswer_acted {st : SecState} (r : TripRequest) (hst : st = .off ∨ st = .tripped ∨ st = .lockout)
    (hview : (s.sec k).adm.view ≠ .live) (hbudget : (s.sec k).adm.bEff = 0) :
    takeAnswer k r (.acted st) s = raise (some k) (.trip r.reason r.seq r.cause) (s.modSec k fun x => { x with
      prot := { x.prot with
        view := st, outstanding := false, undervolt := x.prot.undervolt && x.prot.view != .live
        record := recordAnswer r (.acted st) x.prot.record } }) := by
  unfold takeAnswer
  dsimp only
  rw [protNotice_off hst (by simpa using hview) (by simpa using hbudget)]
  rw [if_neg (by simp)]
  unfold State.modProt
  rw [State.modSec_modSec]
  rfl

/-! ## TEST_TIMER_EXPIRY (R93) -/

/-- The notices of a change of a section that is not LIVE to CLOSING, TRIPPED or LOCKOUT (R85, R132). -/
theorem notifyState_eq {new : SecState} (hadm : (s.sec k).adm.view ≠ .live) (hprot : (s.sec k).prot.view ≠ .live)
    (hnew : new = .closing ∨ new = .tripped ∨ new = .lockout) :
    notifyState k new .plain .byNotice s = s.modSec k fun x => { x with
      prot := { x.prot with view := new }, adm := { x.adm with view := new, bEff := 0 } } := by
  have hmeas : measNotice k new s = s := by rcases hnew with rfl | rfl | rfl <;> rfl
  have hlive : new ≠ .live := by rintro rfl; simp at hnew
  have hoff : new ≠ .off := by rintro rfl; simp at hnew
  have htesting : new ≠ .testing := by rintro rfl; simp at hnew
  unfold notifyState
  dsimp only
  rw [hmeas, admNotice_eq (fun _ => hadm) hlive (fun _ => hoff), protNotice_eq (.inl (by simpa using hprot)),
    State.modSec_modSec]
  simp only [if_neg htesting, Function.comp_def]

/-- A passed line test of a told section in TESTING (R85, R93). -/
theorem lineTestPasses_eq (ha : s.active k = some p) (ht : s.told k) (hst : (s.sec k).seq.state = .testing) :
    lineTestPasses k s = placePriority (.command k p.frontendAddr .closeCmd) (s.modSec k fun x => { x with
      seq := { x.seq with state := .closing, expectation := .closed, breakerTimer := some p.breakerMs }
      prot := { x.prot with view := .closing }
      adm := { x.adm with view := .closing, bEff := 0 } }) := by
  obtain ⟨hadm, hprot⟩ := views_ne_live ht (by rw [hst]; nofun)
  unfold lineTestPasses State.modSeq
  rw [notifyState_eq (by simpa using hadm) (by simpa using hprot) (.inl rfl), startTimer_eq ha, State.modSec_modSec,
    placeCommand_eq (p := p)]
  · rfl
  · refine (State.modSec_active s k k ?_).trans ha
    rfl

/-- The trip record a failed line test fills an absent one with (R77). -/
def Section.lineRecord (x : Section) : TripRecord :=
  { reason := .lineTest, iCorr := x.prot.last.map (·.iCorr), vAvg := x.prot.last.map (·.vAvg)
    seq := x.prot.last.map (·.seq), heat := x.acc.heat, more := false }

/-- What a failed line test makes of its section (R58, R77, R93, R97, R132). -/
def Section.lineFailed (x : Section) (p : SectionParams) : Section :=
  { x with
    seq := x.seq.tripped p .lineTest
    acc := { x.acc with books := { x.acc.books with trips := min 255 (x.acc.books.trips + 1) } }
    prot := { x.prot with
      view := x.seq.tripEnters p
      record := recordTrip x.lineRecord x.prot.record }
    adm := { x.adm with view := x.seq.tripEnters p, bEff := 0 } }

theorem lineTestReport_eq (k : Sec) (s : State) : lineTestReport k s = s.modSec k fun x => { x with
    prot := { x.prot with record := recordTrip x.lineRecord x.prot.record } } := by
  unfold lineTestReport State.modProt
  exact modSec_congr rfl

theorem lineTestReport_seq (k : Sec) (s : State) : ((lineTestReport k s).sec k).seq = (s.sec k).seq := by
  rw [lineTestReport_eq, State.modSec_sec, if_pos rfl]

/-- The section of a failed line test once it is opened, before its units are told. -/
theorem tripOpened_lineTest_sec : ((lineTestReport k s).tripOpened k p .lineTest).sec k = { s.sec k with
    prot := { (s.sec k).prot with record := recordTrip (s.sec k).lineRecord (s.sec k).prot.record }
    seq := (s.sec k).seq.tripped p .lineTest } := by
  rw [tripOpened_sec, if_pos rfl, lineTestReport_eq, State.modSec_sec, if_pos rfl]

/-- The trip path of a failed line test where no holder is to be lowered (R97, R149). -/
theorem tripPath_lineTest (ha : s.active k = some p) (ht : s.told k) (hst : (s.sec k).seq.state = .testing)
    (hh : ∀ i ∈ (s.sec k).adm.holders, s.pantoOf i = some .lowering) :
    tripPath k .lineTest .byNotice (lineTestReport k s) =
      ((lineTestReport k s).tripOpened k p .lineTest).modSec k fun x => { x with
        prot := { x.prot with view := (s.sec k).seq.tripEnters p }
        adm := { x.adm with view := (s.sec k).seq.tripEnters p, bEff := 0 } } := by
  obtain ⟨hadm, hprot⟩ := views_ne_live ht (by rw [hst]; nofun)
  have hcount : countsAttempt (s.sec k).seq.state = true := by rw [hst]; rfl
  have henters : (s.sec k).seq.tripEnters p = .tripped ∨ (s.sec k).seq.tripEnters p = .lockout := by
    rw [tripEnters_of_counts hcount]
    cases (s.sec k).seq.locksOut p
    · exact .inl rfl
    · exact .inr rfl
  have hrevoke : revoke k .trip ((lineTestReport k s).tripOpened k p .lineTest) =
      (lineTestReport k s).tripOpened k p .lineTest := by
    refine revoke_lowering fun i hi => ?_
    rw [tripOpened_lineTest_sec] at hi
    simpa [State.pantoOf, State.truck, tripOpened_table, lineTestReport] using hh i hi
  have hactive : (lineTestReport k s).active k = some p := by simpa [lineTestReport] using ha
  rw [tripPath_eq hactive (by rw [lineTestReport_seq]; exact hcount) .byNotice (congrArg State.sections hrevoke),
    hrevoke, lineTestReport_seq, notifyState_eq (by rw [tripOpened_lineTest_sec]; exact hadm)
      (by rw [tripOpened_lineTest_sec]; exact hprot) (.inr henters)]

/-- A failed line test of a told section in TESTING whose holders are all in LOWERING (R77, R93, R97, R149). -/
theorem lineTestFails_eq (ha : s.active k = some p) (ht : s.told k) (hst : (s.sec k).seq.state = .testing)
    (hh : ∀ i ∈ (s.sec k).adm.holders, s.pantoOf i = some .lowering) (v : Nat) :
    lineTestFails k v p s = raise (some k) (.lineTestFail v p.testPass ((s.sec k).seq.attempts + 1))
      ((placePriority (.command k p.frontendAddr .openCmd) (s.modSec k fun x => x.lineFailed p)).lockoutRaised
        ((s.sec k).seq.locksOut p) k .lineTest ((s.sec k).seq.attempts + 1)) := by
  have htried : (s.sec k).seq.triedAttempts = (s.sec k).seq.attempts + 1 := if_pos (by rw [hst]; rfl)
  have hfailed : countTrip k (tripPath k .lineTest .byNotice (lineTestReport k s)) =
      (placePriority (.command k p.frontendAddr .openCmd) (s.modSec k fun x => x.lineFailed p)).lockoutRaised
        ((s.sec k).seq.locksOut p) k .lineTest ((s.sec k).seq.attempts + 1) := by
    rw [tripPath_lineTest ha ht hst hh, tripOpened_eq, lineTestReport_seq, htried, lineTestReport_eq]
    unfold countTrip State.modAcc
    rw [← lockoutRaised_modSec, ← lockoutRaised_modSec, placePriority_modSec, placePriority_modSec]
    simp only [State.modSec_modSec]
    exact congrArg (fun u : State => (placePriority _ u).lockoutRaised _ k _ _) (modSec_congr rfl)
  unfold lineTestFails
  dsimp only
  rw [hfailed, lockoutRaised_sec, placePriority_sec, State.modSec_sec, if_pos rfl, ← htried]
  rfl

/-- A test timer that does not run does not expire. -/
theorem testExpires_idle (h : (s.sec k).seq.testTimer = none) : testExpires k s = s := by
  unfold testExpires
  dsimp only
  rw [if_pos (by rw [h]; rfl)]

/-- The section with its test timer stopped. -/
def State.testStopped (s : State) (k : Sec) : State := s.modSeq k fun q => { q with testTimer := none }

@[simp] theorem testStopped_sec (s : State) (k : Sec) :
    (s.testStopped k).sec k = { s.sec k with seq := { (s.sec k).seq with testTimer := none } } := by
  simp [State.testStopped]

@[simp] theorem testStopped_active (s : State) (k : Sec) : (s.testStopped k).active k = s.active k := by
  simp [State.testStopped]

theorem testStopped_modSec (s : State) (k : Sec) (f : Section → Section) : (s.testStopped k).modSec k f =
    s.modSec k fun x => f { x with seq := { x.seq with testTimer := none } } := State.modSec_modSec ..

/-- The line test is judged at the expiry by the voltage average (R93). -/
theorem testExpires_eq (ha : s.active k = some p) (ht : (s.sec k).seq.testTimer ≠ none)
    (hst : (s.sec k).seq.state = .testing) : testExpires k s =
      if p.testPass ≤ (s.sec k).meas.voltages.sum / 8 then lineTestPasses k (s.testStopped k)
      else lineTestFails k ((s.sec k).meas.voltages.sum / 8) p (s.testStopped k) := by
  unfold testExpires
  dsimp only
  rw [if_neg (by simpa using ht), ha]
  dsimp only
  rw [if_neg (by simp [hst])]
  rfl

end Sys2Proof.Machine

open Sys2Proof Sys2Proof.Machine

/-- Settles O53: each energised state's trip is the sequencer's part, the revocation and the notices, with the answer
handed over; the answer is the protection unit's notice. -/
theorem tripRequestTaken : Obligations.TripRequestTaken := by
  intro s k r
  refine ⟨rfl, fun st hst hview hbudget => ?_, fun hst => ?_, fun p ha _ hn he hq => ?_⟩
  · refine congrArg _ ((takeAnswer_acted r hst (by simpa using hview) (by simpa using hbudget)).trans ?_)
    refine congrArg _ (modSec_congr ?_)
    cases ((take (.tripAnswer k r (.acted st)) s).sec k).prot.record <;> rfl
  · exact congrArg Host.Outcome.next (takeTripRequest_ignored r (by simpa using hst))
  · have hn' := noHandover_take (c := .tripRequest k r) hn
    have htaken := takeTripRequest_acted (s := take (.tripRequest k r) s) (k := k) (p := p) r (by simpa using ha) hn'
      (by simpa using he) (by simpa using hq)
    obtain ⟨hrest, hopened, hlowered, hsent⟩ := tripActed_revoked (k := k) (p := p) (reason := r.reason) hn'
    have hsec := tripActed_sec (k := k) (p := p) (reason := r.reason) hn'
    rw [take_sec] at htaken hrest hlowered hsent
    generalize (take (.tripRequest k r) s).tripActed k p r.reason = u at htaken hrest hopened hlowered hsent hsec
    refine ⟨_, congrArg Host.Outcome.next htaken, ?_, fun j => (hsec j).trans ?_, lowered_take.mp hlowered, hopened, ?_⟩
    · refine (congrArg (fun v : State => { hand _ v with sections := u.sections }) hrest).trans ?_
      rw [State.modSec_table, lockoutRaised_table, take_table]
      rfl
    · rw [take_sec, take_sec]
      rfl
    · exact lowersSent_take.mp hsent

/-- Settles O52: a passed test is the notices and CLOSE, a failed one the trip path without a holder to lower. -/
theorem testTimerExpires : Obligations.TestTimerExpires := by
  intro s k p ha x vAvg attempts locked target
  refine ⟨fun hnone => congrArg Host.Outcome.next (testExpires_idle hnone), fun hsome hst ht hh => ?_⟩
  have hjudged := testExpires_eq ha hsome hst
  have ha' : (s.testStopped k).active k = some p := by simpa using ha
  have ht' : (s.testStopped k).told k := by simpa [State.told] using ht
  have hst' : ((s.testStopped k).sec k).seq.state = .testing := by simpa using hst
  refine ⟨fun hpass => congrArg Host.Outcome.next ?_, fun hfail => congrArg Host.Outcome.next ?_⟩
  · rw [hjudged, if_pos hpass, lineTestPasses_eq ha' ht' hst', testStopped_modSec]
  · have hh' : ∀ i ∈ ((s.testStopped k).sec k).adm.holders, (s.testStopped k).pantoOf i = some .lowering := by
      rw [testStopped_sec]; exact hh
    have hcount : countsAttempt ((s.testStopped k).sec k).seq.state = true := by rw [hst']; rfl
    have hlocked : ((s.testStopped k).sec k).seq.locksOut p = locked :=
      (locksOut_of_counts hcount).trans (by rw [testStopped_sec])
    rw [hjudged, if_neg (Nat.not_le.mpr hfail), lineTestFails_eq ha' ht' hst' hh', hlocked, testStopped_modSec]
    rw [testStopped_sec] at hcount hlocked ⊢
    refine congrArg (fun u : State => raise (some k) (.lineTestFail vAvg p.testPass attempts)
      ((placePriority _ u).lockoutRaised locked k .lineTest attempts)) (modSec_congr ?_)
    rw [Section.lineFailed, Seq.tripped_of_counts hcount, tripEnters_of_counts hcount, hlocked]
    dsimp only
    cases (s.sec k).prot.record <;> rfl

end
